-- ==== Sys2Proof/Word.lean ====
section
/-! DEFINITION. The word types of the block (`00_scope.md` R10, R12) and nothing else: every width the
spec fixes, as an abbreviation, so that the library's `BitVec` lemmas apply. -/

namespace Sys2Proof

/-- A byte of memory, 8 bits (R80). -/
abbrev Byte := BitVec 8

/-- XLEN = ADDR_W = 32: an address, a `pc`, `spec`, `next`, `real`, an immediate, CSR data (R10, D1). -/
abbrev Addr := BitVec 32

/-- WORD_W = 32: one SMA beat and one store-queue data word (R10). -/
abbrev Word := BitVec 32

/-- DATA_W = 64: an operand value, `op1`, `readResult`, a result word (R10, D1). -/
abbrev Data := BitVec 64

/-- ROB_RECEIPT_W = 32: the ROB receipt `{row[30:0], slot}`, also every broadcast tag (R10, D43). -/
abbrev RobReceipt := BitVec 32

/-- ROB_ROW_W = 31: the retirement receipt, a ROB row index (R10, R402). -/
abbrev RobRow31 := BitVec 31

/-- A store-queue receipt, "an opaque small integer handle" (R19) below `2 ^ SQ_ID_W` (R10, D43). -/
abbrev SqReceipt := Nat

/-- EXC_CODE_W = 4: an exception code (R460, D6). -/
abbrev ExcCode := BitVec 4

/-- CSR_ADDR_W = 12: the CSR address of an execute result (R10, D49). -/
abbrev CsrAddress := BitVec 12

/-- The 5-bit register number of an instruction word (R136); the block never sees one (R31). -/
abbrev RegNum := BitVec 5

end Sys2Proof
end

