-- ==== Sys2Proof/Config.lean ====
section
/-! DEFINITION. The parameters of the block that `00_scope.md` R10 marks `param` ("an argument of the
model"). They are a field of `State` that no step changes, so that every statement about every state
holds for every value of every parameter. The model needs no uninterpreted constant: a value the spec
leaves open is either not there at all (the payload of a port whose `valid` is low is `none`) or an
input the environment shows (`Machine.EnvInput`). -/

namespace Sys2Proof

/-- A parameter that must be at least 1. R11: a depth that is not a positive integer is "rejected at
construction", and a model "has no state with a bad depth". -/
abbrev Positive := { n : Nat // 0 < n }

/-- `RW_ARB_PORT` in `{1, 2}` (R10, R178, D23): the arbiter input the ReadWrite stage drives. -/
inductive ArbPort where
  | port1
  | port2
  deriving DecidableEq, Repr

/-- The parameters of R10 marked `param`, and the number of execute queues beside the memory queue
("Any number of further execute queues, of either variant", R22). -/
structure Params where
  /-- `NB`, lanes of the data-broadcast bus (R45, R336, D25). -/
  nb : Positive
  /-- `IQ_DEPTH`, entries of an in-order execute queue (R57, R337, D28). -/
  iqDepth : Positive
  /-- `OOQ_DEPTH`, cells of an out-of-order execute queue (R58, R337, D29). -/
  ooqDepth : Positive
  /-- `SQ_ID_W`, width of a store-queue receipt (R10, D43). -/
  sqIdW : Positive
  /-- `RW_ARB_PORT` (R178, D23). -/
  rwArbPort : ArbPort
  /-- How many in-order queues there are beside the memory queue (R22). -/
  inOrderQueues : Nat
  /-- How many out-of-order queues there are (R22). -/
  outOfOrderQueues : Nat
  deriving DecidableEq, Repr

/-- The values of the parameters at reset: `NB = 1`, `IQ_DEPTH = 4`, `RW_ARB_PORT = 1` are ENV0's
(`95_test_vectors.md` section 0); the others are the model's DESIGN CHOICE (assumption log 2).
No statement rests on them. -/
def Params.default : Params where
  nb := ⟨1, by decide⟩
  iqDepth := ⟨4, by decide⟩
  ooqDepth := ⟨2, by decide⟩
  sqIdW := ⟨4, by decide⟩
  rwArbPort := .port1
  inOrderQueues := 1
  outOfOrderQueues := 1

end Sys2Proof
end

