-- ==== Sys2Proof/Syntax.lean ====
section
/-! DEFINITION. The enumerations of `30_encoding.md` R130 to R134, each with exactly the spec's names in
the order R131 numbers them from 0, and `Instr`, one constructor per row of `spec/opcode_table.json`. -/

namespace Sys2Proof

/-- R132: "the format class of the instruction as the decoder determined it". -/
inductive InstructionType where
  | UNK | R | R4 | I | S | B | U | J
  deriving DecidableEq, Repr

/-- R133: the 22 memory operations; `undefined` is "the unknown sentinel". -/
inductive MemOp where
  | lb | lh | lw | ld | lbu | lhu | sb | sh | sw | sd | lr | sc | amoswap | amoadd
  | amoxor | amoand | amoor | amomin | amomax | amominu | amomaxu | undefined
  deriving DecidableEq, Repr

/-- R134: the tag an entry carries through the memory pipeline. -/
inductive MemoryErrorCode where
  | none | misaligned | pageFault | memoryFault
  deriving DecidableEq, Repr

/-- R81, R90, R131: `readType` and `writeType`, `{byte, half, word}`. -/
inductive BeatType where
  | byte | half | word
  deriving DecidableEq, Repr

/-- The register fields and the 12-bit displacement of a type `I` load (R136, R137). -/
structure LoadFields where
  rd : RegNum
  rs1 : RegNum
  imm : BitVec 12
  deriving DecidableEq, Repr

/-- The register fields and the 12-bit displacement of a type `S` store (R136, R137). -/
structure StoreFields where
  rs1 : RegNum
  rs2 : RegNum
  imm : BitVec 12
  deriving DecidableEq, Repr

/-- The fields of a type `R` atomic other than its funct5 (R136). `func3`, `aq`, `rl` and, for `lr`,
`rs2` are carried and ignored by the block (R143); in a word of a row `func3` is 010 and the `rs2` of an `lr`
is 0 (R149, `WellFormed`). -/
structure AtomicFields where
  rd : RegNum
  rs1 : RegNum
  rs2 : RegNum
  func3 : BitVec 3
  aq : Bool
  rl : Bool
  deriving DecidableEq, Repr

/-- The fields of a `fence.i` word (table row `fence.i`): the letters `i`, `s`, `d`. -/
structure FenceFields where
  rd : RegNum
  rs1 : RegNum
  imm : BitVec 12
  deriving DecidableEq, Repr

/-- The fields of a `sfence.vma` word (table row `sfence.vma`): address and ASID registers. -/
structure SfenceFields where
  rs1 : RegNum
  rs2 : RegNum
  deriving DecidableEq, Repr

/-- The fields of a CSR word with a register source (letters `c`, `s`, `d` of the table). -/
structure CsrFields where
  rd : RegNum
  rs1 : RegNum
  csr : CsrAddress
  deriving DecidableEq, Repr

/-- The fields of a CSR word with an immediate source (letters `c`, `u`, `d` of the table). -/
structure CsrImmFields where
  rd : RegNum
  uimm : BitVec 5
  csr : CsrAddress
  deriving DecidableEq, Repr

/-- The instructions: one constructor per row of `spec/opcode_table.json`, in the table's order.
`undefined` keeps the word the memory queue was given, because no field of it is named (R142). -/
inductive Instr where
  | lb (f : LoadFields)
  | lh (f : LoadFields)
  | lw (f : LoadFields)
  | ld (f : LoadFields)
  | lbu (f : LoadFields)
  | lhu (f : LoadFields)
  | sb (f : StoreFields)
  | sh (f : StoreFields)
  | sw (f : StoreFields)
  | sd (f : StoreFields)
  | lrW (f : AtomicFields)
  | scW (f : AtomicFields)
  | amoswapW (f : AtomicFields)
  | amoaddW (f : AtomicFields)
  | amoxorW (f : AtomicFields)
  | amoandW (f : AtomicFields)
  | amoorW (f : AtomicFields)
  | amominW (f : AtomicFields)
  | amomaxW (f : AtomicFields)
  | amominuW (f : AtomicFields)
  | amomaxuW (f : AtomicFields)
  | undefined (word : BitVec 32)
  | fenceI (f : FenceFields)
  | sfenceVma (f : SfenceFields)
  | mret
  | sret
  | csrrw (f : CsrFields)
  | csrrs (f : CsrFields)
  | csrrc (f : CsrFields)
  | csrrwi (f : CsrImmFields)
  | csrrsi (f : CsrImmFields)
  | csrrci (f : CsrImmFields)
  deriving DecidableEq, Repr

end Sys2Proof
end

