-- ==== Sys2Proof/Decode.lean ====
section
/-! DEFINITION. Layer 1 and layer 2 of `30_encoding.md`: `decodeOp` (R138) selects a memory operation
from the fields of an Execute Entry; `decodeWord` and `decodeBytes` go from an instruction word to an
`Instr`, and `encode` goes back. Layer 2 is the RISC-V ISA's (R136, R139, "from general knowledge, not
in source"): PRESUMED, assumption log 3. -/

namespace Sys2Proof

/-! ## Fields of a word (R136) -/

/-- The six fields every 32-bit format shares (R136): bits 6..0, 11..7, 14..12, 19..15, 24..20, 31..25. -/
structure Fields where
  opcode : BitVec 7
  rd : BitVec 5
  func3 : BitVec 3
  rs1 : BitVec 5
  rs2 : BitVec 5
  func7 : BitVec 7
  deriving DecidableEq, Repr

/-- The fields of a word (R136). -/
def Fields.ofWord (w : BitVec 32) : Fields where
  opcode := w.extractLsb' 0 7
  rd := w.extractLsb' 7 5
  func3 := w.extractLsb' 12 3
  rs1 := w.extractLsb' 15 5
  rs2 := w.extractLsb' 20 5
  func7 := w.extractLsb' 25 7

/-- The word of six fields (R136). -/
def Fields.toWord (f : Fields) : BitVec 32 :=
  f.func7 ++ f.rs2 ++ f.rs1 ++ f.func3 ++ f.rd ++ f.opcode

/-- The 12-bit displacement of an I-format word, `word[31:20]` (R137). -/
def Fields.immI (f : Fields) : BitVec 12 := f.func7 ++ f.rs2

/-- The 12-bit displacement of an S-format word, `{word[31:25], word[11:7]}` (R137). -/
def Fields.immS (f : Fields) : BitVec 12 := f.func7 ++ f.rd

/-! ## Layer 1: the Decode stage's selection (R138) -/

/-- The loads, by `func3` (R138, R139). -/
def decodeLoad (func3 : BitVec 3) : MemOp :=
  match func3 with
  | 0b000#3 => .lb
  | 0b001#3 => .lh
  | 0b010#3 => .lw
  | 0b011#3 => .ld
  | 0b100#3 => .lbu
  | 0b101#3 => .lhu
  | _ => .undefined

/-- The stores, by `func3` (R138, R139). -/
def decodeStore (func3 : BitVec 3) : MemOp :=
  match func3 with
  | 0b000#3 => .sb
  | 0b001#3 => .sh
  | 0b010#3 => .sw
  | 0b011#3 => .sd
  | _ => .undefined

/-- The atomics, by `func7[6:2]` (R138, R139). -/
def decodeAtomic (funct5 : BitVec 5) : MemOp :=
  match funct5 with
  | 0b00010#5 => .lr
  | 0b00011#5 => .sc
  | 0b00001#5 => .amoswap
  | 0b00000#5 => .amoadd
  | 0b00100#5 => .amoxor
  | 0b01100#5 => .amoand
  | 0b01000#5 => .amoor
  | 0b10000#5 => .amomin
  | 0b10100#5 => .amomax
  | 0b11000#5 => .amominu
  | 0b11100#5 => .amomaxu
  | _ => .undefined

/-- `func7[6:2]`, the funct5 field (R136). -/
def funct5 (func7 : BitVec 7) : BitVec 5 := func7.extractLsb' 2 5

/-- R138: the operation the Decode stage selects. `func7[1:0]` and, for type `R`, `func3` are ignored
(R143). -/
def decodeOp (t : InstructionType) (func3 : BitVec 3) (func7 : BitVec 7) : MemOp :=
  match t with
  | .I => decodeLoad func3
  | .S => decodeStore func3
  | .R => decodeAtomic (funct5 func7)
  | _ => .undefined

/-! ## Layer 2: from instruction words (R139, R149) -/

/-- What a 32-bit word is. -/
inductive Decoded where
  /-- An instruction of the opcode table. -/
  | instr (i : Instr)
  /-- A word of a functional unit outside the block that has no row in the opcode table: integer and M
  arithmetic, branches, jumps, R4-type and floating-point words, `ecall`, `ebreak`, plain `fence` and
  the other system words (R4, R35, R139, R453, R454). "Words of other functional units never come"
  to the memory queue (table row `undefined`). `Machine.step` runs such a word as an execute result. -/
  | otherUnit (word : BitVec 32)
  deriving DecidableEq, Repr

/-- Why a sequence of bytes is no instruction word. -/
inductive DecodeError where
  /-- Fewer than the four bytes of R136. -/
  | truncated
  deriving DecidableEq, Repr

/-- The major opcodes of the memory queue, with the type the decoder gives them (R139). -/
def memoryType (opcode : BitVec 7) : Option InstructionType :=
  match opcode with
  | 0b0000011#7 => some .I
  | 0b0100011#7 => some .S
  | 0b0101111#7 => some .R
  | _ => none

/-- The major opcodes of the functional units outside the block (R4, R35, R139, R453, R454): OP-IMM,
AUIPC, OP-IMM-32, OP, LUI, OP-32, BRANCH, JALR, JAL, LOAD-FP, STORE-FP, the four R4-type opcodes,
OP-FP, MISC-MEM and SYSTEM. PRESUMED (RISC-V's base opcode map), assumption log 3. -/
def isOtherUnit (opcode : BitVec 7) : Bool :=
  match opcode with
  | 0b0010011#7 => true
  | 0b0010111#7 => true
  | 0b0011011#7 => true
  | 0b0110011#7 => true
  | 0b0110111#7 => true
  | 0b0111011#7 => true
  | 0b1100011#7 => true
  | 0b1100111#7 => true
  | 0b1101111#7 => true
  | 0b0000111#7 => true
  | 0b0100111#7 => true
  | 0b1000011#7 => true
  | 0b1000111#7 => true
  | 0b1001011#7 => true
  | 0b1001111#7 => true
  | 0b1010011#7 => true
  | 0b0001111#7 => true
  | 0b1110011#7 => true
  | _ => false

/-- The operand fields of a load word (R136, R137). -/
def Fields.load (f : Fields) : LoadFields := { rd := f.rd, rs1 := f.rs1, imm := f.immI }

/-- The operand fields of a store word (R136, R137). -/
def Fields.store (f : Fields) : StoreFields := { rs1 := f.rs1, rs2 := f.rs2, imm := f.immS }

/-- The operand fields of an atomic word: `func7[1]` is `aq`, `func7[0]` is `rl` (R136). -/
def Fields.atomic (f : Fields) : AtomicFields where
  rd := f.rd
  rs1 := f.rs1
  rs2 := f.rs2
  func3 := f.func3
  aq := f.func7.getLsbD 1
  rl := f.func7.getLsbD 0

/-- The operand fields of a CSR word with a register source. -/
def Fields.csr (f : Fields) : CsrFields := { rd := f.rd, rs1 := f.rs1, csr := f.immI }

/-- The operand fields of a CSR word with an immediate source. -/
def Fields.csrImm (f : Fields) : CsrImmFields := { rd := f.rd, uimm := f.rs1, csr := f.immI }

/-- The instruction of a selected memory operation. -/
def memoryInstr (op : MemOp) (f : Fields) (w : BitVec 32) : Instr :=
  match op with
  | .lb => .lb f.load
  | .lh => .lh f.load
  | .lw => .lw f.load
  | .ld => .ld f.load
  | .lbu => .lbu f.load
  | .lhu => .lhu f.load
  | .sb => .sb f.store
  | .sh => .sh f.store
  | .sw => .sw f.store
  | .sd => .sd f.store
  | .lr => .lrW f.atomic
  | .sc => .scW f.atomic
  | .amoswap => .amoswapW f.atomic
  | .amoadd => .amoaddW f.atomic
  | .amoxor => .amoxorW f.atomic
  | .amoand => .amoandW f.atomic
  | .amoor => .amoorW f.atomic
  | .amomin => .amominW f.atomic
  | .amomax => .amomaxW f.atomic
  | .amominu => .amominuW f.atomic
  | .amomaxu => .amomaxuW f.atomic
  | .undefined => .undefined w

/-- R149: the bits that the masks of the type `R` rows cover besides the opcode and funct5: `func3` is 010, and the
`rs2` field of an `lr` is 0. -/
def atomicRowFits (op : MemOp) (f : Fields) : Bool := f.func3 == 0b010#3 && (op != .lr || f.rs2 == 0#5)

/-- R149: the memory row that matches a word of type `t`, by the bits its mask covers; a word that matches none is
the catch-all row's. -/
def matchRow (t : InstructionType) (f : Fields) : MemOp :=
  let op := decodeOp t f.func3 f.func7
  if t = .R ∧ atomicRowFits op f = false then .undefined else op

/-- The SYSTEM words that have a row (table rows `sfence.vma`, `mret`, `sret`, `csrr*`); every other
SYSTEM word is another unit's (R454). R148 leaves open which xRET instructions exist: `mret` and `sret`, which have
rows, do, and the word of RISC-V's `uret`, which has none, is another unit's and no xRET (DESIGN CHOICE, assumption
log 26). -/
def decodeSystem (f : Fields) (w : BitVec 32) : Decoded :=
  match f.func3 with
  | 0b000#3 =>
    if w = 0x30200073#32 then .instr .mret
    else if w = 0x10200073#32 then .instr .sret
    else if f.func7 = 0b0001001#7 ∧ f.rd = 0#5 then .instr (.sfenceVma { rs1 := f.rs1, rs2 := f.rs2 })
    else .otherUnit w
  | 0b001#3 => .instr (.csrrw f.csr)
  | 0b010#3 => .instr (.csrrs f.csr)
  | 0b011#3 => .instr (.csrrc f.csr)
  | 0b101#3 => .instr (.csrrwi f.csrImm)
  | 0b110#3 => .instr (.csrrsi f.csrImm)
  | 0b111#3 => .instr (.csrrci f.csrImm)
  | _ => .otherUnit w

/-- The instruction of the fields `f` of the word `w`: the externally decoded rows by their fixed bits,
the memory rows by the match and mask of the table behind the major opcode (R139, R149), the catch-all row last (R142,
R149). An atomic word whose func3 is not 010 is the catch-all row's, while an Execute Entry of type `R` is selected
by its funct5 alone (R143, `decodeOp`). -/
def decodeFields (f : Fields) (w : BitVec 32) : Decoded :=
  match memoryType f.opcode with
  | some t => .instr (memoryInstr (matchRow t f) f w)
  | none =>
    if f.opcode = 0b1110011#7 then decodeSystem f w
    else if f.opcode = 0b0001111#7 ∧ f.func3 = 0b001#3 then
      .instr (.fenceI { rd := f.rd, rs1 := f.rs1, imm := f.immI })
    else if isOtherUnit f.opcode then .otherUnit w
    else .instr (.undefined w)

/-- The instruction of a 32-bit word. -/
def decodeWord (w : BitVec 32) : Decoded := decodeFields (Fields.ofWord w) w

/-- The word of four bytes, the byte at the lowest address least significant. The byte order of
instruction fetch is outside the block (R84): PRESUMED RISC-V's, assumption log 3. -/
def wordOfBytes (b0 b1 b2 b3 : Byte) : BitVec 32 := b3 ++ b2 ++ b1 ++ b0

/-- Byte `k` of a word (R12). -/
def byteOfWord (w : BitVec 32) (k : Nat) : Byte := w.extractLsb' (8 * k) 8

/-- The four bytes of a word in fetch order. -/
def bytesOfWord (w : BitVec 32) : List Byte :=
  [byteOfWord w 0, byteOfWord w 1, byteOfWord w 2, byteOfWord w 3]

/-- The decoder on bytes: total, all instructions are four bytes long (R136, R145). -/
def decodeBytes (bytes : List Byte) : Except DecodeError Decoded :=
  match bytes with
  | b0 :: b1 :: b2 :: b3 :: _ => .ok (decodeWord (wordOfBytes b0 b1 b2 b3))
  | _ => .error .truncated

/-- The instruction the decoder reads from an instruction whose bits are `w`, the bits from `nbits` up
being 0, laid out byte by byte in fetch order. -/
def decodeTableWord (nbits w : Nat) : Option Instr :=
  match decodeBytes (bytesOfWord (BitVec.ofNat 32 (w % 2 ^ nbits))) with
  | .ok (.instr i) => some i
  | .ok (.otherUnit _) => none
  | .error _ => none

/-! ## The encoder -/

/-- The fields of a load with selector `func3` (R136, R139). -/
def encodeLoad (func3 : BitVec 3) (f : LoadFields) : Fields where
  opcode := 0b0000011#7
  rd := f.rd
  func3 := func3
  rs1 := f.rs1
  rs2 := f.imm.extractLsb' 0 5
  func7 := f.imm.extractLsb' 5 7

/-- The fields of a store with selector `func3` (R136, R139). -/
def encodeStore (func3 : BitVec 3) (f : StoreFields) : Fields where
  opcode := 0b0100011#7
  rd := f.imm.extractLsb' 0 5
  func3 := func3
  rs1 := f.rs1
  rs2 := f.rs2
  func7 := f.imm.extractLsb' 5 7

/-- The fields of an atomic with selector `funct5` (R136, R139). -/
def encodeAtomic (funct5 : BitVec 5) (f : AtomicFields) : Fields where
  opcode := 0b0101111#7
  rd := f.rd
  func3 := f.func3
  rs1 := f.rs1
  rs2 := f.rs2
  func7 := funct5 ++ BitVec.ofBool f.aq ++ BitVec.ofBool f.rl

/-- The fields of a CSR instruction with selector `func3`; `source` is the register or the immediate. -/
def encodeCsr (func3 : BitVec 3) (rd source : BitVec 5) (csr : CsrAddress) : Fields where
  opcode := 0b1110011#7
  rd := rd
  func3 := func3
  rs1 := source
  rs2 := csr.extractLsb' 0 5
  func7 := csr.extractLsb' 5 7

/-- The fields of an instruction, from the encoding tables of `30_encoding.md` and the opcode table. -/
def encodeFields (i : Instr) : Fields :=
  match i with
  | .lb f => encodeLoad 0b000#3 f
  | .lh f => encodeLoad 0b001#3 f
  | .lw f => encodeLoad 0b010#3 f
  | .ld f => encodeLoad 0b011#3 f
  | .lbu f => encodeLoad 0b100#3 f
  | .lhu f => encodeLoad 0b101#3 f
  | .sb f => encodeStore 0b000#3 f
  | .sh f => encodeStore 0b001#3 f
  | .sw f => encodeStore 0b010#3 f
  | .sd f => encodeStore 0b011#3 f
  | .lrW f => encodeAtomic 0b00010#5 f
  | .scW f => encodeAtomic 0b00011#5 f
  | .amoswapW f => encodeAtomic 0b00001#5 f
  | .amoaddW f => encodeAtomic 0b00000#5 f
  | .amoxorW f => encodeAtomic 0b00100#5 f
  | .amoandW f => encodeAtomic 0b01100#5 f
  | .amoorW f => encodeAtomic 0b01000#5 f
  | .amominW f => encodeAtomic 0b10000#5 f
  | .amomaxW f => encodeAtomic 0b10100#5 f
  | .amominuW f => encodeAtomic 0b11000#5 f
  | .amomaxuW f => encodeAtomic 0b11100#5 f
  | .undefined w => Fields.ofWord w
  | .fenceI f =>
    { opcode := 0b0001111#7, rd := f.rd, func3 := 0b001#3, rs1 := f.rs1
      rs2 := f.imm.extractLsb' 0 5, func7 := f.imm.extractLsb' 5 7 }
  | .sfenceVma f =>
    { opcode := 0b1110011#7, rd := 0#5, func3 := 0b000#3, rs1 := f.rs1, rs2 := f.rs2
      func7 := 0b0001001#7 }
  | .mret => Fields.ofWord 0x30200073#32
  | .sret => Fields.ofWord 0x10200073#32
  | .csrrw f => encodeCsr 0b001#3 f.rd f.rs1 f.csr
  | .csrrs f => encodeCsr 0b010#3 f.rd f.rs1 f.csr
  | .csrrc f => encodeCsr 0b011#3 f.rd f.rs1 f.csr
  | .csrrwi f => encodeCsr 0b101#3 f.rd f.uimm f.csr
  | .csrrsi f => encodeCsr 0b110#3 f.rd f.uimm f.csr
  | .csrrci f => encodeCsr 0b111#3 f.rd f.uimm f.csr

/-- The instruction word of an instruction. -/
def encode (i : Instr) : BitVec 32 := (encodeFields i).toWord

end Sys2Proof
end

