-- ==== Sys2Proof/Machine/State.lean ====
section
/-! DEFINITION. The record types of `10_state.md` (R36 to R45), every register of the block (R50 to R59),
the records of the block's ports (R81, R90, R94, R401 and the port rules of 40 to 46), the environment the
spec's duties describe (R90, R91, R93, R94, R511 to R522), and `State`: all of it as plain data. -/

namespace Sys2Proof.Machine

/-! ## Record types (R36 to R45) -/

/-- R36: an operand, either known (`value`) or waiting for the broadcast `tag`. -/
structure OperandSlot where
  pending : Bool
  tag : RobReceipt
  value : Data
  deriving DecidableEq, Repr

/-- R37: an in-flight instruction at a reservation station. `opcode`, `queueKind` and `error` are carried
and never read (D42). The values of `queueKind` are not in the source (N15): a number (DESIGN CHOICE, assumption log
27). -/
structure ExecuteEntry where
  opcode : BitVec 7
  instructionType : InstructionType
  queueKind : Nat
  rs1 : OperandSlot
  rs2 : OperandSlot
  rs3 : OperandSlot
  rd : RobReceipt
  func3 : BitVec 3
  func7 : BitVec 7
  imm : Addr
  pc : Addr
  spec : Addr
  next : Addr
  error : MemoryErrorCode
  valid : Bool
  deriving DecidableEq, Repr

/-- R38: the Memory Stage Entry after Decode. -/
structure MemEntry1 where
  op : MemOp
  add1 : Addr
  add2 : Addr
  op1 : Data
  rd : RobReceipt
  pc : Addr
  next : Addr
  valid : Bool
  deriving DecidableEq, Repr

/-- R39: the Memory Stage Entry after Execute. -/
structure MemEntry2 where
  op : MemOp
  vaddress : Addr
  op1 : Data
  error : MemoryErrorCode
  rd : RobReceipt
  pc : Addr
  next : Addr
  valid : Bool
  deriving DecidableEq, Repr

/-- R40: the Memory Stage Entry after TLB. -/
structure MemEntry3 where
  op : MemOp
  vaddress : Addr
  paddress : Addr
  op1 : Data
  error : MemoryErrorCode
  rd : RobReceipt
  pc : Addr
  next : Addr
  valid : Bool
  deriving DecidableEq, Repr

/-- R41: what the backend hands to retirement. `writeID0` and `writeID1` are the two store-queue receipts
`writeID[0]` and `writeID[1]`. -/
structure ExecuteResult where
  result : Data
  real : Addr
  branch : Bool
  exception : Bool
  exceptionCode : ExcCode
  writeCSR : Bool
  csrAddress : CsrAddress
  csrData : Word
  xret : Bool
  flushDCache : Bool
  flushICache : Bool
  flushTLB : Bool
  sc : Bool
  lr : Bool
  lrAddress : Addr
  write : Bool
  writeID0 : SqReceipt
  writeID1 : SqReceipt
  deriving DecidableEq, Repr

/-- R42: a retire entry of the ROB. -/
structure RobRetireEntry where
  valid : Bool
  commit : Bool
  pc : Addr
  spec : Addr
  rd : RobReceipt
  executeResult : ExecuteResult
  deriving DecidableEq, Repr

/-- R43: a load reservation, on a virtual address. -/
structure LoadReservationEntry where
  address : Addr
  valid : Bool
  deriving DecidableEq, Repr

/-- R44: an entry of the store queue, with the receipt it was given at allocation. Its valid flag is its
presence in the queue. -/
structure StoreQueueEntry where
  id : SqReceipt
  writeType : BeatType
  address : Addr
  data : Word
  retired : Bool
  deriving DecidableEq, Repr

/-- R45: one lane of the data-broadcast bus. -/
structure BroadcastLane where
  valid : Bool
  tag : RobReceipt
  value : Data
  deriving DecidableEq, Repr

/-! ## The registers of the block (R50 to R59) -/

/-- R50, R172: the arbiter's register. -/
inductive ArbState where
  | idle | pending1 | pending2
  deriving DecidableEq, Repr

/-- R54: the TLB stage's FSM register. -/
inductive TlbState where
  | idle | request | respond
  deriving DecidableEq, Repr

/-- R55: the ReadWrite stage's FSM register. -/
inductive RwState where
  | idle | readBottom | readTop | writeBottom | writeTop
  deriving DecidableEq, Repr

/-- R58: the state register of a double-buffer cell. -/
inductive CellState where
  | empty | one | two
  deriving DecidableEq, Repr

/-- R59, R444: the retirement engine's FSM register. -/
inductive RetState where
  | retire | dcache | icache | tlb
  deriving DecidableEq, Repr

/-- A slot of a ROB row, 0 the older (R20); also `ret.flushID` in `{0, 1}` (R59). -/
inductive Slot where
  | slot0 | slot1
  deriving DecidableEq, Repr

/-- R54: the registers of the TLB stage. -/
structure TlbStage where
  inReg : MemEntry2
  state : TlbState
  paddress : Addr
  error : MemoryErrorCode
  deriving DecidableEq, Repr

/-- R55: the registers of the ReadWrite stage. -/
structure RwStage where
  inReg : MemEntry3
  state : RwState
  readResult : Data
  receipt0 : SqReceipt
  deriving DecidableEq, Repr

/-- R57: the registers of an in-order execute queue. -/
structure InOrderQueue where
  buf : List ExecuteEntry
  rptr : Nat
  wptr : Nat
  emptyF : Bool
  fullF : Bool
  deriving DecidableEq, Repr

/-- R58: the registers of one cell of an out-of-order execute queue. -/
structure Cell where
  state : CellState
  data : ExecuteEntry
  shadow : ExecuteEntry
  deriving DecidableEq, Repr

/-- R58: an out-of-order execute queue, `cell[0]` first. -/
structure OutOfOrderQueue where
  cells : List Cell
  deriving DecidableEq, Repr

/-- R59: the registers of the retirement engine. -/
structure RetireRegs where
  state : RetState
  flushID : Slot
  busySeen : Bool
  deriving DecidableEq, Repr

/-- Every register of the block (R60: "Rules R50 to R59 list every register of the block"). -/
structure Block where
  /-- `arb.state` (R50). -/
  arb : ArbState
  /-- `dec.inReg` (R52). -/
  dec : ExecuteEntry
  /-- `exe.inReg` (R53). -/
  exe : MemEntry1
  /-- The TLB stage (R54). -/
  tlb : TlbStage
  /-- The ReadWrite stage (R55). -/
  rw : RwStage
  /-- The speculative load reservation (R56, R380). -/
  loadReservation : LoadReservationEntry
  /-- The recovery snapshot, the architectural load reservation (R56, R380). -/
  recoveryLoadReservation : LoadReservationEntry
  /-- The in-order queue that feeds the memory pipeline (R22, R57). -/
  memQueue : InOrderQueue
  /-- Further in-order queues (R22, R57). -/
  inOrderQueues : List InOrderQueue
  /-- Out-of-order queues (R22, R58). -/
  outOfOrderQueues : List OutOfOrderQueue
  /-- The retirement engine (R59). -/
  ret : RetireRegs
  deriving DecidableEq, Repr

/-! ## Ports of the block. A port whose `valid` is low is `none`: its payload is unspecified. -/

/-- R81: the requester's side of an SMA read port. -/
structure SmaReq where
  address : Addr
  readType : BeatType
  deriving DecidableEq, Repr

/-- R81: the responder's side of an SMA read port; `data` and `error` count only with `ready`. -/
structure SmaResp where
  ready : Bool
  data : Word
  error : Bool
  deriving DecidableEq, Repr

/-- What a requester samples in its `ready` tick (R82). -/
structure SmaAnswer where
  data : Word
  error : Bool
  deriving DecidableEq, Repr

/-- R91: the answer of the store-queue bypass port. -/
structure BypassResp where
  data : Word
  strobe : BitVec 4
  deriving DecidableEq, Repr

/-- R90: the bits of the store-queue allocation port. -/
structure AllocReq where
  writeType : BeatType
  address : Addr
  data : Word
  deriving DecidableEq, Repr

/-- R94: a DTLB request. -/
structure DtlbReq where
  vaddress : Addr
  write : Bool
  deriving DecidableEq, Repr

/-- R94: what the DTLB answers to a request. -/
structure DtlbAnswer where
  paddress : Addr
  error : MemoryErrorCode
  deriving DecidableEq, Repr

/-- R94: the response wires of the DTLB port. -/
structure DtlbResp where
  ready : Bool
  answer : DtlbAnswer
  deriving DecidableEq, Repr

/-- R241: the ReadWrite stage's result port to the ROB. -/
structure RwOut where
  rd : RobReceipt
  bits : ExecuteResult
  deriving DecidableEq, Repr

/-- R435: the exception output. -/
structure ExcOut where
  pc : Addr
  code : ExcCode
  deriving DecidableEq, Repr

/-- R431: the CSR write port. -/
structure CsrWrite where
  address : CsrAddress
  data : Word
  deriving DecidableEq, Repr

/-- R430: the register update port of a slot. -/
structure RegUpdate where
  rd : RobReceipt
  result : Data
  deriving DecidableEq, Repr

/-- R432: the predictor update port of a slot. -/
structure PredUpdate where
  pc : Addr
  jump : Bool
  target : Addr
  deriving DecidableEq, Repr

/-- R381, R433: the load-reservation update interface. -/
structure LrUpdate where
  load : Bool
  address : Addr
  deriving DecidableEq, Repr

/-- R434: the store commit port of a slot, with `en` high. -/
structure SqRetire where
  id0 : SqReceipt
  id1 : SqReceipt
  deriving DecidableEq, Repr

/-- The outputs of the retirement engine in a tick (R401). `recover` carries `correctPC`. -/
structure EngineOut where
  retiredReady : Bool
  recover : Option Addr
  exc : Option ExcOut
  xret : Bool
  csrWrite : Option CsrWrite
  reg0 : Option RegUpdate
  reg1 : Option RegUpdate
  pred0 : Option PredUpdate
  pred1 : Option PredUpdate
  lrUpdate : Option LrUpdate
  sq0 : Option SqRetire
  sq1 : Option SqRetire
  dCacheReq : Bool
  iCacheReq : Bool
  tlbReq : Bool
  deriving DecidableEq, Repr

/-- Every output of the block in a tick (R502 lists them). -/
structure Outputs where
  engine : EngineOut
  /-- `rw.out` (R260). -/
  rwOut : Option RwOut
  /-- `rw.alloc` (R257). -/
  alloc : Option AllocReq
  /-- `sma.valid`, "driven true from the state alone" (R175). -/
  smaValid : Bool
  /-- `sma`'s address and type, the granted requester's (R175). -/
  sma : Option SmaReq
  /-- The response to the arbiter's other requester, in its `ready` tick (R175). -/
  other : Option SmaAnswer
  /-- `bypass.address` (R181), when the ReadWrite stage reads. -/
  bypassAddress : Option Addr
  /-- `dtlb` (R219). -/
  dtlb : Option DtlbReq
  /-- `enq.ready` of the memory queue (R338). -/
  enqReady : Bool
  /-- `enq.ready` of each further in-order queue (R338). -/
  inOrderEnqReady : List Bool
  /-- `deq` of each further in-order queue (R338). -/
  inOrderDeq : List (Option ExecuteEntry)
  /-- `enq.ready` of each out-of-order queue (R352). -/
  outOfOrderEnqReady : List Bool
  /-- `deq` of each out-of-order queue (R352). -/
  outOfOrderDeq : List (Option ExecuteEntry)
  deriving DecidableEq, Repr

/-- Every input wire of the block in a tick (R23). Lists name the further queues in order. -/
structure BlockInput where
  enq : Option ExecuteEntry
  inOrderEnq : List (Option ExecuteEntry)
  inOrderDeqReady : List Bool
  outOfOrderEnq : List (Option ExecuteEntry)
  outOfOrderDeqReady : List Bool
  bcast : List BroadcastLane
  other : Option SmaReq
  sma : SmaResp
  bypass : BypassResp
  allocReady : Bool
  allocId : SqReceipt
  dtlb : DtlbResp
  retiredValid : Bool
  /-- `retired.row` (R401). -/
  retiredRow : RobRow31
  /-- `tableRetire.entries[]`, the view of the ROB, by receipt (R401, R402). -/
  tableRetire : List (RobReceipt × RobRetireEntry)
  handlerPC : Addr
  dCacheEmpty : Bool
  iCacheEmpty : Bool
  tlbEmpty : Bool
  deriving DecidableEq, Repr

/-! ## The environment (R23, R24, and the duties of `70_reset_and_hazards.md`) -/

/-- Physical memory (R80): pairs of an address below `2 ^ 32` and a byte, addresses strictly rising, no
byte equal to what an unlisted address reads as (`Memory.wf` in `Ops.lean`). -/
abbrev Memory := List Host.Cell

/-- The store queue (R44, R90, R91, R517), entries oldest first, and the id it hands out next. -/
structure StoreQueue where
  entries : List StoreQueueEntry
  nextId : SqReceipt
  deriving DecidableEq, Repr

/-- The kinds of instructions that differ in what the result of one may say (R148, R453, R515): "the special flags
only for the instruction kinds that own them". -/
inductive UnitKind where
  /-- Executed by the memory pipeline (R22, R139). -/
  | memory
  /-- Can transfer control: a branch or jump (R453). -/
  | control
  /-- Owns `flushDCache`, `flushICache` and `flushTLB` (R148). -/
  | fence
  /-- Owns `xret` (R148). -/
  | xret
  /-- Owns `writeCSR` (R148). -/
  | csr
  /-- Any other. -/
  | plain
  deriving DecidableEq, Repr

/-- An entry of the ROB (R512), with what the environment knows of its instruction beside it. -/
structure RobSlot where
  entry : RobRetireEntry
  /-- The register its receipt stands for, which "the register file or rename table behind the port knows from the
  receipt" (R430); `none` where there is no destination. -/
  dest : Option RegNum
  /-- The kind of the instruction, which the decoder knows (R515, R516). -/
  kind : UnitKind
  /-- `next`, the fall-through PC (R32, R515, R516). -/
  next : Addr
  /-- The last entry with its receipt that a unit outside the block was handed was a bubble (R515). The model's own
  field. -/
  bubble : Bool
  deriving DecidableEq, Repr

/-- A row of the ROB: slot 0 the older (R402, R512). -/
structure RobRow where
  slot0 : RobSlot
  slot1 : RobSlot
  deriving DecidableEq, Repr

/-- The ROB (R403, R512): its rows, oldest first, numbered from `head` up. -/
structure Rob where
  head : RobRow31
  rows : List RobRow
  deriving DecidableEq, Repr

/-- R94: the errors a translation may have, "one of `none`, `pageFault`, `memoryFault`". -/
inductive TranslationError where
  | none | pageFault | memoryFault
  deriving DecidableEq, Repr

/-- One line of the DTLB's mapping (R94, R520, D47): the answer to the request `{vaddress, write}`. A
request no line names is answered by `paddress = vaddress`, `error = none` (ENV0, D39). -/
structure TlbLine where
  vaddress : Addr
  write : Bool
  paddress : Addr
  error : TranslationError
  deriving DecidableEq, Repr

/-- The state of a flush sink (R522). -/
inductive SinkState where
  /-- Nothing to do; `empty` is high. -/
  | idle
  /-- It has seen `req` and dropped `empty`. -/
  | draining
  /-- It has raised `empty` again and ignores `req` until `req` has fallen. -/
  | done
  deriving DecidableEq, Repr

/-- The three flush sinks (R445, R522). -/
structure FlushSinks where
  dCache : SinkState
  iCache : SinkState
  tlb : SinkState
  deriving DecidableEq, Repr

/-- What the environment keeps of the broadcast bus (R336, R514). The model's own record. -/
structure Bus where
  /-- Results no lane has carried yet, in the order in which they wait. -/
  unsent : List BroadcastLane
  /-- What the lanes have carried, the latest first; a tag that is given out again is forgotten. -/
  heard : List BroadcastLane
  deriving DecidableEq, Repr

/-- A result of a functional unit outside the block for the ROB entry `rd` (R512, R515). -/
structure UnitReport where
  rd : RobReceipt
  result : ExecuteResult
  deriving DecidableEq, Repr

/-- What the functional unit outside the block reports for the instruction it is given in an instruction
step (R148, R453, R454, R515; I30: "the model takes results as inputs"). -/
structure UnitResult where
  /-- The result word: for a CSR instruction "the old CSR value" (R422). -/
  result : Data
  /-- The resolved next PC when it is not the fall-through (R515). -/
  target : Option Addr
  /-- The front end's prediction when it is not the fall-through (R32). -/
  predicted : Option Addr
  /-- The code when the unit faults (R461, R515). -/
  exception : Option ExcCode
  /-- Whether a set, clear or immediate set or clear CSR instruction writes (R454: "the CSR unit's
  business" in the table). -/
  writeCSR : Bool
  /-- The final CSR value, which "the functional unit computes" (N3). -/
  csrData : Word
  deriving DecidableEq, Repr

/-- What the environment shows to the machine in one step: the input wires of a tick that are not
computed from `Env` (R23). -/
structure EnvInput where
  /-- `enq` of the memory queue, held by `Env.offer` in `Environment.lean` to R513, R514 and R516, as the entries for the
  further queues are. -/
  enq : Option ExecuteEntry
  /-- A row the issue stage allocates in the ROB (R512). -/
  mint : Option RobRow
  inOrderEnq : List (Option ExecuteEntry)
  /-- `deq.ready` of each further in-order queue; a queue the list does not name has a ready consumer. -/
  inOrderDeqReady : List Bool
  outOfOrderEnq : List (Option ExecuteEntry)
  /-- `deq.ready` of each out-of-order queue; a queue the list does not name has a ready consumer. -/
  outOfOrderDeqReady : List Bool
  /-- Results of functional units outside the block for the ROB (R512), each broadcast too (R336). Only what R515
  allows of them takes effect (`Env.report` in `Ops.lean`). -/
  results : List UnitReport
  /-- Result words of functional units outside the block that go to the broadcast bus before the result is reported
  (R336). Only what R515 allows of them takes effect (`Env.announce` in `Ops.lean`). -/
  lanes : List BroadcastLane
  /-- Which of the results there are to broadcast each lane carries, by its number (assumption log 23). -/
  busOrder : List Nat
  /-- The arbiter's other requester (R178), when it has no request waiting. -/
  other : Option SmaReq
  /-- `sma.ready` when the arbiter asks (R82, I5). -/
  smaReady : Bool
  /-- The bytes of `sma.data` that are unspecified: those above the size of the read, and all of them when the
  read answers an error (R82, I8). -/
  smaPad : Word
  /-- The addresses at which SMA reads answer an error after this step, if that changes (R524). -/
  smaFaults : Option (List Addr)
  /-- `dtlb.ready` when the TLB stage asks (R94, I5). -/
  dtlbReady : Bool
  /-- Which of the translations in force since the last TLB flush the DTLB answers by: 0 is the page table's, 1 the
  one before it, and so on (R525 (c)). -/
  tlbAge : Nat
  /-- What the page tables map otherwise after this step (R525 (c)). -/
  remap : List TlbLine
  /-- `rw.alloc.ready`, if the store queue also has its next id free (R90, I5). -/
  allocReady : Bool
  /-- `handlerPC` (R404, R523, I6). -/
  handlerPC : Addr
  /-- Each flush sink, when it may drop or raise its `empty` wire in this step, does so (R522, I5). -/
  dCacheMoves : Bool
  iCacheMoves : Bool
  tlbMoves : Bool
  /-- How many committed entries the store queue writes to memory at the end of the step; `none` is every
  one (R90, I5). -/
  drain : Option Nat
  /-- For each of the four bytes of an instruction fetch, which of the bytes its address held since the last
  flush of both caches the fetch sees: 0 is memory's, 1 the one before it, and so on (R108). A byte the list
  does not name is memory's. -/
  fetchAge : List Nat
  /-- The functional unit outside the block, in an instruction step. -/
  unit : UnitResult
  deriving DecidableEq, Repr

/-- The environment's state the block reaches through its ports. -/
structure Env where
  /-- The address of the next instruction to retire, where fetch goes on when nothing is in flight
  (R32, R440, R503). -/
  pc : Addr
  /-- The register file behind the register-update ports (R30, R430): 32 registers of `DATA_W` bits,
  register 0 hardwired (R31). PRESUMED, assumption log 4. -/
  x : Vector Data 32
  /-- Physical memory (R80, R93). -/
  mem : Memory
  /-- The store queue. -/
  sq : StoreQueue
  /-- The reorder buffer. -/
  rob : Rob
  /-- The mapping of the page tables, the latest line first. -/
  dtlb : List TlbLine
  /-- The lines that changes of the page tables replaced, the latest first, while no TLB flush has followed: the
  DTLB may still answer by them (R525 (c)). The model's own field. -/
  superseded : List TlbLine
  /-- The physical addresses at which an SMA read answers `error` (R82, R524). -/
  smaErrors : List Addr
  /-- The bytes that stores of this hart overwrote in memory, the latest first, while no flush of both caches
  has followed: an instruction fetch may still see them (R108). The model's own field. -/
  stale : List Host.Cell
  /-- The flush sinks. -/
  sinks : FlushSinks
  /-- The broadcast bus. -/
  bus : Bus
  deriving DecidableEq, Repr

/-! ## The state -/

/-- The machine: parameters, the block's registers, the environment, and what the environment shows. -/
structure State where
  /-- The parameters; no step changes them (R10). -/
  cfg : Params
  /-- The registers of the block (R60). -/
  blk : Block
  /-- The environment's state (R24). -/
  env : Env
  /-- What the environment shows in the next step (R23). -/
  input : EnvInput
  /-- What it shows in the steps after that, the nearest first; when the list is empty it goes on showing
  `input`. The model's own field. -/
  later : List EnvInput
  /-- The block's outputs in the last step. The model's own field. -/
  out : Outputs
  deriving DecidableEq, Repr

/-- Why the machine stops with a fault: never. "The rules of each component are total: for any register state and
any inputs they give next state and outputs" (R526); an exception is taken at retirement (R420) and leaves a next
state. So the type has no constructor. -/
inductive Fault where
  deriving DecidableEq, Repr

/-- Why the machine has no meaning for an instruction. -/
inductive Refusal where
  /-- An instruction of the opcode table that has no meaning yet; raised by `exec`. Safe: the model stops.
  No arm of `exec` raises it. -/
  | notModelled (mnemonic : String)
  deriving DecidableEq, Repr

/-! ## Reset (R61, R500 to R504) -/

/-- A known operand holding 0. -/
def OperandSlot.zero : OperandSlot := { pending := false, tag := 0, value := 0 }

/-- R61: "all fields 0, valid = false"; an enumerated field is the first name of its list. -/
def ExecuteEntry.zero : ExecuteEntry where
  opcode := 0
  instructionType := .UNK
  queueKind := 0
  rs1 := .zero
  rs2 := .zero
  rs3 := .zero
  rd := 0
  func3 := 0
  func7 := 0
  imm := 0
  pc := 0
  spec := 0
  next := 0
  error := .none
  valid := false

/-- R61, as `ExecuteEntry.zero`. -/
def MemEntry1.zero : MemEntry1 :=
  { op := .lb, add1 := 0, add2 := 0, op1 := 0, rd := 0, pc := 0, next := 0, valid := false }

/-- R61, as `ExecuteEntry.zero`. -/
def MemEntry2.zero : MemEntry2 :=
  { op := .lb, vaddress := 0, op1 := 0, error := .none, rd := 0, pc := 0, next := 0, valid := false }

/-- R61, as `ExecuteEntry.zero`. -/
def MemEntry3.zero : MemEntry3 :=
  { op := .lb, vaddress := 0, paddress := 0, op1 := 0, error := .none, rd := 0, pc := 0, next := 0
    valid := false }

/-- An execute result with every field 0 or false. -/
def ExecuteResult.zero : ExecuteResult where
  result := 0
  real := 0
  branch := false
  exception := false
  exceptionCode := 0
  writeCSR := false
  csrAddress := 0
  csrData := 0
  xret := false
  flushDCache := false
  flushICache := false
  flushTLB := false
  sc := false
  lr := false
  lrAddress := 0
  write := false
  writeID0 := 0
  writeID1 := 0

/-- An unallocated ROB entry. -/
def RobRetireEntry.zero : RobRetireEntry :=
  { valid := false, commit := false, pc := 0, spec := 0, rd := 0, executeResult := .zero }

/-- R61, R340: an empty in-order queue of `d` entries. -/
def InOrderQueue.reset (d : Nat) : InOrderQueue :=
  { buf := List.replicate d .zero, rptr := 0, wptr := 0, emptyF := true, fullF := false }

/-- R61: an empty cell. -/
def Cell.reset : Cell := { state := .empty, data := .zero, shadow := .zero }

/-- R61: an out-of-order queue of `n` empty cells. -/
def OutOfOrderQueue.reset (n : Nat) : OutOfOrderQueue := { cells := List.replicate n .reset }

/-- R61, R501: the registers of the block at tick 0. -/
def Block.reset (p : Params) : Block where
  arb := .idle
  dec := .zero
  exe := .zero
  tlb := { inReg := .zero, state := .idle, paddress := 0, error := .none }
  rw := { inReg := .zero, state := .idle, readResult := 0, receipt0 := 0 }
  loadReservation := { address := 0, valid := false }
  recoveryLoadReservation := { address := 0, valid := false }
  memQueue := .reset p.iqDepth.val
  inOrderQueues := List.replicate p.inOrderQueues (.reset p.iqDepth.val)
  outOfOrderQueues := List.replicate p.outOfOrderQueues (.reset p.ooqDepth.val)
  ret := { state := .retire, flushID := .slot0, busySeen := false }

/-- The engine with nothing driven (R405). -/
def EngineOut.idle : EngineOut where
  retiredReady := false
  recover := none
  exc := none
  xret := false
  csrWrite := none
  reg0 := none
  reg1 := none
  pred0 := none
  pred1 := none
  lrUpdate := none
  sq0 := none
  sq1 := none
  dCacheReq := false
  iCacheReq := false
  tlbReq := false

/-- No output driven. -/
def Outputs.idle : Outputs where
  engine := .idle
  rwOut := none
  alloc := none
  smaValid := false
  sma := none
  other := none
  bypassAddress := none
  dtlb := none
  enqReady := false
  inOrderEnqReady := []
  inOrderDeq := []
  outOfOrderEnqReady := []
  outOfOrderDeq := []

/-- A unit that falls through, as predicted, writes its CSR and gives 0 (assumption log 9). -/
def UnitResult.reset : UnitResult :=
  { result := 0, target := none, predicted := none, exception := none, writeCSR := true, csrData := 0 }

/-- R504, D39: nothing is offered, every responder answers at once. -/
def EnvInput.reset : EnvInput where
  enq := none
  mint := none
  inOrderEnq := []
  inOrderDeqReady := []
  outOfOrderEnq := []
  outOfOrderDeqReady := []
  results := []
  lanes := []
  busOrder := []
  other := none
  smaReady := true
  smaPad := 0
  smaFaults := none
  dtlbReady := true
  tlbAge := 0
  remap := []
  allocReady := true
  handlerPC := 0
  dCacheMoves := true
  iCacheMoves := true
  tlbMoves := true
  drain := none
  fetchAge := []
  unit := .reset

/-- R504: an empty ROB, an empty store queue, `empty` high on the flush ports, and values of the model's choosing
where the spec gives none (N4). DESIGN CHOICES: the reset vector (assumption log 1), the registers (log 4), memory (log
5); no byte that only an instruction fetch could still see, as if the caches started empty (log 11); no line that only
the DTLB could still hold, as if the TLB started empty, and the identity as the mapping (log 15); no address whose read
answers an error (log 16). -/
def Env.reset : Env where
  pc := 0
  x := Vector.replicate 32 0
  mem := []
  sq := { entries := [], nextId := 0 }
  rob := { head := 0, rows := [] }
  dtlb := []
  superseded := []
  smaErrors := []
  stale := []
  sinks := { dCache := .idle, iCache := .idle, tlb := .idle }
  bus := { unsent := [], heard := [] }

/-- The machine right after reset (R61, R501, R504). -/
def State.reset : State where
  cfg := .default
  blk := .reset .default
  env := .reset
  input := .reset
  later := []
  out := .idle

/-! ## Named updates -/

/-- `s` with the block's registers replaced. -/
def State.withBlk (s : State) (b : Block) : State := { s with blk := b }

/-- `s` with the environment replaced. -/
def State.withEnv (s : State) (e : Env) : State := { s with env := e }

/-- `s` with the outputs replaced. -/
def State.withOut (s : State) (o : Outputs) : State := { s with out := o }

/-- `s` with the records of inputs replaced. -/
def State.withInputs (s : State) (i : EnvInput) (rest : List EnvInput) : State :=
  { s with input := i, later := rest }

/-- `b` with the two load reservations replaced. -/
def Block.withReservations (b : Block) (spec rec : LoadReservationEntry) : Block :=
  { b with loadReservation := spec, recoveryLoadReservation := rec }

/-- `e` with memory replaced. -/
def Env.withMem (e : Env) (m : Memory) : Env := { e with mem := m }

/-- `e` with the store queue replaced. -/
def Env.withSq (e : Env) (q : StoreQueue) : Env := { e with sq := q }

/-- `e` with the register file replaced. -/
def Env.withX (e : Env) (x : Vector Data 32) : Env := { e with x := x }

/-- `e` with the program counter replaced. -/
def Env.withPc (e : Env) (pc : Addr) : Env := { e with pc := pc }

/-- `e` with the ROB replaced. -/
def Env.withRob (e : Env) (r : Rob) : Env := { e with rob := r }

/-- `e` with the overwritten bytes replaced. -/
def Env.withStale (e : Env) (l : List Host.Cell) : Env := { e with stale := l }

/-- `e` with the page tables' mapping and the lines it replaced replaced. -/
def Env.withDtlb (e : Env) (lines old : List TlbLine) : Env := { e with dtlb := lines, superseded := old }

/-- `e` with the addresses whose reads answer an error replaced. -/
def Env.withSmaErrors (e : Env) (l : List Addr) : Env := { e with smaErrors := l }

/-- `e` with the flush sinks replaced. -/
def Env.withSinks (e : Env) (k : FlushSinks) : Env := { e with sinks := k }

/-- `e` with the broadcast bus replaced. -/
def Env.withBus (e : Env) (b : Bus) : Env := { e with bus := b }

end Sys2Proof.Machine
end

