-- ==== Sys2Proof/Machine/Operands.lean ====
section
/-! DEFINITION. Operands and operand forms: the classification sets (R140, R141), the wake function and
operand readiness (R331, R333), unused operands (R513), the one addressing mode (R137, R203, R211), the alignment check
(R212), immediates (R137), and the Execute Entry the decoder hands the memory queue (R17, R37, R137). -/

namespace Sys2Proof

/-! ## Classification sets (R140) -/

/-- `readValues`. -/
def MemOp.isRead (op : MemOp) : Bool :=
  match op with
  | .lb | .lh | .lw | .ld | .lbu | .lhu | .lr => true
  | _ => false

/-- `writeValues`. -/
def MemOp.isWrite (op : MemOp) : Bool :=
  match op with
  | .sb | .sh | .sw | .sd | .sc => true
  | _ => false

/-- `amoValues`. -/
def MemOp.isAmo (op : MemOp) : Bool :=
  match op with
  | .amoswap | .amoadd | .amoxor | .amoand | .amoor | .amomin | .amomax | .amominu | .amomaxu => true
  | _ => false

/-- `byteValues`. -/
def MemOp.isByte (op : MemOp) : Bool :=
  match op with
  | .lb | .lbu | .sb => true
  | _ => false

/-- `halfValues`. -/
def MemOp.isHalf (op : MemOp) : Bool :=
  match op with
  | .lh | .lhu | .sh => true
  | _ => false

/-- `wordValues`. -/
def MemOp.isWord (op : MemOp) : Bool :=
  match op with
  | .lw | .sw | .lr | .sc => true
  | _ => op.isAmo

/-- `doubleValues`. -/
def MemOp.isDouble (op : MemOp) : Bool :=
  match op with
  | .ld | .sd => true
  | _ => false

/-- `writeSet`: the operations for which the DTLB is asked with `write = true` (D8). -/
def MemOp.inWriteSet (op : MemOp) : Bool := op.isWrite || op.isAmo

/-- R141: `size(op)` in bytes. -/
def MemOp.size (op : MemOp) : Nat :=
  if op.isByte then 1 else if op.isHalf then 2 else if op.isDouble then 8 else 4

/-- R141: the type of each beat of the operation; "a double is moved as two words". -/
def MemOp.beatType (op : MemOp) : BeatType :=
  if op.isByte then .byte else if op.isHalf then .half else .word

/-- The bytes of one beat (R82, R90). -/
def BeatType.bytes (t : BeatType) : Nat :=
  match t with
  | .byte => 1
  | .half => 2
  | .word => 4

/-- The memory operation of a memory row of the opcode table; `none` for an externally decoded row. -/
def Instr.memOp (i : Instr) : Option MemOp :=
  match i with
  | .lb _ => some .lb
  | .lh _ => some .lh
  | .lw _ => some .lw
  | .ld _ => some .ld
  | .lbu _ => some .lbu
  | .lhu _ => some .lhu
  | .sb _ => some .sb
  | .sh _ => some .sh
  | .sw _ => some .sw
  | .sd _ => some .sd
  | .lrW _ => some .lr
  | .scW _ => some .sc
  | .amoswapW _ => some .amoswap
  | .amoaddW _ => some .amoadd
  | .amoxorW _ => some .amoxor
  | .amoandW _ => some .amoand
  | .amoorW _ => some .amoor
  | .amominW _ => some .amomin
  | .amomaxW _ => some .amomax
  | .amominuW _ => some .amominu
  | .amomaxuW _ => some .amomaxu
  | .undefined _ => some .undefined
  | .fenceI _ => none
  | .sfenceVma _ => none
  | .mret => none
  | .sret => none
  | .csrrw _ => none
  | .csrrs _ => none
  | .csrrc _ => none
  | .csrrwi _ => none
  | .csrrsi _ => none
  | .csrrci _ => none

namespace Machine

/-! ## Wake and readiness (R331 to R333) -/

/-- R331: `wakeSlot`. `List.find?` takes the lowest matching lane. -/
def wakeSlot (lanes : List BroadcastLane) (s : OperandSlot) : OperandSlot :=
  if s.pending then
    match lanes.find? (fun l => l.valid && l.tag == s.tag) with
    | some l => { pending := false, tag := s.tag, value := l.value }
    | none => s
  else s

/-- R331: `wake`, on all three slots alike (D27). -/
def wake (lanes : List BroadcastLane) (e : ExecuteEntry) : ExecuteEntry :=
  { e with rs1 := wakeSlot lanes e.rs1, rs2 := wakeSlot lanes e.rs2, rs3 := wakeSlot lanes e.rs3 }

/-- R333: `fireable`. -/
def fireable (e : ExecuteEntry) : Bool :=
  !e.valid || (!e.rs1.pending && !e.rs2.pending && !e.rs3.pending)

/-- R335: the entry with `valid` cleared when `recover` is high. -/
def ExecuteEntry.cancelIf (recover : Bool) (e : ExecuteEntry) : ExecuteEntry :=
  { e with valid := e.valid && !recover }

/-! ## Unused operands (R513) -/

/-- Which of the three operands an instruction uses. -/
structure OperandUse where
  rs1 : Bool
  rs2 : Bool
  rs3 : Bool
  deriving DecidableEq, Repr

/-- R513: the operands a memory operation uses. `undefined`, which raises whatever they hold (R274), uses none (DEDUCED,
assumption log 28). -/
def memoryUse (op : MemOp) : OperandUse :=
  { rs1 := decide (op ≠ .undefined), rs2 := op.inWriteSet, rs3 := false }

/-- The operands an instruction for a unit outside the block may use, by its format: RISC-V's (PRESUMED, assumption
log 28). A CSR instruction with an immediate uses none. -/
def unitUse (e : ExecuteEntry) : OperandUse :=
  match e.instructionType with
  | .R | .S | .B => { rs1 := true, rs2 := true, rs3 := false }
  | .R4 => { rs1 := true, rs2 := true, rs3 := true }
  | .I => { rs1 := !(e.opcode == 0b1110011#7 && e.func3.getLsbD 2), rs2 := false, rs3 := false }
  | .U | .J | .UNK => { rs1 := false, rs2 := false, rs3 := false }

/-- R513: an operand slot as it is enqueued: one that is not used is not pending. -/
def OperandSlot.settle (s : OperandSlot) (used : Bool) : OperandSlot := { s with pending := s.pending && used }

/-- R513: an entry as it is enqueued. -/
def ExecuteEntry.settle (e : ExecuteEntry) (u : OperandUse) : ExecuteEntry :=
  { e with rs1 := e.rs1.settle u.rs1, rs2 := e.rs2.settle u.rs2, rs3 := e.rs3.settle u.rs3 }

/-! ## Addresses (R203, R211, R212) -/

/-- R211: the effective address, 32-bit wrap-around addition. -/
def effectiveAddress (add1 add2 : Addr) : Addr := add1 + add2

/-- R137: the sign-extended 12-bit displacement. -/
def signExtend12 (imm : BitVec 12) : Addr := imm.signExtend 32

/-- The first addend, "`add1 = rs1`": the low 32 bits of the operand value (R203). -/
def lowWord (v : Data) : Addr := v.extractLsb' 0 32

/-- The high 32 bits of a 64-bit value (R257). -/
def highWord (v : Data) : Word := v.extractLsb' 32 32

/-- R212: the misalignment check, on the virtual address. -/
def misaligned (op : MemOp) (va : Addr) : Bool :=
  ((op.isWord || op.isDouble) && va.extractLsb' 0 2 != 0#2) || (op.isHalf && va.extractLsb' 0 1 != 0#1)

/-- R212: the tag the Execute stage gives. -/
def alignmentError (op : MemOp) (va : Addr) : MemoryErrorCode :=
  if misaligned op va then .misaligned else .none

/-- R223: "a pre-existing misalignment dominates any TLB error". -/
def mergeError (tag dtlb : MemoryErrorCode) : MemoryErrorCode :=
  if tag = .misaligned then .misaligned else dtlb

/-! ## The Execute Entry of an instruction (R17, R36, R37, R137) -/

/-- A known operand (R36). Its tag is meaningless: 0 (DESIGN CHOICE, assumption log 29). -/
def OperandSlot.known (v : Data) : OperandSlot := { pending := false, tag := 0, value := v }

/-- The type the decoder gives an instruction that goes to the memory queue; a word of no memory opcode
is `UNK` (R132, R142). So is a word that matches no row although its opcode and selector name an operation, which is
an atomic word with fixed bits of its row wrong (R149): the spec does not say which entry the decoder makes of it
(DESIGN CHOICE, assumption log 3). -/
def entryType (i : Instr) : InstructionType :=
  let f := encodeFields i
  match memoryType f.opcode with
  | some t => if i.memOp = some .undefined ∧ decodeOp t f.func3 f.func7 ≠ .undefined then .UNK else t
  | none => .UNK

/-- R137: the immediate the decoder assembles, for the types `I` and `S`. For any other type, `R` and `UNK` among the
entries of the memory queue, the spec leaves `imm` open and the block ignores it (R203, R204): the sign-extended
`word[31:20]` (DESIGN CHOICE, assumption log 29). -/
def entryImm (t : InstructionType) (f : Fields) : Addr :=
  match t with
  | .S => signExtend12 f.immS
  | _ => signExtend12 f.immI

/-- The Execute Entry of an instruction whose operands are known: `x` gives a register's value, `rd` is its
ROB receipt, `pc` its address; `spec = next` (R513, R516). The value of `queueKind`, which no rule reads (R37, R330),
is not in the source: 0 for the memory queue (DESIGN CHOICE, assumption log 27). At the top of the address space
`pc + 4` wraps (R32 leaves it open: DESIGN CHOICE, assumption log 22). A slot the instruction does not use, whose value
no rule reads (R204), holds the register that its field of the word names, `rs3` 0, and the entry's own `error`, which no
rule reads (R37), is `none` (DESIGN CHOICES, assumption log 29). -/
def executeEntry (i : Instr) (x : RegNum → Data) (rd : RobReceipt) (pc : Addr) : ExecuteEntry :=
  let f := encodeFields i
  { opcode := f.opcode
    instructionType := entryType i
    queueKind := 0
    rs1 := .known (x f.rs1)
    rs2 := .known (x f.rs2)
    rs3 := .zero
    rd := rd
    func3 := f.func3
    func7 := f.func7
    imm := entryImm (entryType i) f
    pc := pc
    spec := pc + 4
    next := pc + 4
    error := .none
    valid := true }

end Machine

end Sys2Proof
end

