-- ==== Sys2Proof/Machine/Flags.lean ====
section
/-! DEFINITION. The block has no status flags (R33); what an operation computes beside its address is here:
the AMO combinators and the sign table (R301, R302), result formatting (R263, R264), the exception codes
and the map from error tags (R460, R462, R465), and the Boolean fields of every kind of execute result
(R261, R262, R291, R294). -/

namespace Sys2Proof.Machine

/-! ## Combinators (R301, R302) -/

/-- R302: signed comparison by the two-bit sign table. -/
def ltS (a b : Word) : Bool :=
  match a.getLsbD 31, b.getLsbD 31 with
  | false, false => (a.extractLsb' 0 31).ult (b.extractLsb' 0 31)
  | false, true => false
  | true, false => true
  | true, true => (a.extractLsb' 0 31).ult (b.extractLsb' 0 31)

/-- R301: unsigned comparison. -/
def ltU (a b : Word) : Bool := a.ult b

/-- R301: `amoALU(op, a, b)`, `a` the old memory word. It is applied to an AMO only. -/
def amoALU (op : MemOp) (a b : Word) : Word :=
  match op with
  | .amoadd => a + b
  | .amoxor => a ^^^ b
  | .amoand => a &&& b
  | .amoor => a ||| b
  | .amomin => if ltS a b then a else b
  | .amomax => if ltS a b then b else a
  | .amominu => if ltU a b then a else b
  | .amomaxu => if ltU a b then b else a
  | _ => b

/-! ## Results (R261 to R264) -/

/-- R263: `format(op, d)`; what is not a byte or half load passes through with the upper half zero (D2). -/
def format (op : MemOp) (d : Word) : Data :=
  match op with
  | .lb => (d.extractLsb' 0 8).signExtend 64
  | .lbu => (d.extractLsb' 0 8).setWidth 64
  | .lh => (d.extractLsb' 0 16).signExtend 64
  | .lhu => (d.extractLsb' 0 16).setWidth 64
  | _ => d.setWidth 64

/-- R248: `zext_64(low n bytes of d)`, with `n` the bytes of one beat. -/
def lowBytes (t : BeatType) (d : Word) : Data :=
  match t with
  | .byte => (d.extractLsb' 0 8).setWidth 64
  | .half => (d.extractLsb' 0 16).setWidth 64
  | .word => d.setWidth 64

/-- R249: `{hi, lo}`, the result of an `ld`. -/
def joinWords (hi lo : Word) : Data := hi ++ lo

/-- R264: the data written, `wdata`. `old` is `readResult`. -/
def writeData (op : MemOp) (old op1 : Data) : Data :=
  if op.isAmo then (amoALU op (old.extractLsb' 0 32) (op1.extractLsb' 0 32)).setWidth 64 else op1

/-- R261: the fields every result of the ReadWrite stage has in common; a unit outside the block starts
from the same (R515). Where R41 gives a field no meaning and no rule gives its value (`exceptionCode` without
`exception`, `lrAddress` without `lr`, `writeID` without `write`), it is 0: DESIGN CHOICE, assumption log 25. That
`csrAddress` and `csrData` are 0 is R261's. -/
def commonResult (next : Addr) : ExecuteResult := { ExecuteResult.zero with real := next }

/-- R261: `loadResult(v)`. -/
def loadResult (next : Addr) (v : Data) : ExecuteResult := { commonResult next with result := v }

/-- R291: the result of an `lr` at the virtual address `va`. -/
def lrResult (next va : Addr) (v : Data) : ExecuteResult :=
  { commonResult next with result := v, lr := true, lrAddress := va }

/-- R294: the result of a failing `sc`. -/
def scFailResult (next : Addr) : ExecuteResult := { commonResult next with result := 1, sc := true }

/-- R261: `writeResult(op, ids)`: `v` is 0 for a store and a successful `sc`, the old word for an AMO. -/
def writeResult (next : Addr) (op : MemOp) (v : Data) (id0 id1 : SqReceipt) : ExecuteResult :=
  { commonResult next with result := v, sc := decide (op = .sc), write := true, writeID0 := id0, writeID1 := id1 }

/-- R261: the result word of a write: the old word for an AMO, 0 otherwise. -/
def writeResultWord (op : MemOp) (old : Data) : Data := if op.isAmo then old else 0

/-- R262: the result of `raise E`. -/
def raiseResult (next : Addr) (code : ExcCode) : ExecuteResult :=
  { commonResult next with exception := true, exceptionCode := code }

/-! ## Exception codes (R460) -/

/-- Code 2. -/
def illegalInstruction : ExcCode := 2
/-- Code 4. -/
def loadAddressMisaligned : ExcCode := 4
/-- Code 5. -/
def loadAccessFault : ExcCode := 5
/-- Code 6. -/
def storeAMOAddressMisaligned : ExcCode := 6
/-- Code 7. -/
def storeAMOAccessFault : ExcCode := 7
/-- Code 13. -/
def loadPageFault : ExcCode := 13
/-- Code 15. -/
def storeAMOPageFault : ExcCode := 15

/-- R462: `mapError(op, error)` for an error tag; `none` when there is no error. -/
def mapError (op : MemOp) (e : MemoryErrorCode) : Option ExcCode :=
  match e with
  | .none => none
  | .misaligned => some (if op.isRead then loadAddressMisaligned else storeAMOAddressMisaligned)
  | .pageFault => some (if op.isRead then loadPageFault else storeAMOPageFault)
  | .memoryFault => some (if op.isRead then loadAccessFault else storeAMOAccessFault)

/-- R244, R465: what the dispatch raises for an entry, `illegalInstruction` first. -/
def dispatchException (op : MemOp) (e : MemoryErrorCode) : Option ExcCode :=
  if op = .undefined then some illegalInstruction else mapError op e

end Sys2Proof.Machine
end

