-- ==== Sys2Proof/Machine/Ops.lean ====
section
/-! DEFINITION. The named operations over the environment's state: memory (R80, R84), the store queue and
its bypass (R90, R91, R434, R517, R518), the SMA responder (R82), the DTLB (R94, R525), the register file
(R430), the ROB (R402, R403, R512), the broadcast bus (R336, R514), what the units
outside the block report (R515), the flush sinks (R522); and, shared by every
instruction, taking an exception (R420, R468) and returning from one (R421, R476). -/

namespace Sys2Proof.Machine

/-! ## Memory (R80) -/

/-- What an address no entry lists reads as: 0 (R93 leaves the contents to the platform; DESIGN CHOICE,
assumption log 5). -/
def unlistedByte : Byte := 0

/-- The byte at an address. -/
def Memory.read (m : Memory) (a : Nat) : Byte :=
  match m with
  | [] => unlistedByte
  | (b, w) :: rest => if a = b then w else Memory.read rest a

/-- The memory with no cell for an address. -/
def Memory.erase (m : Memory) (a : Nat) : Memory :=
  match m with
  | [] => []
  | (b, w) :: rest => if a = b then Memory.erase rest a else (b, w) :: Memory.erase rest a

/-- The memory with a cell put before the first one of a higher address. -/
def Memory.insert (m : Memory) (a : Nat) (v : Byte) : Memory :=
  match m with
  | [] => [(a, v)]
  | (b, w) :: rest => if a < b then (a, v) :: (b, w) :: rest else (b, w) :: Memory.insert rest a v

/-- The memory after a byte is written; the canonical form is kept, so the unlisted byte is not listed. -/
def Memory.write (m : Memory) (a : Nat) (v : Byte) : Memory :=
  if v = unlistedByte then m.erase a else (m.erase a).insert a v

/-- Every listed address is at least `lo`, addresses rise strictly, no listed byte is the unlisted one. -/
def Memory.wfFrom (lo : Nat) (m : Memory) : Bool :=
  match m with
  | [] => true
  | (b, w) :: rest =>
    decide (lo ≤ b) && decide (b < 2 ^ 32) && w != unlistedByte && Memory.wfFrom (b + 1) rest

/-- The canonical form. -/
def Memory.wf (m : Memory) : Bool := Memory.wfFrom 0 m

/-! ## Store-queue entries (R44, R90) -/

/-- The byte an entry stores at `a`: byte `k` of the data word at `address + k` for `k` below the width
(R90). -/
def StoreQueueEntry.byteAt (e : StoreQueueEntry) (a : Addr) : Option Byte :=
  if (a - e.address).toNat < e.writeType.bytes then some (byteOfWord e.data (a - e.address).toNat) else none

/-- R91: the byte of the youngest entry that covers `a`; entries are oldest first. -/
def youngestByte (es : List StoreQueueEntry) (a : Addr) : Option Byte :=
  match es with
  | [] => none
  | e :: rest =>
    match youngestByte rest a with
    | some b => some b
    | none => e.byteAt a

/-- The memory after the first `n` bytes of an entry are written, the lowest address first. -/
def Memory.writeBytes (m : Memory) (a : Addr) (data : Word) (n : Nat) : Memory :=
  match n with
  | 0 => m
  | k + 1 => (Memory.writeBytes m a data k).write (a + BitVec.ofNat 32 k).toNat (byteOfWord data k)

/-- The memory after an entry has been written to it. -/
def Memory.writeEntry (m : Memory) (e : StoreQueueEntry) : Memory :=
  Memory.writeBytes m e.address e.data e.writeType.bytes

/-- The addresses the first `n` bytes of a beat cover. -/
def beatAddresses (a : Addr) (n : Nat) : List Nat :=
  (List.range n).map fun k => (a + BitVec.ofNat 32 k).toNat

/-! ## The store queue (R90, R91, R434, R517, R518) -/

/-- R91, R518: the answer on the bypass port for the window `a .. a+3`; a data byte whose strobe is clear is
never looked at (R182). -/
def StoreQueue.bypass (q : StoreQueue) (a : Addr) : BypassResp :=
  let b (k : Nat) : Option Byte := youngestByte q.entries (a + BitVec.ofNat 32 k)
  { data := (b 3).getD 0 ++ (b 2).getD 0 ++ (b 1).getD 0 ++ (b 0).getD 0
    strobe := BitVec.ofBool (b 3).isSome ++ BitVec.ofBool (b 2).isSome ++ BitVec.ofBool (b 1).isSome
      ++ BitVec.ofBool (b 0).isSome }

/-- R90: the id handed out next is that of no entry, so an allocation can be taken. -/
def StoreQueue.idFree (q : StoreQueue) : Bool := q.entries.all fun e => e.id != q.nextId

/-- R90: the `n` receipts handed out next are those of no entry. -/
def StoreQueue.idsFree (q : StoreQueue) (idW n : Nat) : Bool :=
  (List.range n).all fun k => q.entries.all fun e => e.id != (q.nextId + k) % 2 ^ idW

/-- R90: the queue after an allocation, which gives the receipt `q.nextId`; the entry's retire flag is
false. -/
def StoreQueue.alloc (q : StoreQueue) (idW : Nat) (r : AllocReq) : StoreQueue where
  entries := q.entries ++
    [{ id := q.nextId, writeType := r.writeType, address := r.address, data := r.data, retired := false }]
  nextId := (q.nextId + 1) % 2 ^ idW

/-- R434: the queue after a commit of the two receipts of a slot. -/
def StoreQueue.commit (q : StoreQueue) (c : Option SqRetire) : StoreQueue :=
  match c with
  | none => q
  | some r =>
    { q with entries := q.entries.map fun e =>
        { e with retired := e.retired || e.id == r.id0 || e.id == r.id1 } }

/-- R517: on `recover` "discards every entry whose retire flag is still false". -/
def StoreQueue.discardIf (q : StoreQueue) (recover : Bool) : StoreQueue :=
  if recover then { q with entries := q.entries.filter fun e => e.retired } else q

/-- The bytes an entry overwrites when it is written to memory, with their addresses. -/
def Memory.overwritten (m : Memory) (e : StoreQueueEntry) : List Host.Cell :=
  (beatAddresses e.address e.writeType.bytes).map fun a => (a, m.read a)

/-- What a drain leaves: the entries still queued, memory, and the overwritten bytes. -/
structure Drained where
  entries : List StoreQueueEntry
  mem : Memory
  stale : List Host.Cell
  deriving DecidableEq, Repr

/-- R90: "an entry whose retire flag is set is written to memory in allocation order": at most `limit` of the
oldest entries, as long as they are retired. -/
def drainEntries (es : List StoreQueueEntry) (limit : Option Nat) (m : Memory) (st : List Host.Cell) :
    Drained :=
  match es with
  | [] => { entries := [], mem := m, stale := st }
  | e :: rest =>
    if e.retired && limit != some 0 then
      drainEntries rest (limit.map fun n => n - 1) (m.writeEntry e) (m.overwritten e ++ st)
    else { entries := e :: rest, mem := m, stale := st }

/-- The environment after the store queue has drained. -/
def Env.drain (env : Env) (limit : Option Nat) : Env :=
  let d := drainEntries env.sq.entries limit env.mem env.stale
  ((env.withSq { env.sq with entries := d.entries }).withMem d.mem).withStale d.stale

/-- The environment after a slot's store commit (R434). -/
def Env.commit (env : Env) (c : Option SqRetire) : Env := env.withSq (env.sq.commit c)

/-- The environment after the store queue's part of a `recover` (R517). -/
def Env.discardIf (env : Env) (recover : Bool) : Env := env.withSq (env.sq.discardIf recover)

/-! ## Reading (R82, R182) -/

/-- R82: the data of an SMA read: the low bytes are memory's, the bytes above the size are `pad`. -/
def smaByte (m : Memory) (a : Addr) (t : BeatType) (pad : Word) (k : Nat) : Byte :=
  if k < t.bytes then m.read (a + BitVec.ofNat 32 k).toNat else byteOfWord pad k

/-- R82: the data word of an SMA read. -/
def smaData (m : Memory) (a : Addr) (t : BeatType) (pad : Word) : Word :=
  smaByte m a t pad 3 ++ smaByte m a t pad 2 ++ smaByte m a t pad 1 ++ smaByte m a t pad 0

/-- R182: byte `k` of the overlay. -/
def overlayByte (b : BypassResp) (data : Word) (k : Nat) : Byte :=
  if b.strobe.getLsbD k then byteOfWord b.data k else byteOfWord data k

/-- R182: the bypass layer's response path. -/
def overlay (b : BypassResp) (data : Word) : Word :=
  overlayByte b data 3 ++ overlayByte b data 2 ++ overlayByte b data 1 ++ overlayByte b data 0

/-- R82, R183, R524: what a read answers in its `ready` tick; the data of an error is `pad` (I8). -/
def Env.smaAnswer (env : Env) (r : SmaReq) (pad : Word) : SmaAnswer :=
  if env.smaErrors.contains r.address then { data := pad, error := true }
  else { data := smaData env.mem r.address r.readType pad, error := false }

/-- R524: the environment after the memory has come to answer an error at other addresses, if it does. -/
def Env.refault (env : Env) (addresses : Option (List Addr)) : Env :=
  match addresses with
  | none => env
  | some l => env.withSmaErrors l

/-! ## Translation (R94, R520, R525) -/

/-- The tag on the DTLB port of a translation's error (R94, R134). -/
def TranslationError.tag (e : TranslationError) : MemoryErrorCode :=
  match e with
  | .none => .none
  | .pageFault => .pageFault
  | .memoryFault => .memoryFault

/-- R94: the answer a line gives. -/
def TlbLine.answer (l : TlbLine) : DtlbAnswer := { paddress := l.paddress, error := l.error.tag }

/-- A line is about a request. -/
def TlbLine.matches (l : TlbLine) (r : DtlbReq) : Bool := l.vaddress == r.vaddress && l.write == r.write

/-- R94, R520: the line of the page tables for a request; one no line names maps to itself. -/
def Env.mappedLine (env : Env) (r : DtlbReq) : TlbLine :=
  match env.dtlb.find? (fun l => l.matches r) with
  | some l => l
  | none => { vaddress := r.vaddress, write := r.write, paddress := r.vaddress, error := .none }

/-- R94, R520: what the page tables give for a request. -/
def Env.mapping (env : Env) (r : DtlbReq) : DtlbAnswer := (env.mappedLine r).answer

/-- R94, R520, R525 (c): what the DTLB answers to a request: by the page tables, or by one of the lines that were
in force since the last TLB flush. -/
def Env.translate (env : Env) (r : DtlbReq) (age : Nat) : DtlbAnswer :=
  (env.mapping r :: (env.superseded.filter fun l => l.matches r).map fun l => l.answer).getD age (env.mapping r)

/-- The environment after one line of the page tables has changed; the replaced line may stay in the DTLB. -/
def Env.remapLine (env : Env) (l : TlbLine) : Env :=
  let old := env.mappedLine { vaddress := l.vaddress, write := l.write }
  if old = l then env else env.withDtlb (l :: env.dtlb) (old :: env.superseded)

/-- R525 (c): the environment after a change of the page tables. -/
def Env.remap (env : Env) (lines : List TlbLine) : Env := lines.foldl Env.remapLine env

/-- R103: the byte a load of this hart sees at a physical address: the youngest store-queue entry's, else
memory's. -/
def Env.loadByte (env : Env) (a : Addr) : Byte :=
  match youngestByte env.sq.entries a with
  | some b => b
  | none => env.mem.read a.toNat

/-- R108: the bytes an instruction fetch may see at an address, memory's first, then those that stores overwrote
since the last flush of both caches. -/
def Env.fetchBytes (env : Env) (a : Addr) : List Byte :=
  env.mem.read a.toNat :: (env.stale.filter fun c => c.1 == a.toNat).map fun c => c.2

/-- R108: the byte an instruction fetch sees at an address. -/
def Env.fetchByte (env : Env) (a : Addr) (age : Nat) : Byte :=
  (env.fetchBytes a).getD age (env.mem.read a.toNat)

/-- The instruction word fetched at `pc`; the fetch path is outside the block (R80, R84; assumption log 3). The
addresses of its bytes wrap at the top of the address space (R32 leaves it open: DESIGN CHOICE, assumption log 22). -/
def Env.fetchWord (env : Env) (ages : List Nat) : BitVec 32 :=
  let b (k : Nat) : Byte := env.fetchByte (env.pc + BitVec.ofNat 32 k) (ages.getD k 0)
  wordOfBytes (b 0) (b 1) (b 2) (b 3)

/-! ## The register file (R430, R31) -/

/-- A register's value; register 0 reads as zero (R31, PRESUMED, assumption log 4). -/
def readReg (x : Vector Data 32) (r : RegNum) : Data :=
  if r = 0 then 0 else x[r.toNat]'(r.isLt)

/-- The register file after a write; a write of register 0 is dropped (R31, R430). -/
def writeReg (x : Vector Data 32) (r : RegNum) (v : Data) : Vector Data 32 :=
  if r = 0 then x else x.set r.toNat v r.isLt

/-- R430: a register update, which is ignored "when there is no destination". -/
def applyUpdate (x : Vector Data 32) (u : Option RegUpdate) (dest : RobReceipt → Option RegNum) :
    Vector Data 32 :=
  match u with
  | none => x
  | some r =>
    match dest r.rd with
    | none => x
    | some d => writeReg x d r.result

/-- R430: "the environment applies slot 0 first". -/
def Env.applyUpdates (env : Env) (o : EngineOut) (dest : RobReceipt → Option RegNum) : Env :=
  env.withX (applyUpdate (applyUpdate env.x o.reg0 dest) o.reg1 dest)

/-! ## The ROB (R402, R403, R512) -/

/-- The ROB receipt `{row, slot}` (R402, D43). -/
def robReceipt (row : RobRow31) (s : Slot) : RobReceipt :=
  match s with
  | .slot0 => row ++ 0#1
  | .slot1 => row ++ 1#1

/-- The row of a receipt. -/
def receiptRow (rd : RobReceipt) : RobRow31 := rd.extractLsb' 1 31

/-- The slot of a receipt. -/
def receiptSlot (rd : RobReceipt) : Slot := if rd.getLsbD 0 then .slot1 else .slot0

/-- An entry of a row. -/
def RobRow.at (r : RobRow) (s : Slot) : RobSlot :=
  match s with
  | .slot0 => r.slot0
  | .slot1 => r.slot1

/-- A row with one entry changed. -/
def RobRow.modify (r : RobRow) (s : Slot) (f : RobSlot → RobSlot) : RobRow :=
  match s with
  | .slot0 => { r with slot0 := f r.slot0 }
  | .slot1 => { r with slot1 := f r.slot1 }

/-- The entries of rows that are numbered from `row` on, by receipt. -/
def tableFrom (row : RobRow31) (rows : List RobRow) : List (RobReceipt × RobRetireEntry) :=
  match rows with
  | [] => []
  | w :: rest =>
    (robReceipt row .slot0, w.slot0.entry) :: (robReceipt row .slot1, w.slot1.entry) :: tableFrom (row + 1) rest

/-- R402: `tableRetire.entries[]`, the view of the ROB that the retirement engine reads, by receipt. -/
def Rob.table (r : Rob) : List (RobReceipt × RobRetireEntry) := tableFrom r.head r.rows

/-- R402: the entry of a view at a receipt; one the view does not hold is unallocated. -/
def entryAt (table : List (RobReceipt × RobRetireEntry)) (rd : RobReceipt) : RobRetireEntry :=
  match table with
  | [] => .zero
  | (r, e) :: rest => if r = rd then e else entryAt rest rd

/-- R402: slot 0 of the row on `retired.row`, entry `2 * row + 0` of the view. -/
def BlockInput.e0 (i : BlockInput) : RobRetireEntry := entryAt i.tableRetire (robReceipt i.retiredRow .slot0)

/-- R402: slot 1 of the row on `retired.row`, entry `2 * row + 1` of the view. -/
def BlockInput.e1 (i : BlockInput) : RobRetireEntry := entryAt i.tableRetire (robReceipt i.retiredRow .slot1)

/-- Where the row of a receipt stands in the list of rows. -/
def Rob.position (r : Rob) (rd : RobReceipt) : Nat := (receiptRow rd - r.head).toNat

/-- The slot of a receipt; `none` when its row is not in the ROB. -/
def Rob.slotAt (r : Rob) (rd : RobReceipt) : Option RobSlot :=
  r.rows[r.position rd]?.map fun row => row.at (receiptSlot rd)

/-- The destination register behind a receipt (R430). -/
def Rob.dest (r : Rob) (rd : RobReceipt) : Option RegNum := (r.slotAt rd).bind fun s => s.dest

/-- The ROB with the slot of a receipt changed. -/
def Rob.modify (r : Rob) (rd : RobReceipt) (f : RobSlot → RobSlot) : Rob :=
  { r with rows := r.rows.modify (r.position rd) fun row => row.modify (receiptSlot rd) f }

/-- R41, R10: a result whose store-queue receipts have `idW` bits. -/
def ExecuteResult.narrow (idW : Nat) (r : ExecuteResult) : ExecuteResult :=
  { r with writeID0 := r.writeID0 % 2 ^ idW, writeID1 := r.writeID1 % 2 ^ idW }

/-- R512 (b): an entry takes a result and sets `commit`; an entry that is not valid ignores it (e). The spec does
not say what a second result for a committed entry does: the first one stays (DESIGN CHOICE, assumption log 14). -/
def RobSlot.store (s : RobSlot) (res : ExecuteResult) : RobSlot :=
  if s.entry.valid && !s.entry.commit then
    { s with entry := { s.entry with commit := true, executeResult := res } }
  else s

/-- R512 (b): the ROB after a result for the entry `rd`. -/
def Rob.report (r : Rob) (idW : Nat) (rd : RobReceipt) (res : ExecuteResult) : Rob :=
  r.modify rd fun s => s.store (res.narrow idW)

/-- R516: the prediction recorded for an instruction: the front end's when it can transfer control, else `next`. -/
def RobSlot.prediction (s : RobSlot) : Addr := if s.kind = .control then s.entry.spec else s.next

/-- R512 (b), R516: a slot as it is minted: `commit = false`, `rd` its own receipt, `spec` as R516 says. -/
def RobSlot.minted (s : RobSlot) (idW : Nat) (rd : RobReceipt) : RobSlot :=
  { s with
      entry := { s.entry with
        commit := false, rd := rd, spec := s.prediction, executeResult := s.entry.executeResult.narrow idW }
      bubble := false }

/-- The number of the row the ROB allocates next. -/
def Rob.nextRow (r : Rob) : RobRow31 := r.head + BitVec.ofNat 31 r.rows.length

/-- R512 (a), R402: a row that is offered is allocated when it has a valid entry and its number, of 31 bits, is not that
of another row (the bound: DESIGN CHOICE, assumption log 14). -/
def Rob.mintable (r : Rob) (row : Option RobRow) : Bool :=
  match row with
  | none => false
  | some w => (w.slot0.entry.valid || w.slot1.entry.valid) && decide (r.rows.length + 1 < 2 ^ 31)

/-- R512 (a), (b): the ROB after a row is allocated. -/
def Rob.mint (r : Rob) (idW : Nat) (row : Option RobRow) : Rob :=
  match row with
  | none => r
  | some w =>
    if r.mintable row then
      { r with rows := r.rows ++
          [{ slot0 := w.slot0.minted idW (robReceipt r.nextRow .slot0)
             slot1 := w.slot1.minted idW (robReceipt r.nextRow .slot1) }] }
    else r

/-- R403, R512 (d): on `recover` every entry is freed, on `retired.ready` the oldest row. New rows take numbers
no freed row had. -/
def Rob.free (r : Rob) (ready recover : Bool) : Rob :=
  if recover then { head := r.nextRow, rows := [] }
  else if ready then { head := r.head + 1, rows := r.rows.tail }
  else r

/-! ## The broadcast bus (R336, R514) -/

/-- A lane that carries nothing. -/
def BroadcastLane.idle : BroadcastLane := { valid := false, tag := 0, value := 0 }

/-- R336, R260: the lane of the result word `value` of the instruction `rd`. -/
def BroadcastLane.of (rd : RobReceipt) (value : Data) : BroadcastLane := { valid := true, tag := rd, value := value }

/-- The numbers of the results that `nb` lanes carry: lane `k` that of `order`, or `k` where `order` ends. -/
def lanePicks (nb : Nat) (order : List Nat) : List Nat := (List.range nb).map fun k => order.getD k k

/-- The lanes that carry the results `picks` of `sources`; a number that names none leaves its lane idle. -/
def pickLanes (sources : List BroadcastLane) (picks : List Nat) : List BroadcastLane :=
  picks.map fun n => sources.getD n .idle

/-- The results that `picks` leaves waiting. -/
def leftOver (sources : List BroadcastLane) (picks : List Nat) : List BroadcastLane :=
  (sources.zipIdx.filter fun p => !picks.contains p.2).map fun p => p.1

/-- The result word of an instruction, where the bus has carried it or is to carry it. -/
def Bus.word (b : Bus) (rd : RobReceipt) : Option Data :=
  ((b.unsent ++ b.heard).find? fun l => l.valid && l.tag == rd).map fun l => l.value

/-- The bus with one more result that waits for a lane. -/
def Bus.queue (b : Bus) (l : BroadcastLane) : Bus := { b with unsent := b.unsent ++ [l] }

/-- The bus after a lane has carried one result while nothing waits for another. -/
def Bus.carry (b : Bus) (l : BroadcastLane) : Bus := { b with heard := l :: b.heard }

/-- R514: the bus after the lanes of a tick; `fresh` are the tags that were given out again. -/
def Bus.after (b : Bus) (lanes unsent : List BroadcastLane) (fresh : List RobReceipt) : Bus where
  unsent := unsent
  heard := (lanes.filter (fun l => l.valid) ++ b.heard).filter fun l => !fresh.contains l.tag

/-! ## The functional units outside the block (R336, R512, R515) -/

/-- R515: a result held to what the unit of an instruction of the kind `k` with the fall-through `next` sets: `real` is
`next` for an instruction that does not transfer control, `branch` is `real != next` for branches and jumps, each
special flag is its kind's, and those of the memory pipeline are no unit's. -/
def ExecuteResult.conform (r : ExecuteResult) (k : UnitKind) (next : Addr) : ExecuteResult :=
  { r with
      real := if k = .control then r.real else next
      branch := decide (k = .control ∧ r.real ≠ next)
      writeCSR := r.writeCSR && decide (k = .csr)
      xret := r.xret && decide (k = .xret)
      flushDCache := r.flushDCache && decide (k = .fence)
      flushICache := r.flushICache && decide (k = .fence)
      flushTLB := r.flushTLB && decide (k = .fence)
      sc := false
      lr := false
      write := false }

/-- R512, R515: an instruction for which a unit outside the block may give a result: it is in flight, it has none yet,
it is not the memory pipeline's, and the unit was not handed a bubble for it. -/
def RobSlot.awaits (s : RobSlot) : Bool :=
  s.entry.valid && !s.entry.commit && decide (s.kind ≠ .memory) && !s.bubble

/-- R512 (e), R515: the slot of a receipt for which a unit outside the block may give a result. -/
def Rob.awaiting (r : Rob) (rd : RobReceipt) : Option RobSlot := (r.slotAt rd).filter RobSlot.awaits

/-- R336: the environment after a unit outside the block has sent its result word to the bus and not yet reported the
result. A word for no instruction that awaits one, or a second one, is not there (R512 (e), R515). -/
def Env.announce (env : Env) (l : BroadcastLane) : Env :=
  if l.valid && (env.rob.awaiting l.tag).isSome && (env.bus.word l.tag).isNone then
    env.withBus (env.bus.queue l)
  else env

/-- R515, R336: the result a unit outside the block reports for the instruction of a slot: as R515 says, and with the
word that was broadcast, if one was. -/
def RobSlot.resultOf (s : RobSlot) (word : Option Data) (r : ExecuteResult) : ExecuteResult :=
  { r.conform s.kind s.next with result := word.getD r.result }

/-- R336, R512 (b), (e), R515: the environment after a unit outside the block has reported a result: the ROB has it, and
its word is to be broadcast, unless it was before. A result for no instruction that awaits one is not there. -/
def Env.report (idW : Nat) (env : Env) (u : UnitReport) : Env :=
  match env.rob.awaiting u.rd with
  | none => env
  | some s =>
    let word := env.bus.word u.rd
    let r := s.resultOf word u.result
    (env.withRob (env.rob.report idW u.rd r)).withBus
      (if word.isSome then env.bus else env.bus.queue (BroadcastLane.of u.rd r.result))

/-- The environment after what the units outside the block give in a tick: the words they announce, then the results
they report. -/
def Env.reportAll (idW : Nat) (env : Env) (lanes : List BroadcastLane) (results : List UnitReport) : Env :=
  results.foldl (Env.report idW) (lanes.foldl Env.announce env)

/-- R515: the ROB after a unit outside the block has been handed an entry: it remembers whether that was a bubble. -/
def Rob.handOver (r : Rob) (e : ExecuteEntry) : Rob := r.modify e.rd fun s => { s with bubble := !e.valid }

/-! ## The flush sinks (R445, R519, R522) -/

/-- R522: the `empty` wire of a sink; `moves` says that it drops or raises the wire if it may, `clear` that nothing
it must wait for is left (R519). -/
def SinkState.empty (k : SinkState) (req moves clear : Bool) : Bool :=
  match k with
  | .idle => !(req && moves)
  | .draining => moves && clear
  | .done => true

/-- R522: the next state of a sink that showed `empty`. -/
def SinkState.next (k : SinkState) (req empty : Bool) : SinkState :=
  match k with
  | .idle => if empty then .idle else .draining
  | .draining => if empty then if req then .done else .idle else .draining
  | .done => if req then .done else .idle

/-! ## Taking an exception and returning from one -/

/-- R420, R468: taking an exception, as far as the block goes: `exc` names the instruction's `pc` and the code,
`recover` redirects to `handlerPC`. No register, CSR, predictor, reservation or store-commit update. -/
def takeException (pc : Addr) (code : ExcCode) (handlerPC : Addr) (o : EngineOut) : EngineOut :=
  { o with exc := some { pc := pc, code := code }, recover := some handlerPC }

/-- R421, R476: an xRET: `xret` and `recover` to `handlerPC`, no other update. -/
def returnFromException (handlerPC : Addr) (o : EngineOut) : EngineOut :=
  { o with xret := true, recover := some handlerPC }

end Sys2Proof.Machine
end

