-- ==== Sys2Proof/Machine/Retire.lean ====
section
/-! DEFINITION. The retirement engine (`46_retirement.md`): firing (R405), dispositions (R410), the outputs of
each (R420 to R438), the evaluation of a row (R406, R427), and the flush machine (R444 to R449). -/

namespace Sys2Proof.Machine

/-- The six dispositions of R410. -/
inductive Disposition where
  | exception | xret | csrWrite | mispredict | flush | normal
  deriving DecidableEq, Repr

/-- R410: the priority-ranked disposition of a valid, committed slot. -/
def disposition (x : RobRetireEntry) : Disposition :=
  let r := x.executeResult
  if r.exception then .exception
  else if r.xret then .xret
  else if r.writeCSR then .csrWrite
  else if x.spec ≠ r.real then .mispredict
  else if r.flushDCache || r.flushICache || r.flushTLB then .flush
  else .normal

/-- The outputs with the register update port of a slot driven (R430). -/
def driveReg (s : Slot) (x : RobRetireEntry) (o : EngineOut) : EngineOut :=
  match s with
  | .slot0 => { o with reg0 := some { rd := x.rd, result := x.executeResult.result } }
  | .slot1 => { o with reg1 := some { rd := x.rd, result := x.executeResult.result } }

/-- R432: the predictor update of a slot, `jump = branch`. -/
def predOf (x : RobRetireEntry) : PredUpdate :=
  { pc := x.pc, jump := x.executeResult.branch, target := x.executeResult.real }

/-- The outputs with the predictor update port of a slot driven (R432). -/
def drivePred (s : Slot) (x : RobRetireEntry) (o : EngineOut) : EngineOut :=
  match s with
  | .slot0 => { o with pred0 := some (predOf x) }
  | .slot1 => { o with pred1 := some (predOf x) }

/-- R434: the outputs with the store commit port of a slot driven, `en = write`. -/
def driveCommit (s : Slot) (x : RobRetireEntry) (o : EngineOut) : EngineOut :=
  if x.executeResult.write then
    match s with
    | .slot0 => { o with sq0 := some { id0 := x.executeResult.writeID0, id1 := x.executeResult.writeID1 } }
    | .slot1 => { o with sq1 := some { id0 := x.executeResult.writeID0, id1 := x.executeResult.writeID1 } }
  else o

/-- R433: the load-reservation update of a Normal slot; a later slot's wins because it is applied later. -/
def driveReservation (x : RobRetireEntry) (o : EngineOut) : EngineOut :=
  if x.executeResult.lr || x.executeResult.sc then
    { o with lrUpdate := some { load := x.executeResult.lr, address := x.executeResult.lrAddress } }
  else o

/-- R422: the CSR write disposition. -/
def retireCsrWrite (s : Slot) (x : RobRetireEntry) (o : EngineOut) : EngineOut :=
  { driveReg s x o with
      csrWrite := some { address := x.executeResult.csrAddress, data := x.executeResult.csrData }
      recover := some x.executeResult.real }

/-- R424: the Mispredict disposition. -/
def retireMispredict (s : Slot) (x : RobRetireEntry) (o : EngineOut) : EngineOut :=
  { drivePred s x (driveReg s x o) with recover := some x.executeResult.real }

/-- R425: the Normal disposition; the predictor is updated when `branch` (R432). -/
def retireNormal (s : Slot) (x : RobRetireEntry) (o : EngineOut) : EngineOut :=
  let o := driveCommit s x (driveReservation x (driveReg s x o))
  if x.executeResult.branch then drivePred s x o else o

/-- R438: the outputs of a slot by its disposition, on top of what an older slot drives. The entry tick of a
flush drives nothing (R426). -/
def retireSlot (s : Slot) (x : RobRetireEntry) (handlerPC : Addr) (o : EngineOut) : EngineOut :=
  match disposition x with
  | .exception => takeException x.pc x.executeResult.exceptionCode handlerPC o
  | .xret => returnFromException handlerPC o
  | .csrWrite => retireCsrWrite s x o
  | .mispredict => retireMispredict s x o
  | .flush => o
  | .normal => retireNormal s x o

/-- What the evaluation of a row gives: the outputs, and the slot whose flush begins (R426). -/
structure RowOut where
  out : EngineOut
  flush : Option Slot
  deriving DecidableEq, Repr

/-- The end of a row that was consumed: `retired.ready` (R427). -/
def rowDone (o : EngineOut) : RowOut := { out := { o with retiredReady := true }, flush := none }

/-- R406, R427: slot 1, after slot 0 left the outputs `o` and let the evaluation go on. -/
def retireSecond (e1 : RobRetireEntry) (handlerPC : Addr) (o : EngineOut) : RowOut :=
  if e1.valid then
    match disposition e1 with
    | .flush => { out := o, flush := some .slot1 }
    | _ => rowDone (retireSlot .slot1 e1 handlerPC o)
  else rowDone o

/-- R406, R427: the evaluation of a row; dispositions 1 to 5 of slot 0 stop it. -/
def retireRow (e0 e1 : RobRetireEntry) (handlerPC : Addr) : RowOut :=
  if e0.valid then
    match disposition e0 with
    | .normal => retireSecond e1 handlerPC (retireSlot .slot0 e0 handlerPC .idle)
    | .flush => { out := .idle, flush := some .slot0 }
    | _ => rowDone (retireSlot .slot0 e0 handlerPC .idle)
  else retireSecond e1 handlerPC .idle

/-- R405: a slot that may be evaluated. -/
def slotOk (x : RobRetireEntry) : Bool := x.commit || !x.valid

/-- R405: `fireNow`. -/
def fireNow (ret : RetireRegs) (i : BlockInput) : Bool :=
  decide (ret.state = .retire) && i.retiredValid && slotOk i.e0 && slotOk i.e1

/-- R444: of the two results on `tableRetire`, the one whose flags a flush reads. -/
def flushOf (ret : RetireRegs) (r0 r1 : ExecuteResult) : ExecuteResult :=
  match ret.flushID with
  | .slot0 => r0
  | .slot1 => r1

/-- R444: the result whose flags a flush reads, in every tick of the flush. -/
def flushResult (ret : RetireRegs) (i : BlockInput) : ExecuteResult :=
  flushOf ret i.e0.executeResult i.e1.executeResult

/-- What the engine gives in a tick: outputs and next registers. -/
structure EngineTick where
  out : EngineOut
  next : RetireRegs
  deriving DecidableEq, Repr

/-- R446: `advance` of a flush state. -/
def flushAdvance (flag busySeen empty : Bool) : Bool := !flag || (busySeen && empty)

/-- R446: the next registers of a flush state that goes to `after` when it advances. -/
def flushNext (ret : RetireRegs) (flag empty : Bool) (after : RetState) : RetireRegs :=
  if flushAdvance flag ret.busySeen empty then { ret with state := after, busySeen := false }
  else { ret with busySeen := ret.busySeen || !empty }

/-- R449: the outputs of the tick in which the flush ends. -/
def flushEnd (f : ExecuteResult) (o : EngineOut) : EngineOut :=
  { o with recover := some f.real, retiredReady := true }

/-- R405, R426, R446, R449: the engine in a tick. -/
def engineTick (ret : RetireRegs) (i : BlockInput) : EngineTick :=
  match ret.state with
  | .retire =>
    if fireNow ret i then
      let r := retireRow i.e0 i.e1 i.handlerPC
      match r.flush with
      | some s => { out := r.out, next := { state := .dcache, flushID := s, busySeen := false } }
      | none => { out := r.out, next := ret }
    else { out := .idle, next := ret }
  | .dcache =>
    let f := flushResult ret i
    { out := { EngineOut.idle with dCacheReq := f.flushDCache }
      next := flushNext ret f.flushDCache i.dCacheEmpty .icache }
  | .icache =>
    let f := flushResult ret i
    { out := { EngineOut.idle with iCacheReq := f.flushICache }
      next := flushNext ret f.flushICache i.iCacheEmpty .tlb }
  | .tlb =>
    let f := flushResult ret i
    let o := { EngineOut.idle with tlbReq := f.flushTLB }
    { out := if flushAdvance f.flushTLB ret.busySeen i.tlbEmpty then flushEnd f o else o
      next := flushNext ret f.flushTLB i.tlbEmpty .retire }

/-! ## Load-reservation tracker (`45_load_reservation.md`) -/

/-- R386: the recovery copy after the update interface. -/
def nextRecovery (rec : LoadReservationEntry) (u : Option LrUpdate) : LoadReservationEntry :=
  match u with
  | none => rec
  | some l => if l.load then { address := l.address, valid := true } else { rec with valid := false }

/-- What the ReadWrite stage asks of the tracker in a tick (R381). -/
inductive ReservationEvent where
  /-- An `lr` completes at this virtual address (R384). -/
  | set (address : Addr)
  /-- An `sc` completes (R385). -/
  | clear
  /-- Neither. -/
  | none
  deriving DecidableEq, Repr

/-- R384, R385: the speculative copy after an event, without `recover`. -/
def applyReservation (spec : LoadReservationEntry) (e : ReservationEvent) : LoadReservationEntry :=
  match e with
  | .set a => { address := a, valid := true }
  | .clear => { spec with valid := false }
  | .none => spec

/-- R387, R388: the speculative copy after a tick; `rec'` is the recovery copy's next value. -/
def nextSpeculative (spec rec' : LoadReservationEntry) (recover : Bool) (e : ReservationEvent) :
    LoadReservationEntry :=
  if recover then rec' else applyReservation spec e

end Sys2Proof.Machine
end

