-- ==== Sys2Proof/Machine/ExecuteQueue.lean ====
section
/-! DEFINITION. The execute queue in both variants (`44_execute_queue.md`): the in-order circular buffer (R338,
R339) and the out-of-order chain of double-buffer cells (R350 to R357). -/

namespace Sys2Proof.Machine

/-! ## In-order variant (R338, R339) -/

/-- R338: `head = wake(buf[rptr])`. -/
def InOrderQueue.headEntry (q : InOrderQueue) (lanes : List BroadcastLane) : ExecuteEntry :=
  wake lanes (q.buf.getD q.rptr .zero)

/-- R338: `enq.ready = !fullF`. -/
def InOrderQueue.enqReady (q : InOrderQueue) : Bool := !q.fullF

/-- R338: `deq`, `none` when `deq.valid` is low. -/
def InOrderQueue.deq (q : InOrderQueue) (lanes : List BroadcastLane) : Option ExecuteEntry :=
  if !q.emptyF && fireable (q.headEntry lanes) then some (q.headEntry lanes) else none

/-- R339: the entries at the tick edge: all woken, the accepted one stored, `valid` cleared on `recover`. -/
def InOrderQueue.nextBuf (q : InOrderQueue) (lanes : List BroadcastLane) (accepted : Option ExecuteEntry)
    (recover : Bool) : List ExecuteEntry :=
  let woken := q.buf.map (wake lanes)
  let stored := match accepted with
    | some e => woken.set q.wptr (wake lanes e)
    | none => woken
  stored.map (ExecuteEntry.cancelIf recover)

/-- R339: a pointer moved on by one, modulo the depth. -/
def advancePtr (d p : Nat) : Nat := (p + 1) % d

/-- R339: the next state of a queue of `d` entries (`D = IQ_DEPTH`). -/
def InOrderQueue.tick (d : Nat) (q : InOrderQueue) (lanes : List BroadcastLane) (enq : Option ExecuteEntry)
    (deqReady recover : Bool) : InOrderQueue :=
  let accepted := if q.enqReady then enq else none
  let enqFire := accepted.isSome
  let deqFire := (q.deq lanes).isSome && deqReady
  { buf := q.nextBuf lanes accepted recover
    wptr := if enqFire then advancePtr d q.wptr else q.wptr
    rptr := if deqFire then advancePtr d q.rptr else q.rptr
    emptyF :=
      if enqFire && !deqFire then false
      else if deqFire && !enqFire then decide (advancePtr d q.rptr = q.wptr)
      else q.emptyF
    fullF :=
      if enqFire && !deqFire then decide (advancePtr d q.wptr = q.rptr)
      else if deqFire && !enqFire then false
      else q.fullF }

/-! ## Out-of-order variant (R350 to R357) -/

/-- The cell `k` of a queue. -/
def OutOfOrderQueue.cell (q : OutOfOrderQueue) (k : Nat) : Cell := q.cells.getD k .reset

/-- R352: `enqReady[k]`, from the cell's state alone. -/
def OutOfOrderQueue.enqReady (q : OutOfOrderQueue) (k : Nat) : Bool := (q.cell k).state != .two

/-- R352: `d = wake(cell[k].data)`. -/
def OutOfOrderQueue.woken (q : OutOfOrderQueue) (lanes : List BroadcastLane) (k : Nat) : ExecuteEntry :=
  wake lanes (q.cell k).data

/-- R352: `sideValid[k]`. -/
def OutOfOrderQueue.sideValid (q : OutOfOrderQueue) (lanes : List BroadcastLane) (k : Nat) : Bool :=
  (q.cell k).state != .empty && fireable (q.woken lanes k)

/-- The largest index below `n` at which `p` holds. -/
def largestBelow (p : Nat → Bool) (n : Nat) : Option Nat :=
  match n with
  | 0 => none
  | k + 1 => if p k then some k else largestBelow p k

/-- R352: `g`, "the largest k with sideValid[k]": the oldest ready entry. -/
def OutOfOrderQueue.grant (q : OutOfOrderQueue) (lanes : List BroadcastLane) : Option Nat :=
  largestBelow (q.sideValid lanes) q.cells.length

/-- R352: `deq`, `none` when `deq.valid` is low. -/
def OutOfOrderQueue.deq (q : OutOfOrderQueue) (lanes : List BroadcastLane) : Option ExecuteEntry :=
  (q.grant lanes).map (q.woken lanes)

/-- R352: `sideFire[k]`. -/
def OutOfOrderQueue.sideFire (q : OutOfOrderQueue) (lanes : List BroadcastLane) (deqReady : Bool)
    (k : Nat) : Bool :=
  deqReady && q.grant lanes == some k

/-- R352: `chainFire[k]`: a cell that is not ready moves its entry towards the tail when the next has room. -/
def OutOfOrderQueue.chainFire (q : OutOfOrderQueue) (lanes : List BroadcastLane) (k : Nat) : Bool :=
  decide (k + 1 < q.cells.length) && (q.cell k).state != .empty && !q.sideValid lanes k && q.enqReady (k + 1)

/-- R352: `leave[k]`. -/
def OutOfOrderQueue.leave (q : OutOfOrderQueue) (lanes : List BroadcastLane) (deqReady : Bool) (k : Nat) :
    Bool :=
  q.sideFire lanes deqReady k || q.chainFire lanes k

/-- R352: the entry `enqFire[k]` brings into cell `k`: the queue's `enq` into cell 0, the chain into the others. -/
def OutOfOrderQueue.incoming (q : OutOfOrderQueue) (lanes : List BroadcastLane) (enq : Option ExecuteEntry)
    (k : Nat) : Option ExecuteEntry :=
  match k with
  | 0 => if q.enqReady 0 then enq else none
  | j + 1 => if q.chainFire lanes j then some (q.woken lanes j) else none

/-- R355: the next state of a cell, without `recover`; `inc` is the entry its enqueue side takes. -/
def Cell.next (c : Cell) (lanes : List BroadcastLane) (leave : Bool) (inc : Option ExecuteEntry) : Cell :=
  match c.state with
  | .empty =>
    match inc with
    | some e => { c with state := .one, data := wake lanes e }
    | none => c
  | .one =>
    match inc with
    | some e =>
      if leave then { c with data := wake lanes e }
      else { state := .two, data := wake lanes c.data, shadow := wake lanes e }
    | none => if leave then { c with state := .empty } else { c with data := wake lanes c.data }
  | .two =>
    if leave then { c with state := .one, data := wake lanes c.shadow }
    else { c with data := wake lanes c.data, shadow := wake lanes c.shadow }

/-- R355: on `recover` both registers of a cell lose `valid`. -/
def Cell.cancelIf (recover : Bool) (c : Cell) : Cell :=
  { c with data := c.data.cancelIf recover, shadow := c.shadow.cancelIf recover }

/-- R355: the next state of the queue. -/
def OutOfOrderQueue.tick (q : OutOfOrderQueue) (lanes : List BroadcastLane) (enq : Option ExecuteEntry)
    (deqReady recover : Bool) : OutOfOrderQueue where
  cells := (List.range q.cells.length).map fun k =>
    ((q.cell k).next lanes (q.leave lanes deqReady k) (q.incoming lanes enq k)).cancelIf recover

end Sys2Proof.Machine
end

