-- ==== Sys2Proof/Machine/MemoryPipeline.lean ====
section
/-! DEFINITION. The SMA reader arbiter and the bypass layer's request path (`40_sma_arbiter_bypass.md`), and the
first three stages of the memory pipeline (`41_mempipe_front_stages.md`): Decode, Execute, TLB. -/

namespace Sys2Proof.Machine

/-! ## Arbiter (R170 to R178) -/

/-- The two requesters of the arbiter, `in1` and `in2`, from the ReadWrite stage's and the other one's (R178). -/
def arbInputs (p : ArbPort) (rw other : Option SmaReq) : Option SmaReq × Option SmaReq :=
  match p with
  | .port1 => (rw, other)
  | .port2 => (other, rw)

/-- R174, R176: the next state; requester 1 wins in an `idle` tick, a grant is held until `out.ready`. -/
def nextArb (s : ArbState) (in1 in2 : Option SmaReq) (ready : Bool) : ArbState :=
  match s with
  | .idle => if in1.isSome then .pending1 else if in2.isSome then .pending2 else .idle
  | .pending1 => if ready then .idle else .pending1
  | .pending2 => if ready then .idle else .pending2

/-- R173, R175: the memory side of the arbiter: the granted requester's request. -/
def arbOut (s : ArbState) (in1 in2 : Option SmaReq) : Option SmaReq :=
  match s with
  | .idle => none
  | .pending1 => in1
  | .pending2 => in2

/-- R173, R175: what a requester gets: the memory's answer, in the `ready` tick, when it is granted. -/
def arbAnswer (granted : Bool) (sma : SmaResp) : Option SmaAnswer :=
  if granted && sma.ready then some { data := sma.data, error := sma.error } else none

/-- The grant state of a port. -/
def grantOf (p : ArbPort) : ArbState :=
  match p with
  | .port1 => .pending1
  | .port2 => .pending2

/-- The port of the other requester (R178). -/
def otherPort (p : ArbPort) : ArbPort :=
  match p with
  | .port1 => .port2
  | .port2 => .port1

/-- R182, R183: the answer of the bypass layer to the ReadWrite stage: bytes overlaid, the error unchanged. -/
def bypassAnswer (b : BypassResp) (a : Option SmaAnswer) : Option SmaAnswer :=
  a.map fun r => { r with data := overlay b r.data }

/-! ## Decode stage (R200 to R205) -/

/-- R203: `decodeEntry`. The `pending` bits are not looked at. -/
def decodeEntry (e : ExecuteEntry) : MemEntry1 where
  op := decodeOp e.instructionType e.func3 e.func7
  add1 := lowWord e.rs1.value
  add2 := if e.instructionType = .I || e.instructionType = .S then e.imm else 0
  op1 := e.rs2.value
  rd := e.rd
  pc := e.pc
  next := e.next
  valid := e.valid

/-- R202: the next register of the Decode stage; `inp` is what the queue offers. -/
def nextDecode (r : ExecuteEntry) (ready : Bool) (inp : Option ExecuteEntry) (recover : Bool) : ExecuteEntry :=
  let taken := if ready then (match inp with
      | some e => e
      | none => { r with valid := false }) else r
  taken.cancelIf recover

/-! ## Execute stage (R210 to R215) -/

/-- R213: `exe.out.bits`. -/
def executeOut (e : MemEntry1) : MemEntry2 where
  op := e.op
  vaddress := effectiveAddress e.add1 e.add2
  op1 := e.op1
  error := alignmentError e.op (effectiveAddress e.add1 e.add2)
  rd := e.rd
  pc := e.pc
  next := e.next
  valid := e.valid

/-- R210: the next register of the Execute stage; `dec.out.valid` is always true (R201). -/
def nextExecute (r : MemEntry1) (ready : Bool) (inp : MemEntry1) (recover : Bool) : MemEntry1 :=
  let taken := if ready then inp else r
  { taken with valid := taken.valid && !recover }

/-! ## TLB stage (R218 to R226) -/

/-- R219: `tlb.in.ready`, which is `exe.out.ready`, `dec.out.ready` and the queue's `deq.ready` too (R225). -/
def TlbStage.ready (t : TlbStage) : Bool := decide (t.state = .idle)

/-- R219: the DTLB request. -/
def TlbStage.request (t : TlbStage) : Option DtlbReq :=
  if t.state = .request then some { vaddress := t.inReg.vaddress, write := t.inReg.op.inWriteSet } else none

/-- R223: `tlb.out.bits`. -/
def TlbStage.entry (t : TlbStage) : MemEntry3 where
  op := t.inReg.op
  vaddress := t.inReg.vaddress
  paddress := t.paddress
  op1 := t.inReg.op1
  error := mergeError t.inReg.error t.error
  rd := t.inReg.rd
  pc := t.inReg.pc
  next := t.inReg.next
  valid := t.inReg.valid

/-- R219: `tlb.out`, offered in `respond`. -/
def TlbStage.out (t : TlbStage) : Option MemEntry3 :=
  if t.state = .respond then some t.entry else none

/-- The entry with `valid` cleared on `recover`. -/
def MemEntry2.cancelIf (recover : Bool) (e : MemEntry2) : MemEntry2 := { e with valid := e.valid && !recover }

/-- R220 to R222, R224: the next state of the TLB stage. -/
def TlbStage.tick (t : TlbStage) (inp : MemEntry2) (dtlb : DtlbResp) (outReady recover : Bool) : TlbStage :=
  match t.state with
  | .idle =>
    { t with inReg := inp.cancelIf recover
             state := if inp.valid && !recover then .request else .idle }
  | .request =>
    if dtlb.ready then
      { inReg := t.inReg.cancelIf recover
        paddress := dtlb.answer.paddress
        error := dtlb.answer.error
        state := if t.inReg.valid && !recover then .respond else .idle }
    else { t with inReg := t.inReg.cancelIf recover }
  | .respond =>
    { t with inReg := t.inReg.cancelIf recover
             state := if outReady then .idle else .respond }

end Sys2Proof.Machine
end

