-- ==== Sys2Proof/Machine/ReadWrite.lean ====
section
/-! DEFINITION. The ReadWrite stage (`42_readwrite_loads_stores.md`, `43_readwrite_atomics.md`): its ports by state
(R243, R250, R257), and its five-state machine (R244 to R268, R291 to R300). -/

namespace Sys2Proof.Machine

/-- R243: `rw.in.ready`. -/
def RwStage.ready (r : RwStage) : Bool := decide (r.state = .idle) && !r.inReg.valid

/-- R250: the read port. -/
def RwStage.readReq (r : RwStage) : Option SmaReq :=
  match r.state with
  | .readBottom => some { address := r.inReg.paddress, readType := r.inReg.op.beatType }
  | .readTop => some { address := r.inReg.paddress + 4, readType := r.inReg.op.beatType }
  | _ => none

/-- R257: the allocation port, gated by `recover`. -/
def RwStage.allocReq (r : RwStage) (recover : Bool) : Option AllocReq :=
  if recover then none
  else match r.state with
    | .writeBottom =>
      some { writeType := r.inReg.op.beatType, address := r.inReg.paddress
             data := lowWord (writeData r.inReg.op r.readResult r.inReg.op1) }
    | .writeTop => some { writeType := .word, address := r.inReg.paddress + 4, data := highWord r.inReg.op1 }
    | _ => none

/-- What the ReadWrite stage gives in a tick: next registers, the result emitted (R260), and what it asks of the
load-reservation tracker (R381). -/
structure RwTick where
  next : RwStage
  out : Option RwOut
  event : ReservationEvent
  deriving DecidableEq, Repr

/-- The stage free again: `rw.state' = idle`, `rw.inReg'.valid = false`. -/
def RwStage.done (r : RwStage) : RwStage := { r with state := .idle, inReg := { r.inReg with valid := false } }

/-- R260: an operation that completes with the result `res`. -/
def RwStage.emit (r : RwStage) (res : ExecuteResult) (e : ReservationEvent) : RwTick :=
  { next := r.done, out := some { rd := r.inReg.rd, bits := res }, event := e }

/-- R262: `raise E`. -/
def RwStage.raise (r : RwStage) (code : ExcCode) : RwTick := r.emit (raiseResult r.inReg.next code) .none

/-- A tick in which nothing is emitted. -/
def RwStage.silent (r : RwStage) : RwTick := { next := r, out := none, event := .none }

/-- The working entry invalidated (R266, R267). -/
def RwStage.cancelIf (r : RwStage) (recover : Bool) : RwStage :=
  { r with inReg := { r.inReg with valid := r.inReg.valid && !recover } }

/-- R294: the reservation check. -/
def reservationHolds (resv : LoadReservationEntry) (va : Addr) : Bool := resv.valid && resv.address == va

/-- R244: dispatch of a valid entry, without `recover`. -/
def RwStage.dispatch (r : RwStage) (resv : LoadReservationEntry) : RwTick :=
  match dispatchException r.inReg.op r.inReg.error with
  | some code => r.raise code
  | none =>
    if r.inReg.op.isRead || r.inReg.op.isAmo then
      RwStage.silent { r with state := .readBottom, readResult := 0 }
    else if r.inReg.op = .sc then
      if reservationHolds resv r.inReg.vaddress then RwStage.silent { r with state := .writeBottom }
      else r.emit (scFailResult r.inReg.next) .clear
    else RwStage.silent { r with state := .writeBottom }

/-- R243, R244, R266: the stage in `idle`; `inp` is what the TLB stage offers. -/
def RwStage.tickIdle (r : RwStage) (resv : LoadReservationEntry) (inp : Option MemEntry3) (recover : Bool) :
    RwTick :=
  if r.inReg.valid then
    if recover then RwStage.silent (r.cancelIf true) else r.dispatch resv
  else
    match inp with
    | some e => RwStage.silent (RwStage.cancelIf { r with inReg := e } recover)
    | none => r.silent

/-- R248, R291, R300: the bottom read's completion with the data `d`. -/
def RwStage.readBottomDone (r : RwStage) (d : Word) : RwTick :=
  let r' := { r with readResult := lowBytes r.inReg.op.beatType d }
  if r.inReg.op = .ld then RwStage.silent { r' with state := .readTop }
  else if r.inReg.op = .lr then
    r'.emit (lrResult r.inReg.next r.inReg.vaddress (d.setWidth 64)) (.set r.inReg.vaddress)
  else if r.inReg.op.isAmo then RwStage.silent { r' with state := .writeBottom }
  else r'.emit (loadResult r.inReg.next (format r.inReg.op d)) .none

/-- R249: the top read's completion with the data `d`. -/
def RwStage.readTopDone (r : RwStage) (d : Word) : RwTick :=
  let v := joinWords d (lowWord r.readResult)
  RwStage.emit { r with readResult := v } (loadResult r.inReg.next v) .none

/-- R248, R249, R267: a read state; `done` is what completes the beat. -/
def RwStage.tickRead (r : RwStage) (read : Option SmaAnswer) (recover : Bool) (finish : Word → RwTick) : RwTick :=
  match read with
  | none => RwStage.silent (r.cancelIf recover)
  | some a =>
    if !r.inReg.valid || recover then RwStage.silent r.done
    else if a.error then r.raise loadAccessFault
    else finish a.data

/-- R258, R295, R300: the bottom allocation fired and gave `id`. -/
def RwStage.writeBottomDone (r : RwStage) (id : SqReceipt) : RwTick :=
  if r.inReg.op = .sd then RwStage.silent { r with state := .writeTop, receipt0 := id }
  else
    r.emit (writeResult r.inReg.next r.inReg.op (writeResultWord r.inReg.op r.readResult) id id)
      (if r.inReg.op = .sc then .clear else .none)

/-- R259: the top allocation fired and gave `id`. -/
def RwStage.writeTopDone (r : RwStage) (id : SqReceipt) : RwTick :=
  r.emit (writeResult r.inReg.next r.inReg.op 0 r.receipt0 id) .none

/-- R257, R268: a write state; on `recover` it snaps to idle, without a fire it waits. -/
def RwStage.tickWrite (r : RwStage) (fired : Option SqReceipt) (recover : Bool) (finish : SqReceipt → RwTick) :
    RwTick :=
  if recover then RwStage.silent r.done
  else match fired with
    | some id => finish id
    | none => r.silent

/-- The ReadWrite stage in a tick (R275). `read` is the answer of the read port, `fired` the receipt of an
allocation that fires. -/
def RwStage.tick (r : RwStage) (resv : LoadReservationEntry) (inp : Option MemEntry3) (read : Option SmaAnswer)
    (fired : Option SqReceipt) (recover : Bool) : RwTick :=
  match r.state with
  | .idle => r.tickIdle resv inp recover
  | .readBottom => r.tickRead read recover r.readBottomDone
  | .readTop => r.tickRead read recover r.readTopDone
  | .writeBottom => r.tickWrite fired recover r.writeBottomDone
  | .writeTop => r.tickWrite fired recover r.writeTopDone

end Sys2Proof.Machine
end

