-- ==== Sys2Proof/Machine/Block.lean ====
section
/-! DEFINITION. One tick of the whole block (R13, R14): every wire in the order of R528, then every register at
once. `Block.tick` is total in the registers and in the input wires (R526); it knows nothing of the environment. -/

namespace Sys2Proof.Machine

/-- R16, R440: `recover` of a tick. -/
def recoverOf (b : Block) (i : BlockInput) : Bool := (engineTick b.ret i).out.recover.isSome

/-- R173, R175: `sma.valid`. -/
def smaValidOf (b : Block) : Bool := decide (b.arb ≠ .idle)

/-- R173, R175, R178: the request on the block's SMA port. -/
def smaRequest (p : Params) (b : Block) (other : Option SmaReq) : Option SmaReq :=
  let ins := arbInputs p.rwArbPort b.rw.readReq other
  arbOut b.arb ins.1 ins.2

/-- R174, R176: the arbiter's next state. -/
def arbNext (p : Params) (b : Block) (other : Option SmaReq) (ready : Bool) : ArbState :=
  let ins := arbInputs p.rwArbPort b.rw.readReq other
  nextArb b.arb ins.1 ins.2 ready

/-- R186: what the ReadWrite stage's read port is answered. -/
def rwReadAnswer (p : Params) (b : Block) (i : BlockInput) : Option SmaAnswer :=
  bypassAnswer i.bypass (arbAnswer (decide (b.arb = grantOf p.rwArbPort)) i.sma)

/-- R90, R257: the receipt of an allocation that fires in the tick, `SQ_ID_W` bits of it (R55, R10). -/
def allocFired (p : Params) (b : Block) (i : BlockInput) : Option SqReceipt :=
  if (b.rw.allocReq (recoverOf b i)).isSome && i.allocReady then some (i.allocId % 2 ^ p.sqIdW.val) else none

/-- R528 (4): the ReadWrite stage in the tick. No broadcast lane is read. -/
def rwTickOf (p : Params) (b : Block) (i : BlockInput) : RwTick :=
  b.rw.tick b.loadReservation b.tlb.out (rwReadAnswer p b i) (allocFired p b i) (recoverOf b i)

/-- R22: every further in-order queue in the tick; the lists of wires name the queues in order. A queue no wire
names is offered nothing and has a ready consumer. -/
def tickInOrder (d : Nat) (lanes : List BroadcastLane) (recover : Bool) (qs : List InOrderQueue)
    (enq : List (Option ExecuteEntry)) (ready : List Bool) : List InOrderQueue :=
  match qs with
  | [] => []
  | q :: rest =>
    q.tick d lanes (enq.headD none) (ready.headD true) recover ::
      tickInOrder d lanes recover rest enq.tail ready.tail

/-- R22: every out-of-order queue in the tick, as `tickInOrder`. -/
def tickOutOfOrder (lanes : List BroadcastLane) (recover : Bool) (qs : List OutOfOrderQueue)
    (enq : List (Option ExecuteEntry)) (ready : List Bool) : List OutOfOrderQueue :=
  match qs with
  | [] => []
  | q :: rest =>
    q.tick lanes (enq.headD none) (ready.headD true) recover ::
      tickOutOfOrder lanes recover rest enq.tail ready.tail

/-- R388: the recovery copy after the tick. -/
def recoveryNext (b : Block) (i : BlockInput) : LoadReservationEntry :=
  nextRecovery b.recoveryLoadReservation (engineTick b.ret i).out.lrUpdate

/-- The registers of the block after the tick. -/
def Block.tick (p : Params) (b : Block) (i : BlockInput) : Block where
  arb := arbNext p b i.other i.sma.ready
  dec := nextDecode b.dec b.tlb.ready (b.memQueue.deq i.bcast) (recoverOf b i)
  exe := nextExecute b.exe b.tlb.ready (decodeEntry b.dec) (recoverOf b i)
  tlb := b.tlb.tick (executeOut b.exe) i.dtlb b.rw.ready (recoverOf b i)
  rw := (rwTickOf p b i).next
  loadReservation :=
    nextSpeculative b.loadReservation (recoveryNext b i) (recoverOf b i) (rwTickOf p b i).event
  recoveryLoadReservation := recoveryNext b i
  memQueue := b.memQueue.tick p.iqDepth.val i.bcast i.enq b.tlb.ready (recoverOf b i)
  inOrderQueues :=
    tickInOrder p.iqDepth.val i.bcast (recoverOf b i) b.inOrderQueues i.inOrderEnq i.inOrderDeqReady
  outOfOrderQueues :=
    tickOutOfOrder i.bcast (recoverOf b i) b.outOfOrderQueues i.outOfOrderEnq i.outOfOrderDeqReady
  ret := (engineTick b.ret i).next

/-- The outputs of the block in the tick. -/
def Block.outputs (p : Params) (b : Block) (i : BlockInput) : Outputs where
  engine := (engineTick b.ret i).out
  rwOut := (rwTickOf p b i).out
  alloc := b.rw.allocReq (recoverOf b i)
  smaValid := smaValidOf b
  sma := smaRequest p b i.other
  other := arbAnswer (decide (b.arb = grantOf (otherPort p.rwArbPort))) i.sma
  bypassAddress := b.rw.readReq.map fun r => r.address
  dtlb := b.tlb.request
  enqReady := b.memQueue.enqReady
  inOrderEnqReady := b.inOrderQueues.map InOrderQueue.enqReady
  inOrderDeq := b.inOrderQueues.map fun q => q.deq i.bcast
  outOfOrderEnqReady := b.outOfOrderQueues.map fun q => q.enqReady 0
  outOfOrderDeq := b.outOfOrderQueues.map fun q => q.deq i.bcast

end Sys2Proof.Machine
end

