-- ==== Sys2Proof/Machine/Environment.lean ====
section
/-! DEFINITION. The environment of the block: the wires it shows in a tick (R23, R82, R91, R94, R336, R402, R403,
R513 to R516, R518, R519, R522), what it does at the tick's end with the block's outputs (R90, R403, R430, R434, R512,
R517), and one tick of block and environment together, `sysTick`. -/

namespace Sys2Proof.Machine

/-! ## What the environment does with the outputs of the retirement engine -/

/-- R430, R434, R517: the environment after a tick's store commits, discard and register updates, slot 0 first;
`dest` tells the register behind a receipt. -/
def Env.retire (env : Env) (o : EngineOut) (dest : RobReceipt → Option RegNum) : Env :=
  (((env.commit o.sq0).commit o.sq1).discardIf o.recover.isSome).applyUpdates o dest

/-- R32, R440: where the next instruction to retire stands: at `correctPC` on a recover, else at the resolved next
PC of the youngest slot that retired. -/
def pcAfter (pc : Addr) (o : EngineOut) (real0 real1 : Addr) : Addr :=
  match o.recover with
  | some target => target
  | none =>
    match o.reg1, o.reg0 with
    | some _, _ => real1
    | none, some _ => real0
    | none, none => pc

/-- R108, R519: a flush of the D-cache and then the I-cache makes every earlier store visible to instruction
fetch. -/
def Env.fetchSynced (env : Env) (f : ExecuteResult) : Env :=
  if f.flushDCache && f.flushICache then env.withStale [] else env

/-- R109, R525 (c): after a flush of the TLB every translation is by the page tables. -/
def Env.translationSynced (env : Env) (flushed : Bool) : Env :=
  if flushed then env.withDtlb env.dtlb [] else env

/-! ## The wires of a tick -/

/-- R403, R512 (c): `retired.valid`: the oldest row, whose number is on `retired.row`, has a valid entry. -/
def Rob.presents (r : Rob) : Bool :=
  match r.rows with
  | [] => false
  | row :: _ => row.slot0.entry.valid || row.slot1.entry.valid

/-- R402: the entry of a slot of the oldest row, as the retirement engine reads it. -/
def Rob.oldest (r : Rob) (s : Slot) : RobRetireEntry := entryAt r.table (robReceipt r.head s)

/-- R82: the answer on the SMA port to the request the arbiter shows, in the tick the memory is ready. -/
def smaResponse (s : State) : SmaResp :=
  match smaRequest s.cfg s.blk s.input.other with
  | none => { ready := smaValidOf s.blk && s.input.smaReady, data := s.input.smaPad, error := false }
  | some r =>
    let a := s.env.smaAnswer r s.input.smaPad
    { ready := s.input.smaReady, data := a.data, error := a.error }

/-- R94: the DTLB's answer to the TLB stage's request. -/
def dtlbResponse (s : State) : DtlbResp :=
  match s.blk.tlb.request with
  | none => { ready := false, answer := { paddress := 0, error := .none } }
  | some r => { ready := s.input.dtlbReady, answer := s.env.translate r s.input.tlbAge }

/-- R444, R446: the result whose flags the flush machine reads in this tick. -/
def flushFlags (s : State) : ExecuteResult :=
  flushOf s.blk.ret (s.env.rob.oldest .slot0).executeResult (s.env.rob.oldest .slot1).executeResult

/-- R446: the request the flush machine shows a sink in this tick: it is in the sink's state `st` and the flag is
set. -/
def flushReq (s : State) (st : RetState) (flag : Bool) : Bool := decide (s.blk.ret.state = st) && flag

/-- R519: no store that has retired waits in the store queue. -/
def Env.retiredDrained (env : Env) : Bool := !(env.sq.entries.any fun e => e.retired)

/-- R519, R522: the `empty` wire of the D-cache's sink. -/
def dCacheEmpty (s : State) : Bool :=
  s.env.sinks.dCache.empty (flushReq s .dcache (flushFlags s).flushDCache) s.input.dCacheMoves s.env.retiredDrained

/-- R522: the `empty` wire of the I-cache's sink. -/
def iCacheEmpty (s : State) : Bool :=
  s.env.sinks.iCache.empty (flushReq s .icache (flushFlags s).flushICache) s.input.iCacheMoves true

/-- R522: the `empty` wire of the TLB's sink. -/
def tlbEmpty (s : State) : Bool :=
  s.env.sinks.tlb.empty (flushReq s .tlb (flushFlags s).flushTLB) s.input.tlbMoves true

/-- The ROB with the row that is offered to it in a tick. -/
def robWithNewRow (s : State) : Rob := s.env.rob.mint s.cfg.sqIdW.val s.input.mint

/-- R32, R516: an entry with the `pc`, `spec` and `next` of its instruction, as the ROB has them: they are "fixed before
it enters the block". -/
def ExecuteEntry.addressed (e : ExecuteEntry) (r : Rob) : ExecuteEntry :=
  match (r.slotAt e.rd).filter fun s => s.entry.valid with
  | some s => { e with pc := s.entry.pc, spec := s.entry.spec, next := s.next }
  | none => e

/-- R513, R514, R516: an entry that uses the operands `u` as the environment offers it: an operand it does not use is
not pending, and one that waits for a result which was broadcast before takes its value. -/
def Env.offer (env : Env) (r : Rob) (u : OperandUse) (e : ExecuteEntry) : ExecuteEntry :=
  wake env.bus.heard ((e.addressed r).settle u)

/-- R513: an entry as it is offered to the memory queue. -/
def offerMemory (s : State) (e : ExecuteEntry) : ExecuteEntry :=
  s.env.offer (robWithNewRow s) (memoryUse (decodeOp e.instructionType e.func3 e.func7)) e

/-- R513: an entry as it is offered to a further queue. -/
def offerUnit (s : State) (e : ExecuteEntry) : ExecuteEntry := s.env.offer (robWithNewRow s) (unitUse e) e

/-- The input wires of the block in a tick, with the broadcast lanes `lanes`. -/
def wiresWith (s : State) (lanes : List BroadcastLane) : BlockInput where
  enq := s.input.enq.map (offerMemory s)
  inOrderEnq := s.input.inOrderEnq.map fun e => e.map (offerUnit s)
  inOrderDeqReady := s.input.inOrderDeqReady
  outOfOrderEnq := s.input.outOfOrderEnq.map fun e => e.map (offerUnit s)
  outOfOrderDeqReady := s.input.outOfOrderDeqReady
  bcast := lanes
  other := s.input.other
  sma := smaResponse s
  bypass := s.env.sq.bypass (match s.blk.rw.readReq with
    | some r => r.address
    | none => 0)
  allocReady := s.input.allocReady && s.env.sq.idFree
  allocId := s.env.sq.nextId
  dtlb := dtlbResponse s
  retiredValid := s.env.rob.presents
  retiredRow := s.env.rob.head
  tableRetire := s.env.rob.table
  handlerPC := s.input.handlerPC
  dCacheEmpty := dCacheEmpty s
  iCacheEmpty := iCacheEmpty s
  tlbEmpty := tlbEmpty s

/-- R336: the lane of a result of the ReadWrite stage, if it emits one. -/
def ownLane (o : Option RwOut) : List BroadcastLane := (o.map fun r => BroadcastLane.of r.rd r.bits.result).toList

/-- R512, R515: the environment with what the units outside the block announce and report in a tick. -/
def reportedEnv (s : State) : Env := s.env.reportAll s.cfg.sqIdW.val s.input.lanes s.input.results

/-- R336, R528 (7): the results there are to broadcast in a tick: the ReadWrite stage's, those that wait for a lane, and
the other units'. Their order, from which `busOrder` picks, is a DESIGN CHOICE (assumption log 23). -/
def busSources (s : State) : List BroadcastLane :=
  ownLane (rwTickOf s.cfg s.blk (wiresWith s [])).out ++ (reportedEnv s).bus.unsent

/-- The numbers of the results that the `NB` lanes carry in a tick (assumption log 23). -/
def busPicks (s : State) : List Nat := lanePicks s.cfg.nb.val s.input.busOrder

/-- R336, R528 (7): the `NB` broadcast lanes of a tick. R336 does not say which lane carries whose result: that is
the input `busOrder`, and a result no lane carries waits (DESIGN CHOICE, assumption log 23). -/
def broadcastLanes (s : State) : List BroadcastLane := pickLanes (busSources s) (busPicks s)

/-- Every input wire of the block in a tick. -/
def wires (s : State) : BlockInput := wiresWith s (broadcastLanes s)

/-! ## The end of the tick -/

/-- R512 (b): the ROB after the result the ReadWrite stage emits in a tick, if it emits one. -/
def Rob.reportOwn (r : Rob) (idW : Nat) (own : Option RwOut) : Rob :=
  match own with
  | some o => r.report idW o.rd o.bits
  | none => r

/-- R22, R515: the entries that units take from their queues in a tick; a queue `ready` does not name has a ready
consumer. -/
def takenFrom (deq : List (Option ExecuteEntry)) (ready : List Bool) : List ExecuteEntry :=
  match deq with
  | [] => []
  | d :: rest => (if ready.headD true then d.toList else []) ++ takenFrom rest ready.tail

/-- R22, R515: the entries, bubbles among them, that the units outside the block are handed in a tick. -/
def handedOver (o : Outputs) (input : EnvInput) : List ExecuteEntry :=
  takenFrom o.inOrderDeq input.inOrderDeqReady ++ takenFrom o.outOfOrderDeq input.outOfOrderDeqReady

/-- R512: the row the ROB allocates in a tick. A row offered in a `recover` tick is not allocated. -/
def mintedRow (o : Outputs) (input : EnvInput) : Option RobRow :=
  if o.engine.recover.isSome then none else input.mint

/-- R403, R512, R515: the ROB at the end of a tick in which the units outside the block have reported into it: the
ReadWrite stage's result, the entries handed over, the new row, and what is freed. -/
def Rob.tick (r : Rob) (idW : Nat) (o : Outputs) (input : EnvInput) : Rob :=
  (((handedOver o input).foldl Rob.handOver (r.reportOwn idW o.rwOut)).mint idW (mintedRow o input)).free
    o.engine.retiredReady o.engine.recover.isSome

/-- The receipts that are given out in a tick. -/
def Rob.freshReceipts (r : Rob) (o : Outputs) (input : EnvInput) : List RobReceipt :=
  if r.mintable (mintedRow o input) then [robReceipt r.nextRow .slot0, robReceipt r.nextRow .slot1] else []

/-- R90: the store queue after a tick's allocation, if it fires. -/
def Env.allocIf (env : Env) (idW : Nat) (req : Option AllocReq) (ready : Bool) : Env :=
  match req with
  | none => env
  | some r => if ready then env.withSq (env.sq.alloc idW r) else env

/-- R449: the flush machine finishes in the tick. -/
def flushEnds (b : Block) (o : EngineOut) : Bool := decide (b.ret.state = .tlb) && o.recover.isSome

/-- R522: the flush sinks at the end of a tick with the wires `i` and the outputs `o`. -/
def FlushSinks.tick (k : FlushSinks) (i : BlockInput) (o : EngineOut) : FlushSinks where
  dCache := k.dCache.next o.dCacheReq i.dCacheEmpty
  iCache := k.iCache.next o.iCacheReq i.iCacheEmpty
  tlb := k.tlb.next o.tlbReq i.tlbEmpty

/-- R514: the broadcast bus at the end of a tick. -/
def busTick (s : State) (o : Outputs) : Bus :=
  s.env.bus.after (broadcastLanes s) (leftOver (busSources s) (busPicks s)) (s.env.rob.freshReceipts o s.input)

/-- What a flush that ends in the tick has done (R109, R519). -/
def Env.flushed (env : Env) (ends : Bool) (f : ExecuteResult) : Env :=
  if ends then (env.fetchSynced f).translationSynced f.flushTLB else env

/-- The environment at the end of a tick of `s` with the wires `i` and the outputs `o`. -/
def Env.tick (env : Env) (s : State) (i : BlockInput) (o : Outputs) : Env :=
  let retired := (env.retire o.engine env.rob.dest).withPc
    (pcAfter env.pc o.engine i.e0.executeResult.real i.e1.executeResult.real)
  let synced := retired.flushed (flushEnds s.blk o.engine) (flushResult s.blk.ret i)
  let queued := (synced.allocIf s.cfg.sqIdW.val o.alloc i.allocReady).withRob
    ((reportedEnv s).rob.tick s.cfg.sqIdW.val o s.input)
  ((queued.withSinks (env.sinks.tick i o.engine)).withBus (busTick s o)).drain s.input.drain

/-- One tick of the block and its environment. -/
def sysTick (s : State) : State :=
  let i := wires s
  let o := s.blk.outputs s.cfg i
  ((s.withBlk (s.blk.tick s.cfg i)).withEnv (s.env.tick s i o)).withOut o

end Sys2Proof.Machine
end

