-- ==== Sys2Proof/Machine/Complete.lean ====
section
/-! DEFINITION. One instruction from its operands to its retirement, collapsed into one step. R530: "a model that
only needs the architectural behaviour may collapse" the micro-sequencing; R62: the FSM registers "affect timing
only". The primitives are those of R17 (`Translate`, `MemRead`, `MemWrite`, `raise`), the results those of R261,
R262, R291, R294, R300, and retirement is the engine's own `retireRow` with the instruction alone in slot 0
(assumption log 6). Every definition is total: no instruction stops the machine; `Schedule.lean` says when one
waits. -/

namespace Sys2Proof.Machine

/-- R32: `next`, the fall-through PC the front end gives the instruction at `pc`. R32 leaves wrap-around at the top of
the address space open: it wraps to 0 (DESIGN CHOICE, assumption log 22). -/
def fallThrough (s : State) : Addr := s.env.pc + 4

/-- R402: the ROB receipt of an instruction that retires alone. -/
def soloReceipt (s : State) : RobReceipt := robReceipt s.env.rob.head .slot0

/-- What an instruction leaves when it has executed and has not yet retired. -/
structure Executed where
  /-- The execute result (R41). -/
  result : ExecuteResult
  /-- The environment, with the store-queue entries it allocated (R90). -/
  env : Env
  /-- What it asked of the speculative load reservation (R381). -/
  event : ReservationEvent
  deriving DecidableEq, Repr

/-! ## The primitives of R17 -/

/-- What address translation and the alignment check give a memory operation. -/
inductive Access where
  /-- The operation raises this code at dispatch (R462). -/
  | raises (code : ExcCode)
  /-- It may proceed at this physical address. -/
  | granted (pa : Addr)
  deriving DecidableEq, Repr

/-- `Translate` with the alignment check before it (R86, R94, R212, R223, R462): misalignment dominates. -/
def access (env : Env) (op : MemOp) (va : Addr) (age : Nat) : Access :=
  let a := env.translate { vaddress := va, write := op.inWriteSet } age
  match mapError op (mergeError (alignmentError op va) a.error) with
  | some code => .raises code
  | none => .granted a.paddress

/-- `MemRead` through the bypass layer (R82, R182, R183); `none` when the read answers an error. -/
def memRead (env : Env) (t : BeatType) (pa : Addr) (pad : Word) : Option Word :=
  let a := env.smaAnswer { address := pa, readType := t } pad
  if a.error then none else some (overlay (env.sq.bypass pa) a.data)

/-- The environment in which the store queue can take an allocation: when its next id is still in use the store
waits, and the retired entries drain meanwhile (R90, R529). -/
def Env.room (env : Env) : Env := if env.sq.idFree then env else env.drain none

/-- `MemWrite`: the environment after an allocation; its receipt is `env.sq.nextId` (R90). -/
def Env.memWrite (env : Env) (idW : Nat) (r : AllocReq) : Env :=
  env.room.withSq (env.room.sq.alloc idW r)

/-- `raise E` (R262): a result with the code and nothing else. -/
def raised (s : State) (code : ExcCode) : Executed :=
  { result := raiseResult (fallThrough s) code, env := s.env, event := .none }

/-! ## Memory operations -/

/-- R251, R252, R253, R255, R256: a load of one beat. -/
def performLoad (op : MemOp) (va : Addr) (s : State) : Executed :=
  match access s.env op va s.input.tlbAge with
  | .raises code => raised s code
  | .granted pa =>
    match memRead s.env op.beatType pa s.input.smaPad with
    | none => raised s loadAccessFault
    | some d => { result := loadResult (fallThrough s) (format op d), env := s.env, event := .none }

/-- R254: a load of two beats, the bottom first. -/
def performLoadDouble (op : MemOp) (va : Addr) (s : State) : Executed :=
  match access s.env op va s.input.tlbAge with
  | .raises code => raised s code
  | .granted pa =>
    match memRead s.env .word pa s.input.smaPad with
    | none => raised s loadAccessFault
    | some lo =>
      match memRead s.env .word (pa + 4) s.input.smaPad with
      | none => raised s loadAccessFault
      | some hi => { result := loadResult (fallThrough s) (joinWords hi lo), env := s.env, event := .none }

/-- R270 to R272: a store of one beat. -/
def performStore (op : MemOp) (va : Addr) (data : Data) (s : State) : Executed :=
  match access s.env op va s.input.tlbAge with
  | .raises code => raised s code
  | .granted pa =>
    { result := writeResult (fallThrough s) op 0 s.env.sq.nextId s.env.sq.nextId
      env := s.env.memWrite s.cfg.sqIdW.val { writeType := op.beatType, address := pa, data := lowWord data }
      event := .none }

/-- R273: a store of two beats, the low word first. -/
def performStoreDouble (op : MemOp) (va : Addr) (data : Data) (s : State) : Executed :=
  match access s.env op va s.input.tlbAge with
  | .raises code => raised s code
  | .granted pa =>
    let bottom := s.env.memWrite s.cfg.sqIdW.val { writeType := .word, address := pa, data := lowWord data }
    { result := writeResult (fallThrough s) op 0 s.env.sq.nextId bottom.sq.nextId
      env := bottom.memWrite s.cfg.sqIdW.val { writeType := .word, address := pa + 4, data := highWord data }
      event := .none }

/-- R291: `lr`. -/
def performLoadReserved (op : MemOp) (va : Addr) (s : State) : Executed :=
  match access s.env op va s.input.tlbAge with
  | .raises code => raised s code
  | .granted pa =>
    match memRead s.env .word pa s.input.smaPad with
    | none => raised s loadAccessFault
    | some d => { result := lrResult (fallThrough s) va (d.setWidth 64), env := s.env, event := .set va }

/-- R293 to R296: `sc`. The check is on the speculative copy. -/
def performStoreConditional (op : MemOp) (va : Addr) (data : Data) (s : State) : Executed :=
  match access s.env op va s.input.tlbAge with
  | .raises code => raised s code
  | .granted pa =>
    if reservationHolds s.blk.loadReservation va then
      { result := writeResult (fallThrough s) op 0 s.env.sq.nextId s.env.sq.nextId
        env := s.env.memWrite s.cfg.sqIdW.val { writeType := .word, address := pa, data := lowWord data }
        event := .clear }
    else { result := scFailResult (fallThrough s), env := s.env, event := .clear }

/-- R300: an AMO. -/
def performAmo (op : MemOp) (va : Addr) (data : Data) (s : State) : Executed :=
  match access s.env op va s.input.tlbAge with
  | .raises code => raised s code
  | .granted pa =>
    match memRead s.env .word pa s.input.smaPad with
    | none => raised s loadAccessFault
    | some a =>
      { result := writeResult (fallThrough s) op (a.setWidth 64) s.env.sq.nextId s.env.sq.nextId
        env := s.env.memWrite s.cfg.sqIdW.val
          { writeType := .word, address := pa, data := amoALU op a (lowWord data) }
        event := .none }

/-! ## Retirement of an instruction alone -/

/-- R42, R512: the ROB entry of an instruction that has its result. -/
def soloEntry (s : State) (spec : Addr) (r : ExecuteResult) : RobRetireEntry :=
  { valid := true, commit := true, pc := s.env.pc, spec := spec, rd := soloReceipt s, executeResult := r }

/-- R406, R449: the outputs with which an entry retires alone in slot 0: those of its one tick, or those of the
ticks of its flush taken together. -/
def soloOut (e : RobRetireEntry) (handlerPC : Addr) : EngineOut :=
  let row := retireRow e .zero handlerPC
  match row.flush with
  | none => row.out
  | some _ =>
    { flushEnd e.executeResult row.out with
        dCacheReq := e.executeResult.flushDCache
        iCacheReq := e.executeResult.flushICache
        tlbReq := e.executeResult.flushTLB }

/-- R108, R109, R519: what the requested flushes do: the D-cache's waits until every retired store has been
written. -/
def Env.flush (env : Env) (o : EngineOut) (f : ExecuteResult) : Env :=
  (if o.dCacheReq then (env.drain none).fetchSynced f else env).translationSynced o.tlbReq

/-- The environment after an instruction alone has retired: `env` is the one it executed in, `o` the engine's
outputs, `dest` its destination register, `limit` what the store queue drains. Its result has been broadcast
(R336). -/
def Env.retireSolo (env : Env) (o : EngineOut) (r : ExecuteResult) (dest : Option RegNum)
    (limit : Option Nat) : Env :=
  let retired := (env.retire o fun _ => dest).withPc (pcAfter env.pc o r.real r.real)
  (((retired.flush o r).withRob { env.rob with head := env.rob.head + 1 }).withBus
    (env.bus.carry (BroadcastLane.of (robReceipt env.rob.head .slot0) r.result))).drain limit

/-- The state after an instruction has executed as `x` and retired alone. `spec` is the prediction recorded for it
(R32), `rwOut` what the ReadWrite stage emitted. -/
def retireAlone (s : State) (x : Executed) (dest : Option RegNum) (spec : Addr) (rwOut : Option RwOut) : State :=
  let o := soloOut (soloEntry s spec x.result) s.input.handlerPC
  let recovery := nextRecovery s.blk.recoveryLoadReservation o.lrUpdate
  let speculative := nextSpeculative s.blk.loadReservation recovery o.recover.isSome x.event
  ((s.withBlk (s.blk.withReservations speculative recovery)).withEnv
    (x.env.retireSolo o x.result dest s.input.drain)).withOut { Outputs.idle with engine := o, rwOut := rwOut }

/-- A memory instruction, to its retirement; `spec = next` (R516). -/
def completeMemory (s : State) (dest : Option RegNum) (x : Executed) : State :=
  retireAlone s x dest (fallThrough s) (some { rd := soloReceipt s, bits := x.result })

/-! ## Operands of an instruction (R17, R137, R203) -/

/-- R137, R211: base plus sign-extended displacement. -/
def displacedAddress (s : State) (rs1 : RegNum) (imm : BitVec 12) : Addr :=
  effectiveAddress (lowWord (readReg s.env.x rs1)) (signExtend12 imm)

/-- R137, R290: base alone. -/
def baseAddress (s : State) (rs1 : RegNum) : Addr := effectiveAddress (lowWord (readReg s.env.x rs1)) 0

end Sys2Proof.Machine
end

