-- ==== Sys2Proof/Machine/Atomics.lean ====
section
/-! DEFINITION. The meanings of `lr.w` (R291), `sc.w` (R293 to R296) and the nine word AMOs (R300 to R311). `func3`,
`aq`, `rl` and the `rs2` field of an `lr` are not looked at (R143, R290), not even where no word has them so (R149). -/

namespace Sys2Proof.Machine

/-- R291: `lr.w`. -/
def execLrW (f : AtomicFields) (s : State) : Host.Outcome State Fault Refusal :=
  .next (completeMemory s (some f.rd) (performLoadReserved .lr (baseAddress s f.rs1) s))

/-- R293: `sc.w`. -/
def execScW (f : AtomicFields) (s : State) : Host.Outcome State Fault Refusal :=
  .next (completeMemory s (some f.rd)
    (performStoreConditional .sc (baseAddress s f.rs1) (readReg s.env.x f.rs2) s))

/-- R303: `amoswap.w`. -/
def execAmoswapW (f : AtomicFields) (s : State) : Host.Outcome State Fault Refusal :=
  .next (completeMemory s (some f.rd)
    (performAmo .amoswap (baseAddress s f.rs1) (readReg s.env.x f.rs2) s))

/-- R304: `amoadd.w`. -/
def execAmoaddW (f : AtomicFields) (s : State) : Host.Outcome State Fault Refusal :=
  .next (completeMemory s (some f.rd)
    (performAmo .amoadd (baseAddress s f.rs1) (readReg s.env.x f.rs2) s))

/-- R305: `amoxor.w`. -/
def execAmoxorW (f : AtomicFields) (s : State) : Host.Outcome State Fault Refusal :=
  .next (completeMemory s (some f.rd)
    (performAmo .amoxor (baseAddress s f.rs1) (readReg s.env.x f.rs2) s))

/-- R306: `amoand.w`. -/
def execAmoandW (f : AtomicFields) (s : State) : Host.Outcome State Fault Refusal :=
  .next (completeMemory s (some f.rd)
    (performAmo .amoand (baseAddress s f.rs1) (readReg s.env.x f.rs2) s))

/-- R307: `amoor.w`. -/
def execAmoorW (f : AtomicFields) (s : State) : Host.Outcome State Fault Refusal :=
  .next (completeMemory s (some f.rd)
    (performAmo .amoor (baseAddress s f.rs1) (readReg s.env.x f.rs2) s))

/-- R308: `amomin.w`. -/
def execAmominW (f : AtomicFields) (s : State) : Host.Outcome State Fault Refusal :=
  .next (completeMemory s (some f.rd)
    (performAmo .amomin (baseAddress s f.rs1) (readReg s.env.x f.rs2) s))

/-- R309: `amomax.w`. -/
def execAmomaxW (f : AtomicFields) (s : State) : Host.Outcome State Fault Refusal :=
  .next (completeMemory s (some f.rd)
    (performAmo .amomax (baseAddress s f.rs1) (readReg s.env.x f.rs2) s))

/-- R310: `amominu.w`. -/
def execAmominuW (f : AtomicFields) (s : State) : Host.Outcome State Fault Refusal :=
  .next (completeMemory s (some f.rd)
    (performAmo .amominu (baseAddress s f.rs1) (readReg s.env.x f.rs2) s))

/-- R311: `amomaxu.w`. -/
def execAmomaxuW (f : AtomicFields) (s : State) : Host.Outcome State Fault Refusal :=
  .next (completeMemory s (some f.rd)
    (performAmo .amomaxu (baseAddress s f.rs1) (readReg s.env.x f.rs2) s))

end Sys2Proof.Machine
end

