-- ==== Sys2Proof/Machine/Loads.lean ====
section
/-! DEFINITION. The meanings of the loads (R251 to R256). -/

namespace Sys2Proof.Machine

/-- R251: `lb`. -/
def execLb (f : LoadFields) (s : State) : Host.Outcome State Fault Refusal :=
  .next (completeMemory s (some f.rd) (performLoad .lb (displacedAddress s f.rs1 f.imm) s))

/-- R252: `lh`. -/
def execLh (f : LoadFields) (s : State) : Host.Outcome State Fault Refusal :=
  .next (completeMemory s (some f.rd) (performLoad .lh (displacedAddress s f.rs1 f.imm) s))

/-- R253: `lw`. -/
def execLw (f : LoadFields) (s : State) : Host.Outcome State Fault Refusal :=
  .next (completeMemory s (some f.rd) (performLoad .lw (displacedAddress s f.rs1 f.imm) s))

/-- R254: `ld`. -/
def execLd (f : LoadFields) (s : State) : Host.Outcome State Fault Refusal :=
  .next (completeMemory s (some f.rd) (performLoadDouble .ld (displacedAddress s f.rs1 f.imm) s))

/-- R255: `lbu`. -/
def execLbu (f : LoadFields) (s : State) : Host.Outcome State Fault Refusal :=
  .next (completeMemory s (some f.rd) (performLoad .lbu (displacedAddress s f.rs1 f.imm) s))

/-- R256: `lhu`. -/
def execLhu (f : LoadFields) (s : State) : Host.Outcome State Fault Refusal :=
  .next (completeMemory s (some f.rd) (performLoad .lhu (displacedAddress s f.rs1 f.imm) s))

end Sys2Proof.Machine
end

