-- ==== Sys2Proof/Machine/Stores.lean ====
section
/-! DEFINITION. The meanings of the stores (R270 to R273) and of `undefined` (R274). A store has no destination
register (R430). -/

namespace Sys2Proof.Machine

/-- R270: `sb`. -/
def execSb (f : StoreFields) (s : State) : Host.Outcome State Fault Refusal :=
  .next (completeMemory s none
    (performStore .sb (displacedAddress s f.rs1 f.imm) (readReg s.env.x f.rs2) s))

/-- R271: `sh`. -/
def execSh (f : StoreFields) (s : State) : Host.Outcome State Fault Refusal :=
  .next (completeMemory s none
    (performStore .sh (displacedAddress s f.rs1 f.imm) (readReg s.env.x f.rs2) s))

/-- R272: `sw`. -/
def execSw (f : StoreFields) (s : State) : Host.Outcome State Fault Refusal :=
  .next (completeMemory s none
    (performStore .sw (displacedAddress s f.rs1 f.imm) (readReg s.env.x f.rs2) s))

/-- R273: `sd`. -/
def execSd (f : StoreFields) (s : State) : Host.Outcome State Fault Refusal :=
  .next (completeMemory s none
    (performStoreDouble .sd (displacedAddress s f.rs1 f.imm) (readReg s.env.x f.rs2) s))

/-- R274: `undefined` raises `illegalInstruction` "whatever `error` it carries": no field of the word counts. -/
def execUndefined (_word : BitVec 32) (s : State) : Host.Outcome State Fault Refusal :=
  .next (completeMemory s none (raised s illegalInstruction))

end Sys2Proof.Machine
end

