-- ==== Sys2Proof/Machine/System.lean ====
section
/-! DEFINITION. The instructions the block "acts on but does not decode" (R148): `fence.i` and `sfence.vma` (R426,
R444 to R449), xRET (R421, R476), the CSR instructions (R422, R454); and the words of the other functional units
outside the block (R4, R453), which the block sees as execute results. What the unit itself computes is an input,
`State.input.unit` (I30, assumption log 9). -/

namespace Sys2Proof.Machine

/-- R515: the result a unit outside the block reports: its exception when it faults, else `flags` on the fields every
result has in common. -/
def unitResult (s : State) (real : Addr) (flags : ExecuteResult → ExecuteResult) : ExecuteResult :=
  match s.input.unit.exception with
  | some code => raiseResult (fallThrough s) code
  | none => flags (commonResult real)

/-- An instruction of a unit outside the block, to its retirement; `spec` is the prediction recorded for it. -/
def completeUnit (s : State) (dest : Option RegNum) (spec : Addr) (r : ExecuteResult) : State :=
  retireAlone s { result := r, env := s.env, event := .none } dest spec none

/-- An instruction that cannot transfer control: `real = next` (R515), `spec = next` (R516). -/
def completeSerial (s : State) (dest : Option RegNum) (flags : ExecuteResult → ExecuteResult) : State :=
  completeUnit s dest (fallThrough s) (unitResult s (fallThrough s) flags)

/-- R105, R426: the flags of `fence.i`. -/
def fenceIFlags (r : ExecuteResult) : ExecuteResult := { r with flushDCache := true, flushICache := true }

/-- R109: the flag of `sfence.vma`, by the spec's reading (assumption log 10). -/
def sfenceVmaFlags (r : ExecuteResult) : ExecuteResult := { r with flushTLB := true }

/-- R148, R421: the flag of an xRET. -/
def xretFlags (r : ExecuteResult) : ExecuteResult := { r with xret := true }

/-- R422, R454: the fields of a CSR instruction's result: the unit's old value, whether it writes, the word's CSR
address, the unit's final value (N3). -/
def csrFlags (u : UnitResult) (writes : Bool) (csr : CsrAddress) (r : ExecuteResult) : ExecuteResult :=
  { r with result := u.result, writeCSR := writes, csrAddress := csr, csrData := u.csrData }

/-- R105, R108, R426: `fence.i`. Its register fields do not reach the block. -/
def execFenceI (_f : FenceFields) (s : State) : Host.Outcome State Fault Refusal :=
  .next (completeSerial s none fenceIFlags)

/-- R109, R426: `sfence.vma`. "its operands (address, ASID) do not reach the block". -/
def execSfenceVma (_f : SfenceFields) (s : State) : Host.Outcome State Fault Refusal :=
  .next (completeSerial s none sfenceVmaFlags)

/-- R421, R476: `mret`. -/
def execMret (s : State) : Host.Outcome State Fault Refusal := .next (completeSerial s none xretFlags)

/-- R421, R476: `sret`. "Which xRET (mret, sret) is not visible to the block". -/
def execSret (s : State) : Host.Outcome State Fault Refusal :=
  .next (completeSerial s none fun r => xretFlags r)

/-- R422: `csrrw`. It writes. -/
def execCsrrw (f : CsrFields) (s : State) : Host.Outcome State Fault Refusal :=
  .next (completeSerial s (some f.rd) (csrFlags s.input.unit true f.csr))

/-- R422: `csrrs`. Whether it writes is the unit's (R454). -/
def execCsrrs (f : CsrFields) (s : State) : Host.Outcome State Fault Refusal :=
  .next (completeSerial s (some f.rd) (csrFlags s.input.unit s.input.unit.writeCSR f.csr))

/-- R422: `csrrc`. Whether it writes is the unit's (R454). -/
def execCsrrc (f : CsrFields) (s : State) : Host.Outcome State Fault Refusal :=
  .next (completeSerial s (some f.rd) (csrFlags s.input.unit s.input.unit.writeCSR f.csr))

/-- R422: `csrrwi`. It writes. -/
def execCsrrwi (f : CsrImmFields) (s : State) : Host.Outcome State Fault Refusal :=
  .next (completeSerial s (some f.rd) (csrFlags s.input.unit true f.csr))

/-- R422: `csrrsi`. Whether it writes is the unit's (R454). -/
def execCsrrsi (f : CsrImmFields) (s : State) : Host.Outcome State Fault Refusal :=
  .next (completeSerial s (some f.rd) (csrFlags s.input.unit s.input.unit.writeCSR f.csr))

/-- R422: `csrrci`. Whether it writes is the unit's (R454). -/
def execCsrrci (f : CsrImmFields) (s : State) : Host.Outcome State Fault Refusal :=
  .next (completeSerial s (some f.rd) (csrFlags s.input.unit s.input.unit.writeCSR f.csr))

/-! ## Words of the other functional units (R453) -/

/-- R453: a word that can transfer control: BRANCH, JALR, JAL (assumption log 3). -/
def transfersControl (opcode : BitVec 7) : Bool :=
  match opcode with
  | 0b1100011#7 => true
  | 0b1100111#7 => true
  | 0b1101111#7 => true
  | _ => false

/-- R430: the integer register a word of another unit writes: none for BRANCH, LOAD-FP, STORE-FP (assumption
log 3). -/
def unitDest (word : BitVec 32) : Option RegNum :=
  match word.extractLsb' 0 7 with
  | 0b1100011#7 => none
  | 0b0000111#7 => none
  | 0b0100111#7 => none
  | _ => some (word.extractLsb' 7 5)

/-- R515: `real` of a word of another unit: the unit's target for a control transfer, else `next`. -/
def unitReal (word : BitVec 32) (s : State) : Addr :=
  if transfersControl (word.extractLsb' 0 7) then s.input.unit.target.getD (fallThrough s) else fallThrough s

/-- R32, R516: `spec` of a word of another unit: the front end's prediction for a control transfer, else `next`. -/
def unitSpec (word : BitVec 32) (s : State) : Addr :=
  if transfersControl (word.extractLsb' 0 7) then s.input.unit.predicted.getD (fallThrough s) else fallThrough s

/-- R453, R515: a word of another functional unit: the unit's result word, `branch` when `real` is not `next`. -/
def execOtherUnit (word : BitVec 32) (s : State) : Host.Outcome State Fault Refusal :=
  .next (completeUnit s (unitDest word) (unitSpec word s)
    (unitResult s (unitReal word s) fun r =>
      { r with result := s.input.unit.result, branch := decide (unitReal word s ≠ fallThrough s) }))

end Sys2Proof.Machine
end

