-- ==== Sys2Proof/Machine/Dispatch.lean ====
section
/-! DEFINITION. One arm per instruction, each a call of its meaning. -/

namespace Sys2Proof.Machine

def exec (i : Instr) (s : State) : Host.Outcome State Fault Refusal :=
  match i with
  | .lb f => Sys2Proof.Machine.execLb f s
  | .lh f => Sys2Proof.Machine.execLh f s
  | .lw f => Sys2Proof.Machine.execLw f s
  | .ld f => Sys2Proof.Machine.execLd f s
  | .lbu f => Sys2Proof.Machine.execLbu f s
  | .lhu f => Sys2Proof.Machine.execLhu f s
  | .sb f => Sys2Proof.Machine.execSb f s
  | .sh f => Sys2Proof.Machine.execSh f s
  | .sw f => Sys2Proof.Machine.execSw f s
  | .sd f => Sys2Proof.Machine.execSd f s
  | .lrW f => Sys2Proof.Machine.execLrW f s
  | .scW f => Sys2Proof.Machine.execScW f s
  | .amoswapW f => Sys2Proof.Machine.execAmoswapW f s
  | .amoaddW f => Sys2Proof.Machine.execAmoaddW f s
  | .amoxorW f => Sys2Proof.Machine.execAmoxorW f s
  | .amoandW f => Sys2Proof.Machine.execAmoandW f s
  | .amoorW f => Sys2Proof.Machine.execAmoorW f s
  | .amominW f => Sys2Proof.Machine.execAmominW f s
  | .amomaxW f => Sys2Proof.Machine.execAmomaxW f s
  | .amominuW f => Sys2Proof.Machine.execAmominuW f s
  | .amomaxuW f => Sys2Proof.Machine.execAmomaxuW f s
  | .undefined w => Sys2Proof.Machine.execUndefined w s
  | .fenceI f => Sys2Proof.Machine.execFenceI f s
  | .sfenceVma f => Sys2Proof.Machine.execSfenceVma f s
  | .mret => Sys2Proof.Machine.execMret s
  | .sret => Sys2Proof.Machine.execSret s
  | .csrrw f => Sys2Proof.Machine.execCsrrw f s
  | .csrrs f => Sys2Proof.Machine.execCsrrs f s
  | .csrrc f => Sys2Proof.Machine.execCsrrc f s
  | .csrrwi f => Sys2Proof.Machine.execCsrrwi f s
  | .csrrsi f => Sys2Proof.Machine.execCsrrsi f s
  | .csrrci f => Sys2Proof.Machine.execCsrrci f s

end Sys2Proof.Machine
end

