-- ==== Sys2Proof/Machine/Schedule.lean ====
section
/-! DEFINITION. When a step of the machine is a whole instruction and when it is one tick (assumption log 7), which
answers an instruction waits for (R526), what follows a step (R511, R525), and how an instruction word comes to
stand where the next step fetches it. -/

namespace Sys2Proof.Machine

/-- The environment shows the block nothing new in this step: no entry, no row, no lane, no result, no request. -/
def EnvInput.silent (i : EnvInput) : Bool :=
  i.enq.isNone && i.mint.isNone && i.inOrderEnq.all Option.isNone && i.outOfOrderEnq.all Option.isNone
    && i.lanes.isEmpty && i.results.isEmpty && i.other.isNone

/-- Nothing is in flight in the block: every FSM idle, every queue empty, every stage a bubble (R485). -/
def Block.quiet (b : Block) : Bool :=
  decide (b.arb = .idle) && !b.dec.valid && !b.exe.valid && decide (b.tlb.state = .idle)
    && decide (b.rw.state = .idle) && !b.rw.inReg.valid && b.memQueue.emptyF
    && b.inOrderQueues.all (fun q => q.emptyF)
    && b.outOfOrderQueues.all (fun q => q.cells.all fun c => decide (c.state = .empty))
    && decide (b.ret.state = .retire)

/-- Nothing is in flight in the environment: an empty ROB, every store retired, every flush sink idle. -/
def Env.quiet (e : Env) : Bool :=
  e.rob.rows.isEmpty && (e.sq.entries.all fun q => q.retired)
    && decide (e.sinks = { dCache := .idle, iCache := .idle, tlb := .idle })

/-- Nothing is in flight and nothing is offered: the next step fetches at `pc`. -/
def ready (s : State) : Bool := s.input.silent && s.blk.quiet && s.env.quiet

/-! ## The answers an instruction waits for (R526) -/

/-- The virtual address of a memory instruction (R137, R211, R290). -/
def virtualAddress (s : State) (i : Instr) : Addr :=
  match i with
  | .lb f | .lh f | .lw f | .ld f | .lbu f | .lhu f => displacedAddress s f.rs1 f.imm
  | .sb f | .sh f | .sw f | .sd f => displacedAddress s f.rs1 f.imm
  | .lrW f | .scW f | .amoswapW f | .amoaddW f | .amoxorW f | .amoandW f | .amoorW f => baseAddress s f.rs1
  | .amominW f | .amomaxW f | .amominuW f | .amomaxuW f => baseAddress s f.rs1
  | .undefined _ | .fenceI _ | .sfenceVma _ | .mret | .sret => 0
  | .csrrw _ | .csrrs _ | .csrrc _ | .csrrwi _ | .csrrsi _ | .csrrci _ => 0

/-- R244, R264, R294: whether a memory operation whose address is granted allocates in the store queue. -/
def allocates (s : State) (op : MemOp) (va pa : Addr) : Bool :=
  if op = .sc then reservationHolds s.blk.loadReservation va
  else op.isWrite || (op.isAmo && !s.env.smaErrors.contains pa)

/-- R90: the store queue takes what a memory operation allocates: it is ready and the receipts are free. -/
def allocAnswers (s : State) (op : MemOp) : Bool :=
  s.input.allocReady && s.env.sq.idsFree s.cfg.sqIdW.val (if op = .sd then 2 else 1)

/-- R94, R82, R90: every neighbour that a memory operation asks answers it. -/
def memoryAnswers (s : State) (op : MemOp) (va : Addr) : Bool :=
  s.input.dtlbReady &&
    match access s.env op va s.input.tlbAge with
    | .raises _ => true
    | .granted pa =>
      (!(op.isRead || op.isAmo) || s.input.smaReady) && (!allocates s op va pa || allocAnswers s op)

/-- R522, R519: every flush sink that is asked drops and raises its `empty` wire; the D-cache's waits until no
retired store is left in the store queue. -/
def sinksAnswer (s : State) (dCache iCache tlb : Bool) : Bool :=
  (!dCache || (s.input.dCacheMoves && s.env.retiredDrained)) && (!iCache || s.input.iCacheMoves)
    && (!tlb || s.input.tlbMoves)

/-- R526: every neighbour that an instruction asks answers it; one that does not leaves it waiting. What a unit
outside the block reports is there at once. -/
def answered (s : State) (i : Instr) : Bool :=
  match i.memOp with
  | some op => memoryAnswers s op (virtualAddress s i)
  | none =>
    match i, s.input.unit.exception with
    | .fenceI _, none => sinksAnswer s true true false
    | .sfenceVma _, none => sinksAnswer s false false true
    | _, _ => true

/-- R526: the word the step has fetched runs to its retirement. -/
def runsNow (s : State) (d : Decoded) : Bool :=
  ready s && match d with
    | .instr i => answered s i
    | .otherUnit _ => true

/-! ## What follows a step -/

/-- R15, R511: an offer that was not taken stays; on a `recover` the entry that waits becomes a bubble, as one in a
queue does (R335, R441; DESIGN CHOICE, assumption log 24). -/
def heldOffer (e : Option ExecuteEntry) (taken recover : Bool) : Option ExecuteEntry :=
  if taken then none else e.map (ExecuteEntry.cancelIf recover)

/-- R15, R511: the offers to several queues, those that were not taken before the new ones. -/
def heldOffers (old : List (Option ExecuteEntry)) (taken : List Bool) (recover : Bool)
    (new : List (Option ExecuteEntry)) : List (Option ExecuteEntry) :=
  match old with
  | [] => new
  | e :: rest =>
    (heldOffer e (taken.headD true) recover).or (new.headD none) :: heldOffers rest taken.tail recover new.tail

/-- R15, R178, R511: the record `i` as the environment shows it after a step with the record `old` and the outputs
`o`: no producer has retracted or changed what it offered. -/
def EnvInput.holding (i old : EnvInput) (o : Outputs) : EnvInput :=
  let recover := o.engine.recover.isSome
  { i with
      enq := (heldOffer old.enq o.enqReady recover).or i.enq
      inOrderEnq := heldOffers old.inOrderEnq o.inOrderEnqReady recover i.inOrderEnq
      outOfOrderEnq := heldOffers old.outOfOrderEnq o.outOfOrderEnqReady recover i.outOfOrderEnq
      other := if o.other.isSome then i.other else old.other.or i.other }

/-- What the environment shows after a step, and what after that. -/
def State.foreseen (s : State) : EnvInput × List EnvInput :=
  match s.later with
  | [] => (s.input, [])
  | i :: rest => (i, rest)

/-- What follows a step: the page tables and the addresses whose reads answer an error change, and the next record of
inputs moves up. -/
def State.advance (s : State) : State :=
  (s.withEnv ((s.env.remap s.input.remap).refault s.input.smaFaults)).withInputs
    (s.foreseen.1.holding s.input s.out) s.foreseen.2

/-- What follows a step that answers. -/
def andAdvance (o : Host.Outcome State Fault Refusal) : Host.Outcome State Fault Refusal :=
  match o with
  | .next t => .next t.advance
  | .fault r => .fault r
  | .refused r => .refused r

/-- What a fetched word does. -/
def runDecoded (d : Decoded) (run : Instr → State → Host.Outcome State Fault Refusal) (s : State) :
    Host.Outcome State Fault Refusal :=
  match d with
  | .instr i => run i s
  | .otherUnit w => execOtherUnit w s

/-! ## Placing an instruction word -/

/-- The addresses of the instruction word at `pc`. -/
def fetchAddresses (pc : Addr) : List Nat := beatAddresses pc 4

/-- The environment with a word stored at `pc`, and no older byte of it left for instruction fetch to see. -/
def Env.placeWord (e : Env) (w : BitVec 32) : Env :=
  (e.withMem (Memory.writeBytes e.mem e.pc w 4)).withStale
    (e.stale.filter fun c => !(fetchAddresses e.pc).contains c.1)

/-- Every neighbour answers at once. -/
def EnvInput.answers (i : EnvInput) : Bool :=
  i.smaReady && i.dtlbReady && i.allocReady && i.dCacheMoves && i.iCacheMoves && i.tlbMoves

/-- The inputs with nothing offered to the block and every neighbour answering at once. -/
def EnvInput.silenced (i : EnvInput) : EnvInput :=
  { i with enq := none, mint := none, inOrderEnq := [], outOfOrderEnq := [], lanes := [], results := []
           other := none, smaReady := true, dtlbReady := true, allocReady := true, dCacheMoves := true
           iCacheMoves := true, tlbMoves := true }

/-- The environment with nothing in flight and every retired store in memory. -/
def Env.settled (e : Env) : Env :=
  (((e.withRob { e.rob with rows := [] }).discardIf true).drain none).withSinks
    { dCache := .idle, iCache := .idle, tlb := .idle }

/-- The block with nothing in flight; the load reservations stay. -/
def Block.settled (b : Block) (p : Params) : Block :=
  (Block.reset p).withReservations b.loadReservation b.recoveryLoadReservation

/-- The state with nothing in flight. -/
def State.settled (s : State) : State :=
  { s with blk := s.blk.settled s.cfg, env := s.env.settled, input := s.input.silenced }

/-- The state in which the next step runs the instruction at `pc`, whatever it is. -/
def State.settle (s : State) : State :=
  if ready s && s.input.answers && s.env.sq.entries.isEmpty then s else s.settled

end Sys2Proof.Machine
end

