-- ==== Sys2Proof/Machine/Step.lean ====
section
/-! DEFINITION. The step of the machine, and the state in which an instruction word is the next one fetched. -/

namespace Sys2Proof.Machine

/-- One step: the instruction at `pc` when nothing is in flight, the environment offers nothing and the neighbours
the instruction asks answer, else one tick of the block and its environment (R13, R526, R530; assumption log 7). -/
def step (s : State) : Host.Outcome State Fault Refusal :=
  let d := decodeWord (s.env.fetchWord s.input.fetchAge)
  if runsNow s d then andAdvance (runDecoded d exec s) else .next (sysTick s).advance

/-- `s` with the instruction whose bits are `w`, the bits from `nbits` up being 0, stored where the next step
fetches. A state with something in flight, or with a neighbour that does not answer, is settled first, since only
then does the next step run what it fetches. -/
def State.withFetchWord (s : State) (nbits w : Nat) : State :=
  s.settle.withEnv (s.settle.env.placeWord (BitVec.ofNat 32 (w % 2 ^ nbits)))

end Sys2Proof.Machine
end

