-- ==== Sys2Proof/Safety.lean ====
section
/-! DEFINITION. What counts as a sound state, in the terms the statements use: the invariants the spec names or
implies for the block's registers (R55, R172, R176, R242, R340, R446), those of the environment's data (R41, R44,
R80, R90, R516), and the one duty of a producer that the arbiter rests on (R178). -/

namespace Sys2Proof.Machine

/-- R340: a circular buffer of `d` slots. The pointers are equal exactly when the queue is empty or full, and it is
never both. -/
structure InOrderQueue.Sound (d : Nat) (q : InOrderQueue) : Prop where
  length : q.buf.length = d
  rptr : q.rptr < d
  wptr : q.wptr < d
  flags : ¬(q.emptyF = true ∧ q.fullF = true)
  meet : q.rptr = q.wptr ↔ (q.emptyF = true ∨ q.fullF = true)

/-- R340: the occupancy of an in-order queue of `d` slots. -/
def InOrderQueue.occupancy (d : Nat) (q : InOrderQueue) : Nat :=
  if q.emptyF then 0 else if q.fullF then d else (q.wptr + d - q.rptr) % d

/-- R340: the entries of an in-order queue, oldest first. -/
def InOrderQueue.contents (d : Nat) (q : InOrderQueue) : List ExecuteEntry :=
  (List.range (q.occupancy d)).map fun k => q.buf.getD ((q.rptr + k) % d) .zero

/-- R351: the entries of a cell, oldest first. -/
def Cell.contents (c : Cell) : List ExecuteEntry :=
  match c.state with
  | .empty => []
  | .one => [c.data]
  | .two => [c.data, c.shadow]

/-- R356: the entries of an out-of-order queue, oldest first, with those of cell `k` given by `f k`. -/
def OutOfOrderQueue.listBy (q : OutOfOrderQueue) (f : Nat → List ExecuteEntry) : List ExecuteEntry :=
  (List.range q.cells.length).reverse.flatMap f

/-- R356: the entries of an out-of-order queue, oldest first. -/
def OutOfOrderQueue.contents (q : OutOfOrderQueue) : List ExecuteEntry := q.listBy fun k => (q.cell k).contents

/-- R333: the entry is a bubble, or none of its operands is pending. -/
def ExecuteEntry.Ready (e : ExecuteEntry) : Prop :=
  e.valid = false ∨ (e.rs1.pending = false ∧ e.rs2.pending = false ∧ e.rs3.pending = false)

/-- R352: the entries of an out-of-order queue without the one the consumer takes in the tick: the older entry of the
granted cell. -/
def OutOfOrderQueue.remaining (q : OutOfOrderQueue) (lanes : List BroadcastLane) (deqReady : Bool) :
    List ExecuteEntry :=
  q.listBy fun k => if q.sideFire lanes deqReady k then (q.cell k).contents.tail else (q.cell k).contents

/-- R242, R275: the operation the ReadWrite stage performs fits its state, and in a write state its entry is
valid. -/
def RwStage.FitsState (r : RwStage) : Prop :=
  match r.state with
  | .idle => True
  | .readBottom => r.inReg.op.isRead = true ∨ r.inReg.op.isAmo = true
  | .readTop => r.inReg.op = .ld
  | .writeBottom => r.inReg.valid = true ∧ (r.inReg.op.isWrite = true ∨ r.inReg.op.isAmo = true)
  | .writeTop => r.inReg.valid = true ∧ r.inReg.op = .sd

/-- R55, R10: the ReadWrite stage's receipt has `idW` bits. -/
structure RwStage.Sound (idW : Nat) (r : RwStage) : Prop where
  fits : r.FitsState
  receipt : r.receipt0 < 2 ^ idW

/-- R176, R267: while the arbiter's grant is the ReadWrite stage's, the stage holds its read. -/
def Block.GrantHeld (p : Params) (b : Block) : Prop :=
  b.arb = grantOf p.rwArbPort → b.rw.readReq.isSome = true

/-- R446: outside a flush nothing has been seen busy. -/
def RetireRegs.Sound (r : RetireRegs) : Prop := r.state = .retire → r.busySeen = false

/-- The registers of the block. -/
structure Block.Sound (p : Params) (b : Block) : Prop where
  memQueue : b.memQueue.Sound p.iqDepth.val
  inOrder : ∀ q ∈ b.inOrderQueues, q.Sound p.iqDepth.val
  outOfOrder : ∀ q ∈ b.outOfOrderQueues, q.cells.length = p.ooqDepth.val
  rw : b.rw.Sound p.sqIdW.val
  grant : b.GrantHeld p
  ret : b.ret.Sound

/-- R44, R90: a receipt of `idW` bits names at most one entry of the store queue. -/
structure StoreQueue.Sound (idW : Nat) (q : StoreQueue) : Prop where
  next : q.nextId < 2 ^ idW
  ids : ∀ e ∈ q.entries, e.id < 2 ^ idW
  distinct : (q.entries.map fun e => e.id).Nodup

/-- R41, R10: the receipts of a result have `idW` bits. -/
def ExecuteResult.Narrow (idW : Nat) (r : ExecuteResult) : Prop :=
  r.writeID0 < 2 ^ idW ∧ r.writeID1 < 2 ^ idW

/-- The data of the environment: memory in its canonical form (R80), the store queue's receipts, those in the ROB, the
numbers of its rows (R402), and the prediction of an instruction that cannot transfer control (R516). -/
structure Env.Sound (idW : Nat) (e : Env) : Prop where
  mem : e.mem.wf = true
  sq : e.sq.Sound idW
  rob : ∀ row ∈ e.rob.rows, ∀ k : Slot, (row.at k).entry.executeResult.Narrow idW
  rows : e.rob.rows.length < 2 ^ 31
  prediction : ∀ row ∈ e.rob.rows, ∀ k : Slot, (row.at k).kind ≠ .control → (row.at k).entry.spec = (row.at k).next

/-- R178, R511: while the arbiter's grant is the other requester's, its request stands. -/
def State.OtherHeld (s : State) : Prop :=
  s.blk.arb = grantOf (otherPort s.cfg.rwArbPort) → s.input.other.isSome = true

/-- The invariant of the machine. -/
structure State.Sound (s : State) : Prop where
  blk : s.blk.Sound s.cfg
  env : s.env.Sound s.cfg.sqIdW.val
  other : s.OtherHeld

/-! ## Results of the functional units outside the block -/

/-- R515: the result `r` of an instruction of the kind `k` with the fall-through `next` is one its unit may set. -/
structure ExecuteResult.ByTheRule (r : ExecuteResult) (k : UnitKind) (next : Addr) : Prop where
  real : k ≠ .control → r.real = next
  branch : r.branch = true ↔ k = .control ∧ r.real ≠ next
  csr : r.writeCSR = true → k = .csr
  xret : r.xret = true → k = .xret
  fence : r.flushDCache = true ∨ r.flushICache = true ∨ r.flushTLB = true → k = .fence
  pipeline : r.sc = false ∧ r.lr = false ∧ r.write = false

/-- R515: `r` says what the unit reported as `u`, where R515 leaves it to the unit: the exception and its code, the CSR's
address and data, the next PC of a control transfer, and the special flags of the kind. -/
structure ExecuteResult.Reports (r u : ExecuteResult) (k : UnitKind) : Prop where
  exception : r.exception = u.exception ∧ r.exceptionCode = u.exceptionCode
  csr : r.csrAddress = u.csrAddress ∧ r.csrData = u.csrData ∧ (k = .csr → r.writeCSR = u.writeCSR)
  target : k = .control → r.real = u.real
  xret : k = .xret → r.xret = u.xret
  fence : k = .fence →
    r.flushDCache = u.flushDCache ∧ r.flushICache = u.flushICache ∧ r.flushTLB = u.flushTLB

/-! ## What an instruction leaves as it was -/

/-- What no instruction changes when it runs alone: the parameters, the inputs, the page tables' mapping, the
addresses whose reads fail, the flush sinks, the rows of the ROB. The next receipt is the next row's; the result word
`v` has been broadcast (R336); a TLB flush, and nothing else, forgets the replaced lines (R525 (c)). -/
structure Frame (s t : State) (v : Data) : Prop where
  cfg : t.cfg = s.cfg
  input : t.input = s.input
  later : t.later = s.later
  dtlb : t.env.dtlb = s.env.dtlb
  smaErrors : t.env.smaErrors = s.env.smaErrors
  sinks : t.env.sinks = s.env.sinks
  rob : t.env.rob = { s.env.rob with head := s.env.rob.head + 1 }
  bus : t.env.bus = s.env.bus.carry (BroadcastLane.of (soloReceipt s) v)
  superseded : t.env.superseded = if t.out.engine.tlbReq = true then [] else s.env.superseded

/-- Every byte a load of this hart can see is as it was (R103). -/
def KeepsMemory (s t : State) : Prop := ∀ a : Addr, t.env.loadByte a = s.env.loadByte a

/-- The `n` bytes at `pa` are those of `data`, its least significant byte at `pa` (R84); every other byte is as it
was. -/
structure Stores (s t : State) (pa : Addr) (n : Nat) (data : Data) : Prop where
  inside : ∀ k : Nat, k < n → t.env.loadByte (pa + BitVec.ofNat 32 k) = data.extractLsb' (8 * k) 8
  outside : ∀ a : Addr, n ≤ (a - pa).toNat → t.env.loadByte a = s.env.loadByte a

/-- The register file with a result word in the destination register, if there is one; register 0 keeps its value
(R31, R430). -/
def written (x : Vector Data 32) (dest : Option RegNum) (v : Data) : Vector Data 32 :=
  match dest with
  | some d => writeReg x d v
  | none => x

/-- Nothing but the register port, the store commit port and the reservation interface is driven (R425, R438), and
no predictor update. -/
def normalOut (s : State) (v : Data) (lr : Option LrUpdate) (sq : Option SqRetire) : EngineOut :=
  { EngineOut.idle with
      retiredReady := true, reg0 := some { rd := soloReceipt s, result := v }, lrUpdate := lr, sq0 := sq }

/-- The instruction retired by the Normal disposition with the result word `v` (R425), and the next one is the
fall-through. -/
structure RetiredNormal (s t : State) (dest : Option RegNum) (v : Data) (lr : Option LrUpdate)
    (sq : Option SqRetire) : Prop where
  frame : Frame s t v
  x : t.env.x = written s.env.x dest v
  pc : t.env.pc = s.env.pc + 4
  engine : t.out.engine = normalOut s v lr sq

/-- The instruction retired by the Exception disposition with this code (R420, R467, R468): `exc` and `recover` to
the handler, no other output; no register, no byte of memory changes; the speculative reservation is the recovery
copy's. Stores that had not retired are discarded (R517), so the clause on memory is for a state without one. -/
structure Trapped (s t : State) (code : ExcCode) : Prop where
  frame : Frame s t 0
  x : t.env.x = s.env.x
  pc : t.env.pc = s.input.handlerPC
  engine : t.out.engine = { EngineOut.idle with
    retiredReady := true
    exc := some { pc := s.env.pc, code := code }
    recover := some s.input.handlerPC }
  blk : t.blk = s.blk.withReservations s.blk.recoveryLoadReservation s.blk.recoveryLoadReservation
  memory : (∀ e ∈ s.env.sq.entries, e.retired = true) → KeepsMemory s t

/-- The instruction caused a `recover` to `target` after it had its effect with the result word `v`: the speculative
reservation is the recovery copy's, the bytes of memory are as they were where no store was unretired (R441,
R517). -/
structure Redirected (s t : State) (target : Addr) (v : Data) : Prop where
  frame : Frame s t v
  pc : t.env.pc = target
  recover : t.out.engine.recover = some target
  ready : t.out.engine.retiredReady = true
  exc : t.out.engine.exc = none
  blk : t.blk = s.blk.withReservations s.blk.recoveryLoadReservation s.blk.recoveryLoadReservation
  memory : (∀ e ∈ s.env.sq.entries, e.retired = true) → KeepsMemory s t

/-! ## When a memory operation completes -/

/-- The operation's address is aligned and the DTLB translates it to `pa` without an error (R86, R94). -/
structure Reaches (s : State) (op : MemOp) (va pa : Addr) : Prop where
  aligned : misaligned op va = false
  translated : s.env.translate { vaddress := va, write := op.inWriteSet } s.input.tlbAge =
    { paddress := pa, error := .none }

/-- A read at `pa` answers without an error (R82). -/
abbrev Readable (s : State) (pa : Addr) : Prop := s.env.smaErrors.contains pa = false

/-- The two bytes a load sees at `pa` (R84). -/
def Env.loadHalf (e : Env) (pa : Addr) : BitVec 16 := e.loadByte (pa + 1) ++ e.loadByte pa

/-- The four bytes a load sees at `pa` (R84). -/
def Env.loadWord (e : Env) (pa : Addr) : Word :=
  e.loadByte (pa + 3) ++ e.loadByte (pa + 2) ++ e.loadByte (pa + 1) ++ e.loadByte pa

/-- One receipt in both fields of the store commit port (R258, R434). -/
def oneReceipt (s : State) : Option SqRetire := some { id0 := s.env.sq.nextId, id1 := s.env.sq.nextId }

/-- R300: the AMO whose terms are `mk`, whose operation is `op` and whose new word is `f old operand`: it returns
the old word, stores the new one, and touches no reservation. -/
def AmoCompletes (op : MemOp) (mk : AtomicFields → Instr) (f : Word → Word → Word) : Prop :=
  ∀ (s : State) (a : AtomicFields) (pa : Addr), Reaches s op (baseAddress s a.rs1) pa → Readable s pa →
    ∃ t, exec (mk a) s = .next t ∧
      RetiredNormal s t (some a.rd) ((s.env.loadWord pa).setWidth 64) none (oneReceipt s) ∧
      t.blk = s.blk ∧
      Stores s t pa 4 ((f (s.env.loadWord pa) (lowWord (readReg s.env.x a.rs2))).setWidth 64)

/-- R422: an instruction that writes the CSR `csr` at retirement and the register `rd`, and redirects to its
fall-through. -/
def CsrWrites (s t : State) (rd : RegNum) (csr : CsrAddress) : Prop :=
  Redirected s t (s.env.pc + 4) s.input.unit.result ∧ t.env.x = writeReg s.env.x rd s.input.unit.result ∧
    t.out.engine = { EngineOut.idle with
      retiredReady := true
      reg0 := some { rd := soloReceipt s, result := s.input.unit.result }
      csrWrite := some { address := csr, data := s.input.unit.csrData }
      recover := some (s.env.pc + 4) }

/-! ## Ticks -/

/-- The block after a run of ticks. -/
def Block.run (p : Params) (b : Block) (is : List BlockInput) : Block := is.foldl (fun c i => c.tick p i) b

/-- The registers of the retirement engine after a run of ticks. -/
def RetireRegs.run (r : RetireRegs) (is : List BlockInput) : RetireRegs :=
  is.foldl (fun c i => (engineTick c i).next) r

/-- R384: an `lr` completes its read in the tick. -/
def Block.LrCompletes (p : Params) (b : Block) (i : BlockInput) : Prop :=
  b.rw.state = .readBottom ∧ b.rw.inReg.op = .lr ∧ b.rw.inReg.valid = true ∧
    ∃ d, rwReadAnswer p b i = some { data := d, error := false }

/-- R385: an `sc` completes in the tick, by failing the check at dispatch or by its allocation firing. -/
def Block.ScCompletes (b : Block) (i : BlockInput) : Prop :=
  b.rw.inReg.op = .sc ∧
    ((b.rw.state = .idle ∧ b.rw.inReg.valid = true ∧ b.rw.inReg.error = .none ∧
        ¬(b.loadReservation.valid = true ∧ b.loadReservation.address = b.rw.inReg.vaddress)) ∨
      (b.rw.state = .writeBottom ∧ i.allocReady = true))

/-- R462, R460: the code of an error tag, by the kind of operation. -/
def codeOf (reads : Bool) (e : MemoryErrorCode) : Option ExcCode :=
  match e with
  | .none => none
  | .misaligned => some (if reads then 4 else 6)
  | .pageFault => some (if reads then 13 else 15)
  | .memoryFault => some (if reads then 5 else 7)

/-- The ReadWrite stage emits the exception `code` for its entry and is free again; it asks nothing of the
reservation (R262). -/
def RwStage.Raises (r : RwStage) (code : ExcCode) (t : RwTick) : Prop :=
  t.out = some { rd := r.inReg.rd
                 bits := { ExecuteResult.zero with real := r.inReg.next, exception := true, exceptionCode := code } } ∧
    t.next.state = .idle ∧ t.next.inReg.valid = false ∧ t.event = .none

/-- The inputs of a tick with the three `empty` wires at `v`. -/
def BlockInput.withEmpty (i : BlockInput) (v : Bool) : BlockInput :=
  { i with dCacheEmpty := v, iCacheEmpty := v, tlbEmpty := v }

/-- R447: the ticks of one flush state: with a flagged sink, one before the sink drops `empty`, one with it low,
one with it high again; with the flag clear, one. -/
def flushTicks (i : BlockInput) (flag : Bool) : List BlockInput :=
  if flag then [i.withEmpty true, i.withEmpty false, i.withEmpty true] else [i.withEmpty true]

/-- R522, R519: a sink in the state `k` shows `empty` and goes to `k'`: an idle sink may drop `empty` when it is asked
and holds it high otherwise; a draining one raises it when it is done; one that is done ignores `req` until it has
fallen. -/
def SinkState.Keeps (k : SinkState) (req moves clear empty : Bool) (k' : SinkState) : Prop :=
  match k with
  | .idle => (empty = false ↔ req = true ∧ moves = true) ∧ k' = if empty = true then .idle else .draining
  | .draining => (empty = true ↔ moves = true ∧ clear = true) ∧
      k' = if empty = false then .draining else if req = true then .done else .idle
  | .done => empty = true ∧ k' = if req = true then .done else .idle

/-! ## Cancellation -/

/-- No entry in the block is valid (R505): every stage and every queue holds bubbles only. -/
def Block.Cancelled (b : Block) : Prop :=
  b.dec.valid = false ∧ b.exe.valid = false ∧ b.tlb.inReg.valid = false ∧ b.rw.inReg.valid = false ∧
    (∀ e ∈ b.memQueue.buf, e.valid = false) ∧
    (∀ q ∈ b.inOrderQueues, ∀ e ∈ q.buf, e.valid = false) ∧
    (∀ q ∈ b.outOfOrderQueues, ∀ c ∈ q.cells, c.data.valid = false ∧ c.shadow.valid = false)

end Sys2Proof.Machine
end

