-- ==== Sys2Proof/WellFormed.lean ====
section
/-! DEFINITION. Which terms of `Instr` stand for an instruction word. Every operand field of a row admits every value
of its width. The checks are on the fields of an atomic that its row fixes (R149), and on the word an `undefined`
keeps: it must be a word that reaches the memory queue and that none of the 21 memory rows matches (R142, R149, table
row `undefined`). -/

namespace Sys2Proof

/-- R142, R149 on a word of a memory major opcode: type `I` with `func3` 110 or 111, type `S` with `func3` 100
to 111, type `R` with a funct5 outside the eleven listed, with `func3` other than 010, or an `lr` with `rs2` other
than 0. -/
def selectsNoOperation (w : BitVec 32) : Bool :=
  if w.extractLsb' 0 7 = 0b0000011#7 then w.extractLsb' 13 2 == 0b11#2
  else if w.extractLsb' 0 7 = 0b0100011#7 then w.extractLsb' 14 1 == 0b1#1
  else if w.extractLsb' 0 7 = 0b0101111#7 then
    !([0b00010#5, 0b00011#5, 0b00001#5, 0b00000#5, 0b00100#5, 0b01100#5, 0b01000#5, 0b10000#5,
       0b10100#5, 0b11000#5, 0b11100#5].contains (w.extractLsb' 27 5)) || w.extractLsb' 12 3 != 0b010#3
      || (w.extractLsb' 27 5 == 0b00010#5 && w.extractLsb' 20 5 != 0#5)
  else true

/-- The word is no word of a functional unit outside the block (table row `undefined`: "words of other
functional units never come here"). -/
def reachesMemoryQueue (w : BitVec 32) : Bool := !isOtherUnit (w.extractLsb' 0 7)

/-- R149: an atomic whose `func3` is the one its row fixes. -/
def AtomicFields.fitsRow (f : AtomicFields) : Bool := f.func3 == 0b010#3

/-- An instruction that stands for a word. -/
def Instr.wellFormed (i : Instr) : Bool :=
  match i with
  | .undefined w => reachesMemoryQueue w && selectsNoOperation w
  | .lb _ | .lh _ | .lw _ | .ld _ | .lbu _ | .lhu _ | .sb _ | .sh _ | .sw _ | .sd _ => true
  | .lrW f => f.fitsRow && f.rs2 == 0#5
  | .scW f | .amoswapW f | .amoaddW f | .amoxorW f | .amoandW f | .amoorW f => f.fitsRow
  | .amominW f | .amomaxW f | .amominuW f | .amomaxuW f => f.fitsRow
  | .fenceI _ | .sfenceVma _ | .mret | .sret => true
  | .csrrw _ | .csrrs _ | .csrrc _ | .csrrwi _ | .csrrsi _ | .csrrci _ => true

/-- `i.WellFormed`: the check holds. -/
abbrev Instr.WellFormed (i : Instr) : Prop := i.wellFormed = true

end Sys2Proof
end

