-- ==== Sys2Proof/Certificates/Slice0/Obligations.lean ====
section
/-! DEFINITION. The statements for the provers. `OBLIGATIONS.json` lists them with the rules of spec/ they rest on.
A statement about `exec`, `step` or the register file rests on the model's choices of assumption logs 3, 4, 6
and 7, where it names a receipt on those of logs 12 and 14, and where it gives every field of a result on that of
log 25, and has basis 'derived'; a statement about a component of the block says what the spec's rule says. -/

open Sys2Proof Sys2Proof.Machine

/-! ## Encoding -/

/-- Decoding the word of a well-formed instruction gives the instruction back, with every operand at every value its
row admits (R136, R149; the bit positions are PRESUMED, assumption log 3). -/
def Obligations.DecodeOfEncodeIsTheInstruction : Prop :=
  ∀ i : Instr, i.WellFormed → decodeWord (encode i) = .instr i

/-- A word that decodes to an instruction is that instruction's only word, and the instruction is well formed. -/
def Obligations.EncodeOfDecodeIsTheWord : Prop :=
  ∀ (w : BitVec 32) (i : Instr), decodeWord w = .instr i → encode i = w ∧ i.WellFormed

/-- Six words of `95_test_vectors.md` part 3 and of the opcode table, one of each kind, decode to the instructions
they stand for (a check of fixed values). -/
def Obligations.ListedWordsDecode : Prop :=
  decodeWord 0x0062A023#32 = .instr (.sw { rs1 := 5, rs2 := 6, imm := 0 }) ∧
  decodeWord 0x0002A383#32 = .instr (.lw { rd := 7, rs1 := 5, imm := 0 }) ∧
  decodeWord 0x1002A32F#32 =
    .instr (.lrW { rd := 6, rs1 := 5, rs2 := 0, func3 := 2, aq := false, rl := false }) ∧
  decodeWord 0x1882A3AF#32 =
    .instr (.scW { rd := 7, rs1 := 5, rs2 := 8, func3 := 2, aq := false, rl := false }) ∧
  decodeWord 0x0072A32F#32 =
    .instr (.amoaddW { rd := 6, rs1 := 5, rs2 := 7, func3 := 2, aq := false, rl := false }) ∧
  decodeWord 0x0000100F#32 = .instr (.fenceI { rd := 0, rs1 := 0, imm := 0 })

/-- R138, R143, R203, R211: the Execute Entry of a memory instruction decodes in the Decode stage to the instruction's
own operation, that of an atomic whatever its `func3`, and the Execute stage's effective address is the instruction's
virtual address. That the entry of an `undefined` word selects no operation is the model's choice where the word is an
atomic's with fixed bits wrong (assumption log 3). -/
def Obligations.EntrySelectsOperationAndAddress : Prop :=
  ∀ (i : Instr) (op : MemOp) (s : State) (rd : RobReceipt), i.memOp = some op →
    let m := decodeEntry (executeEntry i (readReg s.env.x) rd s.env.pc)
    m.op = op ∧ m.rd = rd ∧ m.pc = s.env.pc ∧ m.next = s.env.pc + 4 ∧ m.valid = true ∧
      (op ≠ .undefined → effectiveAddress m.add1 m.add2 = virtualAddress s i)

/-! ## Arbiter and bypass layer -/

/-- R174, R176: requester 1 wins in an idle tick; a grant stays through any run of ticks without `ready` and ends in
the `ready` tick. -/
def Obligations.ArbiterHoldsItsGrant : Prop :=
  ∀ (p : Params) (b : Block) (is : List BlockInput),
    (∀ (in1 in2 : Option SmaReq) (ready : Bool),
      nextArb .idle in1 in2 ready =
        if in1.isSome then .pending1 else if in2.isSome then .pending2 else .idle) ∧
    (b.arb ≠ .idle → (∀ i ∈ is, i.sma.ready = false) →
      (b.run p is).arb = b.arb ∧
        ∀ i : BlockInput, i.sma.ready = true → ((b.run p is).tick p i).arb = .idle)

/-- R182: every byte of a read is the store queue's where its strobe is set and memory's elsewhere; `ready` and
`error` pass unchanged. -/
def Obligations.BypassOverlaysByteByByte : Prop :=
  ∀ (bp : BypassResp) (answer : Option SmaAnswer),
    (bypassAnswer bp answer).isSome = answer.isSome ∧
    ∀ a r : SmaAnswer, answer = some a → bypassAnswer bp answer = some r →
      r.error = a.error ∧
      ∀ k : Nat, k < 4 →
        byteOfWord r.data k = if bp.strobe.getLsbD k then byteOfWord bp.data k else byteOfWord a.data k

/-- R82, R91, R103: a read through the bypass layer returns, for each byte it covers, the byte of the youngest
store-queue entry that covers it, or else memory's. -/
def Obligations.ReadSeesTheYoungestStore : Prop :=
  ∀ (env : Env) (t : BeatType) (pa : Addr) (pad d : Word), memRead env t pa pad = some d →
    ∀ k : Nat, k < t.bytes → byteOfWord d k = env.loadByte (pa + BitVec.ofNat 32 k)

/-- R90, R103: draining the store queue to memory, as far as it may go, changes no byte a load can see. -/
def Obligations.DrainKeepsWhatLoadsSee : Prop :=
  ∀ (env : Env) (limit : Option Nat) (a : Addr), (env.drain limit).loadByte a = env.loadByte a

/-! ## Memory pipeline -/

/-- R302: the two-bit sign table is signed comparison. -/
def Obligations.SignTableIsSignedOrder : Prop := ∀ a b : Word, ltS a b = decide (a.toInt < b.toInt)

/-- R140: the members of the classification sets of the operations. -/
def Obligations.ClassificationSets : Prop :=
  ∀ op : MemOp,
    (op.isRead = true ↔ op ∈ [MemOp.lb, .lh, .lw, .ld, .lbu, .lhu, .lr]) ∧
    (op.isWrite = true ↔ op ∈ [MemOp.sb, .sh, .sw, .sd, .sc]) ∧
    (op.isAmo = true ↔
      op ∈ [MemOp.amoswap, .amoadd, .amoxor, .amoand, .amoor, .amomin, .amomax, .amominu, .amomaxu]) ∧
    (op.isByte = true ↔ op ∈ [MemOp.lb, .lbu, .sb]) ∧
    (op.isHalf = true ↔ op ∈ [MemOp.lh, .lhu, .sh]) ∧
    (op.isWord = true ↔ op ∈ [MemOp.lw, .sw, .lr, .sc, .amoswap, .amoadd, .amoxor, .amoand, .amoor, .amomin,
      .amomax, .amominu, .amomaxu]) ∧
    (op.isDouble = true ↔ op ∈ [MemOp.ld, .sd]) ∧
    (op.inWriteSet = true ↔ op ∈ [MemOp.sb, .sh, .sw, .sd, .sc, .amoswap, .amoadd, .amoxor, .amoand, .amoor,
      .amomin, .amomax, .amominu, .amomaxu])

/-- R211, R212: the Execute stage's address, and its tag by the low bits of the virtual address. -/
def Obligations.ExecuteStageChecksAlignment : Prop :=
  ∀ e : MemEntry1,
    (executeOut e).vaddress.toNat = (e.add1.toNat + e.add2.toNat) % 2 ^ 32 ∧
    (executeOut e).error =
      if ((e.op.isWord = true ∨ e.op.isDouble = true) ∧ (executeOut e).vaddress.toNat % 4 ≠ 0) ∨
          (e.op.isHalf = true ∧ (executeOut e).vaddress.toNat % 2 ≠ 0)
      then .misaligned else .none

/-- R223: what the TLB stage hands over; "a pre-existing misalignment dominates any TLB error". -/
def Obligations.MisalignmentDominates : Prop :=
  ∀ (t : TlbStage) (m : MemEntry3), t.out = some m →
    m.op = t.inReg.op ∧ m.vaddress = t.inReg.vaddress ∧ m.op1 = t.inReg.op1 ∧ m.rd = t.inReg.rd ∧
      m.pc = t.inReg.pc ∧ m.next = t.inReg.next ∧ m.valid = t.inReg.valid ∧ m.paddress = t.paddress ∧
      (t.inReg.error = .misaligned → m.error = .misaligned) ∧
      (t.inReg.error ≠ .misaligned → m.error = t.error)

/-- R219, R221: the wires of the TLB stage by its state; a request carries the entry's virtual address and whether the
operation writes; it is held until the DTLB answers, `recover` or not; the answer is captured, and goes on only for an
entry that is still valid. -/
def Obligations.TlbRequestIsNeverAbandoned : Prop :=
  ∀ (t : TlbStage) (inp : MemEntry2) (dtlb : DtlbResp) (outReady recover : Bool),
    let t' := t.tick inp dtlb outReady recover
    (t.ready = true ↔ t.state = .idle) ∧ (t.out.isSome = true ↔ t.state = .respond) ∧
    (t.request = if t.state = .request
      then some { vaddress := t.inReg.vaddress, write := t.inReg.op.inWriteSet } else none) ∧
    (t.state = .request →
      t'.inReg = { t.inReg with valid := t.inReg.valid && !recover } ∧
      (dtlb.ready = false → t'.state = .request ∧ t'.request = t.request) ∧
      (dtlb.ready = true →
        t'.paddress = dtlb.answer.paddress ∧ t'.error = dtlb.answer.error ∧
        t'.state = if t.inReg.valid = true ∧ recover = false then .respond else .idle))

/-- R531, R339, R202, R210, R220 to R222: an entry enqueued into a quiet block with its operands known is, after six
ticks in which the DTLB answers in the fifth, in the ReadWrite stage, with the operation, address, tag and physical
address the rules give it. -/
def Obligations.EntryReachesTheReadWriteStage : Prop :=
  ∀ (p : Params) (b : Block) (e : ExecuteEntry) (i0 i1 i2 i3 i4 i5 : BlockInput),
    b.quiet = true → b.memQueue.Sound p.iqDepth.val →
    i0.enq = some e → e.valid = true →
    e.rs1.pending = false → e.rs2.pending = false → e.rs3.pending = false →
    (∀ i ∈ [i0, i1, i2, i3, i4, i5], i.retiredValid = false) →
    i4.dtlb.ready = true →
    let b' := b.run p [i0, i1, i2, i3, i4, i5]
    let op := decodeOp e.instructionType e.func3 e.func7
    let va := effectiveAddress (lowWord e.rs1.value)
      (if e.instructionType = .I ∨ e.instructionType = .S then e.imm else 0)
    b'.rw.state = .idle ∧
      b'.rw.inReg =
        { op := op, vaddress := va, paddress := i4.dtlb.answer.paddress, op1 := e.rs2.value
          error := mergeError (alignmentError op va) i4.dtlb.answer.error
          rd := e.rd, pc := e.pc, next := e.next, valid := true }

/-- R244, R262, R462: the exceptions of the ReadWrite stage: `illegalInstruction` for `undefined`, else the code of
the tag, at dispatch; `loadAccessFault` for a read error, whatever the reading operation. That `lrAddress` and
`writeID` are 0 in the result is the model's choice, assumption log 25. -/
def Obligations.ReadWriteStageRaisesByTheMap : Prop :=
  ∀ (r : RwStage) (resv : LoadReservationEntry) (inp : Option MemEntry3) (read : Option SmaAnswer)
    (fired : Option SqReceipt), r.inReg.valid = true →
    (r.state = .idle → r.inReg.op = .undefined →
      r.Raises 2 (r.tick resv inp read fired false)) ∧
    (∀ code, r.state = .idle → r.inReg.op ≠ .undefined → codeOf r.inReg.op.isRead r.inReg.error = some code →
      r.Raises code (r.tick resv inp read fired false)) ∧
    (∀ d, r.state = .readBottom ∨ r.state = .readTop → read = some { data := d, error := true } →
      r.Raises 5 (r.tick resv inp read fired false))

/-- R294: the reservation check of an `sc`, on all 32 bits of the virtual address. That `exceptionCode`, `lrAddress`
and `writeID` are 0 in the result of a failing `sc` is the model's choice, assumption log 25. -/
def Obligations.StoreConditionalChecksTheReservation : Prop :=
  ∀ (r : RwStage) (resv : LoadReservationEntry) (inp : Option MemEntry3) (read : Option SmaAnswer)
    (fired : Option SqReceipt),
    r.state = .idle → r.inReg.valid = true → r.inReg.op = .sc → r.inReg.error = .none →
    let t := r.tick resv inp read fired false
    (resv.valid = true ∧ resv.address = r.inReg.vaddress →
      t.next = { r with state := .writeBottom } ∧ t.out = none ∧ t.event = .none) ∧
    (¬(resv.valid = true ∧ resv.address = r.inReg.vaddress) →
      t.out = some { rd := r.inReg.rd
                     bits := { ExecuteResult.zero with result := 1, sc := true, real := r.inReg.next } } ∧
      t.event = .clear ∧ t.next.state = .idle ∧ t.next.inReg.valid = false)

/-- R244, R248, R249, R291, R530: the ReadWrite stage, given the words the reads return, emits for a load or `lr` the
result that the collapsed instruction has. -/
def Obligations.StageEmitsTheCollapsedLoad : Prop :=
  ∀ (s : State) (r : RwStage) (resv resv' resv'' : LoadReservationEntry) (op : MemOp) (va pa : Addr)
    (lo hi : Word),
    op.isRead = true → access s.env op va s.input.tlbAge = .granted pa →
    r.state = .idle → r.inReg.valid = true → r.inReg.op = op → r.inReg.error = .none →
    r.inReg.vaddress = va → r.inReg.paddress = pa → r.inReg.next = fallThrough s →
    memRead s.env op.beatType pa s.input.smaPad = some lo →
    let t1 := (r.tick resv none none none false).next
    let t2 := t1.tick resv' none (some { data := lo, error := false }) none false
    t1.readReq = some { address := pa, readType := op.beatType } ∧
    (op ≠ .ld → t2.out = some
      { rd := r.inReg.rd
        bits := if op = .lr then (performLoadReserved op va s).result else (performLoad op va s).result }) ∧
    (op = .ld → memRead s.env .word (pa + 4) s.input.smaPad = some hi →
      t2.out = none ∧ t2.next.readReq = some { address := pa + 4, readType := .word } ∧
      (t2.next.tick resv'' none (some { data := hi, error := false }) none false).out =
        some { rd := r.inReg.rd, bits := (performLoadDouble op va s).result })

/-- R244, R248, R257, R258, R264, R300, R530: the ReadWrite stage allocates for an AMO the word, and emits the
result, that the collapsed instruction has. -/
def Obligations.StageEmitsTheCollapsedAmo : Prop :=
  ∀ (s : State) (r : RwStage) (resv resv' resv'' : LoadReservationEntry) (op : MemOp) (va pa : Addr)
    (old : Word),
    op.isAmo = true → access s.env op va s.input.tlbAge = .granted pa →
    r.state = .idle → r.inReg.valid = true → r.inReg.op = op → r.inReg.error = .none →
    r.inReg.paddress = pa → r.inReg.next = fallThrough s →
    memRead s.env .word pa s.input.smaPad = some old →
    let t1 := (r.tick resv none none none false).next
    let t2 := (t1.tick resv' none (some { data := old, error := false }) none false).next
    let x := performAmo op va r.inReg.op1 s
    ∃ req, t2.allocReq false = some req ∧ req.writeType = .word ∧
      x.env = s.env.memWrite s.cfg.sqIdW.val req ∧
      (t2.tick resv'' none none (some s.env.sq.nextId) false).out = some { rd := r.inReg.rd, bits := x.result }

/-- R244, R257, R258, R259, R264, R294, R295, R530: the ReadWrite stage allocates for a store of one beat, for an `sd`
with its two beats, and for an `sc` whose reservation holds what the collapsed instruction allocates, the bottom beat
first, and emits its result with the receipts in that order; an `sc` whose reservation does not hold emits the
collapsed result at dispatch. -/
def Obligations.StageEmitsTheCollapsedStore : Prop :=
  ∀ (s : State) (r : RwStage) (resv resv' resv'' : LoadReservationEntry) (op : MemOp) (va pa : Addr),
    op.isWrite = true → access s.env op va s.input.tlbAge = .granted pa →
    r.state = .idle → r.inReg.valid = true → r.inReg.op = op → r.inReg.error = .none →
    r.inReg.vaddress = va → r.inReg.paddress = pa → r.inReg.next = fallThrough s →
    let idW := s.cfg.sqIdW.val
    let id0 := s.env.sq.nextId
    let t0 := r.tick (if op = .sc then s.blk.loadReservation else resv) none none none false
    let t1 := t0.next.tick resv' none none (some id0) false
    let performs (x : Executed) : Prop :=
      t0.out = none ∧ ∃ req, t0.next.allocReq false = some req ∧ x.env = s.env.memWrite idW req ∧
        t1.out = some { rd := r.inReg.rd, bits := x.result } ∧ t1.event = x.event ∧
        x.result.writeID0 = id0 ∧ x.result.writeID1 = id0
    (op = .sb ∨ op = .sh ∨ op = .sw → performs (performStore op va r.inReg.op1 s)) ∧
    (op = .sc →
      let x := performStoreConditional op va r.inReg.op1 s
      (reservationHolds s.blk.loadReservation va = true → performs x) ∧
      (reservationHolds s.blk.loadReservation va = false →
        t0.out = some { rd := r.inReg.rd, bits := x.result } ∧ t0.event = x.event ∧ x.env = s.env)) ∧
    (op = .sd →
      let x := performStoreDouble op va r.inReg.op1 s
      t0.out = none ∧ t1.out = none ∧ t1.next.receipt0 = id0 ∧
      ∃ req0 req1, t0.next.allocReq false = some req0 ∧ t1.next.allocReq false = some req1 ∧
        x.env = (s.env.memWrite idW req0).memWrite idW req1 ∧
        let id1 := (s.env.memWrite idW req0).sq.nextId
        (t1.next.tick resv'' none none (some id1) false).out = some { rd := r.inReg.rd, bits := x.result } ∧
        x.result.writeID0 = id0 ∧ x.result.writeID1 = id1)

/-! ## Recovery and the load reservation -/

/-- R257, R260, R268, R387, R441, R505: after a `recover` tick no entry in the block is valid, and the speculative
reservation is the recovery copy; in that tick nothing is allocated and nothing is emitted, and a write state snaps to
idle. -/
def Obligations.RecoverCancelsEveryEntry : Prop :=
  ∀ (p : Params) (b : Block) (i : BlockInput), recoverOf b i = true →
    (b.tick p i).Cancelled ∧ (b.tick p i).loadReservation = (b.tick p i).recoveryLoadReservation ∧
      (b.outputs p i).alloc = none ∧ (b.outputs p i).rwOut = none ∧
      (b.rw.state = .writeBottom ∨ b.rw.state = .writeTop →
        (b.tick p i).rw.state = .idle ∧ (b.tick p i).rw.inReg.valid = false)

/-- R384 to R388: the next value of both reservations. -/
def Obligations.ReservationNextState : Prop :=
  ∀ (p : Params) (b : Block) (i : BlockInput),
    let u := (engineTick b.ret i).out.lrUpdate
    let b' := b.tick p i
    (u = none → b'.recoveryLoadReservation = b.recoveryLoadReservation) ∧
    (∀ l, u = some l → l.load = true → b'.recoveryLoadReservation = { address := l.address, valid := true }) ∧
    (∀ l, u = some l → l.load = false →
      b'.recoveryLoadReservation = { address := b.recoveryLoadReservation.address, valid := false }) ∧
    (recoverOf b i = true → b'.loadReservation = b'.recoveryLoadReservation) ∧
    (recoverOf b i = false → b.LrCompletes p i →
      b'.loadReservation = { address := b.rw.inReg.vaddress, valid := true }) ∧
    (recoverOf b i = false → b.ScCompletes i →
      b'.loadReservation = { address := b.loadReservation.address, valid := false }) ∧
    (recoverOf b i = false → ¬b.LrCompletes p i → ¬b.ScCompletes i →
      b'.loadReservation = b.loadReservation)

/-! ## Execute queues -/

/-- R331: a pending slot takes the value of the lowest lane that carries its tag; any other slot stays; the three
slots of an entry are treated alike, whatever its `valid`. -/
def Obligations.WakeTakesTheLowestLane : Prop :=
  ∀ (lanes : List BroadcastLane) (s : OperandSlot),
    (∀ (m : Nat) (l : BroadcastLane), s.pending = true → lanes[m]? = some l → l.valid = true → l.tag = s.tag →
      (∀ (j : Nat) (l' : BroadcastLane), j < m → lanes[j]? = some l' → ¬(l'.valid = true ∧ l'.tag = s.tag)) →
      wakeSlot lanes s = { pending := false, tag := s.tag, value := l.value }) ∧
    (s.pending = false ∨ (∀ l ∈ lanes, ¬(l.valid = true ∧ l.tag = s.tag)) → wakeSlot lanes s = s) ∧
    (∀ e : ExecuteEntry, wake lanes e =
      { e with rs1 := wakeSlot lanes e.rs1, rs2 := wakeSlot lanes e.rs2, rs3 := wakeSlot lanes e.rs3 })

/-- R333, R338: a queue of either variant offers an entry only woken and, if valid, with no operand pending; a bubble is
offered whatever its slots hold; an in-order queue offers its head exactly when it is a bubble or ready. -/
def Obligations.DequeuedEntriesAreReady : Prop :=
  ∀ (lanes : List BroadcastLane) (q : InOrderQueue) (o : OutOfOrderQueue),
    (∀ e, q.deq lanes = some e →
      e = wake lanes (q.buf.getD q.rptr .zero) ∧
        (e.valid = true → e.rs1.pending = false ∧ e.rs2.pending = false ∧ e.rs3.pending = false)) ∧
    (∀ e, o.deq lanes = some e →
      (∃ k, k < o.cells.length ∧ (o.cell k).state ≠ .empty ∧ e = wake lanes (o.cell k).data) ∧
        (e.valid = true → e.rs1.pending = false ∧ e.rs2.pending = false ∧ e.rs3.pending = false)) ∧
    ((q.deq lanes).isSome = true ↔ q.emptyF = false ∧ (wake lanes (q.buf.getD q.rptr .zero)).Ready) ∧
    (∀ k, k < o.cells.length → (o.cell k).state ≠ .empty → (o.cell k).data.valid = false →
      (o.deq lanes).isSome = true)

/-- R339, R341: an in-order queue is first in, first out: the entry that is taken leaves at the front, the entry that
is accepted joins at the back, every entry is woken, and `recover` clears the `valid` of each. -/
def Obligations.InOrderQueueIsFirstInFirstOut : Prop :=
  ∀ (d : Nat) (q : InOrderQueue) (lanes : List BroadcastLane) (enq : Option ExecuteEntry)
    (deqReady recover : Bool), q.Sound d →
    let q' := q.tick d lanes enq deqReady recover
    let kept := if (q.deq lanes).isSome && deqReady then (q.contents d).tail else q.contents d
    let joined := if q.enqReady then enq.toList else []
    q'.Sound d ∧
      q'.contents d = (kept ++ joined).map fun e => (wake lanes e).cancelIf recover

/-- R333, R350, R352: the out-of-order queue offers the ready entry nearest the tail, offers one whenever a cell has
one, and no cell's entry leaves both ways; a cell has one exactly when it holds an entry that, woken, is a bubble or has
no operand pending. -/
def Obligations.OutOfOrderGrantIsTheOldestReady : Prop :=
  ∀ (q : OutOfOrderQueue) (lanes : List BroadcastLane) (deqReady : Bool),
    (∀ e, q.deq lanes = some e →
      ∃ g, g < q.cells.length ∧ q.grant lanes = some g ∧ e = wake lanes (q.cell g).data ∧
        q.sideValid lanes g = true ∧ ∀ k, g < k → k < q.cells.length → q.sideValid lanes k = false) ∧
    (∀ k, k < q.cells.length → (q.sideValid lanes k = true ↔
      (q.cell k).state ≠ .empty ∧ (wake lanes (q.cell k).data).Ready)) ∧
    (q.deq lanes = none ↔ ∀ k, k < q.cells.length → q.sideValid lanes k = false) ∧
    (∀ k, ¬(q.sideFire lanes deqReady k = true ∧ q.chainFire lanes k = true))

/-- R355, R356: a tick of an out-of-order queue loses, duplicates and reorders no entry: what it holds afterwards,
oldest first, is what it held without the entry the consumer took, and then the accepted one, all woken, with `valid`
cleared on `recover`. -/
def Obligations.OutOfOrderQueueKeepsAgeOrder : Prop :=
  ∀ (q : OutOfOrderQueue) (lanes : List BroadcastLane) (enq : Option ExecuteEntry) (deqReady recover : Bool),
    q.cells ≠ [] →
    let q' := q.tick lanes enq deqReady recover
    let joined := if q.enqReady 0 then enq.toList else []
    q'.cells.length = q.cells.length ∧
      q'.contents = (q.remaining lanes deqReady ++ joined).map fun e => (wake lanes e).cancelIf recover

/-! ## Retirement -/

/-- R402, R405: the row's entries are the entries `2 * row` and `2 * row + 1` of the view of the ROB; it fires only when
both are committed or invalid; until then the engine does nothing. -/
def Obligations.RowWaitsForBothSlots : Prop :=
  ∀ (ret : RetireRegs) (i : BlockInput), ret.state = .retire →
    (∀ e, i.tableRetire.lookup (BitVec.ofNat 32 (2 * i.retiredRow.toNat)) = some e → i.e0 = e) ∧
    (∀ e, i.tableRetire.lookup (BitVec.ofNat 32 (2 * i.retiredRow.toNat + 1)) = some e → i.e1 = e) ∧
    (fireNow ret i = true ↔ i.retiredValid = true ∧ (i.e0.commit = true ∨ i.e0.valid = false) ∧
      (i.e1.commit = true ∨ i.e1.valid = false)) ∧
    (fireNow ret i = false → engineTick ret i = { out := .idle, next := ret })

/-- R420, R421, R422, R424: what the four dispositions that redirect drive, in the order of R410: for slot 0, with
slot 1 not looked at; and for slot 1 on top of what a Normal or invalid slot 0 drives. -/
def Obligations.RedirectingDispositions : Prop :=
  ∀ (e0 e1 : RobRetireEntry) (handlerPC : Addr),
    let row := retireRow e0 e1 handlerPC
    let r := e0.executeResult
    let q := e1.executeResult
    let reached := (e0.valid = true → disposition e0 = .normal) ∧ e1.valid = true
    let older := (retireRow e0 .zero handlerPC).out
    (e0.valid = true →
      (r.exception = true → row =
        { out := { EngineOut.idle with
            exc := some { pc := e0.pc, code := r.exceptionCode }, recover := some handlerPC, retiredReady := true }
          flush := none }) ∧
      (r.exception = false → r.xret = true → row =
        { out := { EngineOut.idle with xret := true, recover := some handlerPC, retiredReady := true }
          flush := none }) ∧
      (r.exception = false → r.xret = false → r.writeCSR = true → row =
        { out := { EngineOut.idle with
            csrWrite := some { address := r.csrAddress, data := r.csrData }
            reg0 := some { rd := e0.rd, result := r.result }, recover := some r.real, retiredReady := true }
          flush := none }) ∧
      (r.exception = false → r.xret = false → r.writeCSR = false → e0.spec ≠ r.real → row =
        { out := { EngineOut.idle with
            reg0 := some { rd := e0.rd, result := r.result }
            pred0 := some { pc := e0.pc, jump := r.branch, target := r.real }
            recover := some r.real, retiredReady := true }
          flush := none })) ∧
    (reached →
      (q.exception = true → row =
        { out := { older with exc := some { pc := e1.pc, code := q.exceptionCode }, recover := some handlerPC }
          flush := none }) ∧
      (q.exception = false → q.xret = true → row =
        { out := { older with xret := true, recover := some handlerPC }, flush := none }) ∧
      (q.exception = false → q.xret = false → q.writeCSR = true → row =
        { out := { older with
            csrWrite := some { address := q.csrAddress, data := q.csrData }
            reg1 := some { rd := e1.rd, result := q.result }, recover := some q.real }
          flush := none }) ∧
      (q.exception = false → q.xret = false → q.writeCSR = false → e1.spec ≠ q.real → row =
        { out := { older with
            reg1 := some { rd := e1.rd, result := q.result }
            pred1 := some { pc := e1.pc, jump := q.branch, target := q.real }, recover := some q.real }
          flush := none }))

/-- R406, R427: slot 0 first; an invalid slot is skipped, dispositions 1 to 5 of slot 0 stop the evaluation, the Normal
one goes on to slot 1; a flush of slot 1 begins on top of what a Normal slot 0 drives, or of nothing behind an
invalid one, and does not consume the row. -/
def Obligations.OlderSlotStopsTheRow : Prop :=
  ∀ (e0 e1 : RobRetireEntry) (handlerPC : Addr),
    let row := retireRow e0 e1 handlerPC
    (e0.valid = true → disposition e0 ≠ .normal → ∀ e1', retireRow e0 e1' handlerPC = row) ∧
    (e0.valid = false → ∀ e0', e0'.valid = false → retireRow e0' e1 handlerPC = row) ∧
    (e0.valid = true → disposition e0 = .normal → e1.valid = true →
      (row.flush = some .slot1 ↔ disposition e1 = .flush) ∧
      (row.out.recover.isSome = true ↔ disposition e1 ≠ .flush ∧ disposition e1 ≠ .normal)) ∧
    (e0.valid = true → disposition e0 = .flush → row = { out := .idle, flush := some .slot0 }) ∧
    (e0.valid = true → disposition e0 = .normal → e1.valid = true → disposition e1 = .flush →
      row = { out := { (retireRow e0 .zero handlerPC).out with retiredReady := false }, flush := some .slot1 }) ∧
    (e0.valid = false → e1.valid = true → disposition e1 = .flush →
      row = { out := .idle, flush := some .slot1 }) ∧
    (e0.valid = false → e1.valid = false → row = { out := { EngineOut.idle with retiredReady := true }, flush := none })

/-- R425, R430, R432, R433, R434: a slot with the Normal disposition, not behind one that stops the row, drives its
register port, and its predictor port exactly when `branch`; only such a slot commits stores or updates the
reservation; it commits both of its receipts; the younger slot's reservation update wins. -/
def Obligations.OnlyNormalSlotsCommit : Prop :=
  ∀ (e0 e1 : RobRetireEntry) (handlerPC : Addr),
    let o := (retireRow e0 e1 handlerPC).out
    let normal0 := e0.valid = true ∧ disposition e0 = .normal
    let normal1 := (e0.valid = true → disposition e0 = .normal) ∧ e1.valid = true ∧ disposition e1 = .normal
    let predictor (e : RobRetireEntry) : Option PredUpdate :=
      if e.executeResult.branch = true
        then some { pc := e.pc, jump := true, target := e.executeResult.real } else none
    (normal0 → o.reg0 = some { rd := e0.rd, result := e0.executeResult.result } ∧ o.pred0 = predictor e0) ∧
    (normal1 → o.reg1 = some { rd := e1.rd, result := e1.executeResult.result } ∧ o.pred1 = predictor e1 ∧
      o.recover = none ∧ o.retiredReady = true) ∧
    (∀ c, o.sq0 = some c ↔ normal0 ∧ e0.executeResult.write = true ∧
      c = { id0 := e0.executeResult.writeID0, id1 := e0.executeResult.writeID1 }) ∧
    (∀ c, o.sq1 = some c ↔ normal1 ∧ e1.executeResult.write = true ∧
      c = { id0 := e1.executeResult.writeID0, id1 := e1.executeResult.writeID1 }) ∧
    (normal1 → (e1.executeResult.lr = true ∨ e1.executeResult.sc = true) →
      o.lrUpdate = some { load := e1.executeResult.lr, address := e1.executeResult.lrAddress }) ∧
    (normal0 → ¬(normal1 ∧ (e1.executeResult.lr = true ∨ e1.executeResult.sc = true)) →
      o.lrUpdate = if e0.executeResult.lr = true ∨ e0.executeResult.sc = true then
        some { load := e0.executeResult.lr, address := e0.executeResult.lrAddress } else none) ∧
    (¬normal0 → ¬(normal1 ∧ (e1.executeResult.lr = true ∨ e1.executeResult.sc = true)) → o.lrUpdate = none)

/-- R426, R446, R449: the tick in which a flush begins, the three flush states, the end of the flush, and no request in
state `retire`. -/
def Obligations.FlushMachineStates : Prop :=
  ∀ (ret : RetireRegs) (i : BlockInput),
    let f := flushResult ret i
    let stays (empty : Bool) : RetireRegs := if empty then ret else { ret with busySeen := true }
    let row := retireRow i.e0 i.e1 i.handlerPC
    (∀ slot, ret.state = .retire → fireNow ret i = true → row.flush = some slot →
      engineTick ret i = { out := row.out, next := { state := .dcache, flushID := slot, busySeen := false } } ∧
      row.out.retiredReady = false ∧ row.out.recover = none ∧ row.out.reg1 = none ∧ row.out.pred1 = none ∧
      row.out.sq1 = none ∧ (slot = .slot0 → row.out = .idle)) ∧
    (ret.state = .dcache → engineTick ret i =
      { out := { EngineOut.idle with dCacheReq := f.flushDCache }
        next := if f.flushDCache = false ∨ (ret.busySeen = true ∧ i.dCacheEmpty = true)
          then { ret with state := .icache, busySeen := false } else stays i.dCacheEmpty }) ∧
    (ret.state = .icache → engineTick ret i =
      { out := { EngineOut.idle with iCacheReq := f.flushICache }
        next := if f.flushICache = false ∨ (ret.busySeen = true ∧ i.iCacheEmpty = true)
          then { ret with state := .tlb, busySeen := false } else stays i.iCacheEmpty }) ∧
    (ret.state = .tlb → f.flushTLB = false ∨ (ret.busySeen = true ∧ i.tlbEmpty = true) → engineTick ret i =
      { out := { EngineOut.idle with tlbReq := f.flushTLB, recover := some f.real, retiredReady := true }
        next := { ret with state := .retire, busySeen := false } }) ∧
    (ret.state = .tlb → ¬(f.flushTLB = false ∨ (ret.busySeen = true ∧ i.tlbEmpty = true)) → engineTick ret i =
      { out := { EngineOut.idle with tlbReq := f.flushTLB }, next := stays i.tlbEmpty }) ∧
    (ret.state = .retire → (engineTick ret i).out.dCacheReq = false ∧ (engineTick ret i).out.iCacheReq = false ∧
      (engineTick ret i).out.tlbReq = false)

/-- R447, R522: with sinks that drop `empty` for one tick after `req`, a flush takes three ticks for a flagged state
and one for another, and the engine is then back in `retire`. -/
def Obligations.FlushCompletes : Prop :=
  ∀ (i : BlockInput) (slot : Slot),
    let start : RetireRegs := { state := .dcache, flushID := slot, busySeen := false }
    let f := flushResult start i
    let before := flushTicks i f.flushDCache ++ flushTicks i f.flushICache ++ (flushTicks i f.flushTLB).dropLast
    start.run (flushTicks i f.flushDCache ++ flushTicks i f.flushICache ++ flushTicks i f.flushTLB) =
        { state := .retire, flushID := slot, busySeen := false } ∧
      (engineTick (start.run before) (i.withEmpty true)).out.recover = some f.real

/-! ## Instructions: loads (assumption logs 4, 6) -/

/-- R251 to R256, R263, R96: the six loads complete with the bytes a load sees, little-endian: a byte or a halfword
sign- or zero-extended to 64 bits, a word with the upper half zero, a double of the words at `pa` and `pa + 4`, the
lower address in the low half. Nothing else changes. -/
def Obligations.LoadsComplete : Prop :=
  ∀ (s : State) (f : LoadFields) (pa : Addr), Readable s pa →
    let va := displacedAddress s f.rs1 f.imm
    let loads (i : Instr) (v : Data) : Prop :=
      ∃ t, exec i s = .next t ∧ RetiredNormal s t (some f.rd) v none none ∧ t.blk = s.blk ∧ KeepsMemory s t
    (Reaches s .lb va pa → loads (.lb f) ((s.env.loadByte pa).signExtend 64)) ∧
    (Reaches s .lbu va pa → loads (.lbu f) ((s.env.loadByte pa).setWidth 64)) ∧
    (Reaches s .lh va pa → loads (.lh f) ((s.env.loadHalf pa).signExtend 64)) ∧
    (Reaches s .lhu va pa → loads (.lhu f) ((s.env.loadHalf pa).setWidth 64)) ∧
    (Reaches s .lw va pa → loads (.lw f) ((s.env.loadWord pa).setWidth 64)) ∧
    (Reaches s .ld va pa → Readable s (pa + 4) →
      loads (.ld f) (s.env.loadWord (pa + 4) ++ s.env.loadWord pa))

/-! ## Instructions: stores -/

/-- R270 to R273: `sb`, `sh` and `sw` complete with one receipt, `sd` with two, the low word's first; the one, two, four
or eight bytes at `pa` become the low ones of the register, every other byte stays. -/
def Obligations.StoresComplete : Prop :=
  ∀ (s : State) (f : StoreFields) (pa : Addr),
    let va := displacedAddress s f.rs1 f.imm
    let stores (i : Instr) (n : Nat) (receipts : Option SqRetire) : Prop :=
      ∃ t, exec i s = .next t ∧ RetiredNormal s t none 0 none receipts ∧ t.blk = s.blk ∧
        Stores s t pa n (readReg s.env.x f.rs2)
    (Reaches s .sb va pa → stores (.sb f) 1 (oneReceipt s)) ∧
    (Reaches s .sh va pa → stores (.sh f) 2 (oneReceipt s)) ∧
    (Reaches s .sw va pa → stores (.sw f) 4 (oneReceipt s)) ∧
    (Reaches s .sd va pa → stores (.sd f) 8
      (some { id0 := s.env.sq.nextId, id1 := (s.env.sq.nextId + 1) % 2 ^ s.cfg.sqIdW.val }))

/-! ## Instructions: atomics -/

/-- R291: `lr.w` completes with the word, and both copies of the reservation hold its virtual address. -/
def Obligations.LoadReservedCompletes : Prop :=
  ∀ (s : State) (f : AtomicFields) (pa : Addr), Readable s pa → Reaches s .lr (baseAddress s f.rs1) pa →
    ∃ t, exec (.lrW f) s = .next t ∧
      RetiredNormal s t (some f.rd) ((s.env.loadWord pa).setWidth 64)
        (some { load := true, address := baseAddress s f.rs1 }) none ∧
      t.blk = s.blk.withReservations { address := baseAddress s f.rs1, valid := true }
        { address := baseAddress s f.rs1, valid := true } ∧
      KeepsMemory s t

/-- R293 to R296: `sc.w` under a matching reservation completes with 0 and stores the word; without one it completes
with 1 and stores nothing; either way both copies of the reservation are cleared. -/
def Obligations.StoreConditionalCompletes : Prop :=
  ∀ (s : State) (f : AtomicFields) (pa : Addr), Reaches s .sc (baseAddress s f.rs1) pa →
    let holds := s.blk.loadReservation.valid = true ∧ s.blk.loadReservation.address = baseAddress s f.rs1
    ∃ t, exec (.scW f) s = .next t ∧
      t.blk = s.blk.withReservations { s.blk.loadReservation with valid := false }
        { s.blk.recoveryLoadReservation with valid := false } ∧
      (holds → RetiredNormal s t (some f.rd) 0 (some { load := false, address := 0 }) (oneReceipt s) ∧
        Stores s t pa 4 (readReg s.env.x f.rs2)) ∧
      (¬holds → RetiredNormal s t (some f.rd) 1 (some { load := false, address := 0 }) none ∧ KeepsMemory s t)

/-- R300 to R311: each of the nine AMOs completes with the old word and stores its combination with the operand. -/
def Obligations.AtomicMemoryOperationsComplete : Prop :=
  AmoCompletes .amoswap .amoswapW (fun _ b => b) ∧
  AmoCompletes .amoadd .amoaddW (fun a b => BitVec.ofNat 32 (a.toNat + b.toNat)) ∧
  AmoCompletes .amoxor .amoxorW (fun a b => a ^^^ b) ∧
  AmoCompletes .amoand .amoandW (fun a b => a &&& b) ∧
  AmoCompletes .amoor .amoorW (fun a b => a ||| b) ∧
  AmoCompletes .amomin .amominW (fun a b => if a.toInt < b.toInt then a else b) ∧
  AmoCompletes .amomax .amomaxW (fun a b => if a.toInt < b.toInt then b else a) ∧
  AmoCompletes .amominu .amominuW (fun a b => if a.toNat < b.toNat then a else b) ∧
  AmoCompletes .amomaxu .amomaxuW (fun a b => if a.toNat < b.toNat then b else a)

/-! ## Instructions: traps -/

/-- R274: `undefined` traps with code 2, in every state. -/
def Obligations.UndefinedTraps : Prop :=
  ∀ (s : State) (w : BitVec 32), ∃ t, exec (.undefined w) s = .next t ∧ Trapped s t 2

/-- R86, R462, R465: a memory instruction whose address is misaligned, or whose translation fails, traps with the code
of its kind, misalignment first; it reads nothing, stores nothing and leaves the recovery copy. -/
def Obligations.MemoryFaultsTrap : Prop :=
  ∀ (s : State) (i : Instr) (op : MemOp) (code : ExcCode), i.memOp = some op → op ≠ .undefined →
    codeOf op.isRead
      (if misaligned op (virtualAddress s i) = true then .misaligned
        else (s.env.translate { vaddress := virtualAddress s i, write := op.inWriteSet } s.input.tlbAge).error) =
      some code →
    ∃ t, exec i s = .next t ∧ Trapped s t code

/-- R248, R249, R300, R462: a reading instruction whose read answers an error traps with `loadAccessFault`, the AMOs
included; for `ld` an error on either beat. -/
def Obligations.ReadErrorsTrap : Prop :=
  ∀ (s : State) (i : Instr) (op : MemOp) (pa : Addr), i.memOp = some op →
    op.isRead = true ∨ op.isAmo = true → Reaches s op (virtualAddress s i) pa →
    (¬Readable s pa ∨ (op = .ld ∧ ¬Readable s (pa + 4))) →
    ∃ t, exec i s = .next t ∧ Trapped s t 5

/-- R461, R515: an instruction of a unit outside the block that reports an exception traps with the unit's code,
whatever it is (the unit is an input of the model, assumption log 9). -/
def Obligations.UnitExceptionsTrap : Prop :=
  ∀ (s : State) (i : Instr) (w : BitVec 32) (code : ExcCode), s.input.unit.exception = some code →
    (i.memOp = none → ∃ t, exec i s = .next t ∧ Trapped s t code) ∧
    (∃ t, execOtherUnit w s = .next t ∧ Trapped s t code)

/-! ## Instructions: system (assumption logs 6, 9) -/

/-- R105, R108, R426, R449, R519: `fence.i` requests both cache flushes, writes no register and redirects to its
fall-through; where every store had retired, every instruction fetch then sees the bytes that loads saw before it. -/
def Obligations.FenceICompletes : Prop :=
  ∀ (s : State) (f : FenceFields), s.input.unit.exception = none →
    ∃ t, exec (.fenceI f) s = .next t ∧ Redirected s t (s.env.pc + 4) 0 ∧ t.env.x = s.env.x ∧
      t.out.engine = { EngineOut.idle with
        retiredReady := true, recover := some (s.env.pc + 4), dCacheReq := true, iCacheReq := true } ∧
      ((∀ e ∈ s.env.sq.entries, e.retired = true) →
        ∀ (a : Addr) (age : Nat), t.env.fetchByte a age = s.env.loadByte a)

/-- R109, R426, R449, R525: `sfence.vma` requests the TLB flush, writes no register and redirects to its fall-through;
after it every translation is by the page tables, whatever lines they replaced (that it sets `flushTLB` is the spec's
own reading, assumption log 10). -/
def Obligations.SfenceVmaCompletes : Prop :=
  ∀ (s : State) (f : SfenceFields), s.input.unit.exception = none →
    ∃ t, exec (.sfenceVma f) s = .next t ∧ Redirected s t (s.env.pc + 4) 0 ∧ t.env.x = s.env.x ∧
      t.out.engine = { EngineOut.idle with
        retiredReady := true, recover := some (s.env.pc + 4), tlbReq := true } ∧
      ∀ (r : DtlbReq) (age : Nat), t.env.translate r age = s.env.mapping r

/-- R421, R476: `mret` and `sret` drive `xret` and redirect to `handlerPC`; no register changes. -/
def Obligations.TrapReturnsComplete : Prop :=
  ∀ (s : State) (i : Instr), i = .mret ∨ i = .sret → s.input.unit.exception = none →
    ∃ t, exec i s = .next t ∧ Redirected s t s.input.handlerPC 0 ∧ t.env.x = s.env.x ∧
      t.out.engine = { EngineOut.idle with
        retiredReady := true, xret := true, recover := some s.input.handlerPC }

/-- R422, R454: a CSR instruction that writes drives the CSR port with the word's address and the unit's value, writes
the unit's old value to its register and serializes; one that does not write retires Normal with the unit's value.
`csrrw` and `csrrwi` always write, the others when the unit says so (assumption log 9). -/
def Obligations.CsrInstructionsComplete : Prop :=
  ∀ (s : State) (f : CsrFields) (g : CsrImmFields), s.input.unit.exception = none →
    let writes (i : Instr) (rd : RegNum) (csr : CsrAddress) : Prop :=
      ∃ t, exec i s = .next t ∧ CsrWrites s t rd csr
    let reads (i : Instr) (rd : RegNum) : Prop :=
      ∃ t, exec i s = .next t ∧ RetiredNormal s t (some rd) s.input.unit.result none none ∧ t.blk = s.blk ∧
        KeepsMemory s t
    writes (.csrrw f) f.rd f.csr ∧ writes (.csrrwi g) g.rd g.csr ∧
    (s.input.unit.writeCSR = true →
      writes (.csrrs f) f.rd f.csr ∧ writes (.csrrc f) f.rd f.csr ∧
      writes (.csrrsi g) g.rd g.csr ∧ writes (.csrrci g) g.rd g.csr) ∧
    (s.input.unit.writeCSR = false →
      reads (.csrrs f) f.rd ∧ reads (.csrrc f) f.rd ∧ reads (.csrrsi g) g.rd ∧ reads (.csrrci g) g.rd)

/-- R424, R425, R432, R453: a word of another unit writes its register and goes on at its resolved next PC; if that is
not the predicted one it updates the predictor and redirects, else it updates the predictor exactly when the resolved
next PC is not the fall-through. -/
def Obligations.OtherUnitWordsRetire : Prop :=
  ∀ (s : State) (w : BitVec 32), s.input.unit.exception = none →
    let real := unitReal w s
    let driven : EngineOut := { EngineOut.idle with
      retiredReady := true, reg0 := some { rd := soloReceipt s, result := s.input.unit.result } }
    let update : PredUpdate := { pc := s.env.pc, jump := decide (real ≠ s.env.pc + 4), target := real }
    ∃ t, execOtherUnit w s = .next t ∧ t.env.x = written s.env.x (unitDest w) s.input.unit.result ∧
      t.env.pc = real ∧
      (unitSpec w s ≠ real → Redirected s t real s.input.unit.result ∧
        t.out.engine = { driven with pred0 := some update, recover := some real }) ∧
      (unitSpec w s = real → Frame s t s.input.unit.result ∧ t.blk = s.blk ∧ KeepsMemory s t ∧
        t.out.engine = { driven with pred0 := if real = s.env.pc + 4 then none else some update })

/-! ## The machine (assumption logs 6, 7) -/

/-- A step with nothing in flight and nothing offered, in which the neighbours the instruction asks answer, runs the
instruction the word at `pc` decodes to, or the word of another unit that it is, and then the next record of inputs
moves up. -/
def Obligations.StepRunsTheDecodedInstruction : Prop :=
  ∀ s : State, ready s = true →
    let d := decodeWord (s.env.fetchWord s.input.fetchAge)
    (∀ i : Instr, i.WellFormed → d = .instr i → answered s i = true → step s = andAdvance (exec i s)) ∧
    (∀ w : BitVec 32, d = .otherUnit w → step s = andAdvance (execOtherUnit w s))

/-- An instruction or a word of another unit that runs alone leaves nothing in flight, so the next step fetches again
while the environment offers nothing. -/
def Obligations.InstructionsLeaveNothingInFlight : Prop :=
  ∀ s t : State, ready s = true →
    (∀ i : Instr, exec i s = .next t → ready t = true) ∧
    (∀ w : BitVec 32, execOtherUnit w s = .next t → ready t = true)

/-- R526: a neighbour that does not answer leaves the instruction waiting: the DTLB any memory instruction, the memory
one that reads, the store queue a store, a flush sink the fence that asks it. The step is then a tick that leaves the
registers, the reservations, the next instruction's address and every byte a load can see as they were. -/
def Obligations.UnansweredInstructionsWait : Prop :=
  ∀ (s : State) (i : Instr), ready s = true → decodeWord (s.env.fetchWord s.input.fetchAge) = .instr i →
    ((∃ op, i.memOp = some op ∧ s.input.dtlbReady = false) ∨
      (∃ op pa, i.memOp = some op ∧ (op.isRead = true ∨ op.isAmo = true) ∧ Reaches s op (virtualAddress s i) pa ∧
        s.input.smaReady = false) ∨
      (∃ op pa, i.memOp = some op ∧ op.isWrite = true ∧ op ≠ .sc ∧ Reaches s op (virtualAddress s i) pa ∧
        s.input.allocReady = false) ∨
      (∃ f, i = .fenceI f ∧ s.input.unit.exception = none ∧
        (s.input.dCacheMoves = false ∨ s.input.iCacheMoves = false)) ∨
      (∃ f, i = .sfenceVma f ∧ s.input.unit.exception = none ∧ s.input.tlbMoves = false)) →
    ∃ t, step s = .next t ∧ t = (sysTick s).advance ∧ t.env.x = s.env.x ∧ t.env.pc = s.env.pc ∧
      t.blk.loadReservation = s.blk.loadReservation ∧
      t.blk.recoveryLoadReservation = s.blk.recoveryLoadReservation ∧ KeepsMemory s t

/-- R526: no state stops the machine, no step changes the parameters, and a step that does not run what it fetches is
one tick. -/
def Obligations.EveryStepAnswersNext : Prop :=
  ∀ s : State, ∃ t, step s = .next t ∧ t.cfg = s.cfg ∧
    (runsNow s (decodeWord (s.env.fetchWord s.input.fetchAge)) = false → t = (sysTick s).advance)

/-- R30, R46, R100, R450: a tick whose retirement ports are silent leaves the registers, the next instruction's address
and the architectural reservation as they were, and changes memory only by writing the oldest retired entries of the
store queue to it. -/
def Obligations.OnlyRetirementChangesArchitecturalState : Prop :=
  ∀ s : State,
    let t := sysTick s
    let o := t.out.engine
    o.reg0 = none → o.reg1 = none → o.lrUpdate = none → o.recover = none → o.sq0 = none → o.sq1 = none →
    t.env.x = s.env.x ∧ t.env.pc = s.env.pc ∧
      t.blk.recoveryLoadReservation = s.blk.recoveryLoadReservation ∧
      ∃ n, (∀ e ∈ s.env.sq.entries.take n, e.retired = true) ∧
        t.env.mem = (s.env.sq.entries.take n).foldl Memory.writeEntry s.env.mem

/-- R15, R178, R511: an offer to a queue, and the other requester's read, stay until they are taken; only a `recover`
turns an entry that waits into a bubble (assumption log 24). -/
def Obligations.OffersAreHeldUntilTaken : Prop :=
  ∀ s : State,
    let t := (sysTick s).advance
    let o := t.out
    let waits (e : ExecuteEntry) : ExecuteEntry := e.cancelIf o.engine.recover.isSome
    (∀ e, s.input.enq = some e → o.enqReady = false → t.input.enq = some (waits e)) ∧
    (∀ (k : Nat) (e : ExecuteEntry), s.input.inOrderEnq[k]? = some (some e) →
      o.inOrderEnqReady[k]? = some false → t.input.inOrderEnq[k]? = some (some (waits e))) ∧
    (∀ (k : Nat) (e : ExecuteEntry), s.input.outOfOrderEnq[k]? = some (some e) →
      o.outOfOrderEnqReady[k]? = some false → t.input.outOfOrderEnq[k]? = some (some (waits e))) ∧
    (∀ r, s.input.other = some r → o.other = none → t.input.other = some r)

/-- R336, R514: no wake-up is lost: an entry is offered to any queue with no slot waiting for a tag that was broadcast
before; the environment remembers every broadcast until the tag is given out again; and a result that no lane carries,
the ReadWrite stage's or another unit's, reported or sent ahead of its report, waits for one. -/
def Obligations.NoWakeUpIsLost : Prop :=
  ∀ s : State,
    let i := wires s
    let t := sysTick s
    let fresh := s.env.rob.freshReceipts t.out s.input
    (∀ e, i.enq = some e ∨ some e ∈ i.inOrderEnq ∨ some e ∈ i.outOfOrderEnq →
      ∀ slot ∈ [e.rs1, e.rs2, e.rs3], slot.pending = true →
      ∀ l ∈ s.env.bus.heard, l.valid = true → l.tag ≠ slot.tag) ∧
    (∀ l, (l ∈ i.bcast ∧ l.valid = true) ∨ l ∈ s.env.bus.heard → l.tag ∉ fresh → l ∈ t.env.bus.heard) ∧
    (∀ o, t.out.rwOut = some o →
      BroadcastLane.of o.rd o.bits.result ∈ i.bcast ∨ BroadcastLane.of o.rd o.bits.result ∈ t.env.bus.unsent) ∧
    (∀ l ∈ (reportedEnv s).bus.unsent, l ∈ i.bcast ∨ l ∈ t.env.bus.unsent) ∧
    (∀ l ∈ s.env.bus.unsent, l ∈ i.bcast ∨ l ∈ t.env.bus.unsent)

/-- R513, R516: an entry is offered to any queue with no operand pending that its instruction does not use: on the memory
queue `rs3` never, `rs2` only for a store, an `sc` or an AMO, `rs1` for any operation but `undefined`; on the others by
its format. The memory operation it selects and its used operands are the instruction's; `pc`, `spec` and `next` are
those the ROB has for it (which operands `undefined` and an instruction of another unit use: assumption log 28). -/
def Obligations.EntriesAreOfferedAsTheDutiesSay : Prop :=
  ∀ s : State,
    let i := wires s
    let rob := robWithNewRow s
    let known (e e' : ExecuteEntry) : Prop :=
      ∀ slot, rob.slotAt e.rd = some slot → slot.entry.valid = true →
        e'.pc = slot.entry.pc ∧ e'.spec = slot.entry.spec ∧ e'.next = slot.next
    (∀ e, s.input.enq = some e →
      let op := decodeOp e.instructionType e.func3 e.func7
      ∃ e', i.enq = some e' ∧ e'.rd = e.rd ∧ e'.valid = e.valid ∧ known e e' ∧
        decodeOp e'.instructionType e'.func3 e'.func7 = op ∧ e'.rs3.pending = false ∧
        (op.isRead = true → e'.rs1 = wakeSlot s.env.bus.heard e.rs1 ∧ e'.rs2.pending = false ∧
          (e.rs1.pending = false → fireable e' = true)) ∧
        (op.isWrite = true ∨ op.isAmo = true →
          e'.rs1 = wakeSlot s.env.bus.heard e.rs1 ∧ e'.rs2 = wakeSlot s.env.bus.heard e.rs2 ∧
          (e.rs1.pending = false → e.rs2.pending = false → fireable e' = true)) ∧
        (op = .undefined → fireable e' = true)) ∧
    (∀ e', some e' ∈ i.inOrderEnq ∨ some e' ∈ i.outOfOrderEnq →
      (∃ e, (some e ∈ s.input.inOrderEnq ∨ some e ∈ s.input.outOfOrderEnq) ∧ e'.rd = e.rd ∧ known e e' ∧
        e'.instructionType = e.instructionType) ∧
      (e'.instructionType ≠ .R4 → e'.rs3.pending = false) ∧
      (e'.instructionType = .I → e'.rs2.pending = false) ∧
      (e'.instructionType = .U ∨ e'.instructionType = .J ∨ e'.instructionType = .UNK →
        e'.rs1.pending = false ∧ e'.rs2.pending = false))

/-- R336, R512, R515: what the units outside the block report in a tick. A receipt that awaits no result, of an entry
that is not in flight or has its result, of the memory pipeline's, or of a bubble a unit was handed, gets no result and
no broadcast. One that awaits a result gets the first that is reported for it, with the fields R515 leaves to the unit as
reported and the others as R515 says, and its word goes to the bus; without a report it is as it was (a word sent ahead of the report is the
result's, assumption log 28). After a bubble has been handed over its receipt awaits none. -/
def Obligations.OtherUnitsReportByTheRule : Prop :=
  ∀ (s : State) (rd : RobReceipt),
    let e := reportedEnv s
    let t := sysTick s
    let handed := handedOver t.out s.input
    (s.env.rob.awaiting rd = none → e.rob.slotAt rd = s.env.rob.slotAt rd ∧
      ∀ l ∈ e.bus.unsent, l.tag = rd → l ∈ s.env.bus.unsent) ∧
    (∀ slot, s.env.rob.awaiting rd = some slot →
      slot.entry.valid = true ∧ slot.entry.commit = false ∧ slot.kind ≠ .memory ∧ slot.bubble = false ∧
      ∃ slot', e.rob.slotAt rd = some slot' ∧
        ((∀ u ∈ s.input.results, u.rd ≠ rd) → slot' = slot) ∧
        (∀ u, s.input.results.find? (fun u => u.rd == rd) = some u →
          slot' = { slot with entry := { slot.entry with
            commit := true, executeResult := slot'.entry.executeResult } } ∧
          slot'.entry.executeResult.ByTheRule slot.kind slot.next ∧
          slot'.entry.executeResult.Reports u.result slot.kind ∧
          BroadcastLane.of rd slot'.entry.executeResult.result ∈ e.bus.unsent ++ s.env.bus.heard ∧
          ((∀ l ∈ s.input.lanes ++ s.env.bus.unsent ++ s.env.bus.heard, l.valid = true → l.tag ≠ rd) →
            slot'.entry.executeResult.result = u.result.result))) ∧
    (∀ slot, s.env.rob.slotAt rd = some slot → s.env.rob.rows.length < 2 ^ 31 →
      (∃ d ∈ handed, d.rd = rd) → (∀ d ∈ handed, d.rd = rd → d.valid = false) →
      t.env.rob.awaiting rd = none)

/-- R519, R522: the flush sinks keep the handshake with the flush machine; the D-cache's does not finish while a store
that has retired waits in the store queue. -/
def Obligations.FlushSinksKeepTheHandshake : Prop :=
  ∀ s : State,
    let i := wires s
    let t := sysTick s
    let o := t.out.engine
    s.env.sinks.dCache.Keeps o.dCacheReq s.input.dCacheMoves s.env.retiredDrained i.dCacheEmpty
        t.env.sinks.dCache ∧
      s.env.sinks.iCache.Keeps o.iCacheReq s.input.iCacheMoves true i.iCacheEmpty t.env.sinks.iCache ∧
      s.env.sinks.tlb.Keeps o.tlbReq s.input.tlbMoves true i.tlbEmpty t.env.sinks.tlb

/-- R41, R44, R55, R80, R90, R172, R176, R178, R242, R340, R402, R446, R516: every step keeps the invariant: the queues are
circular buffers, the ReadWrite stage's state fits its operation, the arbiter's grant is held by its requester, a
receipt names one store-queue entry and has its width, the other requester's grant has a request, memory is in
canonical form, no two rows of the ROB have one number, and the prediction of an instruction in it that cannot transfer
control is its fall-through. -/
def Obligations.EveryStepKeepsSoundness : Prop :=
  ∀ s t : State, s.Sound → step s = .next t → t.Sound

/-- The invariant holds at reset. -/
def Obligations.ResetIsSound : Prop := State.reset.Sound

/-- R61, R501: the registers of the block at reset, for every value of the parameters. -/
def Obligations.ResetRegisters : Prop :=
  ∀ p : Params,
    let b := Block.reset p
    b.arb = .idle ∧ b.dec = .zero ∧ b.dec.valid = false ∧ b.exe = .zero ∧ b.exe.valid = false ∧
      b.tlb.inReg = .zero ∧ b.tlb.inReg.valid = false ∧ b.tlb.state = .idle ∧
      b.tlb.paddress = 0 ∧ b.tlb.error = .none ∧ b.rw.inReg = .zero ∧ b.rw.inReg.valid = false ∧
      b.rw.state = .idle ∧ b.rw.readResult = 0 ∧ b.rw.receipt0 = 0 ∧
      b.loadReservation = { address := 0, valid := false } ∧
      b.recoveryLoadReservation = { address := 0, valid := false } ∧
      b.inOrderQueues.length = p.inOrderQueues ∧ b.outOfOrderQueues.length = p.outOfOrderQueues ∧
      (∀ q ∈ b.memQueue :: b.inOrderQueues, q.buf.length = p.iqDepth.val ∧
        (∀ e ∈ q.buf, e = .zero ∧ e.valid = false) ∧ q.rptr = 0 ∧ q.wptr = 0 ∧ q.emptyF = true ∧
        q.fullF = false) ∧
      (∀ q ∈ b.outOfOrderQueues, q.cells.length = p.ooqDepth.val ∧
        ∀ c ∈ q.cells, c.state = .empty ∧ c.data = .zero ∧ c.data.valid = false ∧ c.shadow = .zero ∧
          c.shadow.valid = false) ∧
      b.ret.state = .retire ∧ b.ret.flushID = .slot0 ∧ b.ret.busySeen = false

/-- R502: the first tick after reset, for every value of the parameters, with no row, no entry and no request on the
inputs and whatever the other wires hold, drives nothing but `enq.ready`, and leaves what R61 requires of the
registers: valid bits, state machines, pointers, flags and reservations. -/
def Obligations.FirstTickAfterReset : Prop :=
  ∀ (p : Params) (i : BlockInput), i.retiredValid = false → i.enq = none → (∀ e ∈ i.inOrderEnq, e = none) →
    (∀ e ∈ i.outOfOrderEnq, e = none) → i.other = none →
    let o := (Block.reset p).outputs p i
    let b := (Block.reset p).tick p i
    o.engine = .idle ∧ o.rwOut = none ∧ o.alloc = none ∧ o.smaValid = false ∧ o.other = none ∧
      o.bypassAddress = none ∧ o.dtlb = none ∧ o.enqReady = true ∧
      o.inOrderEnqReady = List.replicate p.inOrderQueues true ∧
      o.outOfOrderEnqReady = List.replicate p.outOfOrderQueues true ∧
      (∀ d ∈ o.inOrderDeq, d = none) ∧ (∀ d ∈ o.outOfOrderDeq, d = none) ∧
      b.arb = .idle ∧ b.tlb.state = .idle ∧ b.rw.state = .idle ∧ b.ret.state = .retire ∧ b.ret.busySeen = false ∧
      b.loadReservation = { address := 0, valid := false } ∧
      b.recoveryLoadReservation = { address := 0, valid := false } ∧ b.Cancelled ∧
      (∀ q ∈ b.memQueue :: b.inOrderQueues, q.rptr = 0 ∧ q.wptr = 0 ∧ q.emptyF = true ∧ q.fullF = false) ∧
      (∀ q ∈ b.outOfOrderQueues, ∀ c ∈ q.cells, c.state = .empty)
end

