-- ==== Sys2Proof/Laws/Memory.lean ====
section
/-! SUPPORT. The laws of memory (R80): what a read gives after each memory operation, that every memory operation
keeps the canonical form `Memory.wf`, and that memories of that form which read alike are equal. -/

namespace Sys2Proof.Machine

/-! ## Reading -/

@[simp] theorem Memory.read_nil (a : Nat) : Memory.read [] a = unlistedByte := rfl

theorem Memory.read_cons (c : Host.Cell) (m : Memory) (a : Nat) :
    Memory.read (c :: m) a = if a = c.1 then c.2 else m.read a := rfl

theorem Memory.read_erase (m : Memory) (a b : Nat) :
    (m.erase a).read b = if b = a then unlistedByte else m.read b := by
  induction m with
  | nil => simp [Memory.erase]
  | cons c m ih =>
    simp only [Memory.erase]
    split
    · rename_i h
      rw [ih, Memory.read_cons]
      by_cases hb : b = a
      · simp [hb]
      · simp [hb, ← h]
    · rename_i h
      rw [Memory.read_cons, Memory.read_cons, ih]
      by_cases hb : b = a
      · subst hb
        simp [h]
      · simp [hb]

theorem Memory.read_insert (m : Memory) (a b : Nat) (v : Byte) (h : m.read a = unlistedByte ∨ b ≠ a)
    (hm : ∀ c ∈ m, c.1 ≠ a) : (m.insert a v).read b = if b = a then v else m.read b := by
  induction m with
  | nil => simp [Memory.insert, Memory.read_cons]
  | cons c m ih =>
    simp only [Memory.insert]
    have hc : c.1 ≠ a := hm c (by simp)
    split
    · simp [Memory.read_cons]
    · rw [Memory.read_cons, Memory.read_cons, ih _ fun d hd => hm d (by simp [hd])]
      · by_cases hb : b = a
        · subst hb
          simp [Ne.symm hc]
        · simp [hb]
      · rcases h with h | h
        · left
          simpa [Memory.read_cons, Ne.symm hc] using h
        · exact .inr h

theorem Memory.mem_erase (m : Memory) (a : Nat) (c : Host.Cell) :
    c ∈ m.erase a ↔ c ∈ m ∧ c.1 ≠ a := by
  induction m with
  | nil => simp [Memory.erase]
  | cons d m ih =>
    simp only [Memory.erase]
    split
    · rename_i h
      rw [ih]
      constructor
      · exact fun hc => ⟨.tail _ hc.1, hc.2⟩
      · rintro ⟨hc | hc, hn⟩
        · exact absurd h.symm hn
        · exact ⟨by assumption, hn⟩
    · rename_i h
      rw [List.mem_cons, List.mem_cons, ih]
      constructor
      · rintro (rfl | hc)
        · exact ⟨.inl rfl, fun e => h e.symm⟩
        · exact ⟨.inr hc.1, hc.2⟩
      · rintro ⟨rfl | hc, hn⟩
        · exact .inl rfl
        · exact .inr ⟨hc, hn⟩

/-- Read after write. -/
@[simp] theorem Memory.read_write (m : Memory) (a b : Nat) (v : Byte) :
    (m.write a v).read b = if b = a then v else m.read b := by
  unfold Memory.write
  split
  · rename_i h
    rw [Memory.read_erase, h]
  · rw [Memory.read_insert _ _ _ _ (.inl (by simp [Memory.read_erase]))
      fun c hc => ((Memory.mem_erase m a c).1 hc).2, Memory.read_erase]
    split <;> simp_all

/-- A beat of `n` bytes, byte `k` at `a + k`. -/
theorem Memory.read_writeBytes (m : Memory) (a b : Addr) (data : Word) (n : Nat) (hn : n ≤ 2 ^ 32) :
    (m.writeBytes a data n).read b.toNat =
      if (b - a).toNat < n then byteOfWord data (b - a).toNat else m.read b.toNat := by
  induction n with
  | zero => simp [Memory.writeBytes]
  | succ k ih =>
    rw [Memory.writeBytes, Memory.read_write, ih (by omega)]
    have hk : b.toNat = (a + BitVec.ofNat 32 k).toNat ↔ (b - a).toNat = k := by
      simp only [BitVec.toNat_add, BitVec.toNat_sub, BitVec.toNat_ofNat]
      omega
    by_cases h : (b - a).toNat = k
    · simp [hk.2 h, h]
    · rw [if_neg fun e => h (hk.1 e)]
      by_cases h' : (b - a).toNat < k
      · rw [if_pos h', if_pos (by omega)]
      · rw [if_neg h', if_neg (by omega)]

theorem BeatType.bytes_le (t : BeatType) : t.bytes ≤ 4 := by cases t <;> decide

/-- Writing an entry to memory stores the bytes the bypass port sees of it (R90, R91). -/
theorem Memory.read_writeEntry (m : Memory) (e : StoreQueueEntry) (a : Addr) :
    (m.writeEntry e).read a.toNat = (e.byteAt a).getD (m.read a.toNat) := by
  rw [Memory.writeEntry, Memory.read_writeBytes _ _ _ _ _
    (by have := BeatType.bytes_le e.writeType; omega), StoreQueueEntry.byteAt]
  split <;> rfl

/-! ## The canonical form -/

theorem Memory.wfFrom_mono {lo lo' : Nat} {m : Memory} (h : lo' ≤ lo) (hm : Memory.wfFrom lo m = true) :
    Memory.wfFrom lo' m = true := by
  cases m with
  | nil => rfl
  | cons c m =>
    simp only [Memory.wfFrom, Bool.and_eq_true, decide_eq_true_eq] at hm ⊢
    exact ⟨⟨⟨by omega, hm.1.1.2⟩, hm.1.2⟩, hm.2⟩

theorem Memory.wfFrom_erase {lo : Nat} {m : Memory} (a : Nat) (hm : Memory.wfFrom lo m = true) :
    Memory.wfFrom lo (m.erase a) = true := by
  induction m generalizing lo with
  | nil => rfl
  | cons c m ih =>
    simp only [Memory.wfFrom, Bool.and_eq_true, decide_eq_true_eq] at hm
    simp only [Memory.erase]
    split
    · exact Memory.wfFrom_mono (by omega) (ih hm.2)
    · simp only [Memory.wfFrom, Bool.and_eq_true, decide_eq_true_eq]
      exact ⟨hm.1, ih hm.2⟩

theorem Memory.wfFrom_insert {lo : Nat} {m : Memory} {a : Nat} {v : Byte} (hlo : lo ≤ a) (ha : a < 2 ^ 32)
    (hv : v ≠ unlistedByte) (hn : ∀ c ∈ m, c.1 ≠ a) (hm : Memory.wfFrom lo m = true) :
    Memory.wfFrom lo (m.insert a v) = true := by
  induction m generalizing lo with
  | nil =>
    simp [Memory.insert, Memory.wfFrom, hlo, hv]
    omega
  | cons c m ih =>
    have hc : c.1 ≠ a := hn c (by simp)
    simp only [Memory.wfFrom, Bool.and_eq_true, decide_eq_true_eq] at hm
    simp only [Memory.insert]
    split
    · simp only [Memory.wfFrom, Bool.and_eq_true, decide_eq_true_eq]
      exact ⟨⟨⟨hlo, ha⟩, by simpa using hv⟩, ⟨⟨⟨by omega, hm.1.1.2⟩, hm.1.2⟩, hm.2⟩⟩
    · simp only [Memory.wfFrom, Bool.and_eq_true, decide_eq_true_eq]
      exact ⟨hm.1, ih (by omega) (fun d hd => hn d (by simp [hd])) hm.2⟩

/-- Writing a byte keeps the canonical form. -/
theorem Memory.wf_write {m : Memory} {a : Nat} (v : Byte) (ha : a < 2 ^ 32) (hm : m.wf = true) :
    (m.write a v).wf = true := by
  unfold Memory.write
  split
  · exact Memory.wfFrom_erase a hm
  · rename_i h
    exact Memory.wfFrom_insert (Nat.zero_le _) ha h (fun c hc => ((Memory.mem_erase m a c).1 hc).2)
      (Memory.wfFrom_erase a hm)

/-- Writing a beat keeps the canonical form. -/
theorem Memory.wf_writeBytes {m : Memory} (a : Addr) (data : Word) (n : Nat) (hm : m.wf = true) :
    (m.writeBytes a data n).wf = true := by
  induction n with
  | zero => exact hm
  | succ k ih => exact Memory.wf_write _ (BitVec.isLt _) ih

/-- Writing a store-queue entry keeps the canonical form. -/
theorem Memory.wf_writeEntry {m : Memory} (e : StoreQueueEntry) (hm : m.wf = true) :
    (m.writeEntry e).wf = true := Memory.wf_writeBytes _ _ _ hm

/-- Draining keeps the canonical form. -/
theorem drainEntries_wf (es : List StoreQueueEntry) (limit : Option Nat) (m : Memory) (st : List Host.Cell)
    (hm : m.wf = true) : (drainEntries es limit m st).mem.wf = true := by
  induction es generalizing limit m st with
  | nil => exact hm
  | cons e es ih =>
    simp only [drainEntries]
    split
    · exact ih _ _ _ (Memory.wf_writeEntry e hm)
    · exact hm

theorem Env.drain_wf (env : Env) (limit : Option Nat) (hm : env.mem.wf = true) :
    (env.drain limit).mem.wf = true := drainEntries_wf _ _ _ _ hm

theorem Env.room_wf (env : Env) (hm : env.mem.wf = true) : env.room.mem.wf = true := by
  unfold Env.room
  split
  · exact hm
  · exact Env.drain_wf _ _ hm

/-- Queueing a store keeps the canonical form. -/
theorem Env.memWrite_wf (env : Env) (idW : Nat) (r : AllocReq) (hm : env.mem.wf = true) :
    (env.memWrite idW r).mem.wf = true := Env.room_wf env hm

/-- Placing an instruction word keeps the canonical form. -/
theorem Env.placeWord_wf (env : Env) (w : BitVec 32) (hm : env.mem.wf = true) :
    (env.placeWord w).mem.wf = true := Memory.wf_writeBytes _ _ _ hm

/-- Memory is in canonical form at reset. -/
theorem State.reset_mem_wf : State.reset.env.mem.wf = true := rfl

/-! ## Canonical memories that read alike are equal -/

theorem Memory.read_below {lo : Nat} {m : Memory} (hm : Memory.wfFrom lo m = true) {a : Nat} (ha : a < lo) :
    m.read a = unlistedByte := by
  induction m generalizing lo with
  | nil => rfl
  | cons c m ih =>
    simp only [Memory.wfFrom, Bool.and_eq_true, decide_eq_true_eq] at hm
    rw [Memory.read_cons, if_neg (by omega)]
    exact ih hm.2 (by omega)

theorem Memory.ext_of_read {lo : Nat} {m n : Memory} (hm : Memory.wfFrom lo m = true)
    (hn : Memory.wfFrom lo n = true) (h : ∀ a, m.read a = n.read a) : m = n := by
  induction m generalizing n lo with
  | nil =>
    cases n with
    | nil => rfl
    | cons d n =>
      simp only [Memory.wfFrom, Bool.and_eq_true, decide_eq_true_eq] at hn
      have := h d.1
      simp [Memory.read_cons] at this
      simp [← this] at hn
  | cons c m ih =>
    have hm' := hm
    simp only [Memory.wfFrom, Bool.and_eq_true, decide_eq_true_eq] at hm
    cases n with
    | nil =>
      have := h c.1
      simp [Memory.read_cons] at this
      simp [this] at hm
    | cons d n =>
      have hn' := hn
      simp only [Memory.wfFrom, Bool.and_eq_true, decide_eq_true_eq] at hn
      have key : c.1 = d.1 := by
        rcases Nat.lt_trichotomy c.1 d.1 with hlt | heq | hgt
        · have e := h c.1
          rw [Memory.read_cons, if_pos rfl, Memory.read_cons, if_neg (by omega),
            Memory.read_below hn.2 (by omega)] at e
          simp [e] at hm
        · exact heq
        · have e := h d.1
          rw [Memory.read_cons, Memory.read_cons, if_pos rfl, if_neg (by omega),
            Memory.read_below hm.2 (by omega)] at e
          simp [← e] at hn
      have val : c.2 = d.2 := by
        have e := h c.1
        rwa [Memory.read_cons, if_pos rfl, Memory.read_cons, if_pos key] at e
      have rest : m = n := by
        refine ih hm.2 (by rw [key]; exact hn.2) fun a => ?_
        have e := h a
        rw [Memory.read_cons, Memory.read_cons, ← key, ← val] at e
        by_cases ha : a = c.1
        · rw [ha, Memory.read_below hm.2 (by omega), Memory.read_below hn.2 (by omega)]
        · simpa [ha] using e
      rw [rest, Prod.ext key val]

/-- Canonical memories that read alike are equal. -/
theorem Memory.ext_of_wf {m n : Memory} (hm : m.wf = true) (hn : n.wf = true)
    (h : ∀ a, m.read a = n.read a) : m = n := Memory.ext_of_read hm hn h

end Sys2Proof.Machine
end

