-- ==== Sys2Proof/Laws/State.lean ====
section
/-! SUPPORT. One lemma per field and named update of the state, so that no proof unfolds a record update. -/

namespace Sys2Proof.Machine

/-! ## `State` -/

@[simp] theorem State.withBlk_cfg (s : State) (b : Block) :
    (s.withBlk b).cfg = s.cfg := rfl
@[simp] theorem State.withBlk_blk (s : State) (b : Block) :
    (s.withBlk b).blk = b := rfl
@[simp] theorem State.withBlk_env (s : State) (b : Block) :
    (s.withBlk b).env = s.env := rfl
@[simp] theorem State.withBlk_input (s : State) (b : Block) :
    (s.withBlk b).input = s.input := rfl
@[simp] theorem State.withBlk_later (s : State) (b : Block) :
    (s.withBlk b).later = s.later := rfl
@[simp] theorem State.withBlk_out (s : State) (b : Block) :
    (s.withBlk b).out = s.out := rfl
@[simp] theorem State.withEnv_cfg (s : State) (e : Env) :
    (s.withEnv e).cfg = s.cfg := rfl
@[simp] theorem State.withEnv_blk (s : State) (e : Env) :
    (s.withEnv e).blk = s.blk := rfl
@[simp] theorem State.withEnv_env (s : State) (e : Env) :
    (s.withEnv e).env = e := rfl
@[simp] theorem State.withEnv_input (s : State) (e : Env) :
    (s.withEnv e).input = s.input := rfl
@[simp] theorem State.withEnv_later (s : State) (e : Env) :
    (s.withEnv e).later = s.later := rfl
@[simp] theorem State.withEnv_out (s : State) (e : Env) :
    (s.withEnv e).out = s.out := rfl
@[simp] theorem State.withOut_cfg (s : State) (o : Outputs) :
    (s.withOut o).cfg = s.cfg := rfl
@[simp] theorem State.withOut_blk (s : State) (o : Outputs) :
    (s.withOut o).blk = s.blk := rfl
@[simp] theorem State.withOut_env (s : State) (o : Outputs) :
    (s.withOut o).env = s.env := rfl
@[simp] theorem State.withOut_input (s : State) (o : Outputs) :
    (s.withOut o).input = s.input := rfl
@[simp] theorem State.withOut_later (s : State) (o : Outputs) :
    (s.withOut o).later = s.later := rfl
@[simp] theorem State.withOut_out (s : State) (o : Outputs) :
    (s.withOut o).out = o := rfl

/-! ## `Block` -/

@[simp] theorem Block.withReservations_arb (b : Block) (l r : LoadReservationEntry) :
    (b.withReservations l r).arb = b.arb := rfl
@[simp] theorem Block.withReservations_dec (b : Block) (l r : LoadReservationEntry) :
    (b.withReservations l r).dec = b.dec := rfl
@[simp] theorem Block.withReservations_exe (b : Block) (l r : LoadReservationEntry) :
    (b.withReservations l r).exe = b.exe := rfl
@[simp] theorem Block.withReservations_tlb (b : Block) (l r : LoadReservationEntry) :
    (b.withReservations l r).tlb = b.tlb := rfl
@[simp] theorem Block.withReservations_rw (b : Block) (l r : LoadReservationEntry) :
    (b.withReservations l r).rw = b.rw := rfl
@[simp] theorem Block.withReservations_loadReservation (b : Block) (l r : LoadReservationEntry) :
    (b.withReservations l r).loadReservation = l := rfl
@[simp] theorem Block.withReservations_recoveryLoadReservation (b : Block) (l r : LoadReservationEntry) :
    (b.withReservations l r).recoveryLoadReservation = r := rfl
@[simp] theorem Block.withReservations_memQueue (b : Block) (l r : LoadReservationEntry) :
    (b.withReservations l r).memQueue = b.memQueue := rfl
@[simp] theorem Block.withReservations_inOrderQueues (b : Block) (l r : LoadReservationEntry) :
    (b.withReservations l r).inOrderQueues = b.inOrderQueues := rfl
@[simp] theorem Block.withReservations_outOfOrderQueues (b : Block) (l r : LoadReservationEntry) :
    (b.withReservations l r).outOfOrderQueues = b.outOfOrderQueues := rfl
@[simp] theorem Block.withReservations_ret (b : Block) (l r : LoadReservationEntry) :
    (b.withReservations l r).ret = b.ret := rfl

/-! ## `Env` -/

@[simp] theorem Env.withMem_pc (e : Env) (m : Memory) :
    (e.withMem m).pc = e.pc := rfl
@[simp] theorem Env.withMem_x (e : Env) (m : Memory) :
    (e.withMem m).x = e.x := rfl
@[simp] theorem Env.withMem_mem (e : Env) (m : Memory) :
    (e.withMem m).mem = m := rfl
@[simp] theorem Env.withMem_sq (e : Env) (m : Memory) :
    (e.withMem m).sq = e.sq := rfl
@[simp] theorem Env.withMem_rob (e : Env) (m : Memory) :
    (e.withMem m).rob = e.rob := rfl
@[simp] theorem Env.withMem_dtlb (e : Env) (m : Memory) :
    (e.withMem m).dtlb = e.dtlb := rfl
@[simp] theorem Env.withMem_superseded (e : Env) (m : Memory) :
    (e.withMem m).superseded = e.superseded := rfl
@[simp] theorem Env.withMem_smaErrors (e : Env) (m : Memory) :
    (e.withMem m).smaErrors = e.smaErrors := rfl
@[simp] theorem Env.withMem_stale (e : Env) (m : Memory) :
    (e.withMem m).stale = e.stale := rfl
@[simp] theorem Env.withMem_sinks (e : Env) (m : Memory) :
    (e.withMem m).sinks = e.sinks := rfl
@[simp] theorem Env.withMem_bus (e : Env) (m : Memory) :
    (e.withMem m).bus = e.bus := rfl
@[simp] theorem Env.withSq_pc (e : Env) (q : StoreQueue) :
    (e.withSq q).pc = e.pc := rfl
@[simp] theorem Env.withSq_x (e : Env) (q : StoreQueue) :
    (e.withSq q).x = e.x := rfl
@[simp] theorem Env.withSq_mem (e : Env) (q : StoreQueue) :
    (e.withSq q).mem = e.mem := rfl
@[simp] theorem Env.withSq_sq (e : Env) (q : StoreQueue) :
    (e.withSq q).sq = q := rfl
@[simp] theorem Env.withSq_rob (e : Env) (q : StoreQueue) :
    (e.withSq q).rob = e.rob := rfl
@[simp] theorem Env.withSq_dtlb (e : Env) (q : StoreQueue) :
    (e.withSq q).dtlb = e.dtlb := rfl
@[simp] theorem Env.withSq_superseded (e : Env) (q : StoreQueue) :
    (e.withSq q).superseded = e.superseded := rfl
@[simp] theorem Env.withSq_smaErrors (e : Env) (q : StoreQueue) :
    (e.withSq q).smaErrors = e.smaErrors := rfl
@[simp] theorem Env.withSq_stale (e : Env) (q : StoreQueue) :
    (e.withSq q).stale = e.stale := rfl
@[simp] theorem Env.withSq_sinks (e : Env) (q : StoreQueue) :
    (e.withSq q).sinks = e.sinks := rfl
@[simp] theorem Env.withSq_bus (e : Env) (q : StoreQueue) :
    (e.withSq q).bus = e.bus := rfl
@[simp] theorem Env.withX_pc (e : Env) (x : Vector Data 32) :
    (e.withX x).pc = e.pc := rfl
@[simp] theorem Env.withX_x (e : Env) (x : Vector Data 32) :
    (e.withX x).x = x := rfl
@[simp] theorem Env.withX_mem (e : Env) (x : Vector Data 32) :
    (e.withX x).mem = e.mem := rfl
@[simp] theorem Env.withX_sq (e : Env) (x : Vector Data 32) :
    (e.withX x).sq = e.sq := rfl
@[simp] theorem Env.withX_rob (e : Env) (x : Vector Data 32) :
    (e.withX x).rob = e.rob := rfl
@[simp] theorem Env.withX_dtlb (e : Env) (x : Vector Data 32) :
    (e.withX x).dtlb = e.dtlb := rfl
@[simp] theorem Env.withX_superseded (e : Env) (x : Vector Data 32) :
    (e.withX x).superseded = e.superseded := rfl
@[simp] theorem Env.withX_smaErrors (e : Env) (x : Vector Data 32) :
    (e.withX x).smaErrors = e.smaErrors := rfl
@[simp] theorem Env.withX_stale (e : Env) (x : Vector Data 32) :
    (e.withX x).stale = e.stale := rfl
@[simp] theorem Env.withX_sinks (e : Env) (x : Vector Data 32) :
    (e.withX x).sinks = e.sinks := rfl
@[simp] theorem Env.withX_bus (e : Env) (x : Vector Data 32) :
    (e.withX x).bus = e.bus := rfl
@[simp] theorem Env.withPc_pc (e : Env) (pc : Addr) :
    (e.withPc pc).pc = pc := rfl
@[simp] theorem Env.withPc_x (e : Env) (pc : Addr) :
    (e.withPc pc).x = e.x := rfl
@[simp] theorem Env.withPc_mem (e : Env) (pc : Addr) :
    (e.withPc pc).mem = e.mem := rfl
@[simp] theorem Env.withPc_sq (e : Env) (pc : Addr) :
    (e.withPc pc).sq = e.sq := rfl
@[simp] theorem Env.withPc_rob (e : Env) (pc : Addr) :
    (e.withPc pc).rob = e.rob := rfl
@[simp] theorem Env.withPc_dtlb (e : Env) (pc : Addr) :
    (e.withPc pc).dtlb = e.dtlb := rfl
@[simp] theorem Env.withPc_superseded (e : Env) (pc : Addr) :
    (e.withPc pc).superseded = e.superseded := rfl
@[simp] theorem Env.withPc_smaErrors (e : Env) (pc : Addr) :
    (e.withPc pc).smaErrors = e.smaErrors := rfl
@[simp] theorem Env.withPc_stale (e : Env) (pc : Addr) :
    (e.withPc pc).stale = e.stale := rfl
@[simp] theorem Env.withPc_sinks (e : Env) (pc : Addr) :
    (e.withPc pc).sinks = e.sinks := rfl
@[simp] theorem Env.withPc_bus (e : Env) (pc : Addr) :
    (e.withPc pc).bus = e.bus := rfl
@[simp] theorem Env.withRob_pc (e : Env) (r : Rob) :
    (e.withRob r).pc = e.pc := rfl
@[simp] theorem Env.withRob_x (e : Env) (r : Rob) :
    (e.withRob r).x = e.x := rfl
@[simp] theorem Env.withRob_mem (e : Env) (r : Rob) :
    (e.withRob r).mem = e.mem := rfl
@[simp] theorem Env.withRob_sq (e : Env) (r : Rob) :
    (e.withRob r).sq = e.sq := rfl
@[simp] theorem Env.withRob_rob (e : Env) (r : Rob) :
    (e.withRob r).rob = r := rfl
@[simp] theorem Env.withRob_dtlb (e : Env) (r : Rob) :
    (e.withRob r).dtlb = e.dtlb := rfl
@[simp] theorem Env.withRob_superseded (e : Env) (r : Rob) :
    (e.withRob r).superseded = e.superseded := rfl
@[simp] theorem Env.withRob_smaErrors (e : Env) (r : Rob) :
    (e.withRob r).smaErrors = e.smaErrors := rfl
@[simp] theorem Env.withRob_stale (e : Env) (r : Rob) :
    (e.withRob r).stale = e.stale := rfl
@[simp] theorem Env.withRob_sinks (e : Env) (r : Rob) :
    (e.withRob r).sinks = e.sinks := rfl
@[simp] theorem Env.withRob_bus (e : Env) (r : Rob) :
    (e.withRob r).bus = e.bus := rfl
@[simp] theorem Env.withStale_pc (e : Env) (l : List Host.Cell) :
    (e.withStale l).pc = e.pc := rfl
@[simp] theorem Env.withStale_x (e : Env) (l : List Host.Cell) :
    (e.withStale l).x = e.x := rfl
@[simp] theorem Env.withStale_mem (e : Env) (l : List Host.Cell) :
    (e.withStale l).mem = e.mem := rfl
@[simp] theorem Env.withStale_sq (e : Env) (l : List Host.Cell) :
    (e.withStale l).sq = e.sq := rfl
@[simp] theorem Env.withStale_rob (e : Env) (l : List Host.Cell) :
    (e.withStale l).rob = e.rob := rfl
@[simp] theorem Env.withStale_dtlb (e : Env) (l : List Host.Cell) :
    (e.withStale l).dtlb = e.dtlb := rfl
@[simp] theorem Env.withStale_superseded (e : Env) (l : List Host.Cell) :
    (e.withStale l).superseded = e.superseded := rfl
@[simp] theorem Env.withStale_smaErrors (e : Env) (l : List Host.Cell) :
    (e.withStale l).smaErrors = e.smaErrors := rfl
@[simp] theorem Env.withStale_stale (e : Env) (l : List Host.Cell) :
    (e.withStale l).stale = l := rfl
@[simp] theorem Env.withStale_sinks (e : Env) (l : List Host.Cell) :
    (e.withStale l).sinks = e.sinks := rfl
@[simp] theorem Env.withStale_bus (e : Env) (l : List Host.Cell) :
    (e.withStale l).bus = e.bus := rfl
@[simp] theorem Env.withDtlb_pc (e : Env) (l o : List TlbLine) :
    (e.withDtlb l o).pc = e.pc := rfl
@[simp] theorem Env.withDtlb_x (e : Env) (l o : List TlbLine) :
    (e.withDtlb l o).x = e.x := rfl
@[simp] theorem Env.withDtlb_mem (e : Env) (l o : List TlbLine) :
    (e.withDtlb l o).mem = e.mem := rfl
@[simp] theorem Env.withDtlb_sq (e : Env) (l o : List TlbLine) :
    (e.withDtlb l o).sq = e.sq := rfl
@[simp] theorem Env.withDtlb_rob (e : Env) (l o : List TlbLine) :
    (e.withDtlb l o).rob = e.rob := rfl
@[simp] theorem Env.withDtlb_dtlb (e : Env) (l o : List TlbLine) :
    (e.withDtlb l o).dtlb = l := rfl
@[simp] theorem Env.withDtlb_superseded (e : Env) (l o : List TlbLine) :
    (e.withDtlb l o).superseded = o := rfl
@[simp] theorem Env.withDtlb_smaErrors (e : Env) (l o : List TlbLine) :
    (e.withDtlb l o).smaErrors = e.smaErrors := rfl
@[simp] theorem Env.withDtlb_stale (e : Env) (l o : List TlbLine) :
    (e.withDtlb l o).stale = e.stale := rfl
@[simp] theorem Env.withDtlb_sinks (e : Env) (l o : List TlbLine) :
    (e.withDtlb l o).sinks = e.sinks := rfl
@[simp] theorem Env.withDtlb_bus (e : Env) (l o : List TlbLine) :
    (e.withDtlb l o).bus = e.bus := rfl
@[simp] theorem Env.withSmaErrors_pc (e : Env) (l : List Addr) :
    (e.withSmaErrors l).pc = e.pc := rfl
@[simp] theorem Env.withSmaErrors_x (e : Env) (l : List Addr) :
    (e.withSmaErrors l).x = e.x := rfl
@[simp] theorem Env.withSmaErrors_mem (e : Env) (l : List Addr) :
    (e.withSmaErrors l).mem = e.mem := rfl
@[simp] theorem Env.withSmaErrors_sq (e : Env) (l : List Addr) :
    (e.withSmaErrors l).sq = e.sq := rfl
@[simp] theorem Env.withSmaErrors_rob (e : Env) (l : List Addr) :
    (e.withSmaErrors l).rob = e.rob := rfl
@[simp] theorem Env.withSmaErrors_dtlb (e : Env) (l : List Addr) :
    (e.withSmaErrors l).dtlb = e.dtlb := rfl
@[simp] theorem Env.withSmaErrors_superseded (e : Env) (l : List Addr) :
    (e.withSmaErrors l).superseded = e.superseded := rfl
@[simp] theorem Env.withSmaErrors_smaErrors (e : Env) (l : List Addr) :
    (e.withSmaErrors l).smaErrors = l := rfl
@[simp] theorem Env.withSmaErrors_stale (e : Env) (l : List Addr) :
    (e.withSmaErrors l).stale = e.stale := rfl
@[simp] theorem Env.withSmaErrors_sinks (e : Env) (l : List Addr) :
    (e.withSmaErrors l).sinks = e.sinks := rfl
@[simp] theorem Env.withSmaErrors_bus (e : Env) (l : List Addr) :
    (e.withSmaErrors l).bus = e.bus := rfl
@[simp] theorem Env.withSinks_pc (e : Env) (k : FlushSinks) :
    (e.withSinks k).pc = e.pc := rfl
@[simp] theorem Env.withSinks_x (e : Env) (k : FlushSinks) :
    (e.withSinks k).x = e.x := rfl
@[simp] theorem Env.withSinks_mem (e : Env) (k : FlushSinks) :
    (e.withSinks k).mem = e.mem := rfl
@[simp] theorem Env.withSinks_sq (e : Env) (k : FlushSinks) :
    (e.withSinks k).sq = e.sq := rfl
@[simp] theorem Env.withSinks_rob (e : Env) (k : FlushSinks) :
    (e.withSinks k).rob = e.rob := rfl
@[simp] theorem Env.withSinks_dtlb (e : Env) (k : FlushSinks) :
    (e.withSinks k).dtlb = e.dtlb := rfl
@[simp] theorem Env.withSinks_superseded (e : Env) (k : FlushSinks) :
    (e.withSinks k).superseded = e.superseded := rfl
@[simp] theorem Env.withSinks_smaErrors (e : Env) (k : FlushSinks) :
    (e.withSinks k).smaErrors = e.smaErrors := rfl
@[simp] theorem Env.withSinks_stale (e : Env) (k : FlushSinks) :
    (e.withSinks k).stale = e.stale := rfl
@[simp] theorem Env.withSinks_sinks (e : Env) (k : FlushSinks) :
    (e.withSinks k).sinks = k := rfl
@[simp] theorem Env.withSinks_bus (e : Env) (k : FlushSinks) :
    (e.withSinks k).bus = e.bus := rfl
@[simp] theorem Env.withBus_pc (e : Env) (b : Bus) :
    (e.withBus b).pc = e.pc := rfl
@[simp] theorem Env.withBus_x (e : Env) (b : Bus) :
    (e.withBus b).x = e.x := rfl
@[simp] theorem Env.withBus_mem (e : Env) (b : Bus) :
    (e.withBus b).mem = e.mem := rfl
@[simp] theorem Env.withBus_sq (e : Env) (b : Bus) :
    (e.withBus b).sq = e.sq := rfl
@[simp] theorem Env.withBus_rob (e : Env) (b : Bus) :
    (e.withBus b).rob = e.rob := rfl
@[simp] theorem Env.withBus_dtlb (e : Env) (b : Bus) :
    (e.withBus b).dtlb = e.dtlb := rfl
@[simp] theorem Env.withBus_superseded (e : Env) (b : Bus) :
    (e.withBus b).superseded = e.superseded := rfl
@[simp] theorem Env.withBus_smaErrors (e : Env) (b : Bus) :
    (e.withBus b).smaErrors = e.smaErrors := rfl
@[simp] theorem Env.withBus_stale (e : Env) (b : Bus) :
    (e.withBus b).stale = e.stale := rfl
@[simp] theorem Env.withBus_sinks (e : Env) (b : Bus) :
    (e.withBus b).sinks = e.sinks := rfl
@[simp] theorem Env.withBus_bus (e : Env) (b : Bus) :
    (e.withBus b).bus = b := rfl

/-! ## The records of inputs -/

@[simp] theorem State.withInputs_cfg (s : State) (i : EnvInput) (r : List EnvInput) :
    (s.withInputs i r).cfg = s.cfg := rfl
@[simp] theorem State.withInputs_blk (s : State) (i : EnvInput) (r : List EnvInput) :
    (s.withInputs i r).blk = s.blk := rfl
@[simp] theorem State.withInputs_env (s : State) (i : EnvInput) (r : List EnvInput) :
    (s.withInputs i r).env = s.env := rfl
@[simp] theorem State.withInputs_input (s : State) (i : EnvInput) (r : List EnvInput) :
    (s.withInputs i r).input = i := rfl
@[simp] theorem State.withInputs_later (s : State) (i : EnvInput) (r : List EnvInput) :
    (s.withInputs i r).later = r := rfl
@[simp] theorem State.withInputs_out (s : State) (i : EnvInput) (r : List EnvInput) :
    (s.withInputs i r).out = s.out := rfl

/-! ## What follows a step -/

@[simp] theorem State.advance_cfg (s : State) : s.advance.cfg = s.cfg := rfl
@[simp] theorem State.advance_blk (s : State) : s.advance.blk = s.blk := rfl
@[simp] theorem State.advance_env (s : State) :
    s.advance.env = (s.env.remap s.input.remap).refault s.input.smaFaults := rfl
@[simp] theorem State.advance_input (s : State) : s.advance.input = s.foreseen.1.holding s.input s.out := rfl
@[simp] theorem State.advance_later (s : State) : s.advance.later = s.foreseen.2 := rfl
@[simp] theorem State.advance_out (s : State) : s.advance.out = s.out := rfl

/-- When nothing more is foreseen the environment goes on showing what it shows. -/
theorem State.foreseen_of_nil {s : State} (h : s.later = []) : s.foreseen = (s.input, []) := by
  simp [State.foreseen, h]

/-- The nearest foreseen record is the one that is shown next. -/
theorem State.foreseen_of_cons {s : State} {i : EnvInput} {rest : List EnvInput} (h : s.later = i :: rest) :
    s.foreseen = (i, rest) := by
  simp [State.foreseen, h]

/-! ## A write with what is there already -/

@[simp] theorem Block.withReservations_self (b : Block) :
    b.withReservations b.loadReservation b.recoveryLoadReservation = b := rfl

@[simp] theorem Env.withSq_self (e : Env) : e.withSq e.sq = e := rfl

@[simp] theorem Env.withX_self (e : Env) : e.withX e.x = e := rfl

end Sys2Proof.Machine
end

