-- ==== Sys2Proof/Laws/Ops.lean ====
section
/-! SUPPORT. For each shared operation one lemma that says once what it does; proofs cite these and do not unfold the
operation. -/

namespace Sys2Proof.Machine

/-! ## Bytes of a word -/

/-- The last byte of a join. -/
theorem extract_append_low {n : Nat} (x : BitVec n) (y : Byte) : (x ++ y).extractLsb' 0 8 = y := by
  ext i hi
  simp [BitVec.getLsbD_append, hi]

/-- The other bytes of a join. -/
theorem extract_append_high {n : Nat} (x : BitVec n) (y : Byte) (k : Nat) :
    (x ++ y).extractLsb' (8 * (k + 1)) 8 = x.extractLsb' (8 * k) 8 := by
  ext i hi
  simp [BitVec.getLsbD_append, show ¬8 * (k + 1) + i < 8 by omega,
    show 8 * (k + 1) + i - 8 = 8 * k + i by omega]

/-- The bytes of a word put together from four bytes. -/
theorem byteOfWord_join (b3 b2 b1 b0 : Byte) :
    byteOfWord (b3 ++ b2 ++ b1 ++ b0) 0 = b0 ∧ byteOfWord (b3 ++ b2 ++ b1 ++ b0) 1 = b1 ∧
      byteOfWord (b3 ++ b2 ++ b1 ++ b0) 2 = b2 ∧ byteOfWord (b3 ++ b2 ++ b1 ++ b0) 3 = b3 :=
  ⟨extract_append_low _ _,
    (extract_append_high (b3 ++ b2 ++ b1) b0 0).trans (extract_append_low _ _),
    (extract_append_high (b3 ++ b2 ++ b1) b0 1).trans
      ((extract_append_high (b3 ++ b2) b1 0).trans (extract_append_low _ _)),
    (extract_append_high (b3 ++ b2 ++ b1) b0 2).trans
      ((extract_append_high (b3 ++ b2) b1 1).trans
        ((extract_append_high b3 b2 0).trans (BitVec.extractLsb'_eq_self)))⟩

/-- The bytes of a word put together from the values of a function. -/
theorem byteOfWord_join_fun (f : Nat → Byte) {k : Nat} (hk : k < 4) :
    byteOfWord (f 3 ++ f 2 ++ f 1 ++ f 0) k = f k := by
  have h := byteOfWord_join (f 3) (f 2) (f 1) (f 0)
  match k, hk with
  | 0, _ => exact h.1
  | 1, _ => exact h.2.1
  | 2, _ => exact h.2.2.1
  | 3, _ => exact h.2.2.2

/-- Byte `k` of the overlay (R182). -/
theorem byteOfWord_overlay (b : BypassResp) (d : Word) {k : Nat} (hk : k < 4) :
    byteOfWord (overlay b d) k = overlayByte b d k := byteOfWord_join_fun (overlayByte b d) hk

/-- Byte `k` of an SMA read (R82). -/
theorem byteOfWord_smaData (m : Memory) (a : Addr) (t : BeatType) (pad : Word) {k : Nat} (hk : k < 4) :
    byteOfWord (smaData m a t pad) k = smaByte m a t pad k := byteOfWord_join_fun (smaByte m a t pad) hk

/-- Bit `k` of four bits put together. -/
theorem getLsbD_ofBools (f : Nat → Bool) {k : Nat} (hk : k < 4) :
    (BitVec.ofBool (f 3) ++ BitVec.ofBool (f 2) ++ BitVec.ofBool (f 1) ++ BitVec.ofBool (f 0)).getLsbD k = f k := by
  match k, hk with
  | 0, _ | 1, _ | 2, _ | 3, _ => cases f 0 <;> cases f 1 <;> cases f 2 <;> cases f 3 <;> rfl

/-- Byte `k` of the bypass port's data, and its strobe (R91, R518). -/
theorem StoreQueue.bypass_byte (q : StoreQueue) (a : Addr) {k : Nat} (hk : k < 4) :
    byteOfWord (q.bypass a).data k = (youngestByte q.entries (a + BitVec.ofNat 32 k)).getD 0 ∧
      (q.bypass a).strobe.getLsbD k = (youngestByte q.entries (a + BitVec.ofNat 32 k)).isSome :=
  ⟨byteOfWord_join_fun (fun j => (youngestByte q.entries (a + BitVec.ofNat 32 j)).getD 0) hk,
    getLsbD_ofBools (fun j => (youngestByte q.entries (a + BitVec.ofNat 32 j)).isSome) hk⟩

/-- A word is its four bytes. -/
theorem Word.ext_byte {v w : Word} (h : ∀ k, k < 4 → byteOfWord v k = byteOfWord w k) : v = w := by
  ext i hi
  have := congrArg (fun b : Byte => b.getLsbD (i % 8)) (h (i / 8) (by omega))
  simp only [byteOfWord, BitVec.getLsbD_extractLsb', Nat.mod_lt i (by decide : 0 < 8), decide_true,
    Bool.true_and, Nat.div_add_mod] at this
  simpa [BitVec.getLsbD_eq_getElem hi] using this

/-! ## The store queue -/

/-- The youngest covering entry of a queue that has grown (R91). -/
theorem youngestByte_append (es fs : List StoreQueueEntry) (a : Addr) :
    youngestByte (es ++ fs) a = (youngestByte fs a).or (youngestByte es a) := by
  induction es with
  | nil => simp [youngestByte]
  | cons e es ih =>
    simp only [List.cons_append, youngestByte, ih]
    cases youngestByte fs a <;> simp

/-- A change of entries that keeps what each stores does not show on the bypass port. -/
theorem youngestByte_map {f : StoreQueueEntry → StoreQueueEntry} (hf : ∀ e a, (f e).byteAt a = e.byteAt a)
    (es : List StoreQueueEntry) (a : Addr) : youngestByte (es.map f) a = youngestByte es a := by
  induction es with
  | nil => rfl
  | cons e es ih => simp only [List.map_cons, youngestByte, ih, hf]

/-- A commit changes retire flags only (R434). -/
theorem StoreQueue.commit_spec (q : StoreQueue) (c : Option SqRetire) :
    (q.commit c).nextId = q.nextId ∧
      (q.commit c).entries.map (fun e => e.id) = q.entries.map (fun e => e.id) ∧
      ∀ a, youngestByte (q.commit c).entries a = youngestByte q.entries a := by
  cases c with
  | none => exact ⟨rfl, rfl, fun _ => rfl⟩
  | some r =>
    refine ⟨rfl, ?_, fun a => youngestByte_map
      (f := fun e => { e with retired := e.retired || e.id == r.id0 || e.id == r.id1 }) (fun _ _ => rfl) q.entries a⟩
    simp [StoreQueue.commit, List.map_map, Function.comp_def]

/-- A discard of a queue whose entries are all retired discards nothing (R517). -/
theorem StoreQueue.discardIf_of_retired {q : StoreQueue} (h : ∀ e ∈ q.entries, e.retired = true)
    (recover : Bool) : q.discardIf recover = q := by
  unfold StoreQueue.discardIf
  split
  · rw [List.filter_eq_self.2 h]
  · rfl

/-- What draining leaves queued is the younger end of what was queued (R90). -/
theorem drainEntries_suffix (es : List StoreQueueEntry) (limit : Option Nat) (m : Memory)
    (st : List Host.Cell) : (drainEntries es limit m st).entries <:+ es := by
  induction es generalizing limit m st with
  | nil => exact List.suffix_refl _
  | cons e es ih =>
    simp only [drainEntries]
    split
    · exact (ih _ _ _).trans (List.suffix_cons _ _)
    · exact List.suffix_refl _

/-- A queue of retired entries drains whole when nothing limits it (R90). -/
theorem drainEntries_all {es : List StoreQueueEntry} (h : ∀ e ∈ es, e.retired = true) (m : Memory)
    (st : List Host.Cell) : (drainEntries es none m st).entries = [] := by
  induction es generalizing m st with
  | nil => rfl
  | cons e es ih =>
    simp only [drainEntries, h e (by simp)]
    exact ih (fun d hd => h d (by simp [hd])) _ _

/-- Draining moves entries of the store queue to memory and touches nothing else (R90). -/
theorem Env.drain_frame (env : Env) (limit : Option Nat) :
    (env.drain limit).pc = env.pc ∧ (env.drain limit).x = env.x ∧ (env.drain limit).rob = env.rob ∧
      (env.drain limit).dtlb = env.dtlb ∧ (env.drain limit).smaErrors = env.smaErrors ∧
      (env.drain limit).sq.nextId = env.sq.nextId ∧
      (env.drain limit).sq.entries <:+ env.sq.entries :=
  ⟨rfl, rfl, rfl, rfl, rfl, rfl, drainEntries_suffix _ _ _ _⟩

/-- Draining leaves the translation, the flush sinks and the bus (R90). -/
theorem Env.drain_rest (env : Env) (limit : Option Nat) :
    (env.drain limit).superseded = env.superseded ∧ (env.drain limit).sinks = env.sinks ∧
      (env.drain limit).bus = env.bus := ⟨rfl, rfl, rfl⟩

/-- A commit of stores touches nothing but their retire flags (R434). -/
theorem Env.commit_frame (env : Env) (c : Option SqRetire) :
    (env.commit c).pc = env.pc ∧ (env.commit c).x = env.x ∧ (env.commit c).mem = env.mem ∧
      (env.commit c).rob = env.rob ∧ (env.commit c).dtlb = env.dtlb ∧
      (env.commit c).smaErrors = env.smaErrors ∧ (env.commit c).stale = env.stale :=
  ⟨rfl, rfl, rfl, rfl, rfl, rfl, rfl⟩

/-- Making room for an allocation drains at most (R90). -/
theorem Env.room_frame (env : Env) :
    env.room.pc = env.pc ∧ env.room.x = env.x ∧ env.room.rob = env.rob ∧ env.room.dtlb = env.dtlb ∧
      env.room.smaErrors = env.smaErrors ∧ env.room.sq.nextId = env.sq.nextId ∧
      env.room.sq.entries <:+ env.sq.entries := by
  unfold Env.room
  split
  · exact ⟨rfl, rfl, rfl, rfl, rfl, rfl, List.suffix_refl _⟩
  · exact Env.drain_frame env none

/-- Making room leaves the translation, the flush sinks and the bus. -/
theorem Env.room_rest (env : Env) :
    env.room.superseded = env.superseded ∧ env.room.sinks = env.sinks ∧ env.room.bus = env.bus := by
  unfold Env.room
  split <;> exact ⟨rfl, rfl, rfl⟩

/-- Queueing a store appends one entry, not retired, with the next receipt (R90). -/
theorem Env.memWrite_sq (env : Env) (idW : Nat) (r : AllocReq) :
    (env.memWrite idW r).sq.entries = env.room.sq.entries ++
        [{ id := env.sq.nextId, writeType := r.writeType, address := r.address, data := r.data
           retired := false }] ∧
      (env.memWrite idW r).sq.nextId = (env.sq.nextId + 1) % 2 ^ idW ∧
      (env.memWrite idW r).mem = env.room.mem := by
  have h := (Env.room_frame env).2.2.2.2.2.1
  refine ⟨?_, ?_, rfl⟩
  · simp [Env.memWrite, StoreQueue.alloc, h]
  · simp [Env.memWrite, StoreQueue.alloc, h]

/-! ## Translation and reading -/

/-- A memory operation is granted an address exactly when it is aligned and translated without an error (R94, R212,
R223, R462). -/
theorem access_granted_iff (env : Env) (op : MemOp) (va pa : Addr) (age : Nat) :
    access env op va age = .granted pa ↔ misaligned op va = false ∧
      (env.translate { vaddress := va, write := op.inWriteSet } age).error = .none ∧
      (env.translate { vaddress := va, write := op.inWriteSet } age).paddress = pa := by
  unfold access alignmentError
  generalize env.translate { vaddress := va, write := op.inWriteSet } age = a
  obtain ⟨paddress, error⟩ := a
  cases misaligned op va <;> cases error <;> simp [mergeError, mapError]

/-- What a memory operation that is granted nothing raises: misalignment dominates (R223, R462). -/
theorem access_raises_iff (env : Env) (op : MemOp) (va : Addr) (age : Nat) (code : ExcCode) :
    access env op va age = .raises code ↔
      mapError op (mergeError (alignmentError op va)
        (env.translate { vaddress := va, write := op.inWriteSet } age).error) = some code := by
  unfold access
  dsimp only
  split
  · rename_i c hc
    rw [hc]
    simp
  · rename_i hc
    rw [hc]
    simp

/-- A read answers an error exactly at the addresses the environment names (R82, R524). -/
theorem memRead_eq_none_iff (env : Env) (t : BeatType) (pa : Addr) (pad : Word) :
    memRead env t pa pad = none ↔ env.smaErrors.contains pa = true := by
  simp only [memRead, Env.smaAnswer]
  split <;> simp_all

/-- A read that answers gives memory's bytes under the store queue's (R82, R182). -/
theorem memRead_eq_some_iff (env : Env) (t : BeatType) (pa : Addr) (pad d : Word) :
    memRead env t pa pad = some d ↔ env.smaErrors.contains pa = false ∧
      d = overlay (env.sq.bypass pa) (smaData env.mem pa t pad) := by
  simp only [memRead, Env.smaAnswer]
  split <;> simp_all [eq_comm]

/-! ## The page tables (R94, R525) -/

/-- With no line replaced since the last flush, the DTLB answers by the page tables (R109, R525 (c)). -/
theorem Env.translate_of_flushed {env : Env} (h : env.superseded = []) (r : DtlbReq) (age : Nat) :
    env.translate r age = env.mapping r := by
  cases age <;> simp [Env.translate, h]

/-- The newest translation is the page tables'. -/
theorem Env.translate_zero (env : Env) (r : DtlbReq) : env.translate r 0 = env.mapping r := rfl

/-- A change of the page tables leaves everything but the mapping and the lines it replaced. -/
theorem Env.remap_frame (env : Env) (lines : List TlbLine) :
    ∃ l o, env.remap lines = env.withDtlb l o := by
  induction lines generalizing env with
  | nil => exact ⟨env.dtlb, env.superseded, rfl⟩
  | cons a rest ih =>
    obtain ⟨l, o, h⟩ := ih (env.remapLine a)
    refine ⟨l, o, (show (env.remap (a :: rest)) = (env.remapLine a).remap rest from rfl) ▸ h.trans ?_⟩
    unfold Env.remapLine
    simp only
    split <;> rfl

/-- A change of the failing addresses leaves everything else (R524). -/
theorem Env.refault_frame (env : Env) (l : Option (List Addr)) : ∃ m, env.refault l = env.withSmaErrors m := by
  cases l with
  | none => exact ⟨env.smaErrors, rfl⟩
  | some m => exact ⟨m, rfl⟩

/-- A translation never answers `misaligned` (R94). -/
theorem Env.translate_error_ne_misaligned (env : Env) (r : DtlbReq) (age : Nat) :
    (env.translate r age).error ≠ .misaligned := by
  have key : ∀ l : TlbLine, l.answer.error ≠ .misaligned := by
    intro l
    unfold TlbLine.answer
    cases l.error <;> simp [TranslationError.tag]
  unfold Env.translate
  rw [List.getD_eq_getElem?_getD]
  cases h : (env.mapping r :: (env.superseded.filter fun l => l.matches r).map fun l => l.answer)[age]? with
  | none => exact key _
  | some a =>
    rcases List.mem_cons.1 (List.mem_of_getElem? h) with rfl | hm
    · exact key _
    · obtain ⟨l, -, rfl⟩ := List.mem_map.1 hm
      exact key l

/-- The line of a request is about the request (R94). -/
theorem Env.mappedLine_matches (env : Env) (r : DtlbReq) : (env.mappedLine r).matches r = true := by
  unfold Env.mappedLine
  split
  · rename_i l h
    exact List.find?_some (p := fun l => TlbLine.matches l r) h
  · simp [TlbLine.matches]

/-- A line at the front is looked at first. -/
theorem Env.mapping_cons (env : Env) (l : TlbLine) (old : List TlbLine) (r : DtlbReq) :
    (env.withDtlb (l :: env.dtlb) old).mapping r = if l.matches r = true then l.answer else env.mapping r := by
  cases h : l.matches r <;> simp [Env.mapping, Env.mappedLine, h]

/-- After a line has changed the page tables give its answer, and for every other request what they gave. -/
theorem Env.mapping_remapLine (env : Env) (l : TlbLine) (r : DtlbReq) :
    (env.remapLine l).mapping r = if l.matches r = true then l.answer else env.mapping r := by
  unfold Env.remapLine
  simp only
  split
  · rename_i h
    cases hl : l.matches r with
    | false => rfl
    | true =>
      have hr : r = { vaddress := l.vaddress, write := l.write } := by
        obtain ⟨v, w⟩ := r
        simp only [TlbLine.matches, Bool.and_eq_true, beq_iff_eq] at hl
        rw [hl.1, hl.2]
      rw [if_pos rfl, hr, Env.mapping, h]
  · exact env.mapping_cons l _ r

/-! ## The broadcast bus (R336) -/

/-- A result is on a lane or waits for one. -/
theorem mem_pickLanes_or_leftOver {sources : List BroadcastLane} {l : BroadcastLane} (h : l ∈ sources)
    (picks : List Nat) : l ∈ pickLanes sources picks ∨ l ∈ leftOver sources picks := by
  obtain ⟨n, hn, rfl⟩ := List.mem_iff_getElem.1 h
  by_cases hp : n ∈ picks
  · exact .inl (List.mem_map.2 ⟨n, hp, by simp [hn]⟩)
  · refine .inr (List.mem_map.2 ⟨(sources[n], n), List.mem_filter.2 ⟨?_, by simpa using hp⟩, rfl⟩)
    exact List.mem_iff_getElem.2 ⟨n, by simpa using hn, by simp⟩

/-- What is remembered of the lanes after a tick: every valid lane, and all that was, but for the tags that were given
out again (R514). -/
theorem mem_heard_after (b : Bus) (lanes unsent : List BroadcastLane) (fresh : List RobReceipt) (l : BroadcastLane) :
    l ∈ (b.after lanes unsent fresh).heard ↔
      ((l ∈ lanes ∧ l.valid = true) ∨ l ∈ b.heard) ∧ l.tag ∉ fresh := by
  simp only [Bus.after, List.mem_filter, List.mem_append]
  simp

/-- The word the bus has for an instruction stands on it in a valid lane. -/
theorem Bus.mem_of_word {b : Bus} {rd : RobReceipt} {v : Data} (h : b.word rd = some v) :
    BroadcastLane.of rd v ∈ b.unsent ++ b.heard := by
  obtain ⟨l, hl, rfl⟩ := Option.map_eq_some_iff.1 h
  have hm := List.mem_of_find?_eq_some hl
  have hp := List.find?_some (p := fun l : BroadcastLane => l.valid && l.tag == rd) hl
  obtain ⟨valid, tag, value⟩ := l
  simp only [Bool.and_eq_true, beq_iff_eq] at hp
  obtain ⟨rfl, rfl⟩ := hp
  exact hm

/-! ## The flush sinks (R522) -/

/-- A sink shows `empty` low only while it drains, or when it drops the wire because it is asked. -/
theorem SinkState.empty_eq_false_iff (k : SinkState) (req moves clear : Bool) :
    k.empty req moves clear = false ↔
      (k = .idle ∧ req = true ∧ moves = true) ∨ (k = .draining ∧ ¬(moves = true ∧ clear = true)) := by
  cases k <;> simp [SinkState.empty]

/-! ## The register file -/

theorem readReg_zero (x : Vector Data 32) : readReg x 0 = 0 := rfl

theorem writeReg_zero (x : Vector Data 32) (v : Data) : writeReg x 0 v = x := rfl

/-- Reading after writing a register (R31, R430). -/
theorem readReg_writeReg (x : Vector Data 32) (r q : RegNum) (v : Data) :
    readReg (writeReg x r v) q = if q = r ∧ r ≠ 0 then v else readReg x q := by
  unfold readReg writeReg
  by_cases hq : q = 0
  · rw [if_pos hq, if_pos hq, if_neg fun h => h.2 (h.1 ▸ hq)]
  · rw [if_neg hq, if_neg hq]
    by_cases hr : r = 0
    · simp only [if_pos hr, if_neg fun h : q = r ∧ r ≠ 0 => h.2 hr]
    · simp only [if_neg hr, Vector.getElem_set]
      by_cases h : q = r
      · subst h
        rw [if_pos rfl, if_pos ⟨rfl, hr⟩]
      · have hn : r.toNat ≠ q.toNat := fun e => h (BitVec.eq_of_toNat_eq e.symm)
        simp [h, hn]

/-- A register update with no destination writes nothing (R430). -/
theorem applyUpdate_spec (x : Vector Data 32) (u : RegUpdate) (dest : RobReceipt → Option RegNum) :
    applyUpdate x none dest = x ∧
      (dest u.rd = none → applyUpdate x (some u) dest = x) ∧
      ∀ d, dest u.rd = some d → applyUpdate x (some u) dest = writeReg x d u.result := by
  refine ⟨rfl, fun h => ?_, fun d h => ?_⟩ <;> simp [applyUpdate, h]

/-! ## Receipts of the ROB -/

/-- The upper bits of a join with one bit. -/
theorem extract_append_bit {n : Nat} (x : BitVec n) (y : BitVec 1) : (x ++ y).extractLsb' 1 n = x := by
  ext i hi
  simp [BitVec.getLsbD_append, show ¬1 + i < 1 by omega, hi]

/-- The lowest bit of a join with one bit. -/
theorem getLsbD_append_bit {n : Nat} (x : BitVec n) (y : BitVec 1) : (x ++ y).getLsbD 0 = y.getLsbD 0 := by
  rw [BitVec.getLsbD_append]
  rfl

/-- A receipt names its row and slot (R402). -/
theorem robReceipt_spec (row : RobRow31) (s : Slot) :
    receiptRow (robReceipt row s) = row ∧ receiptSlot (robReceipt row s) = s := by
  cases s
  · exact ⟨extract_append_bit row 0#1, congrArg (fun b => if b then Slot.slot1 else .slot0)
      (getLsbD_append_bit row 0#1)⟩
  · exact ⟨extract_append_bit row 1#1, congrArg (fun b => if b then Slot.slot1 else .slot0)
      (getLsbD_append_bit row 1#1)⟩

/-- The receipt of a slot is `2 * row + slot` (R402, D44). -/
theorem robReceipt_toNat (row : RobRow31) :
    (robReceipt row .slot0).toNat = 2 * row.toNat ∧ (robReceipt row .slot1).toNat = 2 * row.toNat + 1 := by
  have key : ∀ b : BitVec 1, (row ++ b).toNat = 2 * row.toNat + b.toNat := fun b => by
    rw [BitVec.toNat_append, ← Nat.shiftLeft_add_eq_or_of_lt b.isLt, Nat.shiftLeft_eq]
    omega
  exact ⟨key 0#1, key 1#1⟩

/-- A receipt is the receipt of its row and slot. -/
theorem robReceipt_receipt (rd : RobReceipt) : robReceipt (receiptRow rd) (receiptSlot rd) = rd := by
  have h : robReceipt (receiptRow rd) (receiptSlot rd) = rd.extractLsb' 1 31 ++ BitVec.ofBool (rd.getLsbD 0) := by
    unfold receiptSlot receiptRow
    cases rd.getLsbD 0 <;> rfl
  rw [h]
  ext i hi
  simp only [BitVec.getElem_append, BitVec.getElem_extractLsb']
  split
  · obtain rfl : i = 0 := by omega
    simp [BitVec.getLsbD_eq_getElem]
  · rw [show 1 + (i - 1) = i by omega, BitVec.getLsbD_eq_getElem hi]

/-- Where the row of a receipt stands, and its slot, tell the receipt. -/
theorem Rob.position_inj {r : Rob} {rd rd' : RobReceipt} (h : r.position rd = r.position rd')
    (hs : receiptSlot rd = receiptSlot rd') : rd = rd' := by
  have hr : receiptRow rd = receiptRow rd' := by
    have := BitVec.eq_of_toNat_eq h
    bv_omega
  rw [← robReceipt_receipt rd, ← robReceipt_receipt rd', hr, hs]

/-- A change of one entry of a row. -/
theorem RobRow.at_modify (w : RobRow) (k k' : Slot) (f : RobSlot → RobSlot) :
    (w.modify k f).at k' = if k' = k then f (w.at k) else w.at k' := by
  cases k <;> cases k' <;> rfl

/-- A change of the slot of a receipt leaves every other slot. -/
theorem Rob.slotAt_modify (r : Rob) (rd rd' : RobReceipt) (f : RobSlot → RobSlot) :
    (r.modify rd f).slotAt rd' = if rd' = rd then (r.slotAt rd).map f else r.slotAt rd' := by
  have hp : (r.modify rd f).position rd' = r.position rd' := rfl
  unfold Rob.slotAt
  rw [hp]
  simp only [Rob.modify, List.getElem?_modify]
  by_cases h : rd' = rd
  · subst h
    cases r.rows[r.position rd']? <;> simp [RobRow.at_modify]
  · rw [if_neg h]
    by_cases hi : r.position rd = r.position rd'
    · have hk : receiptSlot rd' ≠ receiptSlot rd := fun hk => h (Rob.position_inj hi.symm hk)
      cases r.rows[r.position rd']? <;> simp [hi, RobRow.at_modify, hk]
    · simp [hi]

/-- The receipts for which a unit outside the block may give a result (R512 (e), R515). -/
theorem Rob.awaiting_eq_some_iff (r : Rob) (rd : RobReceipt) (s : RobSlot) :
    r.awaiting rd = some s ↔ r.slotAt rd = some s ∧
      s.entry.valid = true ∧ s.entry.commit = false ∧ s.kind ≠ .memory ∧ s.bubble = false := by
  simp [Rob.awaiting, Option.filter_eq_some_iff, RobSlot.awaits, and_assoc]

/-- The retirement engine reads the two entries of the oldest row (R402, R403). -/
theorem Rob.oldest_cons (r : Rob) (w : RobRow) (rest : List RobRow) (h : r.rows = w :: rest) :
    r.oldest .slot0 = w.slot0.entry ∧ r.oldest .slot1 = w.slot1.entry := by
  have hn : robReceipt r.head .slot0 ≠ robReceipt r.head .slot1 := fun h => by
    have := (robReceipt_spec r.head .slot0).2
    rw [h, (robReceipt_spec r.head .slot1).2] at this
    exact absurd this (by decide)
  constructor <;> simp [Rob.oldest, Rob.table, h, tableFrom, entryAt, hn]

/-- The entries of the retirement port in a tick are those of the oldest row of the ROB (R402, R403). -/
theorem wires_entries (s : State) :
    (wires s).e0 = s.env.rob.oldest .slot0 ∧ (wires s).e1 = s.env.rob.oldest .slot1 ∧
      (wires s).retiredValid = s.env.rob.presents := ⟨rfl, rfl, rfl⟩

/-- Taking an exception drives `exc` and `recover`, and returning from one drives `xret` and `recover`; every other
output stays (R420, R421). -/
theorem exception_entry_and_return (pc handlerPC : Addr) (code : ExcCode) (o : EngineOut) :
    takeException pc code handlerPC o =
        { o with exc := some { pc := pc, code := code }, recover := some handlerPC } ∧
      returnFromException handlerPC o = { o with xret := true, recover := some handlerPC } := ⟨rfl, rfl⟩

/-! ## Unused operands (R513) -/

/-- An operand that is not used is not pending; nothing else of a slot changes. -/
theorem OperandSlot.settle_spec (s : OperandSlot) (used : Bool) :
    (s.settle used).pending = (s.pending && used) ∧ (s.settle used).tag = s.tag ∧
      (s.settle used).value = s.value ∧ (used = true → s.settle used = s) :=
  ⟨rfl, rfl, rfl, fun h => by simp [OperandSlot.settle, h]⟩

/-! ## The functional units outside the block (R515) -/

/-- A result that is held to the rule is by the rule, and says what the unit reported where the rule leaves it to the
unit; `resultOf` does no more than replace the word by the one that was broadcast. -/
theorem RobSlot.resultOf_spec (s : RobSlot) (word : Option Data) (r : ExecuteResult) :
    (s.resultOf word r).ByTheRule s.kind s.next ∧ (s.resultOf word r).Reports r s.kind ∧
      (s.resultOf word r).result = word.getD r.result := by
  unfold RobSlot.resultOf ExecuteResult.conform
  refine ⟨⟨fun h => ?_, ?_, fun h => ?_, fun h => ?_, fun h => ?_, rfl, rfl, rfl⟩,
    ⟨⟨rfl, rfl⟩, ⟨rfl, rfl, fun h => ?_⟩, fun h => ?_, fun h => ?_, fun h => ?_⟩, rfl⟩
  · simp [h]
  · by_cases hk : s.kind = .control <;> simp [hk]
  · simp_all
  · simp_all
  · simp only [Bool.and_eq_true, decide_eq_true_eq] at h
    rcases h with h | h | h <;> exact h.2
  all_goals simp [h]

/-- A unit's word joins those that wait for a lane, or nothing happens. -/
theorem Env.announce_spec (env : Env) (l : BroadcastLane) :
    (env.announce l = env ∨ env.announce l = env.withBus (env.bus.queue l)) ∧
      (env.announce l ≠ env → l.valid = true ∧ (env.rob.awaiting l.tag).isSome = true ∧ env.bus.word l.tag = none) := by
  unfold Env.announce
  split
  · rename_i h
    simpa [and_assoc] using fun _ => h
  · exact ⟨.inl rfl, fun h => absurd rfl h⟩

/-- A report for an instruction that awaits no result is not there; one for an instruction that awaits one is in its
slot, and its word on the bus (R515). -/
theorem Env.report_spec (idW : Nat) (env : Env) (u : UnitReport) :
    (env.rob.awaiting u.rd = none → env.report idW u = env) ∧
      ∀ s, env.rob.awaiting u.rd = some s →
        let r := s.resultOf (env.bus.word u.rd) u.result
        (env.report idW u).rob = env.rob.report idW u.rd r ∧
          (env.report idW u).rob.slotAt u.rd =
            some { s with entry := { s.entry with commit := true, executeResult := r.narrow idW } } ∧
          BroadcastLane.of u.rd r.result ∈ (env.report idW u).bus.unsent ++ (env.report idW u).bus.heard := by
  refine ⟨fun h => by simp [Env.report, h], fun s h => ?_⟩
  obtain ⟨hs, hv, hc, -, -⟩ := (Rob.awaiting_eq_some_iff _ _ _).1 h
  have hr : (env.report idW u).rob = env.rob.report idW u.rd (s.resultOf (env.bus.word u.rd) u.result) := by
    simp [Env.report, h]
  refine ⟨hr, ?_, ?_⟩
  · rw [hr, Rob.report, Rob.slotAt_modify, if_pos rfl, hs]
    simp [RobSlot.store, hv, hc]
  · rw [(s.resultOf_spec _ _).2.2]
    cases hw : env.bus.word u.rd with
    | none => simp [Env.report, h, hw, Bus.queue, (s.resultOf_spec _ _).2.2]
    | some v => simpa [Env.report, h, hw] using Bus.mem_of_word hw

/-! ## Retirement of an instruction alone -/

/-- The outputs with which an instruction retires alone, by its disposition (R410, R438, R449). -/
theorem soloOut_of_disposition (e : RobRetireEntry) (h : Addr) (he : e.valid = true) :
    (disposition e = .exception → soloOut e h =
      { takeException e.pc e.executeResult.exceptionCode h .idle with retiredReady := true }) ∧
    (disposition e = .xret → soloOut e h = { returnFromException h .idle with retiredReady := true }) ∧
    (disposition e = .csrWrite → soloOut e h = { retireCsrWrite .slot0 e .idle with retiredReady := true }) ∧
    (disposition e = .mispredict → soloOut e h =
      { retireMispredict .slot0 e .idle with retiredReady := true }) ∧
    (disposition e = .flush → soloOut e h =
      { EngineOut.idle with
          retiredReady := true, recover := some e.executeResult.real
          dCacheReq := e.executeResult.flushDCache, iCacheReq := e.executeResult.flushICache
          tlbReq := e.executeResult.flushTLB }) ∧
    (disposition e = .normal → soloOut e h = { retireNormal .slot0 e .idle with retiredReady := true }) := by
  refine ⟨?_, ?_, ?_, ?_, ?_, ?_⟩ <;> intro hd <;>
    simp [soloOut, retireRow, retireSecond, rowDone, retireSlot, flushEnd, he, hd, EngineOut.idle,
      RobRetireEntry.zero]

/-- A flush drains the store queue at most, and forgets overwritten bytes and replaced lines (R108, R109, R519). -/
theorem Env.flush_frame (env : Env) (o : EngineOut) (f : ExecuteResult) :
    (env.flush o f).pc = env.pc ∧ (env.flush o f).x = env.x ∧ (env.flush o f).rob = env.rob ∧
      (env.flush o f).dtlb = env.dtlb ∧ (env.flush o f).smaErrors = env.smaErrors ∧
      (env.flush o f).sinks = env.sinks ∧ (env.flush o f).bus = env.bus ∧
      (env.flush o f).superseded = (if o.tlbReq = true then [] else env.superseded) ∧
      (o.dCacheReq = false → o.tlbReq = false → env.flush o f = env) := by
  unfold Env.flush Env.fetchSynced Env.translationSynced
  cases o.dCacheReq <;> cases f.flushDCache && f.flushICache <;> cases o.tlbReq <;>
    exact ⟨rfl, rfl, rfl, rfl, rfl, rfl, rfl, rfl, fun h h' => by
      first | rfl | exact absurd h (by decide) | exact absurd h' (by decide)⟩

/-- What retiring alone does to the environment besides the store queue and memory (R32, R403, R430). -/
theorem Env.retireSolo_frame (env : Env) (o : EngineOut) (r : ExecuteResult) (dest : Option RegNum)
    (limit : Option Nat) :
    (env.retireSolo o r dest limit).pc = pcAfter env.pc o r.real r.real ∧
      (env.retireSolo o r dest limit).x =
        applyUpdate (applyUpdate env.x o.reg0 fun _ => dest) o.reg1 (fun _ => dest) ∧
      (env.retireSolo o r dest limit).rob = { env.rob with head := env.rob.head + 1 } ∧
      (env.retireSolo o r dest limit).dtlb = env.dtlb ∧
      (env.retireSolo o r dest limit).smaErrors = env.smaErrors ∧
      (env.retireSolo o r dest limit).sinks = env.sinks ∧
      (env.retireSolo o r dest limit).bus =
        env.bus.carry (BroadcastLane.of (robReceipt env.rob.head .slot0) r.result) ∧
      (env.retireSolo o r dest limit).superseded = (if o.tlbReq = true then [] else env.superseded) := by
  have h := Env.flush_frame ((env.retire o fun _ => dest).withPc (pcAfter env.pc o r.real r.real)) o r
  exact ⟨h.1, h.2.1, rfl, h.2.2.2.1, h.2.2.2.2.1, h.2.2.2.2.2.1, rfl, h.2.2.2.2.2.2.2.1⟩

/-- What retiring alone does to the store queue and memory when nothing is flushed: commits, the discard of a
`recover`, and a drain (R434, R517, R90). -/
theorem Env.retireSolo_stores (env : Env) (o : EngineOut) (r : ExecuteResult) (dest : Option RegNum)
    (limit : Option Nat) (h : o.dCacheReq = false) (ht : o.tlbReq = false) :
    let d := drainEntries (((env.sq.commit o.sq0).commit o.sq1).discardIf o.recover.isSome).entries limit env.mem
      env.stale
    (env.retireSolo o r dest limit).sq = { entries := d.entries, nextId := env.sq.nextId } ∧
      (env.retireSolo o r dest limit).mem = d.mem ∧ (env.retireSolo o r dest limit).stale = d.stale := by
  have hn : (((env.sq.commit o.sq0).commit o.sq1).discardIf o.recover.isSome).nextId = env.sq.nextId := by
    have h1 := (env.sq.commit_spec o.sq0).1
    have h2 := ((env.sq.commit o.sq0).commit_spec o.sq1).1
    unfold StoreQueue.discardIf
    split
    · exact h2.trans h1
    · exact h2.trans h1
  have hf := (Env.flush_frame ((env.retire o fun _ => dest).withPc (pcAfter env.pc o r.real r.real)) o r).2.2.2.2.2.2.2.2 h ht
  unfold Env.retireSolo
  simp only [hf]
  refine ⟨?_, rfl, rfl⟩
  rw [← hn]
  rfl

/-- What retiring alone touches: the two reservations of the block; the whole environment but its translation and
error tables; the outputs. Parameters and inputs stay (R30, R62). -/
theorem retireAlone_frame (s : State) (x : Executed) (dest : Option RegNum) (spec : Addr)
    (rwOut : Option RwOut) :
    (retireAlone s x dest spec rwOut).cfg = s.cfg ∧ (retireAlone s x dest spec rwOut).input = s.input ∧
      (retireAlone s x dest spec rwOut).later = s.later ∧
      (∃ a b, (retireAlone s x dest spec rwOut).blk = s.blk.withReservations a b) ∧
      (retireAlone s x dest spec rwOut).out.rwOut = rwOut ∧
      (retireAlone s x dest spec rwOut).out.engine =
        soloOut (soloEntry s spec x.result) s.input.handlerPC :=
  ⟨rfl, rfl, rfl, ⟨_, _, rfl⟩, rfl, rfl⟩

end Sys2Proof.Machine
end

