-- ==== Sys2Proof/Laws/PerInstr.lean ====
section
/-! SUPPORT. One family of statements per instruction: the fixed fields of its row of `spec/opcode_table.json` stand in
its word. It is about encodings only. -/

namespace Sys2Proof.Laws

open Sys2Proof

/-! ## The fields of a word put together from fields (R136) -/

/-- The low part of a join. -/
theorem extract_low {n m : Nat} (x : BitVec n) (y : BitVec m) : (x ++ y).extractLsb' 0 m = y := by
  ext i hi
  simp [BitVec.getLsbD_append, hi]

/-- The high part of a join. -/
theorem extract_high {n m : Nat} (x : BitVec n) (y : BitVec m) (k l : Nat) :
    (x ++ y).extractLsb' (m + k) l = x.extractLsb' k l := by
  ext i hi
  simp [BitVec.getLsbD_append, show ¬m + k + i < m by omega, show m + k + i - m = k + i by omega]

/-- The fields read from a word are those it was put together from. -/
theorem ofWord_toWord (f : Fields) : Fields.ofWord f.toWord = f := by
  have h0 : f.toWord.extractLsb' 0 7 = f.opcode := extract_low _ _
  have h1 : f.toWord.extractLsb' 7 5 = f.rd := (extract_high _ _ 0 5).trans (extract_low _ _)
  have h2 : f.toWord.extractLsb' 12 3 = f.func3 :=
    (extract_high _ _ 5 3).trans ((extract_high _ _ 0 3).trans (extract_low _ _))
  have h3 : f.toWord.extractLsb' 15 5 = f.rs1 :=
    (extract_high _ _ 8 5).trans ((extract_high _ _ 3 5).trans ((extract_high _ _ 0 5).trans (extract_low _ _)))
  have h4 : f.toWord.extractLsb' 20 5 = f.rs2 :=
    (extract_high _ _ 13 5).trans ((extract_high _ _ 8 5).trans ((extract_high _ _ 5 5).trans
      ((extract_high _ _ 0 5).trans (extract_low _ _))))
  have h5 : f.toWord.extractLsb' 25 7 = f.func7 :=
    (extract_high _ _ 18 7).trans ((extract_high _ _ 13 7).trans ((extract_high _ _ 10 7).trans
      ((extract_high _ _ 5 7).trans ((extract_high _ _ 0 7).trans BitVec.extractLsb'_eq_self))))
  unfold Fields.ofWord
  rw [h0, h1, h2, h3, h4, h5]

/-! ## The fixed fields of each row -/

namespace FixedFields

/-- The fixed fields of a row: its major opcode, and its `funct3` and `funct5` where the table fixes them. -/
structure Row where
  opcode : Option (BitVec 7)
  func3 : Option (BitVec 3)
  funct5 : Option (BitVec 5)

/-- The row of an instruction, column by column from the table. -/
def row (i : Instr) : Row :=
  match i with
  | .lb _ => { opcode := some 0b0000011, func3 := some 0b000, funct5 := none }
  | .lh _ => { opcode := some 0b0000011, func3 := some 0b001, funct5 := none }
  | .lw _ => { opcode := some 0b0000011, func3 := some 0b010, funct5 := none }
  | .ld _ => { opcode := some 0b0000011, func3 := some 0b011, funct5 := none }
  | .lbu _ => { opcode := some 0b0000011, func3 := some 0b100, funct5 := none }
  | .lhu _ => { opcode := some 0b0000011, func3 := some 0b101, funct5 := none }
  | .sb _ => { opcode := some 0b0100011, func3 := some 0b000, funct5 := none }
  | .sh _ => { opcode := some 0b0100011, func3 := some 0b001, funct5 := none }
  | .sw _ => { opcode := some 0b0100011, func3 := some 0b010, funct5 := none }
  | .sd _ => { opcode := some 0b0100011, func3 := some 0b011, funct5 := none }
  | .lrW _ => { opcode := some 0b0101111, func3 := some 0b010, funct5 := some 0b00010 }
  | .scW _ => { opcode := some 0b0101111, func3 := some 0b010, funct5 := some 0b00011 }
  | .amoswapW _ => { opcode := some 0b0101111, func3 := some 0b010, funct5 := some 0b00001 }
  | .amoaddW _ => { opcode := some 0b0101111, func3 := some 0b010, funct5 := some 0b00000 }
  | .amoxorW _ => { opcode := some 0b0101111, func3 := some 0b010, funct5 := some 0b00100 }
  | .amoandW _ => { opcode := some 0b0101111, func3 := some 0b010, funct5 := some 0b01100 }
  | .amoorW _ => { opcode := some 0b0101111, func3 := some 0b010, funct5 := some 0b01000 }
  | .amominW _ => { opcode := some 0b0101111, func3 := some 0b010, funct5 := some 0b10000 }
  | .amomaxW _ => { opcode := some 0b0101111, func3 := some 0b010, funct5 := some 0b10100 }
  | .amominuW _ => { opcode := some 0b0101111, func3 := some 0b010, funct5 := some 0b11000 }
  | .amomaxuW _ => { opcode := some 0b0101111, func3 := some 0b010, funct5 := some 0b11100 }
  | .undefined _ => { opcode := none, func3 := none, funct5 := none }
  | .fenceI _ => { opcode := some 0b0001111, func3 := some 0b001, funct5 := none }
  | .sfenceVma _ => { opcode := some 0b1110011, func3 := some 0b000, funct5 := some 0b00010 }
  | .mret => { opcode := some 0b1110011, func3 := some 0b000, funct5 := some 0b00110 }
  | .sret => { opcode := some 0b1110011, func3 := some 0b000, funct5 := some 0b00010 }
  | .csrrw _ => { opcode := some 0b1110011, func3 := some 0b001, funct5 := none }
  | .csrrs _ => { opcode := some 0b1110011, func3 := some 0b010, funct5 := none }
  | .csrrc _ => { opcode := some 0b1110011, func3 := some 0b011, funct5 := none }
  | .csrrwi _ => { opcode := some 0b1110011, func3 := some 0b101, funct5 := none }
  | .csrrsi _ => { opcode := some 0b1110011, func3 := some 0b110, funct5 := none }
  | .csrrci _ => { opcode := some 0b1110011, func3 := some 0b111, funct5 := none }

/-- What the row fixes stands in the word of a well-formed instruction (R149). -/
def Statement (i : Instr) : Prop :=
  i.WellFormed → (∀ o, (row i).opcode = some o → (Fields.ofWord (encode i)).opcode = o) ∧
    (∀ f, (row i).func3 = some f → (Fields.ofWord (encode i)).func3 = f) ∧
    (∀ f, (row i).funct5 = some f → funct5 (Fields.ofWord (encode i)).func7 = f)

/-- It is enough to look at the fields the encoder puts together. -/
theorem of_fields (i : Instr)
    (h : i.WellFormed → (∀ o, (row i).opcode = some o → (encodeFields i).opcode = o) ∧
      (∀ f, (row i).func3 = some f → (encodeFields i).func3 = f) ∧
      (∀ f, (row i).funct5 = some f → Sys2Proof.funct5 (encodeFields i).func7 = f)) : Statement i := by
  unfold Statement encode
  rw [ofWord_toWord]
  exact h

/-- The `funct3` of a well-formed atomic (R149). -/
theorem func3_of_fitsRow {f : AtomicFields} (h : f.fitsRow = true) : f.func3 = 0b010#3 := by
  simpa [AtomicFields.fitsRow] using h

/-- The upper five bits of an atomic's `func7` are its funct5 (R136). -/
theorem funct5_atomic (v : BitVec 5) (a r : Bool) :
    Sys2Proof.funct5 (v ++ BitVec.ofBool a ++ BitVec.ofBool r) = v :=
  (extract_high (v ++ BitVec.ofBool a) (BitVec.ofBool r) 1 5).trans
    ((extract_high v (BitVec.ofBool a) 0 5).trans BitVec.extractLsb'_eq_self)

theorem lb (f : LoadFields) : Statement (.lb f) :=
  of_fields _ fun _ => ⟨fun _ h => Option.some.inj h, fun _ h => Option.some.inj h, by simp [row]⟩
theorem lh (f : LoadFields) : Statement (.lh f) :=
  of_fields _ fun _ => ⟨fun _ h => Option.some.inj h, fun _ h => Option.some.inj h, by simp [row]⟩
theorem lw (f : LoadFields) : Statement (.lw f) :=
  of_fields _ fun _ => ⟨fun _ h => Option.some.inj h, fun _ h => Option.some.inj h, by simp [row]⟩
theorem ld (f : LoadFields) : Statement (.ld f) :=
  of_fields _ fun _ => ⟨fun _ h => Option.some.inj h, fun _ h => Option.some.inj h, by simp [row]⟩
theorem lbu (f : LoadFields) : Statement (.lbu f) :=
  of_fields _ fun _ => ⟨fun _ h => Option.some.inj h, fun _ h => Option.some.inj h, by simp [row]⟩
theorem lhu (f : LoadFields) : Statement (.lhu f) :=
  of_fields _ fun _ => ⟨fun _ h => Option.some.inj h, fun _ h => Option.some.inj h, by simp [row]⟩
theorem sb (f : StoreFields) : Statement (.sb f) :=
  of_fields _ fun _ => ⟨fun _ h => Option.some.inj h, fun _ h => Option.some.inj h, by simp [row]⟩
theorem sh (f : StoreFields) : Statement (.sh f) :=
  of_fields _ fun _ => ⟨fun _ h => Option.some.inj h, fun _ h => Option.some.inj h, by simp [row]⟩
theorem sw (f : StoreFields) : Statement (.sw f) :=
  of_fields _ fun _ => ⟨fun _ h => Option.some.inj h, fun _ h => Option.some.inj h, by simp [row]⟩
theorem sd (f : StoreFields) : Statement (.sd f) :=
  of_fields _ fun _ => ⟨fun _ h => Option.some.inj h, fun _ h => Option.some.inj h, by simp [row]⟩
theorem lrW (f : AtomicFields) : Statement (.lrW f) :=
  of_fields _ fun w => ⟨fun _ h => Option.some.inj h,
    fun _ h => (func3_of_fitsRow ((Bool.and_eq_true _ _).mp w).1).trans (Option.some.inj h),
    fun _ h => (funct5_atomic _ _ _).trans (Option.some.inj h)⟩
theorem scW (f : AtomicFields) : Statement (.scW f) :=
  of_fields _ fun w => ⟨fun _ h => Option.some.inj h,
    fun _ h => (func3_of_fitsRow w).trans (Option.some.inj h),
    fun _ h => (funct5_atomic _ _ _).trans (Option.some.inj h)⟩
theorem amoswapW (f : AtomicFields) : Statement (.amoswapW f) :=
  of_fields _ fun w => ⟨fun _ h => Option.some.inj h,
    fun _ h => (func3_of_fitsRow w).trans (Option.some.inj h),
    fun _ h => (funct5_atomic _ _ _).trans (Option.some.inj h)⟩
theorem amoaddW (f : AtomicFields) : Statement (.amoaddW f) :=
  of_fields _ fun w => ⟨fun _ h => Option.some.inj h,
    fun _ h => (func3_of_fitsRow w).trans (Option.some.inj h),
    fun _ h => (funct5_atomic _ _ _).trans (Option.some.inj h)⟩
theorem amoxorW (f : AtomicFields) : Statement (.amoxorW f) :=
  of_fields _ fun w => ⟨fun _ h => Option.some.inj h,
    fun _ h => (func3_of_fitsRow w).trans (Option.some.inj h),
    fun _ h => (funct5_atomic _ _ _).trans (Option.some.inj h)⟩
theorem amoandW (f : AtomicFields) : Statement (.amoandW f) :=
  of_fields _ fun w => ⟨fun _ h => Option.some.inj h,
    fun _ h => (func3_of_fitsRow w).trans (Option.some.inj h),
    fun _ h => (funct5_atomic _ _ _).trans (Option.some.inj h)⟩
theorem amoorW (f : AtomicFields) : Statement (.amoorW f) :=
  of_fields _ fun w => ⟨fun _ h => Option.some.inj h,
    fun _ h => (func3_of_fitsRow w).trans (Option.some.inj h),
    fun _ h => (funct5_atomic _ _ _).trans (Option.some.inj h)⟩
theorem amominW (f : AtomicFields) : Statement (.amominW f) :=
  of_fields _ fun w => ⟨fun _ h => Option.some.inj h,
    fun _ h => (func3_of_fitsRow w).trans (Option.some.inj h),
    fun _ h => (funct5_atomic _ _ _).trans (Option.some.inj h)⟩
theorem amomaxW (f : AtomicFields) : Statement (.amomaxW f) :=
  of_fields _ fun w => ⟨fun _ h => Option.some.inj h,
    fun _ h => (func3_of_fitsRow w).trans (Option.some.inj h),
    fun _ h => (funct5_atomic _ _ _).trans (Option.some.inj h)⟩
theorem amominuW (f : AtomicFields) : Statement (.amominuW f) :=
  of_fields _ fun w => ⟨fun _ h => Option.some.inj h,
    fun _ h => (func3_of_fitsRow w).trans (Option.some.inj h),
    fun _ h => (funct5_atomic _ _ _).trans (Option.some.inj h)⟩
theorem amomaxuW (f : AtomicFields) : Statement (.amomaxuW f) :=
  of_fields _ fun w => ⟨fun _ h => Option.some.inj h,
    fun _ h => (func3_of_fitsRow w).trans (Option.some.inj h),
    fun _ h => (funct5_atomic _ _ _).trans (Option.some.inj h)⟩
theorem undefined (w : BitVec 32) : Statement (.undefined w) :=
  of_fields _ fun _ => ⟨by simp [row], by simp [row], by simp [row]⟩
theorem fenceI (f : FenceFields) : Statement (.fenceI f) :=
  of_fields _ fun _ => ⟨fun _ h => Option.some.inj h, fun _ h => Option.some.inj h, by simp [row]⟩
theorem sfenceVma (f : SfenceFields) : Statement (.sfenceVma f) :=
  of_fields _ fun _ => ⟨fun _ h => Option.some.inj h, fun _ h => Option.some.inj h,
    fun _ h => (show Sys2Proof.funct5 0b0001001#7 = 0b00010#5 by decide).trans (Option.some.inj h)⟩
theorem mret : Statement .mret :=
  of_fields _ fun _ => ⟨fun _ h => Option.some.inj h, fun _ h => Option.some.inj h,
    fun _ h => (show Sys2Proof.funct5 (encodeFields .mret).func7 = 0b00110#5 by decide).trans (Option.some.inj h)⟩
theorem sret : Statement .sret :=
  of_fields _ fun _ => ⟨fun _ h => Option.some.inj h, fun _ h => Option.some.inj h,
    fun _ h => (show Sys2Proof.funct5 (encodeFields .sret).func7 = 0b00010#5 by decide).trans (Option.some.inj h)⟩
theorem csrrw (f : CsrFields) : Statement (.csrrw f) :=
  of_fields _ fun _ => ⟨fun _ h => Option.some.inj h, fun _ h => Option.some.inj h, by simp [row]⟩
theorem csrrs (f : CsrFields) : Statement (.csrrs f) :=
  of_fields _ fun _ => ⟨fun _ h => Option.some.inj h, fun _ h => Option.some.inj h, by simp [row]⟩
theorem csrrc (f : CsrFields) : Statement (.csrrc f) :=
  of_fields _ fun _ => ⟨fun _ h => Option.some.inj h, fun _ h => Option.some.inj h, by simp [row]⟩
theorem csrrwi (f : CsrImmFields) : Statement (.csrrwi f) :=
  of_fields _ fun _ => ⟨fun _ h => Option.some.inj h, fun _ h => Option.some.inj h, by simp [row]⟩
theorem csrrsi (f : CsrImmFields) : Statement (.csrrsi f) :=
  of_fields _ fun _ => ⟨fun _ h => Option.some.inj h, fun _ h => Option.some.inj h, by simp [row]⟩
theorem csrrci (f : CsrImmFields) : Statement (.csrrci f) :=
  of_fields _ fun _ => ⟨fun _ h => Option.some.inj h, fun _ h => Option.some.inj h, by simp [row]⟩

end FixedFields

end Sys2Proof.Laws
end

