-- ==== Sys2Proof/Tests/Slice0.lean ====
section
/-! SUPPORT. Tests: which terms `WellFormed` refuses; a word of every row, written out field by field from
`30_encoding.md` and the opcode table; one or two steps of every instruction on the vectors of `95_test_vectors.md`
parts 2 and 3 (named in each comment); and, for every statement with hypotheses, a state that meets them. -/

namespace Sys2Proof.Tests

open Sys2Proof.Machine

/-! ## WellFormed refuses (R142, table row `undefined`) -/

theorem test_undefined_refuses_a_load_word : ¬(Instr.undefined 0x00002003#32).WellFormed := by decide
theorem test_undefined_refuses_a_store_word : ¬(Instr.undefined 0x0062A023#32).WellFormed := by decide
theorem test_undefined_refuses_an_atomic_word : ¬(Instr.undefined 0x1002A32F#32).WellFormed := by decide
theorem test_undefined_refuses_another_units_word : ¬(Instr.undefined 0x00000013#32).WellFormed := by decide
theorem test_atomic_refuses_another_func3 :
    ¬(Instr.amoaddW { rd := 7, rs1 := 5, rs2 := 6, func3 := 3, aq := false, rl := false }).WellFormed := by decide
theorem test_lr_refuses_a_source_register :
    ¬(Instr.lrW { rd := 7, rs1 := 5, rs2 := 6, func3 := 2, aq := false, rl := false }).WellFormed := by decide
theorem test_undefined_admits_an_atomic_of_no_row : (Instr.undefined 0x0072B32F#32).WellFormed := by decide
theorem test_undefined_admits_lwu : (Instr.undefined 0x00006003#32).WellFormed := by decide
theorem test_undefined_admits_no_opcode : (Instr.undefined 0#32).WellFormed := by decide

/-! ## Decoding, field by field (R136 to R139; CSR, xRET and fence words by the opcode table)

Loads are `imm 12, rs1 5, funct3 3, rd 5, opcode 7`; stores `imm[11:5], rs2, rs1, funct3, imm[4:0], opcode`; atomics
`funct5, aq, rl, rs2, rs1, funct3, rd, opcode`. -/

/-- A load word: displacement -4, base x5, destination x7. -/
def loadWord (func3 : BitVec 3) : BitVec 32 :=
  0b111111111100#12 ++ 0b00101#5 ++ func3 ++ 0b00111#5 ++ 0b0000011#7

/-- A store word: displacement -4, base x5, source x6. -/
def storeWord (func3 : BitVec 3) : BitVec 32 :=
  0b1111111#7 ++ 0b00110#5 ++ 0b00101#5 ++ func3 ++ 0b11100#5 ++ 0b0100011#7

/-- An atomic word: base x5, the register `rs2` as source, destination x7, `aq` set and `rl` clear. -/
def atomicWordOf (funct5 rs2 : BitVec 5) (func3 : BitVec 3) : BitVec 32 :=
  funct5 ++ 0b1#1 ++ 0b0#1 ++ rs2 ++ 0b00101#5 ++ func3 ++ 0b00111#5 ++ 0b0101111#7

/-- An atomic word of a `.w` form: source x6, or none for an `lr` (whose row fixes the field to 0). -/
def atomicWord (funct5 : BitVec 5) : BitVec 32 :=
  atomicWordOf funct5 (if funct5 = 0b00010#5 then 0b00000#5 else 0b00110#5) 0b010#3

/-- A CSR word: CSR 0x341, source 5, destination x7. -/
def csrWord (func3 : BitVec 3) : BitVec 32 :=
  0b001101000001#12 ++ 0b00101#5 ++ func3 ++ 0b00111#5 ++ 0b1110011#7

/-- The operands of `loadWord`. -/
def loadFields : LoadFields := { rd := 7, rs1 := 5, imm := 0xFFC }
/-- The operands of `storeWord`. -/
def storeFields : StoreFields := { rs1 := 5, rs2 := 6, imm := 0xFFC }
/-- The operands of `atomicWord`. -/
def atomicFields : AtomicFields := { rd := 7, rs1 := 5, rs2 := 6, func3 := 2, aq := true, rl := false }
/-- The operands of `csrWord` with a register source. -/
def csrFields : CsrFields := { rd := 7, rs1 := 5, csr := 0x341 }
/-- The operands of `csrWord` with an immediate source. -/
def csrImmFields : CsrImmFields := { rd := 7, uimm := 5, csr := 0x341 }

theorem test_decode_lb : decodeWord (loadWord 0b000) = .instr (.lb loadFields) := by decide
theorem test_decode_lh : decodeWord (loadWord 0b001) = .instr (.lh loadFields) := by decide
theorem test_decode_lw : decodeWord (loadWord 0b010) = .instr (.lw loadFields) := by decide
theorem test_decode_ld : decodeWord (loadWord 0b011) = .instr (.ld loadFields) := by decide
theorem test_decode_lbu : decodeWord (loadWord 0b100) = .instr (.lbu loadFields) := by decide
theorem test_decode_lhu : decodeWord (loadWord 0b101) = .instr (.lhu loadFields) := by decide
theorem test_decode_sb : decodeWord (storeWord 0b000) = .instr (.sb storeFields) := by decide
theorem test_decode_sh : decodeWord (storeWord 0b001) = .instr (.sh storeFields) := by decide
theorem test_decode_sw : decodeWord (storeWord 0b010) = .instr (.sw storeFields) := by decide
theorem test_decode_sd : decodeWord (storeWord 0b011) = .instr (.sd storeFields) := by decide
theorem test_decode_lrW : decodeWord (atomicWord 0b00010) = .instr (.lrW { atomicFields with rs2 := 0 }) := by decide
theorem test_decode_scW : decodeWord (atomicWord 0b00011) = .instr (.scW atomicFields) := by decide
theorem test_decode_amoswapW : decodeWord (atomicWord 0b00001) = .instr (.amoswapW atomicFields) := by decide
theorem test_decode_amoaddW : decodeWord (atomicWord 0b00000) = .instr (.amoaddW atomicFields) := by decide
theorem test_decode_amoxorW : decodeWord (atomicWord 0b00100) = .instr (.amoxorW atomicFields) := by decide
theorem test_decode_amoandW : decodeWord (atomicWord 0b01100) = .instr (.amoandW atomicFields) := by decide
theorem test_decode_amoorW : decodeWord (atomicWord 0b01000) = .instr (.amoorW atomicFields) := by decide
theorem test_decode_amominW : decodeWord (atomicWord 0b10000) = .instr (.amominW atomicFields) := by decide
theorem test_decode_amomaxW : decodeWord (atomicWord 0b10100) = .instr (.amomaxW atomicFields) := by decide
theorem test_decode_amominuW : decodeWord (atomicWord 0b11000) = .instr (.amominuW atomicFields) := by decide
theorem test_decode_amomaxuW : decodeWord (atomicWord 0b11100) = .instr (.amomaxuW atomicFields) := by decide
theorem test_decode_csrrw : decodeWord (csrWord 0b001) = .instr (.csrrw csrFields) := by decide
theorem test_decode_csrrs : decodeWord (csrWord 0b010) = .instr (.csrrs csrFields) := by decide
theorem test_decode_csrrc : decodeWord (csrWord 0b011) = .instr (.csrrc csrFields) := by decide
theorem test_decode_csrrwi : decodeWord (csrWord 0b101) = .instr (.csrrwi csrImmFields) := by decide
theorem test_decode_csrrsi : decodeWord (csrWord 0b110) = .instr (.csrrsi csrImmFields) := by decide
theorem test_decode_csrrci : decodeWord (csrWord 0b111) = .instr (.csrrci csrImmFields) := by decide

/-- DE27: an atomic word with funct5 00101. -/
theorem test_decode_undefined : decodeWord (atomicWord 0b00101) = .instr (.undefined (atomicWord 0b00101)) := by decide
/-- R149: an atomic word whose func3 is 011, and an `lr` word with a source register, match no row but the last. -/
theorem test_decode_atomic_of_no_row :
    decodeWord (atomicWordOf 0b00000 0b00110 0b011) = .instr (.undefined (atomicWordOf 0b00000 0b00110 0b011)) ∧
      decodeWord (atomicWordOf 0b00010 0b00110 0b010) =
        .instr (.undefined (atomicWordOf 0b00010 0b00110 0b010)) := by decide
/-- R143: an Execute Entry of type `R` is selected by its funct5 alone. -/
theorem test_entry_ignores_func3 : decodeOp .R 0b011 0b0000010 = .amoadd := by decide
/-- Program P5's word. -/
theorem test_decode_fenceI : decodeWord (0b000000000000#12 ++ 0b00000#5 ++ 0b001#3 ++ 0b00000#5 ++ 0b0001111#7) =
    .instr (.fenceI { rd := 0, rs1 := 0, imm := 0 }) := by decide
theorem test_decode_sfenceVma : decodeWord (0b0001001#7 ++ 0b00110#5 ++ 0b00101#5 ++ 0b000#3 ++ 0b00000#5 ++ 0b1110011#7) =
    .instr (.sfenceVma { rs1 := 5, rs2 := 6 }) := by decide
theorem test_decode_mret : decodeWord (0b0011000#7 ++ 0b00010#5 ++ 0b00000#5 ++ 0b000#3 ++ 0b00000#5 ++ 0b1110011#7) =
    .instr .mret := by decide
theorem test_decode_sret : decodeWord (0b0001000#7 ++ 0b00010#5 ++ 0b00000#5 ++ 0b000#3 ++ 0b00000#5 ++ 0b1110011#7) =
    .instr .sret := by decide
/-- Program P3's `addi x5, x0, 5` is another unit's. -/
theorem test_decode_otherUnit : decodeWord 0x00500293#32 = .otherUnit 0x00500293#32 := by decide
/-- Three bytes are no instruction. -/
theorem test_decode_truncated : decodeBytes [0x03, 0xA3, 0x02] = .error .truncated := by decide

/-! ## One step -/

/-- The machine after reset at pc 0x100 with these registers, these bytes of memory, and the word `w` at pc. -/
def place (x : List (RegNum × Data)) (bytes : Memory) (w : BitVec 32) : State :=
  (State.reset.withEnv { Env.reset with
      pc := 0x100, x := x.foldl (fun v p => writeReg v p.1 p.2) Env.reset.x, mem := bytes }).withFetchWord 32 w.toNat

/-- The state after one step. -/
def next (s : State) : State :=
  match step s with
  | .next t => t
  | .fault _ => State.reset
  | .refused _ => State.reset

/-- A load word with displacement 0. -/
def load0 (func3 : BitVec 3) : BitVec 32 :=
  0b000000000000#12 ++ 0b00101#5 ++ func3 ++ 0b00111#5 ++ 0b0000011#7

/-- A store word with displacement 0. -/
def store0 (func3 : BitVec 3) : BitVec 32 :=
  0b0000000#7 ++ 0b00110#5 ++ 0b00101#5 ++ func3 ++ 0b00000#5 ++ 0b0100011#7

/-- Bytes at 0x2000 of vectors LD1, LD8, LD14. -/
def bytesAt (l : List Byte) : Memory := l.zipIdx.map fun p => (0x2000 + p.2, p.1)

/-- The register x7 after a load word from 0x2000. -/
def loaded (l : List Byte) (func3 : BitVec 3) : Data :=
  readReg (next (place [(5, 0x2000)] (bytesAt l) (load0 func3))).env.x 7

/-- LD1. -/
theorem test_lb_sign : loaded [0x80] 0b000 = 0xFFFFFFFFFFFFFF80 := by decide
/-- LD2. -/
theorem test_lb_positive : loaded [0x7F] 0b000 = 0x7F := by decide
/-- LD8. -/
theorem test_lh_sign : loaded [0x34, 0x92] 0b001 = 0xFFFFFFFFFFFF9234 := by decide
/-- LD12. -/
theorem test_lw_zero_extended : loaded [0x11, 0x22, 0x33, 0x80] 0b010 = 0x0000000080332211 := by decide
/-- LD14. -/
theorem test_ld : loaded [0x44, 0x33, 0x22, 0x11, 0x88, 0x77, 0x66, 0x55] 0b011 = 0x5566778811223344 := by decide
/-- LD4. -/
theorem test_lbu : loaded [0x80] 0b100 = 0x80 := by decide
/-- LD10. -/
theorem test_lhu : loaded [0x34, 0x92] 0b101 = 0x9234 := by decide
/-- EX4: a misaligned `lh` traps with code 4. -/
theorem test_lh_misaligned : (next (place [(5, 0x2001)] [] (load0 0b001))).out.engine.exc =
    some { pc := 0x100, code := 4 } := by decide
/-- EX6: an `ld` needs four-byte alignment only. -/
theorem test_ld_at_four : (next (place [(5, 0x2004)] [] (load0 0b011))).env.pc = 0x104 := by decide

/-- The bytes of memory from 0x1000 up to 0x1008 after a store of x6 at `a`. -/
def stored (a : Addr) (v : Data) (func3 : BitVec 3) : List Byte :=
  (List.range 8).map fun k =>
    (next (place [(5, a.setWidth 64), (6, v)] [] (store0 func3))).env.mem.read (0x1000 + k)

/-- ST1. -/
theorem test_sb : stored 0x1003 0x1234ABCD 0b000 = [0, 0, 0, 0xCD, 0, 0, 0, 0] := by decide
/-- ST2. -/
theorem test_sh : stored 0x1002 0x1234ABCD 0b001 = [0, 0, 0xCD, 0xAB, 0, 0, 0, 0] := by decide
/-- ST4. -/
theorem test_sw : stored 0x1000 0xFFFFFFFF1234ABCD 0b010 = [0xCD, 0xAB, 0x34, 0x12, 0, 0, 0, 0] := by decide
/-- ST5. -/
theorem test_sd : stored 0x1000 0x5566778811223344 0b011 =
    [0x44, 0x33, 0x22, 0x11, 0x88, 0x77, 0x66, 0x55] := by decide
/-- ST5: two receipts. -/
theorem test_sd_receipts : (next (place [(5, 0x1000)] [] (store0 0b011))).out.engine.sq0 =
    some { id0 := 0, id1 := 1 } := by decide

/-- The same state with both reservations at 0x3000. -/
def reserved (s : State) : State :=
  s.withBlk (s.blk.withReservations { address := 0x3000, valid := true } { address := 0x3000, valid := true })

/-- An atomic word with x5 = `a`, x6 = `b`, x7 the destination, the word `m` at 0x3000. -/
def atomic (funct5 : BitVec 5) (a : Data) (b : Data) (m : Word) : State :=
  place [(5, a), (6, b)] (Memory.writeBytes [] 0x3000 m 4) (atomicWord funct5)

/-- LS1. -/
theorem test_lr : (next (atomic 0b00010 0x3000 0 0xCAFEF00D)).blk.loadReservation =
    { address := 0x3000, valid := true } := by decide
/-- LS11. -/
theorem test_lr_misaligned : (next (atomic 0b00010 0x3001 0 0)).out.engine.exc =
    some { pc := 0x100, code := 4 } := by decide
/-- LS2. -/
theorem test_sc_success :
    let t := next (reserved (atomic 0b00011 0x3000 0x63 0))
    readReg t.env.x 7 = 0 ∧ t.env.mem.read 0x3000 = 0x63 ∧ t.blk.loadReservation.valid = false := by decide
/-- LS4. -/
theorem test_sc_elsewhere :
    let t := next (reserved (atomic 0b00011 0x3004 0x63 0))
    readReg t.env.x 7 = 1 ∧ t.env.mem.read 0x3004 = 0 ∧ t.blk.loadReservation.valid = false := by decide

/-- The old word in x7 and the new word in memory after an AMO on `a` with the operand `b`. -/
def amo (funct5 : BitVec 5) (a : Word) (b : Data) : Data × Word :=
  let t := next (atomic funct5 0x3000 b a)
  (readReg t.env.x 7, t.env.loadWord 0x3000)

/-- AM2. -/
theorem test_amoswap : amo 0b00001 0xFFFFFFFF 0 = (0xFFFFFFFF, 0) := by decide
/-- AM4. -/
theorem test_amoadd_wraps : amo 0b00000 0xFFFFFFFF 1 = (0xFFFFFFFF, 0) := by decide
/-- AM25. -/
theorem test_amoadd_upper_half : amo 0b00000 0x0A 0xFFFFFFFF00000005 = (0x0A, 0x0F) := by decide
/-- AM6. -/
theorem test_amoxor : amo 0b00100 0xFF00FF00 0x0FF00FF0 = (0xFF00FF00, 0xF0F0F0F0) := by decide
/-- AM7. -/
theorem test_amoand : amo 0b01100 0xFF00FF00 0x0FF00FF0 = (0xFF00FF00, 0x0F000F00) := by decide
/-- AM8. -/
theorem test_amoor : amo 0b01000 0xFF00FF00 0x0FF00FF0 = (0xFF00FF00, 0xFFF0FFF0) := by decide
/-- AM11. -/
theorem test_amomin_mixed : amo 0b10000 5 0xFFFFFFFF = (5, 0xFFFFFFFF) := by decide
/-- AM13. -/
theorem test_amomin_negative : amo 0b10000 0xFFFFFFFE 0xFFFFFFFF = (0xFFFFFFFE, 0xFFFFFFFE) := by decide
/-- AM18. -/
theorem test_amomax_mixed : amo 0b10100 0x80000000 0 = (0x80000000, 0) := by decide
/-- AM19. -/
theorem test_amomax_negative : amo 0b10100 0xFFFFFFFE 0xFFFFFFFF = (0xFFFFFFFE, 0xFFFFFFFF) := by decide
/-- AM22. -/
theorem test_amominu : amo 0b11000 0x80000000 0 = (0x80000000, 0) := by decide
/-- AM23. -/
theorem test_amomaxu : amo 0b11100 5 0xFFFFFFFF = (5, 0xFFFFFFFF) := by decide

/-- R274, code 2. -/
theorem test_undefined_traps : (next (place [] [] 0)).out.engine.exc = some { pc := 0x100, code := 2 } := by decide

/-- The word at 0x100 with a unit that answers `u`. -/
def withUnit (u : UnitResult) (s : State) : State := { s with input := { s.input with unit := u, handlerPC := 0x800 } }

/-- P5: `fence.i` requests both cache flushes and redirects to its fall-through. -/
theorem test_fenceI :
    let t := next (place [] [] 0x0000100F)
    t.out.engine.dCacheReq = true ∧ t.out.engine.iCacheReq = true ∧ t.out.engine.tlbReq = false ∧
      t.out.engine.recover = some 0x104 := by decide
/-- R109. -/
theorem test_sfenceVma :
    let t := next (place [] [] 0x12000073)
    t.out.engine.tlbReq = true ∧ t.out.engine.dCacheReq = false ∧ t.out.engine.recover = some 0x104 := by decide
/-- RT vectors of the xRET disposition (R421). -/
theorem test_mret :
    let t := next (withUnit .reset (place [] [] 0x30200073))
    t.out.engine.xret = true ∧ t.env.pc = 0x800 := by decide
/-- R421. -/
theorem test_sret :
    let t := next (withUnit .reset (place [] [] 0x10200073))
    t.out.engine.xret = true ∧ t.env.pc = 0x800 := by decide

/-- A CSR unit with the old value 0x11 and the final value 0x22. -/
def csrUnit (writes : Bool) : UnitResult := { UnitResult.reset with result := 0x11, csrData := 0x22, writeCSR := writes }

/-- x7, the CSR port and the redirect after a CSR word. -/
def csr (func3 : BitVec 3) (writes : Bool) : Data × Option CsrWrite × Option Addr :=
  let t := next (withUnit (csrUnit writes) (place [] [] (csrWord func3)))
  (readReg t.env.x 7, t.out.engine.csrWrite, t.out.engine.recover)

/-- R422. -/
theorem test_csrrw : csr 0b001 false = (0x11, some { address := 0x341, data := 0x22 }, some 0x104) := by decide
/-- R422. -/
theorem test_csrrs_writes : csr 0b010 true = (0x11, some { address := 0x341, data := 0x22 }, some 0x104) := by decide
/-- R454. -/
theorem test_csrrs_reads : csr 0b010 false = (0x11, none, none) := by decide
/-- R422. -/
theorem test_csrrc : csr 0b011 true = (0x11, some { address := 0x341, data := 0x22 }, some 0x104) := by decide
/-- R422. -/
theorem test_csrrwi : csr 0b101 false = (0x11, some { address := 0x341, data := 0x22 }, some 0x104) := by decide
/-- R454. -/
theorem test_csrrsi : csr 0b110 false = (0x11, none, none) := by decide
/-- R422. -/
theorem test_csrrci : csr 0b111 true = (0x11, some { address := 0x341, data := 0x22 }, some 0x104) := by decide

/-- Scenario 2 (R424): a branch predicted to fall through and taken redirects and updates the predictor. -/
theorem test_branch_mispredicted :
    let t := next (withUnit { UnitResult.reset with target := some 0x2000 } (place [] [] 0x00000063))
    t.env.pc = 0x2000 ∧ t.out.engine.pred0 = some { pc := 0x100, jump := true, target := 0x2000 } ∧
      t.out.engine.recover = some 0x2000 := by decide

/-- R108: a fetch may see a byte that a store has overwritten since the last `fence.i`. -/
theorem test_fetch_sees_overwritten_byte :
    let s := next (place [(5, 0x104), (6, 0xFF)] [] (store0 0b000))
    s.env.fetchByte 0x104 0 = 0xFF ∧ s.env.fetchByte 0x104 1 = 0 := by decide

/-! ## Witnesses: the hypotheses of each statement hold together somewhere, for each of its clauses -/

theorem witness_DecodeOfEncodeIsTheInstruction :
    (Instr.lw { rd := 31, rs1 := 31, imm := 0xFFF }).WellFormed ∧ (Instr.undefined 0xFFFFFFFF#32).WellFormed ∧
      (Instr.amoaddW atomicFields).WellFormed ∧ (Instr.lrW { atomicFields with rs2 := 0 }).WellFormed := by decide

theorem witness_EncodeOfDecodeIsTheWord :
    decodeWord 0xFFFFFFFF#32 = .instr (.undefined 0xFFFFFFFF#32) ∧
      decodeWord 0x30200073#32 = .instr .mret := by decide

theorem witness_EntrySelectsOperationAndAddress :
    (Instr.sd storeFields).memOp = some .sd ∧ MemOp.sd ≠ .undefined ∧
      (Instr.amoaddW { atomicFields with func3 := 3 }).memOp = some .amoadd ∧
      (Instr.undefined 0x0072B32F#32).memOp = some .undefined := by decide

/-- The block at reset. -/
def block : Block := Block.reset .default

/-- Wires that show nothing and answer nothing. -/
def quietWires : BlockInput where
  enq := none
  inOrderEnq := []
  inOrderDeqReady := []
  outOfOrderEnq := []
  outOfOrderDeqReady := []
  bcast := []
  other := none
  sma := { ready := false, data := 0, error := false }
  bypass := { data := 0, strobe := 0 }
  allocReady := false
  allocId := 0
  dtlb := { ready := false, answer := { paddress := 0, error := .none } }
  retiredValid := false
  retiredRow := 0
  tableRetire := []
  handlerPC := 0
  dCacheEmpty := true
  iCacheEmpty := true
  tlbEmpty := true

/-- The memory answers. -/
def replied : BlockInput := { quietWires with sma := { ready := true, data := 0x80, error := false } }

theorem witness_ArbiterHoldsItsGrant :
    ({ block with arb := .pending2 } : Block).arb ≠ .idle ∧
      (∀ i ∈ [quietWires, quietWires], i.sma.ready = false) ∧ replied.sma.ready = true := by decide

theorem witness_BypassOverlaysByteByByte :
    bypassAnswer { data := 0xAABBCCDD, strobe := 0b0101 } (some { data := 0x11223344, error := true }) =
      some { data := 0x11BB33DD, error := true } ∧ 0 < 4 ∧ 3 < 4 := by decide

theorem witness_ReadSeesTheYoungestStore :
    memRead (place [] [] 0).env .word 0xFFFFFFFF 0 = some 0 ∧ BeatType.word.bytes = 4 := by decide

/-- A TLB stage holding an entry of the operation `op` with the tag `e`. -/
def tlbWith (state : TlbState) (op : MemOp) (e : MemoryErrorCode) : TlbStage :=
  { inReg := { MemEntry2.zero with op := op, error := e, vaddress := 0x3000, valid := true }, state := state
    paddress := 0x7000, error := .pageFault }

theorem witness_MisalignmentDominates :
    (∃ m, (tlbWith .respond .lw .misaligned).out = some m ∧ m.error = .misaligned) ∧
      (∃ m, (tlbWith .respond .lw .none).out = some m ∧ m.error = .pageFault) := by decide

theorem witness_TlbRequestIsNeverAbandoned :
    (tlbWith .request .sw .none).state = .request ∧ quietWires.dtlb.ready = false ∧
      ({ quietWires with dtlb := { ready := true, answer := { paddress := 0, error := .none } } } :
        BlockInput).dtlb.ready = true := by decide

/-- An Execute Entry of a `lw`. -/
def loadEntry : ExecuteEntry := { ExecuteEntry.zero with instructionType := .I, func3 := 2, rd := 4, valid := true }

theorem reset_queue_sound (d : Nat) (hd : 0 < d) : (InOrderQueue.reset d).Sound d :=
  ⟨by simp [InOrderQueue.reset], hd, hd, by simp [InOrderQueue.reset], by simp [InOrderQueue.reset]⟩

theorem witness_EntryReachesTheReadWriteStage :
    block.quiet = true ∧ block.memQueue.Sound Params.default.iqDepth.val ∧
      ({ quietWires with enq := some loadEntry } : BlockInput).enq = some loadEntry ∧ loadEntry.valid = true ∧
      loadEntry.rs1.pending = false ∧ loadEntry.rs2.pending = false ∧ loadEntry.rs3.pending = false ∧
      quietWires.retiredValid = false ∧
      ({ quietWires with dtlb := { ready := true, answer := { paddress := 0, error := .none } } } :
        BlockInput).dtlb.ready = true :=
  ⟨by decide, reset_queue_sound 4 (by decide), rfl, rfl, rfl, rfl, rfl, rfl, rfl⟩

/-- A ReadWrite stage working on `op` with the tag `e`. -/
def rwWith (state : RwState) (op : MemOp) (e : MemoryErrorCode) : RwStage :=
  { inReg := { MemEntry3.zero with
      op := op, error := e, vaddress := 0x3000, paddress := 0x3000, next := 0x104, valid := true }
    state := state, readResult := 0, receipt0 := 0 }

theorem witness_ReadWriteStageRaisesByTheMap :
    (rwWith .idle .undefined .pageFault).inReg.op = .undefined ∧
      codeOf (rwWith .idle .lw .misaligned).inReg.op.isRead .misaligned = some 4 ∧
      codeOf (rwWith .idle .amoadd .memoryFault).inReg.op.isRead .memoryFault = some 7 ∧
      (rwWith .readBottom .ld .none).inReg.valid = true ∧ (rwWith .readTop .ld .none).state = .readTop := by decide

theorem witness_StoreConditionalChecksTheReservation :
    let r := rwWith .idle .sc .none
    r.state = .idle ∧ r.inReg.valid = true ∧ r.inReg.op = .sc ∧ r.inReg.error = .none ∧
      r.inReg.vaddress = 0x3000 := by decide

theorem witness_StageEmitsTheCollapsedLoad :
    ∀ op ∈ [MemOp.ld, .lr, .lw],
      let s := atomic 0b00010 0x3000 0 0xCAFEF00D
      let r := rwWith .idle op .none
      op.isRead = true ∧ access s.env op 0x3000 s.input.tlbAge = .granted 0x3000 ∧ r.state = .idle ∧ r.inReg.valid = true ∧
        r.inReg.op = op ∧ r.inReg.error = .none ∧ r.inReg.vaddress = 0x3000 ∧ r.inReg.paddress = 0x3000 ∧
        r.inReg.next = fallThrough s ∧ memRead s.env op.beatType 0x3000 s.input.smaPad = some 0xCAFEF00D ∧
        memRead s.env .word (0x3000 + 4) s.input.smaPad = some 0 := by decide

theorem witness_StageEmitsTheCollapsedAmo :
    let s := atomic 0b00000 0x3000 1 0xFFFFFFFF
    MemOp.amoadd.isAmo = true ∧ access s.env .amoadd 0x3000 s.input.tlbAge = .granted 0x3000 ∧
      (rwWith .idle .amoadd .none).inReg.next = fallThrough s ∧
      memRead s.env .word 0x3000 s.input.smaPad = some 0xFFFFFFFF := by decide

theorem witness_StageEmitsTheCollapsedStore :
    (∀ op ∈ [MemOp.sb, .sh, .sw, .sd, .sc],
      let s := atomic 0b00011 0x3000 0x63 0
      let r := rwWith .idle op .none
      op.isWrite = true ∧ access s.env op 0x3000 s.input.tlbAge = .granted 0x3000 ∧ r.state = .idle ∧
        r.inReg.valid = true ∧ r.inReg.op = op ∧ r.inReg.error = .none ∧ r.inReg.vaddress = 0x3000 ∧
        r.inReg.paddress = 0x3000 ∧ r.inReg.next = fallThrough s) ∧
      reservationHolds (atomic 0b00011 0x3000 0x63 0).blk.loadReservation 0x3000 = false ∧
      reservationHolds (reserved (atomic 0b00011 0x3000 0x63 0)).blk.loadReservation 0x3000 = true := by decide

/-- A ROB entry with this result. -/
def robEntry (r : ExecuteResult) : RobRetireEntry :=
  { valid := true, commit := true, pc := 0x100, spec := 0x104, rd := 6, executeResult := r }

/-- A result that falls through as predicted. -/
def plain : ExecuteResult := { ExecuteResult.zero with real := 0x104, result := 5 }

/-- Wires with a row on `retired`. -/
def rowWires (a b : RobRetireEntry) : BlockInput :=
  { quietWires with retiredValid := true, retiredRow := 3, tableRetire := [(4, .zero), (6, a), (7, b)] }

theorem witness_RecoverCancelsEveryEntry :
    recoverOf block (rowWires (robEntry { plain with exception := true }) .zero) = true ∧
      recoverOf { block with rw := rwWith .writeTop .sd .none } (rowWires (robEntry { plain with xret := true }) .zero) =
      true ∧ (rwWith .writeTop .sd .none).state = .writeTop ∧ (rwWith .writeBottom .sb .none).state = .writeBottom := by
  decide

/-- A block that has the arbiter's grant and reads for an `lr`. -/
def lrBlock : Block := { block with arb := .pending1, rw := rwWith .readBottom .lr .none }

theorem witness_ReservationNextState_updates :
    (engineTick block.ret quietWires).out.lrUpdate = none ∧
      (engineTick block.ret (rowWires (robEntry { plain with lr := true, lrAddress := 0x3000 }) .zero)).out.lrUpdate =
        some { load := true, address := 0x3000 } ∧
      (engineTick block.ret (rowWires (robEntry { plain with sc := true }) .zero)).out.lrUpdate =
        some { load := false, address := 0 } := by decide

theorem witness_ReservationNextState_lr : recoverOf lrBlock replied = false ∧ lrBlock.LrCompletes .default replied :=
  ⟨by decide, rfl, rfl, rfl, 0x80, by decide⟩

theorem witness_ReservationNextState_sc :
    ({ block with rw := rwWith .idle .sc .none } : Block).ScCompletes quietWires ∧
      ({ block with rw := rwWith .writeBottom .sc .none } : Block).ScCompletes
        { quietWires with allocReady := true } :=
  ⟨⟨rfl, .inl ⟨rfl, rfl, rfl, by decide⟩⟩, ⟨rfl, .inr ⟨rfl, rfl⟩⟩⟩

theorem witness_ReservationNextState_neither :
    recoverOf block quietWires = false ∧ ¬block.LrCompletes .default quietWires ∧ ¬block.ScCompletes quietWires :=
  ⟨by decide, fun h => absurd h.1 (by decide), fun h => absurd h.1 (by decide)⟩

/-- A slot that waits for the tag 7. -/
def waiting : OperandSlot := { pending := true, tag := 7, value := 0 }

theorem witness_WakeTakesTheLowestLane :
    let lanes : List BroadcastLane :=
      [{ valid := false, tag := 7, value := 1 }, { valid := true, tag := 7, value := 2 }, { valid := true, tag := 7, value := 3 }]
    waiting.pending = true ∧ lanes[1]? = some { valid := true, tag := 7, value := 2 } ∧
      (∀ j, j < 1 → ∀ l', lanes[j]? = some l' → ¬(l'.valid = true ∧ l'.tag = waiting.tag)) ∧
      (∀ l ∈ ([] : List BroadcastLane), ¬(l.valid = true ∧ l.tag = waiting.tag)) := by
  refine ⟨rfl, rfl, fun j hj l' h => ?_, by simp⟩
  obtain rfl : j = 0 := by omega
  simp at h
  simp [← h]

/-- A full in-order queue of one entry. -/
def fullQueue : InOrderQueue := { buf := [loadEntry], rptr := 0, wptr := 0, emptyF := false, fullF := true }

theorem witness_DequeuedEntriesAreReady :
    fullQueue.deq [] = some loadEntry ∧
      ({ cells := [{ Cell.reset with state := .one, data := loadEntry }] } : OutOfOrderQueue).deq [] = some loadEntry ∧
      loadEntry.valid = true := by decide

theorem witness_InOrderQueueIsFirstInFirstOut : fullQueue.Sound 1 ∧ (InOrderQueue.reset 4).Sound 4 :=
  ⟨⟨rfl, by decide, by decide, by decide, by decide⟩, reset_queue_sound 4 (by decide)⟩

theorem witness_OutOfOrderGrantIsTheOldestReady :
    ({ cells := [{ Cell.reset with state := .one, data := loadEntry }, { Cell.reset with state := .two, data := loadEntry }] } :
      OutOfOrderQueue).grant [] = some 1 ∧ loadEntry.Ready := ⟨by decide, .inr ⟨rfl, rfl, rfl⟩⟩

theorem witness_OutOfOrderQueueKeepsAgeOrder :
    ({ cells := [{ Cell.reset with state := .two, data := loadEntry }] } : OutOfOrderQueue).cells ≠ [] := by decide

theorem witness_RowWaitsForBothSlots :
    block.ret.state = .retire ∧
      (rowWires (robEntry plain) .zero).tableRetire.lookup (BitVec.ofNat 32 (2 * 3)) = some (robEntry plain) ∧
      (rowWires (robEntry plain) .zero).tableRetire.lookup (BitVec.ofNat 32 (2 * 3 + 1)) = some .zero ∧ fireNow block.ret (rowWires (robEntry plain) (robEntry plain)) = true ∧
      fireNow block.ret (rowWires (robEntry plain) { robEntry plain with commit := false }) = false := by decide

theorem witness_RedirectingDispositions :
    disposition (robEntry { plain with exception := true, xret := true }) = .exception ∧
      disposition (robEntry { plain with xret := true, writeCSR := true }) = .xret ∧
      disposition (robEntry { plain with writeCSR := true }) = .csrWrite ∧
      disposition (robEntry { plain with real := 0x2000 }) = .mispredict := by decide

theorem witness_OlderSlotStopsTheRow :
    disposition (robEntry { plain with flushTLB := true }) = .flush ∧ disposition (robEntry plain) = .normal ∧
      RobRetireEntry.zero.valid = false ∧ (robEntry plain).valid = true := by decide

theorem witness_OnlyNormalSlotsCommit :
    disposition (robEntry { plain with lr := true, write := true, branch := true }) = .normal ∧
      (robEntry { plain with lr := true, write := true, branch := true }).valid = true := by decide

theorem witness_FlushMachineStates_entry :
    let f := robEntry { plain with flushDCache := true }
    block.ret.state = .retire ∧ fireNow block.ret (rowWires f .zero) = true ∧
      (retireRow f .zero 0).flush = some .slot0 ∧ fireNow block.ret (rowWires (robEntry plain) f) = true ∧
      (retireRow (robEntry plain) f 0).flush = some .slot1 := by decide

theorem witness_FlushMachineStates :
    ∀ st ∈ [RetState.dcache, .icache, .tlb],
      ({ state := st, flushID := .slot1, busySeen := true } : RetireRegs).state = st ∧
        (flushResult { state := st, flushID := .slot1, busySeen := true }
          (rowWires .zero (robEntry { plain with flushTLB := true }))).flushTLB = true := by decide

/-! ### Instructions -/

theorem reaches_of_identity (s : State) (op : MemOp) (va : Addr) (h : misaligned op va = false)
    (hd : s.env.dtlb = []) (ho : s.env.superseded = []) : Reaches s op va va :=
  ⟨h, by rw [s.env.translate_of_flushed ho]; simp [Env.mapping, Env.mappedLine, TlbLine.answer, TranslationError.tag, hd]⟩

/-- x5 = `a`, x6 = 0x63. -/
def based (a : Data) : State := place [(5, a), (6, 0x63)] [] 0

theorem witness_loads :
    Readable (based 0xFFFFFFFF) 0xFFFFFFFF ∧
      Reaches (based 0xFFFFFFFF) .lb (displacedAddress (based 0xFFFFFFFF) 5 0) 0xFFFFFFFF ∧
      Reaches (based 0xFFFFFFFF) .lbu (displacedAddress (based 0xFFFFFFFF) 5 0) 0xFFFFFFFF ∧
      Reaches (based 0) .lh (displacedAddress (based 0) 5 0xFFE) 0xFFFFFFFE ∧
      Reaches (based 0) .lhu (displacedAddress (based 0) 5 0xFFE) 0xFFFFFFFE ∧
      Reaches (based 0) .lw (displacedAddress (based 0) 5 0xFFC) 0xFFFFFFFC ∧
      Reaches (based 0) .ld (displacedAddress (based 0) 5 0xFFC) 0xFFFFFFFC ∧
      Readable (based 0) 0xFFFFFFFE ∧ Readable (based 0) 0xFFFFFFFC ∧ Readable (based 0) (0xFFFFFFFC + 4) :=
  ⟨by decide, reaches_of_identity _ _ _ (by decide) rfl rfl, reaches_of_identity _ _ _ (by decide) rfl rfl,
    reaches_of_identity _ _ _ (by decide) rfl rfl, reaches_of_identity _ _ _ (by decide) rfl rfl,
    reaches_of_identity _ _ _ (by decide) rfl rfl, reaches_of_identity _ _ _ (by decide) rfl rfl, by decide, by decide, by decide⟩

theorem witness_stores :
    Reaches (based 0xFFFFFFFF) .sb (displacedAddress (based 0xFFFFFFFF) 5 0) 0xFFFFFFFF ∧
      Reaches (based 0) .sh (displacedAddress (based 0) 5 0xFFE) 0xFFFFFFFE ∧
      Reaches (based 0) .sw (displacedAddress (based 0) 5 0xFFC) 0xFFFFFFFC ∧
      Reaches (based 0) .sd (displacedAddress (based 0) 5 0xFFC) 0xFFFFFFFC :=
  ⟨reaches_of_identity _ _ _ (by decide) rfl rfl, reaches_of_identity _ _ _ (by decide) rfl rfl,
    reaches_of_identity _ _ _ (by decide) rfl rfl, reaches_of_identity _ _ _ (by decide) rfl rfl⟩

theorem witness_atomics :
    Reaches (based 0x3000) .lr (baseAddress (based 0x3000) 5) 0x3000 ∧ Readable (based 0x3000) 0x3000 ∧
      Reaches (based 0x3000) .sc (baseAddress (based 0x3000) 5) 0x3000 ∧
      (reserved (based 0x3000)).blk.loadReservation = { address := baseAddress (based 0x3000) 5, valid := true } ∧
      ¬((based 0x3000).blk.loadReservation.valid = true ∧
        (based 0x3000).blk.loadReservation.address = baseAddress (based 0x3000) 5) ∧
      ∀ op ∈ [MemOp.amoswap, .amoadd, .amoxor, .amoand, .amoor, .amomin, .amomax, .amominu, .amomaxu],
        Reaches (based 0x3000) op (baseAddress (based 0x3000) 5) 0x3000 := by
  refine ⟨reaches_of_identity _ _ _ (by decide) rfl rfl, by decide, reaches_of_identity _ _ _ (by decide) rfl rfl, by decide,
    by decide, fun op h => ?_⟩
  refine reaches_of_identity _ op _ ?_ rfl rfl
  revert op
  decide

/-- The page at 0x5000 faults for a read and for a write, and 0x6000 has a memory fault. -/
def mapped : State :=
  (based 0x5000).withEnv { (based 0x5000).env with
    dtlb := [{ vaddress := 0x5000, write := false, paddress := 0, error := .pageFault },
      { vaddress := 0x5000, write := true, paddress := 0, error := .pageFault },
      { vaddress := 0x6000, write := false, paddress := 0, error := .memoryFault },
      { vaddress := 0x6000, write := true, paddress := 0, error := .memoryFault }] }

/-- The code a memory instruction with its address in x5 and displacement `d` meets. -/
def codeAt (op : MemOp) (mk : BitVec 12 → Instr) (d : BitVec 12) : Option ExcCode :=
  let va := virtualAddress mapped (mk d)
  codeOf op.isRead (if misaligned op va = true then .misaligned
    else (mapped.env.translate { vaddress := va, write := op.inWriteSet } mapped.input.tlbAge).error)

theorem witness_MemoryFaultsTrap :
    codeAt .lw (fun d => .lw { rd := 7, rs1 := 5, imm := d }) 1 = some 4 ∧
      codeAt .sw (fun d => .sw { rs1 := 5, rs2 := 6, imm := d }) 1 = some 6 ∧
      codeAt .lw (fun d => .lw { rd := 7, rs1 := 5, imm := d }) 0 = some 13 ∧
      codeAt .sw (fun d => .sw { rs1 := 5, rs2 := 6, imm := d }) 0 = some 15 ∧
      codeAt .amoadd (fun _ => .amoaddW atomicFields) 0 = some 15 ∧
      codeOf MemOp.lb.isRead (mapped.env.translate { vaddress := 0x6000, write := false } 0).error = some 5 ∧
      codeOf MemOp.sb.isRead (mapped.env.translate { vaddress := 0x6000, write := true } 0).error = some 7 := by decide

/-- Reads at 0x3000 answer an error. -/
def unreadable : State := (based 0x3000).withEnv { (based 0x3000).env with smaErrors := [0x3000] }

theorem witness_ReadErrorsTrap :
    ¬Readable unreadable 0x3000 ∧ Reaches unreadable .amoadd (virtualAddress unreadable (.amoaddW atomicFields)) 0x3000 ∧
      Reaches unreadable .lw (virtualAddress unreadable (.lw { rd := 7, rs1 := 5, imm := 0 })) 0x3000 ∧
      Reaches unreadable .ld (virtualAddress unreadable (.ld { rd := 7, rs1 := 5, imm := 0xFFC })) 0x2FFC ∧
      Readable unreadable 0x2FFC ∧ ¬Readable unreadable (0x2FFC + 4) := by
  refine ⟨by decide, reaches_of_identity _ _ _ (by decide) rfl rfl, reaches_of_identity _ _ _ (by decide) rfl rfl,
    reaches_of_identity _ _ _ (by decide) rfl rfl, by decide, by decide⟩

theorem witness_UnitExceptionsTrap :
    (withUnit { UnitResult.reset with exception := some 3 } (based 0)).input.unit.exception = some 3 ∧
      (Instr.csrrw csrFields).memOp = none := by decide

theorem witness_system_instructions :
    (based 0).input.unit.exception = none ∧ (∀ e ∈ (based 0).env.sq.entries, e.retired = true) ∧
      (withUnit (csrUnit true) (based 0)).input.unit.writeCSR = true ∧
      (withUnit (csrUnit false) (based 0)).input.unit.writeCSR = false ∧
      (withUnit (csrUnit false) (based 0)).input.unit.exception = none := by decide

theorem witness_OtherUnitWordsRetire :
    let s := withUnit { UnitResult.reset with target := some 0x2000 } (based 0)
    unitSpec 0x00000063 s ≠ unitReal 0x00000063 s ∧ unitSpec 0x00500293 s = unitReal 0x00500293 s := by decide

theorem witness_StepRunsTheDecodedInstruction :
    let s := place [] [] (loadWord 0b010)
    ready s = true ∧ (Instr.lw loadFields).WellFormed ∧
      decodeWord (s.env.fetchWord s.input.fetchAge) = .instr (.lw loadFields) ∧ answered s (.lw loadFields) = true ∧
      ready (place [] [] 0x00500293) = true ∧
      decodeWord ((place [] [] 0x00500293).env.fetchWord []) = .otherUnit 0x00500293 := by decide

theorem witness_InstructionsLeaveNothingInFlight :
    ready (based 0x3000) = true ∧ (∃ t, exec (.sd storeFields) (based 0x3000) = .next t) ∧
      ∃ t, execOtherUnit 0x00500293 (based 0x3000) = .next t :=
  ⟨by decide, ⟨_, rfl⟩, _, rfl⟩

/-- A word at 0x100 in a machine none of whose neighbours answers. -/
def unanswered (w : BitVec 32) : State :=
  let s := place [] [] w
  { s with input := { s.input with
      smaReady := false, dtlbReady := false, allocReady := false, dCacheMoves := false, iCacheMoves := false
      tlbMoves := false } }

/-- What the first step of `unanswered w` fetches and whether it waits. -/
def waits (w : BitVec 32) (i : Instr) : Prop :=
  ready (unanswered w) = true ∧
    decodeWord ((unanswered w).env.fetchWord (unanswered w).input.fetchAge) = .instr i ∧
    answered (unanswered w) i = false

theorem witness_UnansweredInstructionsWait_load :
    waits (load0 0b010) (.lw { loadFields with imm := 0 }) ∧
      Reaches (unanswered (load0 0b010)) .lw
        (virtualAddress (unanswered (load0 0b010)) (.lw { loadFields with imm := 0 })) 0 :=
  ⟨⟨by decide, by decide, by decide⟩, reaches_of_identity _ _ _ (by decide) rfl rfl⟩

theorem witness_UnansweredInstructionsWait_store :
    waits (store0 0b010) (.sw { storeFields with imm := 0 }) ∧
      Reaches (unanswered (store0 0b010)) .sw
        (virtualAddress (unanswered (store0 0b010)) (.sw { storeFields with imm := 0 })) 0 :=
  ⟨⟨by decide, by decide, by decide⟩, reaches_of_identity _ _ _ (by decide) rfl rfl⟩

theorem witness_UnansweredInstructionsWait_fences :
    waits 0x0000100F (.fenceI { rd := 0, rs1 := 0, imm := 0 }) ∧
      waits 0x12000073 (.sfenceVma { rs1 := 0, rs2 := 0 }) ∧
      (unanswered 0x0000100F).input.unit.exception = none ∧ (unanswered 0x12000073).input.unit.exception = none :=
  ⟨⟨by decide, by decide, by decide⟩, ⟨by decide, by decide, by decide⟩, rfl, rfl⟩

/-- A state with an entry offered, which a step takes as a tick. -/
def offered : State := { based 0 with input := { (based 0).input with enq := some loadEntry } }

theorem witness_EveryStepAnswersNext :
    runsNow offered (decodeWord (offered.env.fetchWord offered.input.fetchAge)) = false := by decide

/-- A retired store and a younger one that has not retired wait in the store queue. -/
def queued : State :=
  State.reset.withEnv (Env.reset.withSq
    { nextId := 2
      entries := [{ id := 0, writeType := .byte, address := 0x40, data := 7, retired := true },
        { id := 1, writeType := .byte, address := 0x41, data := 8, retired := false }] })

theorem witness_OnlyRetirementChangesArchitecturalState :
    let o := (sysTick queued).out.engine
    o.reg0 = none ∧ o.reg1 = none ∧ o.lrUpdate = none ∧ o.recover = none ∧ o.sq0 = none ∧ o.sq1 = none ∧
      (sysTick queued).env.mem = [(0x40, 7)] := by decide

/-- Every queue is full and is offered an entry, and the other requester asks. -/
def crowded : State :=
  { (based 0) with
    blk := { block with
      memQueue := { block.memQueue with fullF := true, emptyF := false }
      inOrderQueues := block.inOrderQueues.map fun q => { q with fullF := true, emptyF := false }
      outOfOrderQueues := block.outOfOrderQueues.map fun q =>
        { q with cells := q.cells.map fun c => { c with state := .two } } }
    input := { (based 0).input with
      enq := some loadEntry, inOrderEnq := [some loadEntry], outOfOrderEnq := [some loadEntry]
      other := some { address := 0x40, readType := .word } } }

theorem witness_OffersAreHeldUntilTaken :
    let o := (sysTick crowded).advance.out
    crowded.input.enq = some loadEntry ∧ o.enqReady = false ∧
      crowded.input.inOrderEnq[0]? = some (some loadEntry) ∧ o.inOrderEnqReady[0]? = some false ∧
      crowded.input.outOfOrderEnq[0]? = some (some loadEntry) ∧ o.outOfOrderEnqReady[0]? = some false ∧
      crowded.input.other = some { address := 0x40, readType := .word } ∧ o.other = none := by decide

/-- A ROB slot of an instruction of the kind `k` at 0x100 that has no result. -/
def slotOf (k : UnitKind) : RobSlot :=
  { entry := { robEntry .zero with commit := false }, dest := some 7, kind := k, next := 0x104, bubble := false }

/-- A ROB slot that holds no instruction. -/
def emptySlot : RobSlot := { entry := .zero, dest := none, kind := .plain, next := 0, bubble := false }

/-- The receipts 0, a memory instruction, 2, 3 and 6 are in flight; an entry with a slot that waits for the tag 6, which
was broadcast, is offered to each queue; tag 5 waits for a lane; the ReadWrite stage has a result, a unit reports one
for receipt 6, and another sends the word of receipt 3 ahead. -/
def broadcasting : State :=
  { (based 0) with
    blk := { block with rw := rwWith .idle .undefined .none }
    env := { (based 0).env with
      bus := { unsent := [.of 5 50], heard := [.of 6 60] }
      rob := { head := 0, rows := [⟨slotOf .memory, emptySlot⟩, ⟨slotOf .csr, slotOf .control⟩, ⟨emptySlot, emptySlot⟩,
        ⟨emptySlot, slotOf .plain⟩] } }
    input := { (based 0).input with
      enq := some { loadEntry with instructionType := .S, rs1 := waiting, rs2 := { waiting with tag := 6 } }
      inOrderEnq := [some { loadEntry with instructionType := .B, rs2 := { waiting with tag := 6 } }]
      outOfOrderEnq := [some { loadEntry with instructionType := .R4, rs3 := { waiting with tag := 6 } }]
      results := [{ rd := 7, result := { plain with result := 40 } }]
      lanes := [.of 3 30] } }

theorem witness_NoWakeUpIsLost :
    let heard : OperandSlot := { pending := false, tag := 6, value := 60 }
    (wires broadcasting).enq = some { loadEntry with instructionType := .S, rs1 := waiting, rs2 := heard } ∧
      (wires broadcasting).inOrderEnq = [some { loadEntry with instructionType := .B, rs2 := heard }] ∧
      (wires broadcasting).outOfOrderEnq = [some { loadEntry with instructionType := .R4, rs3 := heard }] ∧
      waiting.pending = true ∧ (wires broadcasting).bcast = [.of 0 0] ∧
      (sysTick broadcasting).out.rwOut.isSome = true ∧
      (sysTick broadcasting).env.bus = { unsent := [.of 5 50, .of 3 30, .of 7 40], heard := [.of 0 0, .of 6 60] } := by decide

/-- R336: in a tick in which the ReadWrite stage emits nothing and nothing waits the one lane carries the other unit's
result. -/
theorem test_lane_of_another_unit :
    (wires { broadcasting with
      blk := block, env := (broadcasting.env.withBus { unsent := [], heard := [] })
      input := { broadcasting.input with lanes := [] } }).bcast = [.of 7 40] := by decide

/-- `broadcasting` with these offers to the memory queue and to the further ones, for receipt 2. -/
def offering (e f : ExecuteEntry) : State :=
  { broadcasting with input := { broadcasting.input with
    enq := some { e with rd := 2 }, inOrderEnq := [some { f with rd := 2 }], outOfOrderEnq := [some f] } }

/-- R513: a load with its unused operands pending waits for `rs1` only, and a jump for nothing. -/
theorem test_unused_operands :
    let s := offering { loadEntry with rs2 := waiting, rs3 := waiting }
      { loadEntry with instructionType := .J, rs1 := waiting, rs2 := waiting, rs3 := waiting }
    (wires s).enq.map fireable = some true ∧ (wires s).inOrderEnq.map (Option.map fireable) = [some true] := by decide

theorem witness_EntriesAreOfferedAsTheDutiesSay :
    let s := offering { loadEntry with rs1 := waiting } { loadEntry with instructionType := .U }
    (robWithNewRow s).slotAt 2 = some (slotOf .csr) ∧ (slotOf .csr).entry.valid = true ∧
      (wires s).enq = some { loadEntry with rd := 2, rs1 := waiting, pc := 0x100, spec := 0x104, next := 0x104 } ∧
      (decodeOp .I 2 0).isRead = true ∧ (decodeOp .S 2 0).isWrite = true ∧ (decodeOp .R 2 0).isAmo = true ∧
      decodeOp .UNK 2 0 = .undefined ∧ (wires s).inOrderEnq.length = 1 ∧ (wires s).outOfOrderEnq.length = 1 := by decide

/-- A result that claims a jump, every special flag and the exception 3. -/
def lying : ExecuteResult :=
  { plain with
    real := 0x2000, branch := true, exception := true, exceptionCode := 3, writeCSR := true, csrAddress := 0x341
    csrData := 9, xret := true, flushDCache := true, flushICache := true, flushTLB := true, sc := true, lr := true
    write := true }

/-- R515: what is left of it for a CSR instruction, and for a jump. -/
theorem test_results_are_held_to_the_rule :
    lying.conform .csr 0x104 =
        { plain with
          real := 0x104, exception := true, exceptionCode := 3, writeCSR := true, csrAddress := 0x341, csrData := 9 } ∧
      lying.conform .control 0x104 =
        { plain with
          real := 0x2000, branch := true, exception := true, exceptionCode := 3, csrAddress := 0x341, csrData := 9 } := by
  decide

/-- R512 (e), R515: a result for the memory pipeline's instruction, for an empty slot and for no row is not there, nor is
a second one. -/
theorem test_results_that_nothing_awaits :
    let after (rds : List RobReceipt) : Env :=
      reportedEnv { broadcasting with input := { broadcasting.input with
        lanes := [.of 0 1, .of 4 1, .of 99 1], results := rds.map fun rd => { rd := rd, result := lying } } }
    after [0, 4, 99] = broadcasting.env ∧ after [2, 2] = after [2] ∧ after [2] ≠ broadcasting.env := by decide

/-- `broadcasting` with a bubble for the receipt 2 at the head of the further in-order queue. -/
def bubbling : State :=
  { broadcasting with blk := { block with
    inOrderQueues := [{ fullQueue with buf := [{ loadEntry with rd := 2, valid := false }] }] } }

theorem witness_OtherUnitsReportByTheRule :
    broadcasting.env.rob.awaiting 0 = none ∧ broadcasting.env.rob.awaiting 4 = none ∧
      broadcasting.env.rob.awaiting 7 = some (slotOf .plain) ∧
      broadcasting.input.results.find? (fun u => u.rd == 7) = some { rd := 7, result := { plain with result := 40 } } ∧
      broadcasting.env.rob.awaiting 3 = some (slotOf .control) ∧ (∀ u ∈ broadcasting.input.results, u.rd ≠ 3) ∧
      bubbling.env.rob.slotAt 2 = some (slotOf .csr) ∧ bubbling.env.rob.rows.length < 2 ^ 31 ∧
      (handedOver (sysTick bubbling).out bubbling.input).map (fun d => (d.rd, d.valid)) = [(2, false)] ∧
      bubbling.env.rob.awaiting 2 = some (slotOf .csr) ∧ (sysTick bubbling).env.rob.awaiting 2 = none := by decide

/-- R522: a sink that is asked drops `empty`, raises it, and is idle again when `req` has fallen. -/
theorem test_sink_handshake :
    let step (k : SinkState) (req : Bool) : SinkState := k.next req (k.empty req true true)
    step .idle true = .draining ∧ step .draining true = .done ∧ step .done true = .done ∧
      step .done false = .idle := by decide

/-- R525 (c): a changed page table need not be seen until `sfence.vma` has retired. -/
theorem test_remap_seen_after_sfenceVma :
    let r : DtlbReq := { vaddress := 0x5000, write := false }
    let s := { (place [] [] 0x12000073) with
      env := (place [] [] 0x12000073).env.remap
        [{ vaddress := 0x5000, write := false, paddress := 0x9000, error := .none }] }
    s.env.translate r 1 = { paddress := 0x5000, error := .none } ∧
      (next s).env.translate r 1 = { paddress := 0x9000, error := .none } := by decide

/-- R524: the memory comes to answer an error at an address after a step. -/
theorem test_read_errors_change :
    let s := { based 0 with input := { (based 0).input with smaFaults := some [0x40] } }
    s.env.smaErrors = [] ∧ (next s).env.smaErrors = [0x40] := by decide

/-- The wires of State.reset are inactive. -/
theorem witness_FirstTickAfterReset :
    let i := wires State.reset
    i.retiredValid = false ∧ i.enq = none ∧ (∀ e ∈ i.inOrderEnq, e = none) ∧ (∀ e ∈ i.outOfOrderEnq, e = none) ∧
      i.other = none := by decide

theorem witness_EveryStepKeepsSoundness : offered.Sound ∧ ∃ t, step offered = .next t := by
  refine ⟨⟨⟨reset_queue_sound 4 (by decide), fun q h => ?_, fun q h => ?_, ⟨trivial, by decide⟩,
    fun h => absurd h (by decide), fun _ => rfl⟩,
    ⟨by decide, ⟨by decide, by decide, by decide⟩, fun row h => ?_, by decide, fun row h => ?_⟩,
    fun h => absurd h (by decide)⟩, _, rfl⟩
  · rw [List.mem_singleton.1 h]
    exact reset_queue_sound 4 (by decide)
  · rw [List.mem_singleton.1 h]
    rfl
  · exact absurd h (List.not_mem_nil)
  · exact absurd h (List.not_mem_nil)

end Sys2Proof.Tests
end

/-! PROOFS. The statements about the scope (`00_scope.md`): every step answers (R526), and what a neighbour offers
stands until it is taken (R511). -/

namespace Sys2Proof.Machine

/-! ## What a step can do -/

@[simp] theorem sysTick_cfg (s : State) : (sysTick s).cfg = s.cfg := rfl
@[simp] theorem sysTick_input (s : State) : (sysTick s).input = s.input := rfl

/-- No meaning of an instruction stops the machine: each ends in the retirement of the instruction alone. -/
theorem exec_eq_retireAlone (i : Instr) (s : State) :
    ∃ x dest spec rwOut, exec i s = .next (retireAlone s x dest spec rwOut) := by
  cases i
  all_goals exact ⟨_, _, _, _, rfl⟩

/-- So does the word of a unit outside the block (R453). -/
theorem runDecoded_eq_retireAlone (d : Decoded) (s : State) :
    ∃ x dest spec rwOut, runDecoded d exec s = .next (retireAlone s x dest spec rwOut) := by
  cases d with
  | instr i => exact exec_eq_retireAlone i s
  | otherUnit _ => exact ⟨_, _, _, _, rfl⟩

/-- A step retires the word it has fetched, or it is one tick. -/
theorem step_retires_or_ticks (s : State) :
    (runsNow s (decodeWord (s.env.fetchWord s.input.fetchAge)) = true ∧
        ∃ x dest spec rwOut, step s = .next (retireAlone s x dest spec rwOut).advance) ∨
      (runsNow s (decodeWord (s.env.fetchWord s.input.fetchAge)) = false ∧
        step s = .next (sysTick s).advance) := by
  cases hrun : runsNow s (decodeWord (s.env.fetchWord s.input.fetchAge)) with
  | false => exact .inr ⟨rfl, by simp [step, hrun]⟩
  | true =>
    obtain ⟨x, dest, spec, rwOut, hexec⟩ :=
      runDecoded_eq_retireAlone (decodeWord (s.env.fetchWord s.input.fetchAge)) s
    exact .inl ⟨rfl, x, dest, spec, rwOut, by simp [step, hrun, hexec, andAdvance]⟩

/-- Settles O50: the machine has two ways to step, and both leave the parameters. -/
theorem everyStepAnswersNext : Obligations.EveryStepAnswersNext := by
  unfold Obligations.EveryStepAnswersNext
  intro s
  obtain ⟨hrun, x, dest, spec, rwOut, hstep⟩ | ⟨-, hstep⟩ := step_retires_or_ticks s
  · have hcfg : (retireAlone s x dest spec rwOut).cfg = s.cfg := (retireAlone_frame s x dest spec rwOut).1
    exact ⟨_, hstep, hcfg, fun hwaits => by simp [hrun] at hwaits⟩
  · exact ⟨_, hstep, sysTick_cfg s, fun _ => rfl⟩

/-! ## Offers that were not taken -/

theorem heldOffer_untaken (e : ExecuteEntry) (recover : Bool) :
    heldOffer (some e) false recover = some (e.cancelIf recover) := rfl

/-- Of the offers to several queues, one that its queue did not take stands in its place, before any new one. -/
theorem heldOffers_untaken {old : List (Option ExecuteEntry)} {taken : List Bool} {k : Nat} {e : ExecuteEntry}
    (hoffer : old[k]? = some (some e)) (huntaken : taken[k]? = some false) (recover : Bool)
    (new : List (Option ExecuteEntry)) :
    (heldOffers old taken recover new)[k]? = some (some (e.cancelIf recover)) := by
  induction old generalizing taken k new with
  | nil => simp at hoffer
  | cons o rest ih =>
    cases taken with
    | nil => simp at huntaken
    | cons b bs =>
      cases k with
      | zero =>
        obtain rfl : o = some e := by simpa using hoffer
        obtain rfl : b = false := by simpa using huntaken
        simp [heldOffers, heldOffer_untaken]
      | succ k => simpa [heldOffers] using ih (by simpa using hoffer) (by simpa using huntaken) new.tail

/-- Settles O52: the four offers of the record, each kept by `EnvInput.holding`. -/
theorem offersAreHeldUntilTaken : Obligations.OffersAreHeldUntilTaken := by
  unfold Obligations.OffersAreHeldUntilTaken
  intro s
  simp only [State.advance_input, State.advance_out, sysTick_input, EnvInput.holding]
  refine ⟨fun e hoffer huntaken => ?_, fun k e hoffer huntaken => heldOffers_untaken hoffer huntaken _ _,
    fun k e hoffer huntaken => heldOffers_untaken hoffer huntaken _ _, fun r hrequest hunanswered => ?_⟩
  · rw [hoffer, huntaken, heldOffer_untaken, Option.some_or]
  · simp [hrequest, hunanswered]

end Sys2Proof.Machine

/-! PROOFS. The statements about the state (`10_state.md`): the invariant holds at reset and every step keeps it (R41,
R44, R55, R176, R340, R402, R446, R516), the registers at reset (R61), what changes without a retirement (R30, R46),
and how entries are offered (R513, R516). -/

namespace Sys2Proof.Machine

/-! ## Execute queues -/

theorem advancePtr_eq {d p : Nat} (hp : p < d) : advancePtr d p = if p + 1 = d then 0 else p + 1 := by
  unfold advancePtr
  split
  · simp_all
  · exact Nat.mod_eq_of_lt (by omega)

theorem advancePtr_lt {d p : Nat} (hp : p < d) : advancePtr d p < d := Nat.mod_lt _ (by omega)

theorem advancePtr_inj {d p q : Nat} (hp : p < d) (hq : q < d) : advancePtr d p = advancePtr d q ↔ p = q := by
  rw [advancePtr_eq hp, advancePtr_eq hq]
  split <;> split <;> omega

@[simp] theorem InOrderQueue.length_nextBuf (q : InOrderQueue) (lanes : List BroadcastLane)
    (accepted : Option ExecuteEntry) (recover : Bool) :
    (q.nextBuf lanes accepted recover).length = q.buf.length := by
  cases accepted <;> simp [InOrderQueue.nextBuf]

/-- R338: an entry leaves a queue only when the queue is not empty. -/
theorem InOrderQueue.emptyF_of_deq {q : InOrderQueue} {lanes : List BroadcastLane}
    (hdeq : (q.deq lanes).isSome = true) : q.emptyF = false := by
  by_contra hempty
  simp [InOrderQueue.deq, hempty] at hdeq

/-- R338: an entry is accepted only when the queue is not full. -/
theorem InOrderQueue.fullF_of_accepted {q : InOrderQueue} {enq : Option ExecuteEntry}
    (haccepted : (if q.enqReady then enq else none).isSome = true) : q.fullF = false := by
  by_contra hfull
  simp [InOrderQueue.enqReady, hfull] at haccepted

/-- R339, R340: the pointers and flags of a circular buffer after a tick, by what enters and what leaves. -/
theorem InOrderQueue.Sound.tick {d : Nat} {q : InOrderQueue} (h : q.Sound d) (lanes : List BroadcastLane)
    (enq : Option ExecuteEntry) (deqReady recover : Bool) : (q.tick d lanes enq deqReady recover).Sound d := by
  obtain ⟨hlength, hr, hw, hflags, hmeet⟩ := h
  have hr' := advancePtr_lt hr
  have hw' := advancePtr_lt hw
  unfold InOrderQueue.tick
  have henq := InOrderQueue.fullF_of_accepted (q := q) (enq := enq)
  generalize (if q.enqReady then enq else none) = accepted at henq ⊢
  have hdeq : ((q.deq lanes).isSome && deqReady) = true → q.emptyF = false := fun hfire =>
    InOrderQueue.emptyF_of_deq (Bool.and_eq_true_iff.1 hfire).1
  generalize ((q.deq lanes).isSome && deqReady) = leaves at hdeq ⊢
  dsimp only
  generalize henters : accepted.isSome = enters at henq ⊢
  cases enters with
  | false =>
    cases leaves with
    | false => exact ⟨by simpa using hlength, hr, hw, hflags, hmeet⟩
    | true => exact ⟨by simpa using hlength, hr', hw, by simp, by simp⟩
  | true =>
    cases leaves with
    | false => exact ⟨by simpa using hlength, hr, hw', by simp, by simp [eq_comm]⟩
    | true =>
      refine ⟨by simpa using hlength, hr', hw', hflags, ?_⟩
      exact (advancePtr_inj hr hw).trans hmeet

theorem tickInOrder_sound {d : Nat} (lanes : List BroadcastLane) (recover : Bool) {qs : List InOrderQueue}
    (h : ∀ q ∈ qs, q.Sound d) (enq : List (Option ExecuteEntry)) (ready : List Bool) :
    ∀ q ∈ tickInOrder d lanes recover qs enq ready, q.Sound d := by
  induction qs generalizing enq ready with
  | nil => simp [tickInOrder]
  | cons q rest ih =>
    rw [List.forall_mem_cons] at h
    exact List.forall_mem_cons.2 ⟨h.1.tick _ _ _ _, ih h.2 _ _⟩

@[simp] theorem OutOfOrderQueue.length_cells_tick (q : OutOfOrderQueue) (lanes : List BroadcastLane)
    (enq : Option ExecuteEntry) (deqReady recover : Bool) :
    (q.tick lanes enq deqReady recover).cells.length = q.cells.length := by
  simp [OutOfOrderQueue.tick]

theorem tickOutOfOrder_length_cells {n : Nat} (lanes : List BroadcastLane) (recover : Bool)
    {qs : List OutOfOrderQueue} (h : ∀ q ∈ qs, q.cells.length = n) (enq : List (Option ExecuteEntry))
    (ready : List Bool) : ∀ q ∈ tickOutOfOrder lanes recover qs enq ready, q.cells.length = n := by
  induction qs generalizing enq ready with
  | nil => simp [tickOutOfOrder]
  | cons q rest ih =>
    rw [List.forall_mem_cons] at h
    exact List.forall_mem_cons.2 ⟨by simpa using h.1, ih h.2 _ _⟩

/-! ## The ReadWrite stage -/

/-- R140: the classes of operations leave out `undefined` alone. -/
theorem isWrite_of_not_read {op : MemOp} (hdefined : op ≠ .undefined)
    (hread : ¬(op.isRead || op.isAmo) = true) : op.isWrite = true := by
  cases op <;> simp_all [MemOp.isRead, MemOp.isAmo, MemOp.isWrite]

/-- R244, R465: `undefined` is dispatched to its exception. -/
theorem ne_undefined_of_dispatchException {op : MemOp} {e : MemoryErrorCode}
    (h : dispatchException op e = none) : op ≠ .undefined := by
  rintro rfl
  simp [dispatchException] at h

theorem RwStage.Sound.done {idW : Nat} {r : RwStage} (h : r.Sound idW) : r.done.Sound idW := ⟨trivial, h.receipt⟩

/-- R266, R267: an entry may lose `valid` where the state does not ask for a valid one. -/
theorem RwStage.Sound.cancelIf {idW : Nat} {r : RwStage} (h : r.Sound idW)
    (hstate : r.state = .idle ∨ r.state = .readBottom ∨ r.state = .readTop) (recover : Bool) :
    (r.cancelIf recover).Sound idW := by
  refine ⟨?_, h.receipt⟩
  have hfits := h.fits
  obtain hs | hs := hstate
  · simp [RwStage.FitsState, RwStage.cancelIf, hs]
  · obtain hs | hs := hs <;> simpa [RwStage.FitsState, RwStage.cancelIf, hs] using hfits

theorem RwStage.Sound.dispatch {idW : Nat} {r : RwStage} (h : r.Sound idW) (hvalid : r.inReg.valid = true)
    (resv : LoadReservationEntry) : (r.dispatch resv).next.Sound idW := by
  unfold RwStage.dispatch
  split
  next => exact h.done
  next hexc =>
    have hdefined := ne_undefined_of_dispatchException hexc
    split
    next hread => exact ⟨Bool.or_eq_true_iff.1 hread, h.receipt⟩
    next hread =>
      have hwrite := isWrite_of_not_read hdefined hread
      have hwriting : RwStage.Sound idW { r with state := .writeBottom } := ⟨⟨hvalid, .inl hwrite⟩, h.receipt⟩
      split
      next =>
        split
        · exact hwriting
        · exact h.done
      next => exact hwriting

theorem RwStage.Sound.tickIdle {idW : Nat} {r : RwStage} (h : r.Sound idW) (hs : r.state = .idle)
    (resv : LoadReservationEntry) (inp : Option MemEntry3) (recover : Bool) :
    (r.tickIdle resv inp recover).next.Sound idW := by
  unfold RwStage.tickIdle
  split
  next hvalid =>
    split
    · exact h.cancelIf (.inl hs) _
    · exact h.dispatch hvalid _
  next =>
    cases inp with
    | none => exact h
    | some e => exact ⟨by simp [RwStage.silent, RwStage.cancelIf, RwStage.FitsState, hs], h.receipt⟩

theorem RwStage.Sound.readBottomDone {idW : Nat} {r : RwStage} (h : r.Sound idW) (hvalid : r.inReg.valid = true)
    (d : Word) : (r.readBottomDone d).next.Sound idW := by
  unfold RwStage.readBottomDone
  split
  next hld => exact ⟨hld, h.receipt⟩
  next =>
    split
    next => exact ⟨trivial, h.receipt⟩
    next =>
      split
      next hamo => exact ⟨⟨hvalid, .inr hamo⟩, h.receipt⟩
      next => exact ⟨trivial, h.receipt⟩

/-- A read state waits, is abandoned, raises, or goes on as `finish` says with a valid entry (R248, R249, R267). -/
theorem RwStage.Sound.tickRead {idW : Nat} {r : RwStage} (h : r.Sound idW)
    (hstate : r.state = .readBottom ∨ r.state = .readTop) (read : Option SmaAnswer) (recover : Bool)
    {finish : Word → RwTick} (hfinish : r.inReg.valid = true → ∀ d, (finish d).next.Sound idW) :
    (r.tickRead read recover finish).next.Sound idW := by
  cases read with
  | none => exact h.cancelIf (.inr hstate) _
  | some a =>
    simp only [RwStage.tickRead]
    split
    next => exact h.done
    next hgoes =>
      split
      next => exact h.done
      next => exact hfinish (by simp_all) _

theorem RwStage.Sound.writeBottomDone {idW : Nat} {r : RwStage} (h : r.Sound idW) (hvalid : r.inReg.valid = true)
    {id : SqReceipt} (hid : id < 2 ^ idW) : (r.writeBottomDone id).next.Sound idW := by
  unfold RwStage.writeBottomDone
  split
  next hsd => exact ⟨⟨hvalid, hsd⟩, hid⟩
  next => exact h.done

/-- A write state snaps to idle, waits, or goes on as `finish` says (R257, R268). -/
theorem RwStage.Sound.tickWrite {idW : Nat} {r : RwStage} (h : r.Sound idW) {fired : Option SqReceipt}
    (recover : Bool) {finish : SqReceipt → RwTick} (hfinish : ∀ id, fired = some id → (finish id).next.Sound idW) :
    (r.tickWrite fired recover finish).next.Sound idW := by
  unfold RwStage.tickWrite
  split
  next => exact h.done
  next =>
    cases fired with
    | none => exact h
    | some id => exact hfinish id rfl

theorem RwStage.Sound.tick {idW : Nat} {r : RwStage} (h : r.Sound idW) (resv : LoadReservationEntry)
    (inp : Option MemEntry3) (read : Option SmaAnswer) {fired : Option SqReceipt}
    (hfired : ∀ id, fired = some id → id < 2 ^ idW) (recover : Bool) :
    (r.tick resv inp read fired recover).next.Sound idW := by
  have hfits := h.fits
  unfold RwStage.tick
  unfold RwStage.FitsState at hfits
  split
  next hs => exact h.tickIdle hs _ _ _
  next hs => exact h.tickRead (.inl hs) _ _ fun hvalid => h.readBottomDone hvalid
  next hs => exact h.tickRead (.inr hs) _ _ fun _ _ => ⟨trivial, h.receipt⟩
  next hs =>
    rw [hs] at hfits
    exact h.tickWrite _ fun id hid => h.writeBottomDone hfits.1 (hfired id hid)
  next hs => exact h.tickWrite _ fun _ _ => h.done

theorem lt_of_allocFired {p : Params} {b : Block} {i : BlockInput} {id : SqReceipt}
    (h : allocFired p b i = some id) : id < 2 ^ p.sqIdW.val := by
  unfold allocFired at h
  split at h
  · obtain rfl := Option.some.inj h
    exact Nat.mod_lt _ (Nat.two_pow_pos _)
  · exact absurd h (by simp)

theorem RwStage.readReq_isSome_iff (r : RwStage) :
    r.readReq.isSome = true ↔ r.state = .readBottom ∨ r.state = .readTop := by
  unfold RwStage.readReq
  cases r.state <;> simp

/-- R267: a read that is not answered is held. -/
theorem RwStage.readReq_tick_of_unanswered {r : RwStage} (h : r.readReq.isSome = true) (resv : LoadReservationEntry)
    (inp : Option MemEntry3) (fired : Option SqReceipt) (recover : Bool) :
    (r.tick resv inp none fired recover).next.readReq.isSome = true := by
  rw [RwStage.readReq_isSome_iff] at h ⊢
  obtain hs | hs := h
  · exact .inl (by simp [RwStage.tick, RwStage.tickRead, RwStage.silent, RwStage.cancelIf, hs])
  · exact .inr (by simp [RwStage.tick, RwStage.tickRead, RwStage.silent, RwStage.cancelIf, hs])

/-! ## The arbiter -/

/-- R174, R176: a requester comes to hold the grant from `idle`, where it asks, or holds it on, unanswered. -/
theorem nextArb_eq_pending {s : ArbState} {in1 in2 : Option SmaReq} {ready : Bool} :
    (nextArb s in1 in2 ready = .pending1 →
      s = .idle ∧ in1.isSome = true ∨ s = .pending1 ∧ ready = false) ∧
    (nextArb s in1 in2 ready = .pending2 →
      s = .idle ∧ in2.isSome = true ∨ s = .pending2 ∧ ready = false) := by
  cases s with
  | idle => cases in1 <;> cases in2 <;> simp [nextArb]
  | pending1 | pending2 => cases ready <;> simp [nextArb]

theorem grantOf_ne_idle (p : ArbPort) : grantOf p ≠ .idle := by cases p <;> simp [grantOf]

/-- R176, R178: how the ReadWrite stage comes to hold the grant. -/
theorem arbNext_eq_grantOf {p : Params} {b : Block} {other : Option SmaReq} {ready : Bool}
    (h : arbNext p b other ready = grantOf p.rwArbPort) :
    b.arb = .idle ∧ b.rw.readReq.isSome = true ∨ b.arb = grantOf p.rwArbPort ∧ ready = false := by
  unfold arbNext arbInputs at h
  cases hp : p.rwArbPort with
  | port1 => exact nextArb_eq_pending.1 (by simpa [hp, grantOf] using h)
  | port2 => exact nextArb_eq_pending.2 (by simpa [hp, grantOf] using h)

/-- R176, R178: how the other requester comes to hold the grant. -/
theorem arbNext_eq_grantOf_other {p : Params} {b : Block} {other : Option SmaReq} {ready : Bool}
    (h : arbNext p b other ready = grantOf (otherPort p.rwArbPort)) :
    b.arb = .idle ∧ other.isSome = true ∨ b.arb = grantOf (otherPort p.rwArbPort) ∧ ready = false := by
  unfold arbNext arbInputs at h
  cases hp : p.rwArbPort with
  | port1 => exact nextArb_eq_pending.2 (by simpa [hp, grantOf, otherPort] using h)
  | port2 => exact nextArb_eq_pending.1 (by simpa [hp, grantOf, otherPort] using h)

/-- R175: a requester is answered only when it holds the grant and the memory is ready. -/
theorem arbAnswer_eq_none {granted : Bool} {sma : SmaResp} (h : granted = false ∨ sma.ready = false) :
    arbAnswer granted sma = none := by
  unfold arbAnswer
  obtain h | h := h <;> simp [h]

/-- R176, R267: while the grant is the ReadWrite stage's, the stage holds its read. -/
theorem Block.GrantHeld.tick {p : Params} {b : Block} (h : b.GrantHeld p) (i : BlockInput) :
    (b.tick p i).GrantHeld p := by
  intro hgrant
  have hpending := arbNext_eq_grantOf (p := p) (b := b) hgrant
  have hreads : b.rw.readReq.isSome = true := hpending.elim And.right fun hheld => h hheld.1
  have hunanswered : rwReadAnswer p b i = none := by
    have hnone : arbAnswer (decide (b.arb = grantOf p.rwArbPort)) i.sma = none := by
      refine arbAnswer_eq_none (hpending.imp (fun hidle => ?_) And.right)
      simpa [hidle.1] using (grantOf_ne_idle p.rwArbPort).symm
    simp [rwReadAnswer, bypassAnswer, hnone]
  show (rwTickOf p b i).next.readReq.isSome = true
  rw [rwTickOf, hunanswered]
  exact RwStage.readReq_tick_of_unanswered hreads _ _ _ _

/-! ## The retirement engine and the block -/

/-- R446: a flush state that advances forgets what it has seen; one that stays is not `retire`. -/
theorem flushNext_sound {ret : RetireRegs} (h : ret.state ≠ .retire) (flag empty : Bool) (after : RetState) :
    (flushNext ret flag empty after).Sound := by
  unfold flushNext
  split
  · exact fun _ => rfl
  · exact fun hretire => absurd hretire h

theorem RetireRegs.Sound.engineTick {ret : RetireRegs} (h : ret.Sound) (i : BlockInput) :
    (engineTick ret i).next.Sound := by
  unfold Machine.engineTick
  split
  next =>
    split
    next =>
      dsimp only
      split
      · exact fun _ => rfl
      · exact h
    next => exact h
  next hs => exact flushNext_sound (by simp [hs]) _ _ _
  next hs => exact flushNext_sound (by simp [hs]) _ _ _
  next hs => exact flushNext_sound (by simp [hs]) _ _ _

/-- Every tick of the block keeps the invariant of its registers, whatever the wires hold. -/
theorem Block.Sound.tick {p : Params} {b : Block} (h : b.Sound p) (i : BlockInput) : (b.tick p i).Sound p where
  memQueue := h.memQueue.tick _ _ _ _
  inOrder := tickInOrder_sound _ _ h.inOrder _ _
  outOfOrder := tickOutOfOrder_length_cells _ _ h.outOfOrder _ _
  rw := h.rw.tick _ _ _ (fun _ => lt_of_allocFired) _
  grant := h.grant.tick i
  ret := h.ret.engineTick i

/-! ## The store queue -/

/-- R434, R517, R90: the queue `q'` is `q` with retire flags set and with entries gone. -/
structure StoreQueue.ShrinksTo (q q' : StoreQueue) : Prop where
  nextId : q'.nextId = q.nextId
  ids : (q'.entries.map fun e => e.id).Sublist (q.entries.map fun e => e.id)

theorem StoreQueue.ShrinksTo.trans {q q' q'' : StoreQueue} (h : q.ShrinksTo q') (h' : q'.ShrinksTo q'') :
    q.ShrinksTo q'' := ⟨h'.nextId.trans h.nextId, h'.ids.trans h.ids⟩

theorem StoreQueue.shrinksTo_commit (q : StoreQueue) (c : Option SqRetire) : q.ShrinksTo (q.commit c) := by
  obtain ⟨hnext, hids, -⟩ := q.commit_spec c
  exact ⟨hnext, hids ▸ List.Sublist.refl _⟩

theorem StoreQueue.shrinksTo_discardIf (q : StoreQueue) (recover : Bool) : q.ShrinksTo (q.discardIf recover) := by
  unfold StoreQueue.discardIf
  split
  · exact ⟨rfl, List.filter_sublist.map _⟩
  · exact ⟨rfl, List.Sublist.refl _⟩

theorem Env.shrinksTo_drain (env : Env) (limit : Option Nat) : env.sq.ShrinksTo (env.drain limit).sq :=
  ⟨rfl, (drainEntries_suffix _ _ _ _).sublist.map _⟩

theorem Env.shrinksTo_retire (env : Env) (o : EngineOut) (dest : RobReceipt → Option RegNum) :
    env.sq.ShrinksTo (env.retire o dest).sq :=
  ((env.sq.shrinksTo_commit o.sq0).trans (StoreQueue.shrinksTo_commit _ o.sq1)).trans
    (StoreQueue.shrinksTo_discardIf _ _)

theorem StoreQueue.Sound.of_shrinksTo {idW : Nat} {q q' : StoreQueue} (h : q.Sound idW) (hs : q.ShrinksTo q') :
    q'.Sound idW where
  next := hs.nextId ▸ h.next
  ids e he := by
    obtain ⟨e₀, he₀, hid⟩ := List.mem_map.1 (hs.ids.subset (List.mem_map_of_mem he))
    exact hid ▸ h.ids e₀ he₀
  distinct := h.distinct.sublist hs.ids

theorem StoreQueue.idFree_iff (q : StoreQueue) :
    q.idFree = true ↔ q.nextId ∉ q.entries.map fun e => e.id := by
  simp [StoreQueue.idFree]

theorem StoreQueue.ShrinksTo.idFree {q q' : StoreQueue} (hs : q.ShrinksTo q') (h : q.idFree = true) :
    q'.idFree = true := by
  rw [StoreQueue.idFree_iff] at h ⊢
  exact fun hmem => h (hs.nextId ▸ hs.ids.subset hmem)

/-- R90: an allocation gives its entry a receipt no other entry has. -/
theorem StoreQueue.Sound.alloc {idW : Nat} {q : StoreQueue} (h : q.Sound idW) (hfree : q.idFree = true)
    (r : AllocReq) : (q.alloc idW r).Sound idW where
  next := Nat.mod_lt _ (Nat.two_pow_pos idW)
  ids e he := by
    obtain he | rfl : e ∈ q.entries ∨ e = _ := by simpa [StoreQueue.alloc] using he
    · exact h.ids e he
    · exact h.next
  distinct := by
    rw [StoreQueue.idFree_iff] at hfree
    simpa [StoreQueue.alloc, List.nodup_append] using ⟨h.distinct, by simpa using hfree⟩

/-! ## The ROB -/

/-- R41, R516: what the invariant asks of one slot of the ROB. -/
structure RobSlot.Sound (idW : Nat) (s : RobSlot) : Prop where
  narrow : s.entry.executeResult.Narrow idW
  prediction : s.kind ≠ .control → s.entry.spec = s.next

/-- R402: what the invariant asks of the ROB. -/
structure Rob.Sound (idW : Nat) (r : Rob) : Prop where
  slots : ∀ row ∈ r.rows, ∀ k : Slot, (row.at k).Sound idW
  rows : r.rows.length < 2 ^ 31

/-- The invariant of the environment is that of its three parts. -/
theorem Env.sound_iff (idW : Nat) (e : Env) :
    e.Sound idW ↔ e.mem.wf = true ∧ e.sq.Sound idW ∧ e.rob.Sound idW :=
  ⟨fun h => ⟨h.mem, h.sq, fun row hrow k => ⟨h.rob row hrow k, h.prediction row hrow k⟩, h.rows⟩,
    fun ⟨hmem, hsq, hrob⟩ => ⟨hmem, hsq, fun row hrow k => (hrob.slots row hrow k).narrow, hrob.rows,
      fun row hrow k => (hrob.slots row hrow k).prediction⟩⟩

theorem ExecuteResult.narrow_narrow (idW : Nat) (r : ExecuteResult) : (r.narrow idW).Narrow idW :=
  ⟨Nat.mod_lt _ (Nat.two_pow_pos idW), Nat.mod_lt _ (Nat.two_pow_pos idW)⟩

theorem RobSlot.Sound.store {idW : Nat} {s : RobSlot} (h : s.Sound idW) {res : ExecuteResult}
    (hres : res.Narrow idW) : (s.store res).Sound idW := by
  unfold RobSlot.store
  split
  · exact ⟨hres, h.prediction⟩
  · exact h

/-- R512, R516: a slot is sound as it is minted, whatever the issue stage offers. -/
theorem RobSlot.sound_minted (s : RobSlot) (idW : Nat) (rd : RobReceipt) : (s.minted idW rd).Sound idW :=
  ⟨ExecuteResult.narrow_narrow _ _, fun hkind => if_neg hkind⟩

/-- A row of a ROB in which one slot has changed is a row it had, or that slot's. -/
theorem Rob.mem_rows_modify {r : Rob} {rd : RobReceipt} {f : RobSlot → RobSlot} {row : RobRow}
    (h : row ∈ (r.modify rd f).rows) :
    row ∈ r.rows ∨ ∃ row₀ ∈ r.rows, row = row₀.modify (receiptSlot rd) f := by
  obtain ⟨n, hn⟩ := List.mem_iff_getElem?.1 h
  rw [Rob.modify, List.getElem?_modify] at hn
  split at hn
  · obtain ⟨row₀, hrow₀, rfl⟩ := Option.map_eq_some_iff.1 hn
    exact .inr ⟨row₀, List.mem_of_getElem? hrow₀, rfl⟩
  · exact .inl (List.mem_of_getElem? (by simpa using hn))

theorem Rob.Sound.modify {idW : Nat} {r : Rob} (h : r.Sound idW) (rd : RobReceipt) {f : RobSlot → RobSlot}
    (hf : ∀ s : RobSlot, s.Sound idW → (f s).Sound idW) : (r.modify rd f).Sound idW where
  slots row hrow k := by
    obtain hrow | ⟨row₀, hrow₀, rfl⟩ := Rob.mem_rows_modify hrow
    · exact h.slots row hrow k
    · rw [RobRow.at_modify]
      split
      · exact hf _ (h.slots row₀ hrow₀ _)
      · exact h.slots row₀ hrow₀ k
  rows := by simpa [Rob.modify] using h.rows

theorem Rob.Sound.report {idW : Nat} {r : Rob} (h : r.Sound idW) (rd : RobReceipt) (res : ExecuteResult) :
    (r.report idW rd res).Sound idW :=
  h.modify rd fun _ hs => hs.store (ExecuteResult.narrow_narrow _ _)

theorem Rob.Sound.reportOwn {idW : Nat} {r : Rob} (h : r.Sound idW) (own : Option RwOut) :
    (r.reportOwn idW own).Sound idW := by
  cases own with
  | none => exact h
  | some o => exact h.report _ _

theorem Rob.Sound.handOver {idW : Nat} {r : Rob} (h : r.Sound idW) (e : ExecuteEntry) :
    (r.handOver e).Sound idW := h.modify e.rd fun _ hs => ⟨hs.narrow, hs.prediction⟩

/-- R402, R512: a row is allocated only while its number is no other row's. -/
theorem Rob.Sound.mint {idW : Nat} {r : Rob} (h : r.Sound idW) (offered : Option RobRow) :
    (r.mint idW offered).Sound idW := by
  cases offered with
  | none => exact h
  | some w =>
    simp only [Rob.mint]
    split
    next hmintable =>
      refine ⟨fun row hrow k => ?_, ?_⟩
      · obtain hrow | rfl : row ∈ r.rows ∨ row = _ := by simpa using hrow
        · exact h.slots row hrow k
        · cases k <;> exact RobSlot.sound_minted _ _ _
      · simp only [Rob.mintable, Bool.and_eq_true, decide_eq_true_eq] at hmintable
        simpa using hmintable.2
    next => exact h

theorem Rob.Sound.free {idW : Nat} {r : Rob} (h : r.Sound idW) (ready recover : Bool) :
    (r.free ready recover).Sound idW := by
  unfold Rob.free
  split
  · exact ⟨by simp, by simp⟩
  · split
    · refine ⟨fun row hrow => h.slots row (List.mem_of_mem_tail hrow), ?_⟩
      have hrows := h.rows
      simp only [List.length_tail]
      omega
    · exact h

theorem Rob.Sound.tick {idW : Nat} {r : Rob} (h : r.Sound idW) (o : Outputs) (input : EnvInput) :
    (r.tick idW o input).Sound idW :=
  ((List.foldlRecOn _ _ (h.reportOwn o.rwOut) fun _ hr e _ => hr.handOver e).mint _).free _ _

/-! ## The environment -/

/-- Whatever leaves memory, the store queue and the ROB keeps the invariant. -/
theorem Env.Sound.congr {idW : Nat} {e e' : Env} (h : e.Sound idW) (hmem : e'.mem = e.mem) (hsq : e'.sq = e.sq)
    (hrob : e'.rob = e.rob) : e'.Sound idW := by
  rw [Env.sound_iff] at h ⊢
  rwa [hmem, hsq, hrob]

theorem Env.rob_announce (env : Env) (l : BroadcastLane) : (env.announce l).rob = env.rob := by
  obtain h | h := (env.announce_spec l).1 <;> rw [h]
  rfl

/-- R515: what units outside the block announce and report leaves the ROB sound. -/
theorem Rob.Sound.reportAll {idW : Nat} {env : Env} (h : env.rob.Sound idW) (lanes : List BroadcastLane)
    (results : List UnitReport) : (env.reportAll idW lanes results).rob.Sound idW := by
  refine List.foldlRecOn (motive := fun e : Env => Rob.Sound idW e.rob) _ _ ?_ fun e he u _ => ?_
  · exact List.foldlRecOn (motive := fun e : Env => Rob.Sound idW e.rob) _ _ h fun e he l _ =>
      (Env.rob_announce e l).symm ▸ he
  · cases hawaits : e.rob.awaiting u.rd with
    | none => rwa [(e.report_spec idW u).1 hawaits]
    | some slot =>
      rw [((e.report_spec idW u).2 slot hawaits).1]
      exact he.report _ _

theorem Env.Sound.drain {idW : Nat} {e : Env} (h : e.Sound idW) (limit : Option Nat) : (e.drain limit).Sound idW := by
  rw [Env.sound_iff] at h ⊢
  obtain ⟨hmem, hsq, hrob⟩ := h
  exact ⟨e.drain_wf limit hmem, hsq.of_shrinksTo (e.shrinksTo_drain limit), hrob⟩

theorem Env.Sound.retire {idW : Nat} {e : Env} (h : e.Sound idW) (o : EngineOut)
    (dest : RobReceipt → Option RegNum) : (e.retire o dest).Sound idW := by
  rw [Env.sound_iff] at h ⊢
  obtain ⟨hmem, hsq, hrob⟩ := h
  exact ⟨hmem, hsq.of_shrinksTo (e.shrinksTo_retire o dest), hrob⟩

/-- R109, R519: what a flush that ends has done is forget overwritten bytes and replaced lines. -/
theorem Env.flushed_frame (env : Env) (ends : Bool) (f : ExecuteResult) :
    (env.flushed ends f).x = env.x ∧ (env.flushed ends f).pc = env.pc ∧ (env.flushed ends f).mem = env.mem ∧
      (env.flushed ends f).sq = env.sq := by
  unfold Env.flushed Env.fetchSynced Env.translationSynced
  split
  · split <;> split <;> exact ⟨rfl, rfl, rfl, rfl⟩
  · exact ⟨rfl, rfl, rfl, rfl⟩

/-- R90: an allocation fires or the store queue stays. -/
theorem Env.allocIf_eq (env : Env) (idW : Nat) (req : Option AllocReq) (ready : Bool) :
    env.allocIf idW req ready = env ∨
      ready = true ∧ ∃ r, env.allocIf idW req ready = env.withSq (env.sq.alloc idW r) := by
  cases req with
  | none => exact .inl rfl
  | some r =>
    cases ready with
    | false => exact .inl rfl
    | true => exact .inr ⟨rfl, r, rfl⟩

/-- What the environment is at the end of a tick, before the store queue drains: `e` has the registers, the memory and
the ROB after the tick, and in the store queue what a retirement leaves, with the entry the tick allocates. -/
structure Env.TicksTo (s : State) (i : BlockInput) (o : Outputs) (e : Env) : Prop where
  x : e.x = applyUpdate (applyUpdate s.env.x o.engine.reg0 s.env.rob.dest) o.engine.reg1 s.env.rob.dest
  pc : e.pc = pcAfter s.env.pc o.engine i.e0.executeResult.real i.e1.executeResult.real
  mem : e.mem = s.env.mem
  rob : e.rob = (reportedEnv s).rob.tick s.cfg.sqIdW.val o s.input
  sq : e.sq = (s.env.retire o.engine s.env.rob.dest).sq ∨
    i.allocReady = true ∧ ∃ r, e.sq = (s.env.retire o.engine s.env.rob.dest).sq.alloc s.cfg.sqIdW.val r

/-- A tick of the environment ends with a drain of the store queue (R90). -/
theorem Env.tick_eq_drain (s : State) (i : BlockInput) (o : Outputs) :
    ∃ e, s.env.tick s i o = e.drain s.input.drain ∧ Env.TicksTo s i o e := by
  unfold Env.tick
  refine ⟨_, rfl, ?_⟩
  obtain ⟨hx, hpc, hmem, hsq⟩ := Env.flushed_frame ((s.env.retire o.engine s.env.rob.dest).withPc
    (pcAfter s.env.pc o.engine i.e0.executeResult.real i.e1.executeResult.real))
    (flushEnds s.blk o.engine) (flushResult s.blk.ret i)
  generalize Env.flushed _ _ _ = synced at hx hpc hmem hsq ⊢
  obtain halloc | ⟨hready, r, halloc⟩ := synced.allocIf_eq s.cfg.sqIdW.val o.alloc i.allocReady
  · rw [halloc]
    exact ⟨hx, hpc, hmem, rfl, .inl hsq⟩
  · rw [halloc]
    exact ⟨hx, hpc, hmem, rfl, .inr ⟨hready, r, congrArg (fun q => StoreQueue.alloc q _ r) hsq⟩⟩

/-! ## A tick -/

theorem Env.Sound.sysTick {s : State} (h : s.env.Sound s.cfg.sqIdW.val) :
    (sysTick s).env.Sound s.cfg.sqIdW.val := by
  obtain ⟨e, htick, he⟩ := Env.tick_eq_drain s (wires s) (s.blk.outputs s.cfg (wires s))
  show (s.env.tick s (wires s) (s.blk.outputs s.cfg (wires s))).Sound _
  rw [htick]
  refine Env.Sound.drain ((Env.sound_iff _ _).2 ?_) _
  obtain ⟨hmem, hsq, hrob⟩ := (Env.sound_iff _ _).1 h
  refine ⟨he.mem ▸ hmem, ?_, he.rob ▸ (hrob.reportAll _ _).tick _ _⟩
  have hshrinks := s.env.shrinksTo_retire (s.blk.outputs s.cfg (wires s)).engine s.env.rob.dest
  have hretired := hsq.of_shrinksTo hshrinks
  obtain hkept | ⟨hready, r, halloc⟩ := he.sq
  · exact hkept ▸ hretired
  · have hfree : s.env.sq.idFree = true := (Bool.and_eq_true_iff.1 hready).2
    exact halloc ▸ hretired.alloc (hshrinks.idFree hfree) r

/-- R178, R511: a request that is granted and not yet answered stands in the next step. -/
theorem State.OtherHeld.advance_sysTick {s : State} (h : s.OtherHeld) : (sysTick s).advance.OtherHeld := by
  intro hgrant
  have hpending := arbNext_eq_grantOf_other (p := s.cfg) (b := s.blk) hgrant
  have hasks : s.input.other.isSome = true := hpending.elim And.right fun hheld => h hheld.1
  have hunanswered : (sysTick s).out.other = none := by
    refine arbAnswer_eq_none (hpending.imp (fun hidle => ?_) And.right)
    simpa [hidle.1] using (grantOf_ne_idle (otherPort s.cfg.rwArbPort)).symm
  obtain ⟨r, hr⟩ := Option.isSome_iff_exists.1 hasks
  simp [EnvInput.holding, hunanswered, hr]

/-- R524, R525: the page tables and the failing addresses are no part of the invariant. -/
theorem Env.Sound.advance {idW : Nat} {s : State} (h : s.env.Sound idW) : s.advance.env.Sound idW := by
  obtain ⟨lines, old, hremap⟩ := s.env.remap_frame s.input.remap
  obtain ⟨addresses, hrefault⟩ := Env.refault_frame (s.env.remap s.input.remap) s.input.smaFaults
  rw [State.advance_env, hrefault, hremap]
  exact h.congr rfl rfl rfl

theorem State.Sound.advance_sysTick {s : State} (h : s.Sound) : (sysTick s).advance.Sound where
  blk := h.blk.tick _
  env := Env.Sound.advance h.env.sysTick
  other := h.other.advance_sysTick

/-! ## An instruction that runs alone -/

theorem drainEntries_none_entries (es : List StoreQueueEntry) (m : Memory) (st : List Host.Cell) :
    (drainEntries es none m st).entries = es.dropWhile fun e => e.retired := by
  induction es generalizing m st with
  | nil => rfl
  | cons e es ih => cases hretired : e.retired <;> simp [drainEntries, hretired, ih]

/-- R90: once the retired entries have drained, only what is left can have the next receipt. -/
theorem Env.idFree_room {env : Env}
    (h : ∀ e ∈ env.sq.entries.dropWhile fun e => e.retired, e.id ≠ env.sq.nextId) : env.room.sq.idFree = true := by
  unfold Env.room
  split
  next hfree => exact hfree
  next => simpa [StoreQueue.idFree, Env.drain, drainEntries_none_entries] using h

theorem Env.shrinksTo_room (env : Env) : env.sq.ShrinksTo env.room.sq := by
  obtain ⟨-, -, -, -, -, hnext, hsuffix⟩ := env.room_frame
  exact ⟨hnext, hsuffix.sublist.map _⟩

theorem Env.Sound.memWrite {idW : Nat} {env : Env} (h : env.Sound idW) (hfree : env.room.sq.idFree = true)
    (r : AllocReq) : (env.memWrite idW r).Sound idW := by
  rw [Env.sound_iff] at h ⊢
  obtain ⟨hmem, hsq, hrob⟩ := h
  obtain ⟨-, -, hroomRob, -⟩ := env.room_frame
  exact ⟨env.memWrite_wf idW r hmem, (hsq.of_shrinksTo env.shrinksTo_room).alloc hfree r, hroomRob.symm ▸ hrob⟩

/-- What an instruction leaves of the environment it executes in: it allocates at most twice. -/
inductive Env.Allocates (idW : Nat) (env : Env) : Env → Prop
  | nothing : Env.Allocates idW env env
  | one (r : AllocReq) : Env.Allocates idW env (env.memWrite idW r)
  | two (r r' : AllocReq) : Env.Allocates idW env ((env.memWrite idW r).memWrite idW r')

/-- R90: where every store has retired there is room for an allocation. -/
theorem Env.idFree_room_of_retired {env : Env} (hretired : ∀ e ∈ env.sq.entries, e.retired = true) :
    env.room.sq.idFree = true :=
  Env.idFree_room (by simp [List.dropWhile_eq_nil_iff.2 hretired])

theorem ne_succ_mod {n m : Nat} (hm : 1 < m) (hn : n < m) : n ≠ (n + 1) % m := by
  obtain hlt | hge := Nat.lt_or_ge (n + 1) m
  · rw [Nat.mod_eq_of_lt hlt]
    omega
  · rw [show n + 1 = m by omega, Nat.mod_self]
    omega

/-- R90: after one allocation where every store had retired there is room for another: only the new entry is left, and
there are at least two receipts. -/
theorem Env.idFree_room_memWrite {idW : Nat} (hidW : 0 < idW) {env : Env} (hnext : env.sq.nextId < 2 ^ idW)
    (hretired : ∀ e ∈ env.sq.entries, e.retired = true) (r : AllocReq) :
    (env.memWrite idW r).room.sq.idFree = true := by
  obtain ⟨hentries, hnext', -⟩ := env.memWrite_sq idW r
  obtain ⟨-, -, -, -, -, -, hsuffix⟩ := env.room_frame
  have hroomRetired : ∀ e ∈ env.room.sq.entries, e.retired = true := fun e he => hretired e (hsuffix.subset he)
  refine Env.idFree_room ?_
  rw [hentries, hnext', List.dropWhile_append_of_pos hroomRetired]
  simpa using ne_succ_mod (Nat.one_lt_two_pow (by omega)) hnext

theorem Env.Sound.of_allocates {idW : Nat} (hidW : 0 < idW) {env env' : Env} (h : env.Sound idW)
    (hretired : ∀ e ∈ env.sq.entries, e.retired = true) (ha : env.Allocates idW env') : env'.Sound idW := by
  have hfirst : ∀ r, (env.memWrite idW r).Sound idW := h.memWrite (Env.idFree_room_of_retired hretired)
  cases ha with
  | nothing => exact h
  | one r => exact hfirst r
  | two r r' => exact (hfirst r).memWrite (Env.idFree_room_memWrite hidW h.sq.next hretired r) r'

theorem performLoad_env (op : MemOp) (va : Addr) (s : State) : (performLoad op va s).env = s.env := by
  unfold performLoad
  split
  · rfl
  · split <;> rfl

theorem performLoadDouble_env (op : MemOp) (va : Addr) (s : State) : (performLoadDouble op va s).env = s.env := by
  unfold performLoadDouble
  split
  · rfl
  · split
    · rfl
    · split <;> rfl

theorem performLoadReserved_env (op : MemOp) (va : Addr) (s : State) :
    (performLoadReserved op va s).env = s.env := by
  unfold performLoadReserved
  split
  · rfl
  · split <;> rfl

theorem performStore_allocates (op : MemOp) (va : Addr) (data : Data) (s : State) :
    s.env.Allocates s.cfg.sqIdW.val (performStore op va data s).env := by
  unfold performStore
  split
  · exact .nothing
  · exact .one _

theorem performStoreDouble_allocates (op : MemOp) (va : Addr) (data : Data) (s : State) :
    s.env.Allocates s.cfg.sqIdW.val (performStoreDouble op va data s).env := by
  unfold performStoreDouble
  split
  · exact .nothing
  · exact .two _ _

theorem performStoreConditional_allocates (op : MemOp) (va : Addr) (data : Data) (s : State) :
    s.env.Allocates s.cfg.sqIdW.val (performStoreConditional op va data s).env := by
  unfold performStoreConditional
  split
  · exact .nothing
  · split
    · exact .one _
    · exact .nothing

theorem performAmo_allocates (op : MemOp) (va : Addr) (data : Data) (s : State) :
    s.env.Allocates s.cfg.sqIdW.val (performAmo op va data s).env := by
  unfold performAmo
  split
  · exact .nothing
  · split
    · exact .nothing
    · exact .one _

/-- Every meaning of an instruction executes, which allocates at most twice, and retires alone. -/
theorem exec_allocates (i : Instr) (s : State) :
    ∃ x dest spec rwOut, exec i s = .next (retireAlone s x dest spec rwOut) ∧
      s.env.Allocates s.cfg.sqIdW.val x.env := by
  cases i with
  | lb f | lh f | lw f | lbu f | lhu f =>
    exact ⟨_, _, _, _, rfl, performLoad_env _ _ s ▸ .nothing⟩
  | ld f => exact ⟨_, _, _, _, rfl, performLoadDouble_env _ _ s ▸ .nothing⟩
  | lrW f => exact ⟨_, _, _, _, rfl, performLoadReserved_env _ _ s ▸ .nothing⟩
  | sb f | sh f | sw f => exact ⟨_, _, _, _, rfl, performStore_allocates _ _ _ s⟩
  | sd f => exact ⟨_, _, _, _, rfl, performStoreDouble_allocates _ _ _ s⟩
  | scW f => exact ⟨_, _, _, _, rfl, performStoreConditional_allocates _ _ _ s⟩
  | amoswapW f | amoaddW f | amoxorW f | amoandW f | amoorW f | amominW f | amomaxW f | amominuW f | amomaxuW f =>
    exact ⟨_, _, _, _, rfl, performAmo_allocates _ _ _ s⟩
  | undefined _ | fenceI _ | sfenceVma _ | mret | sret => exact ⟨_, _, _, _, rfl, .nothing⟩
  | csrrw _ | csrrs _ | csrrc _ | csrrwi _ | csrrsi _ | csrrci _ => exact ⟨_, _, _, _, rfl, .nothing⟩

/-- A step lets an instruction retire alone in a machine in which nothing is in flight, or it is one tick. -/
theorem step_eq_next {s t : State} (h : step s = .next t) :
    (ready s = true ∧ ∃ x dest spec rwOut, t = (retireAlone s x dest spec rwOut).advance ∧
        s.env.Allocates s.cfg.sqIdW.val x.env) ∨
      t = (sysTick s).advance := by
  unfold step at h
  dsimp only at h
  split at h
  next hruns =>
    have hready : ready s = true := (Bool.and_eq_true_iff.1 hruns).1
    refine .inl ⟨hready, ?_⟩
    cases hword : decodeWord (s.env.fetchWord s.input.fetchAge) with
    | instr i =>
      obtain ⟨x, dest, spec, rwOut, hexec, hallocates⟩ := exec_allocates i s
      rw [hword, runDecoded, hexec] at h
      exact ⟨x, dest, spec, rwOut, (Host.Outcome.next.inj h).symm, hallocates⟩
    | otherUnit w =>
      rw [hword] at h
      exact ⟨_, _, _, _, (Host.Outcome.next.inj h).symm, .nothing⟩
  next => exact .inr (Host.Outcome.next.inj h).symm

/-- A flush that an instruction alone asks for drains the store queue at most. -/
theorem Env.Sound.flush {idW : Nat} {env : Env} (h : env.Sound idW) (o : EngineOut) (f : ExecuteResult) :
    (env.flush o f).Sound idW := by
  have hsynced : (if o.dCacheReq then (env.drain none).fetchSynced f else env).Sound idW := by
    split
    · unfold Env.fetchSynced
      split
      · exact (h.drain none).congr rfl rfl rfl
      · exact h.drain none
    · exact h
  unfold Env.flush Env.translationSynced
  split
  · exact hsynced.congr rfl rfl rfl
  · exact hsynced

theorem Env.Sound.retireSolo {idW : Nat} {env : Env} (h : env.Sound idW) (o : EngineOut) (r : ExecuteResult)
    (dest : Option RegNum) (limit : Option Nat) : (env.retireSolo o r dest limit).Sound idW := by
  have hretired : ((env.retire o fun _ => dest).withPc (pcAfter env.pc o r.real r.real)).Sound idW :=
    (h.retire o fun _ => dest).congr rfl rfl rfl
  obtain ⟨hmem, hsq, -⟩ := (Env.sound_iff _ _).1 (hretired.flush o r)
  obtain ⟨-, -, hrob⟩ := (Env.sound_iff _ _).1 h
  have hnextRow : Rob.Sound idW { env.rob with head := env.rob.head + 1 } := ⟨hrob.slots, hrob.rows⟩
  refine Env.Sound.drain ?_ limit
  exact (Env.sound_iff _ _).2 ⟨hmem, hsq, hnextRow⟩

theorem Block.arb_of_quiet {b : Block} (h : b.quiet = true) : b.arb = .idle := by
  simp only [Block.quiet, Bool.and_eq_true, decide_eq_true_eq, and_assoc] at h
  exact h.1

theorem Env.retired_of_quiet {env : Env} (h : env.quiet = true) : ∀ e ∈ env.sq.entries, e.retired = true := by
  simp only [Env.quiet, Bool.and_eq_true, List.all_eq_true, and_assoc] at h
  exact h.2.1

/-- R485: where nothing is in flight the arbiter is idle and every store has retired. -/
theorem idle_and_retired_of_ready {s : State} (h : ready s = true) :
    s.blk.arb = .idle ∧ ∀ e ∈ s.env.sq.entries, e.retired = true := by
  simp only [ready, Bool.and_eq_true] at h
  exact ⟨Block.arb_of_quiet h.1.2, Env.retired_of_quiet h.2⟩

theorem State.Sound.advance_retireAlone {s : State} (h : s.Sound) (hready : ready s = true) {x : Executed}
    (hx : s.env.Allocates s.cfg.sqIdW.val x.env) (dest : Option RegNum) (spec : Addr) (rwOut : Option RwOut) :
    (retireAlone s x dest spec rwOut).advance.Sound := by
  obtain ⟨hidle, hretired⟩ := idle_and_retired_of_ready hready
  have hexecuted : x.env.Sound s.cfg.sqIdW.val := h.env.of_allocates s.cfg.sqIdW.property hretired hx
  refine ⟨⟨h.blk.memQueue, h.blk.inOrder, h.blk.outOfOrder, h.blk.rw, h.blk.grant, h.blk.ret⟩,
    Env.Sound.advance (hexecuted.retireSolo _ _ _ _), fun hgrant => ?_⟩
  exact absurd (hidle.symm.trans hgrant).symm (grantOf_ne_idle _)

/-- Settles O57: a step is a tick or retires an instruction alone, and both keep each clause of the invariant. -/
theorem everyStepKeepsSoundness : Obligations.EveryStepKeepsSoundness := by
  unfold Obligations.EveryStepKeepsSoundness
  intro s t hsound hstep
  obtain ⟨hready, x, dest, spec, rwOut, rfl, hallocates⟩ | rfl := step_eq_next hstep
  · exact hsound.advance_retireAlone hready hallocates dest spec rwOut
  · exact hsound.advance_sysTick

/-! ## Reset -/

/-- R61, R340: an empty buffer of at least one slot is a circular buffer. -/
theorem InOrderQueue.sound_reset {d : Nat} (hd : 0 < d) : (InOrderQueue.reset d).Sound d where
  length := List.length_replicate
  rptr := hd
  wptr := hd
  flags := by simp [InOrderQueue.reset]
  meet := by simp [InOrderQueue.reset]

theorem Block.sound_reset (p : Params) : (Block.reset p).Sound p where
  memQueue := InOrderQueue.sound_reset p.iqDepth.property
  inOrder _ hq := List.eq_of_mem_replicate hq ▸ InOrderQueue.sound_reset p.iqDepth.property
  outOfOrder _ hq := List.eq_of_mem_replicate hq ▸ List.length_replicate
  rw := ⟨trivial, Nat.two_pow_pos _⟩
  grant := fun hgrant => absurd hgrant.symm (grantOf_ne_idle _)
  ret := fun _ => rfl

/-- R504: with an empty store queue and an empty ROB there is nothing to hold but memory's form. -/
theorem Env.sound_reset (idW : Nat) : Env.reset.Sound idW := by
  have hsq : Env.reset.sq.Sound idW := ⟨Nat.two_pow_pos idW, by simp [Env.reset], by simp [Env.reset]⟩
  have hrob : Env.reset.rob.Sound idW := ⟨by simp [Env.reset], by simp [Env.reset]⟩
  exact (Env.sound_iff _ _).2 ⟨State.reset_mem_wf, hsq, hrob⟩

/-- Settles O58: the block and the environment at reset, and an arbiter that has granted nothing. -/
theorem resetIsSound : Obligations.ResetIsSound :=
  ⟨Block.sound_reset _, Env.sound_reset _, fun hgrant => absurd hgrant.symm (grantOf_ne_idle _)⟩

/-- R61, R340: the registers of an in-order queue at reset. -/
theorem InOrderQueue.reset_registers (d : Nat) :
    (InOrderQueue.reset d).buf.length = d ∧ (∀ e ∈ (InOrderQueue.reset d).buf, e = .zero ∧ e.valid = false) ∧
      (InOrderQueue.reset d).rptr = 0 ∧ (InOrderQueue.reset d).wptr = 0 ∧
      (InOrderQueue.reset d).emptyF = true ∧ (InOrderQueue.reset d).fullF = false := by
  refine ⟨List.length_replicate, fun e he => ?_, rfl, rfl, rfl, rfl⟩
  obtain rfl := List.eq_of_mem_replicate he
  exact ⟨rfl, rfl⟩

/-- R61: the registers of an out-of-order queue at reset. -/
theorem OutOfOrderQueue.reset_registers (n : Nat) :
    (OutOfOrderQueue.reset n).cells.length = n ∧
      ∀ c ∈ (OutOfOrderQueue.reset n).cells, c.state = .empty ∧ c.data = .zero ∧ c.data.valid = false ∧
        c.shadow = .zero ∧ c.shadow.valid = false := by
  refine ⟨List.length_replicate, fun c hc => ?_⟩
  obtain rfl := List.eq_of_mem_replicate hc
  exact ⟨rfl, rfl, rfl, rfl, rfl⟩

/-- Settles O59: the memory queue and the further ones are alike, the other registers are the table's by definition. -/
theorem resetRegisters : Obligations.ResetRegisters := by
  unfold Obligations.ResetRegisters
  intro p
  refine ⟨rfl, rfl, rfl, rfl, rfl, rfl, rfl, rfl, rfl, rfl, rfl, rfl, rfl, rfl, rfl, rfl, rfl,
    List.length_replicate, List.length_replicate, fun q hq => ?_, fun q hq => ?_, rfl, rfl, rfl⟩
  · obtain rfl : q = .reset p.iqDepth.val := (List.mem_cons.1 hq).elim id List.eq_of_mem_replicate
    exact InOrderQueue.reset_registers _
  · obtain rfl : q = .reset p.ooqDepth.val := List.eq_of_mem_replicate hq
    exact OutOfOrderQueue.reset_registers _

/-! ## What a tick does without a retirement -/

/-- R90: a drain writes the oldest entries to memory, all of them retired, and leaves the others queued. -/
theorem drainEntries_take (es : List StoreQueueEntry) (limit : Option Nat) (m : Memory) (st : List Host.Cell) :
    ∃ n, (∀ e ∈ es.take n, e.retired = true) ∧
      (drainEntries es limit m st).mem = (es.take n).foldl Memory.writeEntry m := by
  induction es generalizing limit m st with
  | nil => exact ⟨0, by simp, rfl⟩
  | cons e es ih =>
    simp only [drainEntries]
    split
    next hdrains =>
      obtain ⟨n, hretired, hmem⟩ := ih (limit.map fun n => n - 1) (m.writeEntry e) (m.overwritten e ++ st)
      have hhead : e.retired = true := (Bool.and_eq_true_iff.1 hdrains).1
      exact ⟨n + 1, by simpa [hhead] using hretired, hmem⟩
    next => exact ⟨0, by simp, rfl⟩

/-- Entries of a queue that has grown by one that is not retired, all of them retired, are entries of the queue. -/
theorem take_append_of_retired {es : List StoreQueueEntry} {u : StoreQueueEntry} (hu : u.retired = false) {n : Nat}
    (h : ∀ e ∈ (es ++ [u]).take n, e.retired = true) : (es ++ [u]).take n = es.take n := by
  refine List.take_append_of_le_length ?_
  by_contra hlong
  have hmem : u ∈ (es ++ [u]).take n := by
    rw [List.take_of_length_le (by simp; omega)]
    simp
  simp [h u hmem] at hu

/-- R434, R517: with silent store commit ports and no recover the store queue stays. -/
theorem Env.sq_retire_of_silent (env : Env) {o : EngineOut} (dest : RobReceipt → Option RegNum)
    (hrecover : o.recover = none) (hsq0 : o.sq0 = none) (hsq1 : o.sq1 = none) :
    (env.retire o dest).sq = env.sq := by
  simp [Env.retire, Env.commit, Env.discardIf, Env.applyUpdates, StoreQueue.commit, StoreQueue.discardIf, hrecover,
    hsq0, hsq1]

/-- R30, R450: what a silent tick leaves in memory: an entry it allocates is not retired, so it is not written. -/
theorem Env.TicksTo.mem_drain_of_silent {s : State} {i : BlockInput} {o : Outputs} {e : Env} (he : Env.TicksTo s i o e)
    (hrecover : o.engine.recover = none) (hsq0 : o.engine.sq0 = none) (hsq1 : o.engine.sq1 = none)
    (limit : Option Nat) :
    ∃ n, (∀ q ∈ s.env.sq.entries.take n, q.retired = true) ∧
      (e.drain limit).mem = (s.env.sq.entries.take n).foldl Memory.writeEntry s.env.mem := by
  obtain ⟨n, hretired, hmem⟩ := drainEntries_take e.sq.entries limit e.mem e.stale
  have hwritten : (e.drain limit).mem = (e.sq.entries.take n).foldl Memory.writeEntry s.env.mem :=
    he.mem ▸ hmem
  have hsame := s.env.sq_retire_of_silent s.env.rob.dest hrecover hsq0 hsq1
  refine ⟨n, ?_⟩
  obtain hsq | ⟨-, r, hsq⟩ := he.sq
  · rw [hsq, hsame] at hretired hwritten
    exact ⟨hretired, hwritten⟩
  · rw [hsq, hsame, StoreQueue.alloc] at hretired hwritten
    have htake := take_append_of_retired rfl hretired
    exact ⟨htake ▸ hretired, htake ▸ hwritten⟩

/-- Settles O51: without a retirement the updates of the registers, of the next address and of the recovery copy have
nothing to apply, and memory changes by the drain alone. -/
theorem onlyRetirementChangesArchitecturalState : Obligations.OnlyRetirementChangesArchitecturalState := by
  unfold Obligations.OnlyRetirementChangesArchitecturalState
  intro s t o hreg0 hreg1 hlr hrecover hsq0 hsq1
  obtain ⟨e, htick, he⟩ := Env.tick_eq_drain s (wires s) t.out
  have henv : t.env = e.drain s.input.drain := htick
  obtain ⟨hpc, hx, -⟩ := e.drain_frame s.input.drain
  have hsame : pcAfter s.env.pc o (wires s).e0.executeResult.real (wires s).e1.executeResult.real = s.env.pc := by
    simp only [pcAfter, hrecover, hreg0, hreg1]
  rw [henv, hpc, hx]
  refine ⟨?_, ?_, ?_, he.mem_drain_of_silent hrecover hsq0 hsq1 _⟩
  · rw [he.x, hreg0, hreg1]
    rfl
  · exact he.pc.trans hsame
  · show nextRecovery s.blk.recoveryLoadReservation o.lrUpdate = _
    rw [hlr]
    rfl

/-! ## Entries as they are offered (R513, R516) -/

/-- R32, R516: an entry is given the addresses the ROB has for it, and nothing else of it changes. -/
theorem ExecuteEntry.addressed_eq (e : ExecuteEntry) (r : Rob) :
    ∃ pc spec next, e.addressed r = { e with pc := pc, spec := spec, next := next } ∧
      ∀ slot, r.slotAt e.rd = some slot → slot.entry.valid = true →
        pc = slot.entry.pc ∧ spec = slot.entry.spec ∧ next = slot.next := by
  unfold ExecuteEntry.addressed
  split
  next slot hslot =>
    obtain ⟨hat, -⟩ := Option.filter_eq_some_iff.1 hslot
    refine ⟨_, _, _, rfl, fun slot' hslot' _ => ?_⟩
    obtain rfl := Option.some.inj (hat.symm.trans hslot')
    exact ⟨rfl, rfl, rfl⟩
  next hnone =>
    refine ⟨e.pc, e.spec, e.next, rfl, fun slot hslot hvalid => ?_⟩
    simp [hslot, hvalid] at hnone

/-- R513, R514, R516: what an offer is: the entry with the addresses of the ROB and with its slots settled and woken. -/
theorem Env.offer_eq (env : Env) (r : Rob) (u : OperandUse) (e : ExecuteEntry) :
    ∃ pc spec next,
      env.offer r u e = { e with
        pc := pc, spec := spec, next := next
        rs1 := wakeSlot env.bus.heard (e.rs1.settle u.rs1)
        rs2 := wakeSlot env.bus.heard (e.rs2.settle u.rs2)
        rs3 := wakeSlot env.bus.heard (e.rs3.settle u.rs3) } ∧
      ∀ slot, r.slotAt e.rd = some slot → slot.entry.valid = true →
        pc = slot.entry.pc ∧ spec = slot.entry.spec ∧ next = slot.next := by
  obtain ⟨pc, spec, next, haddressed, hknown⟩ := e.addressed_eq r
  exact ⟨pc, spec, next, by rw [Env.offer, haddressed, ExecuteEntry.settle, wake], hknown⟩

theorem wakeSlot_of_not_pending (lanes : List BroadcastLane) {slot : OperandSlot} (h : slot.pending = false) :
    wakeSlot lanes slot = slot := by
  simp [wakeSlot, h]

/-- R513: an operand that is not used, or that is known, is not pending in an offer. -/
theorem pending_wakeSlot_settle (lanes : List BroadcastLane) {slot : OperandSlot} {used : Bool}
    (h : used = false ∨ slot.pending = false) : (wakeSlot lanes (slot.settle used)).pending = false := by
  have hpending : (slot.settle used).pending = false := by
    obtain h | h := h <;> simp [OperandSlot.settle, h]
  rw [wakeSlot_of_not_pending lanes hpending, hpending]

/-- R513: an operand that is used is offered as it was given, but for a broadcast already made. -/
theorem wakeSlot_settle_of_used (lanes : List BroadcastLane) (slot : OperandSlot) {used : Bool} (h : used = true) :
    wakeSlot lanes (slot.settle used) = wakeSlot lanes slot :=
  congrArg (wakeSlot lanes) ((slot.settle_spec used).2.2.2 h)

theorem fireable_of_not_pending {e : ExecuteEntry} (h1 : e.rs1.pending = false) (h2 : e.rs2.pending = false)
    (h3 : e.rs3.pending = false) : fireable e = true := by
  simp [fireable, h1, h2, h3]

/-- R140, R513: the operands a memory operation uses, by its class. -/
theorem memoryUse_by_class (op : MemOp) :
    (op.isRead = true → (memoryUse op).rs1 = true ∧ (memoryUse op).rs2 = false) ∧
      (op.isWrite = true ∨ op.isAmo = true → (memoryUse op).rs1 = true ∧ (memoryUse op).rs2 = true) ∧
      (op = .undefined → (memoryUse op).rs1 = false ∧ (memoryUse op).rs2 = false) := by
  cases op <;> decide

/-- R513: the operands an instruction of another unit uses, by its format. -/
theorem unitUse_by_format (e : ExecuteEntry) :
    (e.instructionType ≠ .R4 → (unitUse e).rs3 = false) ∧
      (e.instructionType = .I → (unitUse e).rs2 = false) ∧
      (e.instructionType = .U ∨ e.instructionType = .J ∨ e.instructionType = .UNK →
        (unitUse e).rs1 = false ∧ (unitUse e).rs2 = false) := by
  unfold unitUse
  cases e.instructionType <;> simp

/-- R513: what is offered to the further queues is each of the input's entries, settled. -/
theorem some_mem_map_offerUnit {s : State} {offers : List (Option ExecuteEntry)} {e' : ExecuteEntry}
    (h : some e' ∈ offers.map fun e => e.map (offerUnit s)) : ∃ e, some e ∈ offers ∧ offerUnit s e = e' := by
  obtain ⟨offer, hmem, hoffer⟩ := List.mem_map.1 h
  obtain ⟨e, rfl, he⟩ := Option.map_eq_some_iff.1 hoffer
  exact ⟨e, hmem, he⟩

theorem offered_to_further_queue {s : State} {e' : ExecuteEntry}
    (h : some e' ∈ (wires s).inOrderEnq ∨ some e' ∈ (wires s).outOfOrderEnq) :
    ∃ e, (some e ∈ s.input.inOrderEnq ∨ some e ∈ s.input.outOfOrderEnq) ∧ offerUnit s e = e' := by
  obtain hin | hout := h
  · obtain ⟨e, he, heq⟩ := some_mem_map_offerUnit hin
    exact ⟨e, .inl he, heq⟩
  · obtain ⟨e, he, heq⟩ := some_mem_map_offerUnit hout
    exact ⟨e, .inr he, heq⟩

/-- Settles O54: an offer is the input's entry with its slots settled by the use of its operation or of its format. -/
theorem entriesAreOfferedAsTheDutiesSay : Obligations.EntriesAreOfferedAsTheDutiesSay := by
  unfold Obligations.EntriesAreOfferedAsTheDutiesSay
  intro s i rob known
  refine ⟨?_, ?_⟩
  · intro e henq op
    obtain ⟨pc, spec, next, hoffer, hknown⟩ := s.env.offer_eq rob (memoryUse op) e
    obtain ⟨hread, hwrite, hundefined⟩ := memoryUse_by_class op
    have hrs3 := pending_wakeSlot_settle s.env.bus.heard (slot := e.rs3) (used := (memoryUse op).rs3) (.inl rfl)
    refine ⟨_, (congrArg (Option.map (offerMemory s)) henq).trans (congrArg some hoffer), rfl, rfl, hknown, rfl, hrs3,
      fun hop => ?_, fun hop => ?_, fun hop => ?_⟩
    · obtain ⟨h1, h2⟩ := hread hop
      have hrs2 := pending_wakeSlot_settle s.env.bus.heard (slot := e.rs2) (.inl h2)
      exact ⟨wakeSlot_settle_of_used _ _ h1, hrs2, fun hrs1 =>
        fireable_of_not_pending (pending_wakeSlot_settle _ (.inr hrs1)) hrs2 hrs3⟩
    · obtain ⟨h1, h2⟩ := hwrite hop
      exact ⟨wakeSlot_settle_of_used _ _ h1, wakeSlot_settle_of_used _ _ h2, fun hrs1 hrs2 =>
        fireable_of_not_pending (pending_wakeSlot_settle _ (.inr hrs1)) (pending_wakeSlot_settle _ (.inr hrs2)) hrs3⟩
    · obtain ⟨h1, h2⟩ := hundefined hop
      exact fireable_of_not_pending (pending_wakeSlot_settle _ (.inl h1)) (pending_wakeSlot_settle _ (.inl h2)) hrs3
  · intro e' hoffered
    obtain ⟨e, hinput, rfl⟩ := offered_to_further_queue hoffered
    obtain ⟨pc, spec, next, hoffer, hknown⟩ := s.env.offer_eq rob (unitUse e) e
    obtain ⟨hnotR4, hI, hnone⟩ := unitUse_by_format e
    rw [show offerUnit s e = _ from hoffer]
    refine ⟨⟨e, hinput, rfl, hknown, rfl⟩, fun htype => pending_wakeSlot_settle _ (.inl (hnotR4 htype)),
      fun htype => pending_wakeSlot_settle _ (.inl (hI htype)), fun htype => ?_⟩
    obtain ⟨h1, h2⟩ := hnone htype
    exact ⟨pending_wakeSlot_settle _ (.inl h1), pending_wakeSlot_settle _ (.inl h2)⟩

end Sys2Proof.Machine

/-! PROOFS. The statements about memory (`20_memory.md`): what a read sees (R82, R91, R103), that a drain of the store
queue does not show (R90), what a memory instruction whose address is refused does (R86), and what `fence.i` and
`sfence.vma` make visible (R108, R109). -/

namespace Sys2Proof.Machine

/-! ## What a load sees (R103) -/

theorem youngestByte_cons (e : StoreQueueEntry) (es : List StoreQueueEntry) (a : Addr) :
    youngestByte (e :: es) a = (youngestByte es a).or (e.byteAt a) := by
  rw [youngestByte]
  cases youngestByte es a <;> rfl

theorem Env.loadByte_eq_getD (env : Env) (a : Addr) :
    env.loadByte a = (youngestByte env.sq.entries a).getD (env.mem.read a.toNat) := by
  unfold Env.loadByte
  cases youngestByte env.sq.entries a <;> rfl

theorem Env.loadByte_congr {env env' : Env} {a : Addr} (hmem : env'.mem = env.mem)
    (hsq : youngestByte env'.sq.entries a = youngestByte env.sq.entries a) : env'.loadByte a = env.loadByte a := by
  rw [Env.loadByte_eq_getD, Env.loadByte_eq_getD, hmem, hsq]

/-- R82, R91: the overlay of what the store queue answers takes its byte where an entry covers the address. -/
theorem byteOfWord_overlay_bypass (q : StoreQueue) (pa : Addr) (w : Word) {k : Nat} (hk : k < 4) :
    byteOfWord (overlay (q.bypass pa) w) k =
      (youngestByte q.entries (pa + BitVec.ofNat 32 k)).getD (byteOfWord w k) := by
  obtain ⟨hdata, hstrobe⟩ := q.bypass_byte pa hk
  rw [byteOfWord_overlay _ _ hk, overlayByte, hdata, hstrobe]
  cases youngestByte q.entries (pa + BitVec.ofNat 32 k) <;> rfl

/-- Settles O7: an answer is memory's word under the bypass port's, and both are known byte by byte. -/
theorem readSeesTheYoungestStore : Obligations.ReadSeesTheYoungestStore := by
  unfold Obligations.ReadSeesTheYoungestStore
  intro env t pa pad d hread k hk
  obtain ⟨-, rfl⟩ := (memRead_eq_some_iff env t pa pad d).1 hread
  have hk4 : k < 4 := Nat.lt_of_lt_of_le hk (BeatType.bytes_le t)
  have hmem : byteOfWord (smaData env.mem pa t pad) k = env.mem.read (pa + BitVec.ofNat 32 k).toNat := by
    rw [byteOfWord_smaData _ _ _ _ hk4, smaByte, if_pos hk]
  rw [byteOfWord_overlay_bypass _ _ _ hk4, hmem, Env.loadByte_eq_getD]

/-! ## Draining the store queue (R90) -/

/-- The oldest entry shows in memory, once it is written, exactly where no younger entry covers the address, as it did
in the queue. -/
theorem youngestByte_drainEntries (es : List StoreQueueEntry) (limit : Option Nat) (m : Memory) (st : List Host.Cell)
    (a : Addr) :
    (youngestByte (drainEntries es limit m st).entries a).getD ((drainEntries es limit m st).mem.read a.toNat) =
      (youngestByte es a).getD (m.read a.toNat) := by
  induction es generalizing limit m st with
  | nil => rfl
  | cons e es ih =>
    rw [drainEntries]
    split
    next =>
      rw [ih, Memory.read_writeEntry, youngestByte_cons]
      cases youngestByte es a <;> rfl
    next => rfl

theorem Env.loadByte_drain (env : Env) (limit : Option Nat) (a : Addr) :
    (env.drain limit).loadByte a = env.loadByte a := by
  rw [Env.loadByte_eq_getD, Env.loadByte_eq_getD]
  exact youngestByte_drainEntries env.sq.entries limit env.mem env.stale a

/-- Settles O8, by induction on the queue: `youngestByte_drainEntries`. -/
theorem drainKeepsWhatLoadsSee : Obligations.DrainKeepsWhatLoadsSee := by
  unfold Obligations.DrainKeepsWhatLoadsSee
  exact Env.loadByte_drain

/-! ## What an instruction that stores nothing leaves when it retires alone -/

theorem Env.loadByte_flush (env : Env) (o : EngineOut) (f : ExecuteResult) (a : Addr) :
    (env.flush o f).loadByte a = env.loadByte a := by
  have htranslation : ∀ (e : Env) (flushed : Bool), (e.translationSynced flushed).loadByte a = e.loadByte a := by
    intro e flushed
    unfold Env.translationSynced
    split <;> rfl
  have hfetch : ∀ e : Env, (e.fetchSynced f).loadByte a = e.loadByte a := by
    intro e
    unfold Env.fetchSynced
    split <;> rfl
  rw [Env.flush, htranslation]
  split
  next => rw [hfetch, Env.loadByte_drain]
  next => rfl

/-- A commit of stores sets retire flags and clears none (R434). -/
theorem StoreQueue.retired_commit {q : StoreQueue} (h : ∀ e ∈ q.entries, e.retired = true) (c : Option SqRetire) :
    ∀ e ∈ (q.commit c).entries, e.retired = true := by
  cases c with
  | none => exact h
  | some r =>
    intro e he
    obtain ⟨old, hold, rfl⟩ := List.mem_map.1 he
    simp [h old hold]

/-- R434, R517: where every store has retired, a `recover` discards nothing. -/
theorem Env.sq_retire_of_retired {env : Env} (h : ∀ e ∈ env.sq.entries, e.retired = true) (o : EngineOut)
    (dest : RobReceipt → Option RegNum) : (env.retire o dest).sq = (env.sq.commit o.sq0).commit o.sq1 :=
  StoreQueue.discardIf_of_retired (StoreQueue.retired_commit (StoreQueue.retired_commit h o.sq0) o.sq1) _

theorem Env.loadByte_retire_of_retired {env : Env} (h : ∀ e ∈ env.sq.entries, e.retired = true) (o : EngineOut)
    (dest : RobReceipt → Option RegNum) (a : Addr) : (env.retire o dest).loadByte a = env.loadByte a := by
  refine Env.loadByte_congr rfl ?_
  rw [Env.sq_retire_of_retired h, (StoreQueue.commit_spec _ _).2.2, (StoreQueue.commit_spec _ _).2.2]

theorem Env.loadByte_retireSolo_of_retired {env : Env} (h : ∀ e ∈ env.sq.entries, e.retired = true) (o : EngineOut)
    (r : ExecuteResult) (dest : Option RegNum) (limit : Option Nat) (a : Addr) :
    (env.retireSolo o r dest limit).loadByte a = env.loadByte a := by
  calc (env.retireSolo o r dest limit).loadByte a
    _ = (((env.retire o fun _ => dest).withPc (pcAfter env.pc o r.real r.real)).flush o r).loadByte a :=
      Env.loadByte_drain _ limit a
    _ = (env.retire o fun _ => dest).loadByte a := Env.loadByte_flush _ _ _ a
    _ = env.loadByte a := Env.loadByte_retire_of_retired h o _ a

section
variable {s : State} {x : Executed} {dest : Option RegNum} {spec : Addr} {rwOut : Option RwOut} {o : EngineOut}

theorem retireAlone_env (henv : x.env = s.env) (ho : soloOut (soloEntry s spec x.result) s.input.handlerPC = o) :
    (retireAlone s x dest spec rwOut).env = s.env.retireSolo o x.result dest s.input.drain := by
  rw [← henv, ← ho]
  rfl

theorem retireAlone_keepsMemory (henv : x.env = s.env) (h : ∀ e ∈ s.env.sq.entries, e.retired = true) :
    KeepsMemory s (retireAlone s x dest spec rwOut) := by
  intro a
  rw [retireAlone_env henv rfl]
  exact Env.loadByte_retireSolo_of_retired h _ _ _ _ a

theorem retireAlone_keepsFrame (henv : x.env = s.env) :
    Frame s (retireAlone s x dest spec rwOut) x.result.result := by
  obtain ⟨-, -, hrob, hdtlb, herrors, hsinks, hbus, hsuperseded⟩ := s.env.retireSolo_frame
    (soloOut (soloEntry s spec x.result) s.input.handlerPC) x.result dest s.input.drain
  rw [← retireAlone_env henv rfl] at hrob hdtlb herrors hsinks hbus hsuperseded
  exact
    { cfg := rfl, input := rfl, later := rfl, dtlb := hdtlb, smaErrors := herrors, sinks := hsinks, rob := hrob
      bus := hbus, superseded := hsuperseded }

/-- R32, R440: a `recover` says where the next instruction stands. -/
theorem retireAlone_pc_of_recover {target : Addr} (henv : x.env = s.env)
    (ho : soloOut (soloEntry s spec x.result) s.input.handlerPC = o) (hrecover : o.recover = some target) :
    (retireAlone s x dest spec rwOut).env.pc = target := by
  rw [retireAlone_env henv ho, (Env.retireSolo_frame _ _ _ _ _).1, pcAfter, hrecover]

/-- R430: with silent register ports no register changes. -/
theorem retireAlone_x_of_silent (henv : x.env = s.env)
    (ho : soloOut (soloEntry s spec x.result) s.input.handlerPC = o) (hreg0 : o.reg0 = none) (hreg1 : o.reg1 = none) :
    (retireAlone s x dest spec rwOut).env.x = s.env.x := by
  rw [retireAlone_env henv ho, (Env.retireSolo_frame _ _ _ _ _).2.1, hreg0, hreg1]
  rfl

/-- R388: on a `recover` both copies of the reservation are the recovery copy, which no update has changed. -/
theorem retireAlone_blk_of_recover {target : Addr} (ho : soloOut (soloEntry s spec x.result) s.input.handlerPC = o)
    (hrecover : o.recover = some target) (hlr : o.lrUpdate = none) :
    (retireAlone s x dest spec rwOut).blk =
      s.blk.withReservations s.blk.recoveryLoadReservation s.blk.recoveryLoadReservation := by
  simp [retireAlone, ho, hlr, nextRecovery, nextSpeculative, hrecover]

/-- R441, R517: an instruction that stored nothing and retires with a `recover` and without an exception. -/
theorem retireAlone_redirected {target : Addr} (henv : x.env = s.env)
    (ho : soloOut (soloEntry s spec x.result) s.input.handlerPC = o) (hrecover : o.recover = some target)
    (hready : o.retiredReady = true) (hexc : o.exc = none) (hlr : o.lrUpdate = none) :
    Redirected s (retireAlone s x dest spec rwOut) target x.result.result where
  frame := retireAlone_keepsFrame henv
  pc := retireAlone_pc_of_recover henv ho hrecover
  recover := (congrArg EngineOut.recover ho).trans hrecover
  ready := (congrArg EngineOut.retiredReady ho).trans hready
  exc := (congrArg EngineOut.exc ho).trans hexc
  blk := retireAlone_blk_of_recover ho hrecover hlr
  memory := retireAlone_keepsMemory henv

end

/-! ## Traps -/

theorem disposition_of_exception {e : RobRetireEntry} (h : e.executeResult.exception = true) :
    disposition e = .exception := by
  simp [disposition, h]

/-- R262, R420: the outputs with which an instruction that raised `code` retires alone. -/
theorem soloOut_of_raiseResult (s : State) (spec next handlerPC : Addr) (code : ExcCode) :
    soloOut (soloEntry s spec (raiseResult next code)) handlerPC =
      { EngineOut.idle with
        retiredReady := true
        exc := some { pc := s.env.pc, code := code }
        recover := some handlerPC } :=
  (soloOut_of_disposition _ handlerPC rfl).1 (disposition_of_exception rfl)

/-- R420, R467, R468: an instruction that stored nothing and raises `code` traps, whatever it asked of the
reservation. -/
theorem retireAlone_trapped {s : State} {x : Executed} {next : Addr} {code : ExcCode} (henv : x.env = s.env)
    (hresult : x.result = raiseResult next code) (dest : Option RegNum) (spec : Addr) (rwOut : Option RwOut) :
    Trapped s (retireAlone s x dest spec rwOut) code := by
  have ho := soloOut_of_raiseResult s spec next s.input.handlerPC code
  rw [← hresult] at ho
  have hframe : Frame s (retireAlone s x dest spec rwOut) x.result.result := retireAlone_keepsFrame henv
  rw [hresult] at hframe
  exact
    { frame := hframe
      x := retireAlone_x_of_silent henv ho rfl rfl
      pc := retireAlone_pc_of_recover henv ho rfl
      engine := ho
      blk := retireAlone_blk_of_recover ho rfl rfl
      memory := retireAlone_keepsMemory henv }

theorem completeMemory_raised_trapped (s : State) (dest : Option RegNum) (code : ExcCode) :
    Trapped s (completeMemory s dest (raised s code)) code :=
  retireAlone_trapped rfl rfl dest _ _

/-! ## Memory instructions whose address is refused (R86) -/

theorem codeOf_eq_mapError (op : MemOp) (e : MemoryErrorCode) : codeOf op.isRead e = mapError op e := by
  cases e <;> rfl

theorem mergeError_alignmentError (op : MemOp) (va : Addr) (e : MemoryErrorCode) :
    mergeError (alignmentError op va) e = if misaligned op va = true then .misaligned else e := by
  unfold mergeError alignmentError
  split <;> rfl

section
variable {s : State} {op : MemOp} {va : Addr} {code : ExcCode}
  (h : access s.env op va s.input.tlbAge = .raises code)
include h

theorem performLoad_of_raises : performLoad op va s = raised s code := by
  rw [performLoad, h]

theorem performLoadDouble_of_raises : performLoadDouble op va s = raised s code := by
  rw [performLoadDouble, h]

theorem performStore_of_raises (data : Data) : performStore op va data s = raised s code := by
  rw [performStore, h]

theorem performStoreDouble_of_raises (data : Data) : performStoreDouble op va data s = raised s code := by
  rw [performStoreDouble, h]

theorem performLoadReserved_of_raises : performLoadReserved op va s = raised s code := by
  rw [performLoadReserved, h]

theorem performStoreConditional_of_raises (data : Data) :
    performStoreConditional op va data s = raised s code := by
  rw [performStoreConditional, h]

theorem performAmo_of_raises (data : Data) : performAmo op va data s = raised s code := by
  rw [performAmo, h]

end

/-- R244: a memory instruction whose address is refused raises the code at dispatch and does nothing else. -/
theorem exec_of_raises {s : State} {i : Instr} {op : MemOp} {code : ExcCode} (hop : i.memOp = some op)
    (hdefined : op ≠ .undefined) (h : access s.env op (virtualAddress s i) s.input.tlbAge = .raises code) :
    ∃ dest, exec i s = .next (completeMemory s dest (raised s code)) := by
  have completes : ∀ {x : Executed} (dest : Option RegNum), x = raised s code →
      ∃ d, Host.Outcome.next (completeMemory s dest x) =
        (.next (completeMemory s d (raised s code)) : Host.Outcome State Fault Refusal) :=
    fun dest hx => ⟨dest, by rw [hx]⟩
  cases i with
  | lb f | lh f | lw f | lbu f | lhu f =>
    cases hop
    exact completes _ (performLoad_of_raises h)
  | ld f =>
    cases hop
    exact completes _ (performLoadDouble_of_raises h)
  | sb f | sh f | sw f =>
    cases hop
    exact completes _ (performStore_of_raises h _)
  | sd f =>
    cases hop
    exact completes _ (performStoreDouble_of_raises h _)
  | lrW f =>
    cases hop
    exact completes _ (performLoadReserved_of_raises h)
  | scW f =>
    cases hop
    exact completes _ (performStoreConditional_of_raises h _)
  | amoswapW f | amoaddW f | amoxorW f | amoandW f | amoorW f | amominW f | amomaxW f | amominuW f | amomaxuW f =>
    cases hop
    exact completes _ (performAmo_of_raises h _)
  | undefined _ => exact absurd (Option.some.inj hop).symm hdefined
  | fenceI _ | sfenceVma _ | mret | sret => cases hop
  | csrrw _ | csrrs _ | csrrc _ | csrrwi _ | csrrsi _ | csrrci _ => cases hop

/-- Settles O39: the code is the one that `access` raises, every memory instruction raises it, and a raise traps. -/
theorem memoryFaultsTrap : Obligations.MemoryFaultsTrap := by
  unfold Obligations.MemoryFaultsTrap
  intro s i op code hop hdefined hcode
  rw [codeOf_eq_mapError, ← mergeError_alignmentError] at hcode
  obtain ⟨dest, hexec⟩ := exec_of_raises hop hdefined ((access_raises_iff _ _ _ _ _).2 hcode)
  exact ⟨_, hexec, completeMemory_raised_trapped s dest code⟩

/-! ## Fences (R108, R109) -/

theorem unitResult_of_no_exception {s : State} (h : s.input.unit.exception = none) (real : Addr)
    (flags : ExecuteResult → ExecuteResult) : unitResult s real flags = flags (commonResult real) := by
  rw [unitResult, h]

/-- R426, R449: the outputs with which a result that asks for flushes and for nothing else retires alone. -/
theorem soloOut_of_flushes (s : State) (handlerPC : Addr) {real : Addr} {r : ExecuteResult} {dCache iCache tlb : Bool}
    (hr : r = { commonResult real with flushDCache := dCache, flushICache := iCache, flushTLB := tlb })
    (hflush : (dCache || iCache || tlb) = true) :
    soloOut (soloEntry s real r) handlerPC =
      { EngineOut.idle with
        retiredReady := true, recover := some real, dCacheReq := dCache, iCacheReq := iCache, tlbReq := tlb } := by
  have hd : disposition (soloEntry s real r) = .flush := by
    simp [disposition, soloEntry, hr, commonResult, ExecuteResult.zero, hflush]
  obtain ⟨-, -, -, -, hout, -⟩ := soloOut_of_disposition (soloEntry s real r) handlerPC rfl
  rw [hout hd, hr]
  rfl

/-- R108: where no store is queued and none of the overwritten bytes is left, a fetch sees what a load sees. -/
theorem Env.fetchByte_of_synced {env : Env} (hsq : env.sq.entries = []) (hstale : env.stale = []) (a : Addr)
    (age : Nat) : env.fetchByte a age = env.loadByte a := by
  rw [Env.loadByte_eq_getD, hsq, Env.fetchByte, Env.fetchBytes, hstale]
  cases age <;> rfl

/-- R90: an empty store queue has nothing to drain. -/
theorem Env.drain_of_empty {env : Env} (h : env.sq.entries = []) (limit : Option Nat) :
    (env.drain limit).sq.entries = [] ∧ (env.drain limit).stale = env.stale := by
  simp [Env.drain, h, drainEntries]

/-- R519: a flush of both caches writes every retired store to memory, and none of the overwritten bytes is left. -/
theorem Env.flush_synced {env : Env} (h : ∀ e ∈ env.sq.entries, e.retired = true) {o : EngineOut} {f : ExecuteResult}
    (ho : o.dCacheReq = true) (hd : f.flushDCache = true) (hi : f.flushICache = true) :
    (env.flush o f).sq.entries = [] ∧ (env.flush o f).stale = [] := by
  have hempty : (env.drain none).sq.entries = [] := drainEntries_all h env.mem env.stale
  simp only [Env.flush, ho, Env.fetchSynced, hd, hi, Env.translationSynced]
  split <;> exact ⟨hempty, rfl⟩

theorem Env.retireSolo_synced {env : Env} (h : ∀ e ∈ env.sq.entries, e.retired = true) {o : EngineOut}
    {r : ExecuteResult} (ho : o.dCacheReq = true) (hd : r.flushDCache = true) (hi : r.flushICache = true)
    (dest : Option RegNum) (limit : Option Nat) :
    (env.retireSolo o r dest limit).sq.entries = [] ∧ (env.retireSolo o r dest limit).stale = [] := by
  have hretired : ∀ e ∈ (env.retire o fun _ => dest).sq.entries, e.retired = true := by
    rw [Env.sq_retire_of_retired h]
    exact StoreQueue.retired_commit (StoreQueue.retired_commit h o.sq0) o.sq1
  obtain ⟨hsq, hstale⟩ := Env.flush_synced
    (env := (env.retire o fun _ => dest).withPc (pcAfter env.pc o r.real r.real)) hretired ho hd hi
  obtain ⟨hsq', hstale'⟩ := Env.drain_of_empty (env := (((Env.flush _ o r).withRob _).withBus _)) hsq limit
  exact ⟨hsq', hstale'.trans hstale⟩

/-- R426, R449: an instruction whose unit reports flushes and no exception redirects to its fall-through. -/
theorem completeSerial_flushes {s : State} (hunit : s.input.unit.exception = none) (dest : Option RegNum)
    {flags : ExecuteResult → ExecuteResult} {dCache iCache tlb : Bool}
    (hflags : flags (commonResult (fallThrough s)) =
      { commonResult (fallThrough s) with flushDCache := dCache, flushICache := iCache, flushTLB := tlb })
    (hflush : (dCache || iCache || tlb) = true) :
    Redirected s (completeSerial s dest flags) (s.env.pc + 4) 0 ∧
      (completeSerial s dest flags).env.x = s.env.x ∧
      (completeSerial s dest flags).out.engine = { EngineOut.idle with
        retiredReady := true, recover := some (s.env.pc + 4), dCacheReq := dCache, iCacheReq := iCache
        tlbReq := tlb } := by
  have hr := (unitResult_of_no_exception hunit (fallThrough s) flags).trans hflags
  have ho := soloOut_of_flushes s s.input.handlerPC hr hflush
  have hzero : (unitResult s (fallThrough s) flags).result = 0 := congrArg ExecuteResult.result hr
  have hredirected : Redirected s (completeSerial s dest flags) (s.env.pc + 4)
      (unitResult s (fallThrough s) flags).result := retireAlone_redirected rfl ho rfl rfl rfl rfl
  rw [hzero] at hredirected
  exact ⟨hredirected, retireAlone_x_of_silent rfl ho rfl rfl, ho⟩

/-- Settles O42: the flush drains the retired stores and forgets the overwritten bytes, so that fetches and loads see
the same memory, which no load sees changed. -/
theorem fenceICompletes : Obligations.FenceICompletes := by
  unfold Obligations.FenceICompletes
  intro s f hunit
  have hr := unitResult_of_no_exception hunit (fallThrough s) fenceIFlags
  obtain ⟨hredirected, hx, hout⟩ := completeSerial_flushes hunit none (flags := fenceIFlags) rfl rfl
  refine ⟨_, rfl, hredirected, hx, hout, fun hretired a age => ?_⟩
  obtain ⟨hempty, hforgotten⟩ := s.env.retireSolo_synced hretired (congrArg EngineOut.dCacheReq hout)
    (congrArg ExecuteResult.flushDCache hr) (congrArg ExecuteResult.flushICache hr) none s.input.drain
  exact (Env.fetchByte_of_synced hempty hforgotten a age).trans (hredirected.memory hretired a)

/-- Settles O43: the flush of the TLB forgets every replaced line. -/
theorem sfenceVmaCompletes : Obligations.SfenceVmaCompletes := by
  unfold Obligations.SfenceVmaCompletes
  intro s f hunit
  obtain ⟨hredirected, hx, hout⟩ := completeSerial_flushes hunit none (flags := sfenceVmaFlags) rfl rfl
  refine ⟨_, rfl, hredirected, hx, hout, fun r age => ?_⟩
  have hforgotten : (completeSerial s none sfenceVmaFlags).env.superseded = [] := by
    rw [hredirected.frame.superseded, hout, if_pos rfl]
  have hsameTables : (completeSerial s none sfenceVmaFlags).env.mapping r = s.env.mapping r := by
    unfold Env.mapping Env.mappedLine
    rw [hredirected.frame.dtlb]
  exact (Env.translate_of_flushed hforgotten r age).trans hsameTables

end Sys2Proof.Machine

/-! PROOFS. The statements about the encoding (`30_encoding.md`): decoding and encoding are inverse to each other (R136,
R139, R142, R149), the Execute Entry of a memory instruction selects its operation and address (R138, R203, R211), and
the classification sets of the operations (R140). -/

namespace Sys2Proof.Machine

open Sys2Proof.Laws

/-! ## Fields and the operands they carry (R136, R137) -/

/-- A part of a field of a word, as a part of the word. -/
theorem extract_extract {n : Nat} (x : BitVec n) {j l b : Nat} (h : j + l ≤ b) (a : Nat) :
    (x.extractLsb' a b).extractLsb' j l = x.extractLsb' (a + j) l := by
  ext i hi
  simp [show j + i < b by omega, Nat.add_assoc]

/-- A word is made up of its six fields. -/
theorem toWord_ofWord (w : BitVec 32) : (Fields.ofWord w).toWord = w := by
  have join (s k l : Nat) : w.extractLsb' (s + l) k ++ w.extractLsb' s l = w.extractLsb' s (k + l) :=
    BitVec.extractLsb'_append_extractLsb'_eq_extractLsb' rfl
  simp only [Fields.toWord, Fields.ofWord]
  rw [join 20 7 5, join 15 12 5, join 12 17 3, join 7 20 5, join 0 25 7]
  exact BitVec.extractLsb'_eq_self

/-- An instruction whose fields are a word's is encoded to that word. -/
theorem encode_of_fields {i : Instr} {w : BitVec 32} (h : encodeFields i = Fields.ofWord w) : encode i = w := by
  rw [encode, h, toWord_ofWord]

/-- The decoder sees the fields that the encoder puts together. -/
theorem decodeWord_encode (i : Instr) : decodeWord (encode i) = decodeFields (encodeFields i) (encode i) := by
  rw [decodeWord, encode, ofWord_toWord]

/-- `func7` is made up of funct5, `aq` and `rl`. -/
theorem join_func7 (v : BitVec 7) :
    funct5 v ++ BitVec.ofBool (v.getLsbD 1) ++ BitVec.ofBool (v.getLsbD 0) = v := by
  revert v
  decide

theorem immI_encodeLoad (k : BitVec 3) (f : LoadFields) : (encodeLoad k f).immI = f.imm :=
  BitVec.extractLsb'_append_extractLsb' (w := 7) (len := 5)

theorem immS_encodeStore (k : BitVec 3) (f : StoreFields) : (encodeStore k f).immS = f.imm :=
  BitVec.extractLsb'_append_extractLsb' (w := 7) (len := 5)

theorem immI_encodeCsr (k : BitVec 3) (rd source : RegNum) (csr : CsrAddress) :
    (encodeCsr k rd source csr).immI = csr :=
  BitVec.extractLsb'_append_extractLsb' (w := 7) (len := 5)

theorem load_encodeLoad (k : BitVec 3) (f : LoadFields) : (encodeLoad k f).load = f := by
  rw [Fields.load, immI_encodeLoad]
  rfl

theorem store_encodeStore (k : BitVec 3) (f : StoreFields) : (encodeStore k f).store = f := by
  rw [Fields.store, immS_encodeStore]
  rfl

theorem atomic_encodeAtomic (v : BitVec 5) (f : AtomicFields) : (encodeAtomic v f).atomic = f := by
  have hrl : (v ++ BitVec.ofBool f.aq ++ BitVec.ofBool f.rl).getLsbD 0 = f.rl := by
    rw [BitVec.getLsbD_append]
    cases f.rl <;> rfl
  have haq : (v ++ BitVec.ofBool f.aq ++ BitVec.ofBool f.rl).getLsbD 1 = f.aq := by
    rw [BitVec.getLsbD_append, BitVec.getLsbD_append]
    cases f.aq <;> rfl
  simp only [Fields.atomic, encodeAtomic]
  rw [haq, hrl]

theorem csr_encodeCsr (k : BitVec 3) (f : CsrFields) : (encodeCsr k f.rd f.rs1 f.csr).csr = f := by
  rw [Fields.csr, immI_encodeCsr]
  rfl

theorem csrImm_encodeCsr (k : BitVec 3) (f : CsrImmFields) : (encodeCsr k f.rd f.uimm f.csr).csrImm = f := by
  rw [Fields.csrImm, immI_encodeCsr]
  rfl

@[simp] theorem encodeCsr_func3 (k : BitVec 3) (rd source : RegNum) (csr : CsrAddress) :
    (encodeCsr k rd source csr).func3 = k := rfl

section
variable {f : Fields}

theorem encodeLoad_load (h : f.opcode = 0b0000011#7) : encodeLoad f.func3 f.load = f := by
  simp only [Fields.load, Fields.immI, encodeLoad, extract_low, BitVec.extractLsb'_append_eq_left, ← h]

theorem encodeStore_store (h : f.opcode = 0b0100011#7) : encodeStore f.func3 f.store = f := by
  simp only [Fields.store, Fields.immS, encodeStore, extract_low, BitVec.extractLsb'_append_eq_left, ← h]

theorem encodeAtomic_atomic (h : f.opcode = 0b0101111#7) : encodeAtomic (funct5 f.func7) f.atomic = f := by
  simp only [Fields.atomic, encodeAtomic, join_func7, ← h]

theorem encodeCsr_immI (h : f.opcode = 0b1110011#7) : encodeCsr f.func3 f.rd f.rs1 f.immI = f := by
  simp only [Fields.immI, encodeCsr, extract_low, BitVec.extractLsb'_append_eq_left, ← h]

end

/-! ## The selection of an operation (R138, R149) -/

/-- The three major opcodes of the memory queue (R139). -/
theorem memoryType_eq_some {o : BitVec 7} {t : InstructionType} (h : memoryType o = some t) :
    (o = 0b0000011#7 ∧ t = .I) ∨ (o = 0b0100011#7 ∧ t = .S) ∨ (o = 0b0101111#7 ∧ t = .R) := by
  unfold memoryType at h
  split at h
  · exact .inl ⟨rfl, (Option.some.inj h).symm⟩
  · exact .inr (.inl ⟨rfl, (Option.some.inj h).symm⟩)
  · exact .inr (.inr ⟨rfl, (Option.some.inj h).symm⟩)
  · cases h

theorem decodeLoad_eq_undefined_iff (k : BitVec 3) : decodeLoad k = .undefined ↔ k.extractLsb' 1 2 = 0b11#2 := by
  revert k
  decide

theorem decodeStore_eq_undefined_iff (k : BitVec 3) : decodeStore k = .undefined ↔ k.extractLsb' 2 1 = 0b1#1 := by
  revert k
  decide

theorem decodeAtomic_eq_lr_iff (v : BitVec 5) : decodeAtomic v = .lr ↔ v = 0b00010#5 := by
  revert v
  decide

theorem decodeAtomic_eq_undefined_iff (v : BitVec 5) : decodeAtomic v = .undefined ↔
    v ∉ [0b00010#5, 0b00011#5, 0b00001#5, 0b00000#5, 0b00100#5, 0b01100#5, 0b01000#5, 0b10000#5, 0b10100#5,
      0b11000#5, 0b11100#5] := by
  revert v
  decide

/-- A word of a memory opcode matches no row if its fields select no operation, or if it is an atomic's and another
fixed bit of its row is wrong (R149). -/
theorem matchRow_eq_undefined_iff {t : InstructionType} {f : Fields} :
    matchRow t f = .undefined ↔ decodeOp t f.func3 f.func7 = .undefined ∨
      (t = .R ∧ atomicRowFits (decodeOp t f.func3 f.func7) f = false) := by
  by_cases hwrong : t = .R ∧ atomicRowFits (decodeOp t f.func3 f.func7) f = false
  · have hnone : matchRow t f = .undefined := if_pos hwrong
    exact ⟨fun _ => .inr hwrong, fun _ => hnone⟩
  · have hselected : matchRow t f = decodeOp t f.func3 f.func7 := if_neg hwrong
    rw [hselected]
    exact ⟨.inl, fun h => h.resolve_right hwrong⟩

/-- A word matches the row of an operation if its fields select it and, for an atomic, the row's other fixed bits are
right (R149). -/
theorem matchRow_eq_iff {t : InstructionType} {f : Fields} {op : MemOp} (hdefined : op ≠ .undefined) :
    matchRow t f = op ↔ decodeOp t f.func3 f.func7 = op ∧ (t = .R → atomicRowFits op f = true) := by
  constructor
  · rintro rfl
    rw [ne_eq, matchRow_eq_undefined_iff, not_or, not_and, Bool.not_eq_false] at hdefined
    have hselected : matchRow t f = decodeOp t f.func3 f.func7 := if_neg (by simpa using hdefined.2)
    rw [hselected]
    exact ⟨rfl, hdefined.2⟩
  · rintro ⟨rfl, hfits⟩
    exact if_neg (by simpa using hfits)

/-- The bits of an atomic's row besides the opcode and funct5 (R149). -/
theorem atomicRowFits_eq_false_iff {op : MemOp} {f : Fields} :
    atomicRowFits op f = false ↔ f.func3 ≠ 0b010#3 ∨ (op = .lr ∧ f.rs2 ≠ 0#5) := by
  simp [atomicRowFits, imp_iff_not_or]

/-- `selectsNoOperation` reads from the bits of a word whether it matches no row (R142, R149). -/
theorem selectsNoOperation_iff {w : BitVec 32} {t : InstructionType}
    (ht : memoryType (Fields.ofWord w).opcode = some t) :
    selectsNoOperation w = true ↔ matchRow t (Fields.ofWord w) = .undefined := by
  rw [matchRow_eq_undefined_iff]
  obtain ⟨ho, rfl⟩ | ⟨ho, rfl⟩ | ⟨ho, rfl⟩ := memoryType_eq_some ht
  all_goals
    change w.extractLsb' 0 7 = _ at ho
    rw [selectsNoOperation, ho]
  · simp [Fields.ofWord, decodeOp, decodeLoad_eq_undefined_iff, extract_extract]
  · simp [Fields.ofWord, decodeOp, decodeStore_eq_undefined_iff, extract_extract]
  · simp [Fields.ofWord, decodeOp, funct5, extract_extract, atomicRowFits_eq_false_iff, decodeAtomic_eq_undefined_iff,
      decodeAtomic_eq_lr_iff, or_assoc]

/-- An `undefined` of a memory opcode stands for the words that match no row (R142, R149). -/
theorem wellFormed_undefined_iff {w : BitVec 32} {t : InstructionType}
    (ht : memoryType (Fields.ofWord w).opcode = some t) :
    (Instr.undefined w).WellFormed ↔ matchRow t (Fields.ofWord w) = .undefined := by
  have hreaches : reachesMemoryQueue w = true := by
    change (!isOtherUnit (Fields.ofWord w).opcode) = true
    obtain ⟨ho, -⟩ | ⟨ho, -⟩ | ⟨ho, -⟩ := memoryType_eq_some ht
    all_goals
      rw [ho]
      rfl
  rw [← selectsNoOperation_iff ht, Instr.WellFormed, Instr.wellFormed, hreaches, Bool.true_and]

/-- An `undefined` of another opcode stands for the words of no other unit (R142). -/
theorem wellFormed_undefined_iff_of_other {w : BitVec 32} (ht : memoryType (Fields.ofWord w).opcode = none) :
    (Instr.undefined w).WellFormed ↔ isOtherUnit (Fields.ofWord w).opcode = false := by
  have hselects : selectsNoOperation w = true := by
    unfold selectsNoOperation
    change memoryType (w.extractLsb' 0 7) = none at ht
    split_ifs with hI hS hR
    · rw [hI] at ht; cases ht
    · rw [hS] at ht; cases ht
    · rw [hR] at ht; cases ht
    · rfl
  change (!isOtherUnit (Fields.ofWord w).opcode && selectsNoOperation w) = true ↔ _
  rw [hselects, Bool.and_true, Bool.not_eq_true']

/-! ## From an instruction to its word and back -/

/-- The fields of a memory row select its operation (R138), and in a well-formed instruction the other fixed bits are
the row's (R149). -/
theorem decodeOp_encodeFields {i : Instr} {op : MemOp} (hop : i.memOp = some op) (hdefined : op ≠ .undefined) :
    ∃ t, memoryType (encodeFields i).opcode = some t ∧
      decodeOp t (encodeFields i).func3 (encodeFields i).func7 = op ∧
      (t = .R → i.WellFormed → atomicRowFits op (encodeFields i) = true) := by
  cases i with
  | lb _ | lh _ | lw _ | ld _ | lbu _ | lhu _ =>
    cases hop
    exact ⟨.I, rfl, rfl, nofun⟩
  | sb _ | sh _ | sw _ | sd _ =>
    cases hop
    exact ⟨.S, rfl, rfl, nofun⟩
  | lrW f =>
    cases hop
    exact ⟨.R, rfl, congrArg decodeAtomic (FixedFields.funct5_atomic _ f.aq f.rl), fun _ hwf => hwf⟩
  | scW f | amoswapW f | amoaddW f | amoxorW f | amoandW f | amoorW f | amominW f | amomaxW f | amominuW f
  | amomaxuW f =>
    cases hop
    exact ⟨.R, rfl, congrArg decodeAtomic (FixedFields.funct5_atomic _ f.aq f.rl),
      fun _ hwf => (Bool.and_true _).trans hwf⟩
  | undefined _ => exact absurd (Option.some.inj hop).symm hdefined
  | fenceI _ | sfenceVma _ | mret | sret => cases hop
  | csrrw _ | csrrs _ | csrrc _ | csrrwi _ | csrrsi _ | csrrci _ => cases hop

/-- The fields of a memory row carry its operands (R136, R137). -/
theorem memoryInstr_encodeFields {i : Instr} {op : MemOp} (hop : i.memOp = some op) (hdefined : op ≠ .undefined)
    (w : BitVec 32) : memoryInstr op (encodeFields i) w = i := by
  cases i with
  | lb f | lh f | lw f | ld f | lbu f | lhu f =>
    cases hop
    simp only [memoryInstr, encodeFields, load_encodeLoad]
  | sb f | sh f | sw f | sd f =>
    cases hop
    simp only [memoryInstr, encodeFields, store_encodeStore]
  | lrW f | scW f | amoswapW f | amoaddW f | amoxorW f | amoandW f | amoorW f | amominW f | amomaxW f | amominuW f
  | amomaxuW f =>
    cases hop
    simp only [memoryInstr, encodeFields, atomic_encodeAtomic]
  | undefined _ => exact absurd (Option.some.inj hop).symm hdefined
  | fenceI _ | sfenceVma _ | mret | sret => cases hop
  | csrrw _ | csrrs _ | csrrc _ | csrrwi _ | csrrsi _ | csrrci _ => cases hop

theorem decodeFields_memory {f : Fields} {t : InstructionType} (ht : memoryType f.opcode = some t) (w : BitVec 32) :
    decodeFields f w = .instr (memoryInstr (matchRow t f) f w) := by
  rw [decodeFields, ht]

theorem decodeFields_system {f : Fields} (ho : f.opcode = 0b1110011#7) (w : BitVec 32) :
    decodeFields f w = decodeSystem f w := by
  rw [decodeFields, ho]
  rfl

theorem decodeFields_fenceI {f : Fields} (ho : f.opcode = 0b0001111#7) (hk : f.func3 = 0b001#3) (w : BitVec 32) :
    decodeFields f w = .instr (.fenceI { rd := f.rd, rs1 := f.rs1, imm := f.immI }) := by
  rw [decodeFields, ho, hk]
  rfl

theorem decodeFields_other {f : Fields} (ht : memoryType f.opcode = none) (ho : f.opcode ≠ 0b1110011#7)
    (hfence : ¬(f.opcode = 0b0001111#7 ∧ f.func3 = 0b001#3)) (w : BitVec 32) :
    decodeFields f w = if isOtherUnit f.opcode then .otherUnit w else .instr (.undefined w) := by
  rw [decodeFields, ht]
  simp only [if_neg ho, if_neg hfence]

theorem decodeWord_encode_memory {i : Instr} {op : MemOp} (hop : i.memOp = some op) (hdefined : op ≠ .undefined)
    (hwf : i.WellFormed) : decodeWord (encode i) = .instr i := by
  obtain ⟨t, ht, hselects, hfits⟩ := decodeOp_encodeFields hop hdefined
  rw [decodeWord_encode, decodeFields_memory ht, (matchRow_eq_iff hdefined).2 ⟨hselects, fun h => hfits h hwf⟩,
    memoryInstr_encodeFields hop hdefined]

theorem decodeWord_of_wellFormed_undefined {w : BitVec 32} (hwf : (Instr.undefined w).WellFormed) :
    decodeWord w = .instr (.undefined w) := by
  cases ht : memoryType (Fields.ofWord w).opcode with
  | some t => rw [decodeWord, decodeFields_memory ht, (wellFormed_undefined_iff ht).1 hwf, memoryInstr]
  | none =>
    have hunit := (wellFormed_undefined_iff_of_other ht).1 hwf
    have ho : ∀ o, isOtherUnit o = true → (Fields.ofWord w).opcode ≠ o := by
      rintro o h rfl
      simp [h] at hunit
    rw [decodeWord, decodeFields_other ht (ho _ rfl) fun h => ho _ rfl h.1, hunit]
    rfl

theorem decodeWord_encode_fenceI (f : FenceFields) : decodeWord (encode (.fenceI f)) = .instr (.fenceI f) := by
  have himm : (encodeFields (.fenceI f)).immI = f.imm := BitVec.extractLsb'_append_extractLsb' (w := 7) (len := 5)
  rw [decodeWord_encode, decodeFields_fenceI rfl rfl, himm]
  rfl

/-- The word of an `sfence.vma` is not that of an xRET: their `func7` differ. -/
theorem decodeWord_encode_sfenceVma (f : SfenceFields) :
    decodeWord (encode (.sfenceVma f)) = .instr (.sfenceVma f) := by
  have hne : ∀ v, (Fields.ofWord v).func7 ≠ 0b0001001#7 → encode (.sfenceVma f) ≠ v := by
    rintro v h rfl
    rw [encode, ofWord_toWord] at h
    exact h rfl
  rw [decodeWord_encode, decodeFields_system rfl, decodeSystem]
  simp [encodeFields, hne 0x30200073#32 (by decide), hne 0x10200073#32 (by decide)]

/-- Settles O1: the decoder sees the fields the encoder wrote; they select the row and carry its operands. -/
theorem decodeOfEncodeIsTheInstruction : Obligations.DecodeOfEncodeIsTheInstruction := by
  unfold Obligations.DecodeOfEncodeIsTheInstruction
  intro i hwf
  cases i with
  | lb f | lh f | lw f | ld f | lbu f | lhu f => exact decodeWord_encode_memory rfl nofun hwf
  | sb f | sh f | sw f | sd f => exact decodeWord_encode_memory rfl nofun hwf
  | lrW f | scW f | amoswapW f | amoaddW f | amoxorW f | amoandW f | amoorW f | amominW f | amomaxW f | amominuW f
  | amomaxuW f => exact decodeWord_encode_memory rfl nofun hwf
  | undefined w =>
    rw [encode_of_fields (i := .undefined w) rfl]
    exact decodeWord_of_wellFormed_undefined hwf
  | fenceI f => exact decodeWord_encode_fenceI f
  | sfenceVma f => exact decodeWord_encode_sfenceVma f
  | mret => decide
  | sret => decide
  | csrrw f | csrrs f | csrrc f =>
    rw [decodeWord_encode, decodeFields_system rfl]
    simp [decodeSystem, encodeFields, csr_encodeCsr]
  | csrrwi f | csrrsi f | csrrci f =>
    rw [decodeWord_encode, decodeFields_system rfl]
    simp [decodeSystem, encodeFields, csrImm_encodeCsr]

/-! ## From a word to its instruction and back -/

section
variable {f : Fields} {w : BitVec 32}

theorem memoryInstr_decodeLoad {k : BitVec 3} (hdefined : decodeLoad k ≠ .undefined) :
    encodeFields (memoryInstr (decodeLoad k) f w) = encodeLoad k f.load ∧
      (memoryInstr (decodeLoad k) f w).WellFormed := by
  unfold decodeLoad at hdefined
  split at hdefined
  case h_7 => exact absurd rfl hdefined
  all_goals exact ⟨rfl, rfl⟩

theorem memoryInstr_decodeStore {k : BitVec 3} (hdefined : decodeStore k ≠ .undefined) :
    encodeFields (memoryInstr (decodeStore k) f w) = encodeStore k f.store ∧
      (memoryInstr (decodeStore k) f w).WellFormed := by
  unfold decodeStore at hdefined
  split at hdefined
  case h_5 => exact absurd rfl hdefined
  all_goals exact ⟨rfl, rfl⟩

theorem memoryInstr_decodeAtomic {v : BitVec 5} (hdefined : decodeAtomic v ≠ .undefined)
    (hfits : atomicRowFits (decodeAtomic v) f = true) :
    encodeFields (memoryInstr (decodeAtomic v) f w) = encodeAtomic v f.atomic ∧
      (memoryInstr (decodeAtomic v) f w).WellFormed := by
  unfold decodeAtomic at hdefined
  split at hdefined
  case h_1 => exact ⟨rfl, hfits⟩
  case h_12 => exact absurd rfl hdefined
  all_goals exact ⟨rfl, (Bool.and_true _).symm.trans hfits⟩

/-- The instruction that a word's fields select on a memory row has those fields (R138, R149). -/
theorem memoryInstr_spec {t : InstructionType} {op : MemOp} (ht : memoryType f.opcode = some t)
    (hrow : matchRow t f = op) (hdefined : op ≠ .undefined) :
    encodeFields (memoryInstr op f w) = f ∧ (memoryInstr op f w).WellFormed := by
  obtain ⟨rfl, hfits⟩ := (matchRow_eq_iff hdefined).1 hrow
  obtain ⟨ho, rfl⟩ | ⟨ho, rfl⟩ | ⟨ho, rfl⟩ := memoryType_eq_some ht
  · exact (memoryInstr_decodeLoad hdefined).imp_left fun h => h.trans (encodeLoad_load ho)
  · exact (memoryInstr_decodeStore hdefined).imp_left fun h => h.trans (encodeStore_store ho)
  · exact (memoryInstr_decodeAtomic hdefined (hfits rfl)).imp_left fun h => h.trans (encodeAtomic_atomic ho)

theorem encodeCsr_of_func3 (ho : f.opcode = 0b1110011#7) {k : BitVec 3} (hk : f.func3 = k) :
    encodeCsr k f.rd f.rs1 f.immI = f := hk ▸ encodeCsr_immI ho

/-- A SYSTEM word that has a row is the word of its instruction. -/
theorem decodeSystem_eq_instr {i : Instr} (ho : (Fields.ofWord w).opcode = 0b1110011#7)
    (h : decodeSystem (Fields.ofWord w) w = .instr i) : encodeFields i = Fields.ofWord w ∧ i.WellFormed := by
  unfold decodeSystem at h
  split at h
  case h_1 hk =>
    split_ifs at h with hmret hsret hsfence
    · cases h
      exact ⟨hmret ▸ rfl, rfl⟩
    · cases h
      exact ⟨hsret ▸ rfl, rfl⟩
    · cases h
      refine ⟨?_, rfl⟩
      simp only [encodeFields, ← ho, ← hk, ← hsfence.1, ← hsfence.2]
  case h_8 => cases h
  all_goals
    cases h
    exact ⟨encodeCsr_of_func3 ho ‹_›, rfl⟩

theorem encodeFields_fenceI (ho : f.opcode = 0b0001111#7) (hk : f.func3 = 0b001#3) :
    encodeFields (.fenceI { rd := f.rd, rs1 := f.rs1, imm := f.immI }) = f := by
  simp only [encodeFields, Fields.immI, extract_low, BitVec.extractLsb'_append_eq_left, ← ho, ← hk]

/-- The decoder takes an instruction's fields from its word, and gives well-formed instructions only. -/
theorem encodeFields_of_decodeWord {i : Instr} (h : decodeWord w = .instr i) :
    encodeFields i = Fields.ofWord w ∧ i.WellFormed := by
  rw [decodeWord] at h
  cases ht : memoryType (Fields.ofWord w).opcode with
  | some t =>
    rw [decodeFields_memory ht] at h
    cases h
    by_cases hdefined : matchRow t (Fields.ofWord w) = .undefined
    · rw [hdefined]
      exact ⟨rfl, (wellFormed_undefined_iff ht).2 hdefined⟩
    · exact memoryInstr_spec ht rfl hdefined
  | none =>
    by_cases ho : (Fields.ofWord w).opcode = 0b1110011#7
    · exact decodeSystem_eq_instr ho ((decodeFields_system ho w).symm.trans h)
    by_cases hfence : (Fields.ofWord w).opcode = 0b0001111#7 ∧ (Fields.ofWord w).func3 = 0b001#3
    · rw [decodeFields_fenceI hfence.1 hfence.2] at h
      cases h
      exact ⟨encodeFields_fenceI hfence.1 hfence.2, rfl⟩
    rw [decodeFields_other ht ho hfence] at h
    split_ifs at h with hunit
    cases h
    exact ⟨rfl, (wellFormed_undefined_iff_of_other ht).2 (Bool.eq_false_of_not_eq_true hunit)⟩

end

/-- Settles O2: the instruction has the fields of the word, and they are the word. -/
theorem encodeOfDecodeIsTheWord : Obligations.EncodeOfDecodeIsTheWord := by
  unfold Obligations.EncodeOfDecodeIsTheWord
  intro w i h
  exact (encodeFields_of_decodeWord h).imp_left encode_of_fields

/-- Settles O3, by running the decoder. -/
theorem listedWordsDecode : Obligations.ListedWordsDecode := by
  unfold Obligations.ListedWordsDecode
  decide

/-! ## The Execute Entry of a memory instruction (R137, R138, R203, R211) -/

/-- The entry of an operation has the type of its major opcode (R139). -/
theorem entryType_of_defined {i : Instr} {op : MemOp} (hop : i.memOp = some op) (hdefined : op ≠ .undefined)
    {t : InstructionType} (ht : memoryType (encodeFields i).opcode = some t) : entryType i = t := by
  rw [entryType, ht]
  exact if_neg fun h => hdefined (Option.some.inj (hop.symm.trans h.1))

/-- The entry of an `undefined` selects no operation (R142, assumption log 3). -/
theorem decodeOp_entryType_undefined (w : BitVec 32) :
    decodeOp (entryType (.undefined w)) (Fields.ofWord w).func3 (Fields.ofWord w).func7 = .undefined := by
  change decodeOp (entryType (.undefined w)) (encodeFields (.undefined w)).func3 (encodeFields (.undefined w)).func7 = _
  cases ht : memoryType (encodeFields (.undefined w)).opcode with
  | none =>
    rw [entryType, ht]
    rfl
  | some t =>
    rw [entryType, ht]
    dsimp only
    split_ifs with h
    · rfl
    · exact not_not.1 fun hselects => h ⟨rfl, hselects⟩

/-- R138: the entry of a memory instruction selects the instruction's operation. -/
theorem decodeOp_entryType {i : Instr} {op : MemOp} (hop : i.memOp = some op) :
    decodeOp (entryType i) (encodeFields i).func3 (encodeFields i).func7 = op := by
  by_cases hdefined : op = .undefined
  · subst hdefined
    cases i with
    | undefined w => exact decodeOp_entryType_undefined w
    | _ => cases hop
  · obtain ⟨t, ht, hselects, -⟩ := decodeOp_encodeFields hop hdefined
    rw [entryType_of_defined hop hdefined ht, hselects]

section
variable {i : Instr} (x : RegNum → Data) (rd : RobReceipt) (pc : Addr)

/-- The second addend of a type `I` entry is its displacement (R203). -/
theorem add2_of_typeI (ht : entryType i = .I) :
    (decodeEntry (executeEntry i x rd pc)).add2 = signExtend12 (encodeFields i).immI := by
  simp [decodeEntry, executeEntry, entryImm, ht]

/-- The second addend of a type `S` entry is its displacement (R203). -/
theorem add2_of_typeS (ht : entryType i = .S) :
    (decodeEntry (executeEntry i x rd pc)).add2 = signExtend12 (encodeFields i).immS := by
  simp [decodeEntry, executeEntry, entryImm, ht]

/-- The second addend of an atomic is 0 (R203, R290). -/
theorem add2_of_typeR (ht : entryType i = .R) : (decodeEntry (executeEntry i x rd pc)).add2 = 0 := by
  simp [decodeEntry, executeEntry, ht]

end

/-- R203, R211: the address that the Execute stage forms from an entry that the Decode stage has passed on. -/
theorem effectiveAddress_decodeEntry {s : State} {i : Instr} {op : MemOp} (hop : i.memOp = some op)
    (hdefined : op ≠ .undefined) (rd : RobReceipt) (pc : Addr) :
    effectiveAddress (decodeEntry (executeEntry i (readReg s.env.x) rd pc)).add1
      (decodeEntry (executeEntry i (readReg s.env.x) rd pc)).add2 = virtualAddress s i := by
  cases i with
  | lb f | lh f | lw f | ld f | lbu f | lhu f =>
    rw [add2_of_typeI _ _ _ (entryType_of_defined hop hdefined rfl)]
    exact congrArg (displacedAddress s f.rs1) (immI_encodeLoad _ f)
  | sb f | sh f | sw f | sd f =>
    rw [add2_of_typeS _ _ _ (entryType_of_defined hop hdefined rfl)]
    exact congrArg (displacedAddress s f.rs1) (immS_encodeStore _ f)
  | lrW f | scW f | amoswapW f | amoaddW f | amoxorW f | amoandW f | amoorW f | amominW f | amomaxW f | amominuW f
  | amomaxuW f =>
    rw [add2_of_typeR _ _ _ (entryType_of_defined hop hdefined rfl)]
    rfl
  | undefined _ => exact absurd (Option.some.inj hop).symm hdefined
  | fenceI _ | sfenceVma _ | mret | sret => cases hop
  | csrrw _ | csrrs _ | csrrc _ | csrrwi _ | csrrsi _ | csrrci _ => cases hop

/-- Settles O4: the other fields are the entry's own. -/
theorem entrySelectsOperationAndAddress : Obligations.EntrySelectsOperationAndAddress := by
  unfold Obligations.EntrySelectsOperationAndAddress
  intro i op s rd hop
  exact ⟨decodeOp_entryType hop, rfl, rfl, rfl, rfl, fun hdefined => effectiveAddress_decodeEntry hop hdefined rd _⟩

/-! ## The classification sets (R140) -/

theorem isRead_iff (op : MemOp) : op.isRead = true ↔ op ∈ [MemOp.lb, .lh, .lw, .ld, .lbu, .lhu, .lr] := by
  cases op <;> decide

theorem isWrite_iff (op : MemOp) : op.isWrite = true ↔ op ∈ [MemOp.sb, .sh, .sw, .sd, .sc] := by
  cases op <;> decide

theorem isAmo_iff (op : MemOp) : op.isAmo = true ↔
    op ∈ [MemOp.amoswap, .amoadd, .amoxor, .amoand, .amoor, .amomin, .amomax, .amominu, .amomaxu] := by
  cases op <;> decide

theorem isByte_iff (op : MemOp) : op.isByte = true ↔ op ∈ [MemOp.lb, .lbu, .sb] := by
  cases op <;> decide

theorem isHalf_iff (op : MemOp) : op.isHalf = true ↔ op ∈ [MemOp.lh, .lhu, .sh] := by
  cases op <;> decide

/-- Four operations move a word beside the AMOs. -/
theorem isWord_iff (op : MemOp) : op.isWord = true ↔ op ∈ [MemOp.lw, .sw, .lr, .sc] ∨ op.isAmo = true := by
  cases op <;> decide

theorem isDouble_iff (op : MemOp) : op.isDouble = true ↔ op ∈ [MemOp.ld, .sd] := by
  cases op <;> decide

/-- Settles O10: the sets of words and of writes are joins of others. -/
theorem classificationSets : Obligations.ClassificationSets := by
  unfold Obligations.ClassificationSets
  intro op
  refine ⟨isRead_iff op, isWrite_iff op, isAmo_iff op, isByte_iff op, isHalf_iff op, ?_, isDouble_iff op, ?_⟩
  · rw [isWord_iff, isAmo_iff, ← List.mem_append]
    rfl
  · rw [MemOp.inWriteSet, Bool.or_eq_true, isWrite_iff, isAmo_iff, ← List.mem_append]
    rfl

end Sys2Proof.Machine

/-! PROOFS. The statements about the SMA reader arbiter and the bypass layer (`40_sma_arbiter_bypass.md`): a grant is
held until `ready` (R174, R176), and what the bypass layer answers (R182). -/

namespace Sys2Proof.Machine

/-! ## The arbiter's grant (R174, R176) -/

@[simp] theorem nextArb_idle (in1 in2 : Option SmaReq) (ready : Bool) :
    nextArb .idle in1 in2 ready =
      if in1.isSome then .pending1 else if in2.isSome then .pending2 else .idle := rfl

/-- R176: what the requesters show does not count while a grant is held. -/
theorem nextArb_of_ne_idle {s : ArbState} (h : s ≠ .idle) (in1 in2 : Option SmaReq) (ready : Bool) :
    nextArb s in1 in2 ready = if ready then .idle else s := by
  cases s with
  | idle => exact absurd rfl h
  | pending1 | pending2 => rfl

/-- R176: the block's arbiter, in a tick in which a grant is held. -/
theorem Block.tick_arb_of_ne_idle (p : Params) {b : Block} (h : b.arb ≠ .idle) (i : BlockInput) :
    (b.tick p i).arb = if i.sma.ready then .idle else b.arb := nextArb_of_ne_idle h _ _ _

@[simp] theorem Block.run_cons (p : Params) (b : Block) (i : BlockInput) (is : List BlockInput) :
    b.run p (i :: is) = (b.tick p i).run p is := rfl

/-- R176: a grant outlasts every run of ticks without `ready`. -/
theorem Block.run_arb_of_unready (p : Params) {b : Block} {is : List BlockInput} (h : b.arb ≠ .idle)
    (hunready : ∀ i ∈ is, i.sma.ready = false) : (b.run p is).arb = b.arb := by
  induction is generalizing b with
  | nil => rfl
  | cons i is ih =>
    obtain ⟨hi, his⟩ := List.forall_mem_cons.1 hunready
    have hheld : (b.tick p i).arb = b.arb := by simp [Block.tick_arb_of_ne_idle p h, hi]
    rw [Block.run_cons, ih (hheld ▸ h) his, hheld]

/-- Settles O5: after the run the grant still stands, so the `ready` tick ends it. -/
theorem arbiterHoldsItsGrant : Obligations.ArbiterHoldsItsGrant := by
  unfold Obligations.ArbiterHoldsItsGrant
  intro p b is
  refine ⟨nextArb_idle, fun hgrant hunready => ?_⟩
  have hheld : (b.run p is).arb = b.arb := Block.run_arb_of_unready p hgrant hunready
  refine ⟨hheld, fun i hready => ?_⟩
  rw [Block.tick_arb_of_ne_idle p (hheld ▸ hgrant), if_pos hready]

/-! ## The bypass layer's answer (R182, R183) -/

@[simp] theorem bypassAnswer_isSome (bp : BypassResp) (answer : Option SmaAnswer) :
    (bypassAnswer bp answer).isSome = answer.isSome := Option.isSome_map

@[simp] theorem bypassAnswer_some (bp : BypassResp) (a : SmaAnswer) :
    bypassAnswer bp (some a) = some { data := overlay bp a.data, error := a.error } := rfl

/-- Settles O6: `byteOfWord_overlay` says what each byte of the answer is. -/
theorem bypassOverlaysByteByByte : Obligations.BypassOverlaysByteByByte := by
  unfold Obligations.BypassOverlaysByteByByte
  intro bp answer
  refine ⟨bypassAnswer_isSome bp answer, ?_⟩
  rintro a r rfl hanswer
  obtain rfl := Option.some.inj ((bypassAnswer_some bp a).symm.trans hanswer)
  exact ⟨rfl, fun k hk => byteOfWord_overlay bp a.data hk⟩

end Sys2Proof.Machine

/-! PROOFS. The statements about the front stages of the memory pipeline (`41_mempipe_front_stages.md`): the Execute
stage's address and tag (R211, R212), what the TLB stage hands over (R223), and how it holds its request (R221). -/

namespace Sys2Proof.Machine

/-! ## The alignment check (R212) -/

theorem low_bits_ne_zero_iff (va : Addr) (n : Nat) :
    (va.extractLsb' 0 n != 0#n) = true ↔ va.toNat % 2 ^ n ≠ 0 := by
  rw [bne_iff_ne, ne_eq, BitVec.toNat_eq, BitVec.extractLsb'_toNat, BitVec.toNat_zero, Nat.shiftRight_zero]

/-- R212: the check, by remainders of the address. -/
theorem misaligned_iff (op : MemOp) (va : Addr) :
    misaligned op va = true ↔
      ((op.isWord = true ∨ op.isDouble = true) ∧ va.toNat % 4 ≠ 0) ∨ (op.isHalf = true ∧ va.toNat % 2 ≠ 0) := by
  simp only [misaligned, Bool.or_eq_true, Bool.and_eq_true, low_bits_ne_zero_iff, Nat.reducePow]

/-- Settles O11: the sum of words is the sum modulo `2^32`, and `misaligned_iff` says what the check finds. -/
theorem executeStageChecksAlignment : Obligations.ExecuteStageChecksAlignment := by
  unfold Obligations.ExecuteStageChecksAlignment
  intro e
  exact ⟨BitVec.toNat_add _ _, if_congr (misaligned_iff e.op (executeOut e).vaddress) rfl rfl⟩

/-! ## The wires of the TLB stage (R219, R223) -/

theorem TlbStage.ready_iff (t : TlbStage) : t.ready = true ↔ t.state = .idle := decide_eq_true_iff

theorem TlbStage.out_eq_some_iff (t : TlbStage) (m : MemEntry3) :
    t.out = some m ↔ t.state = .respond ∧ t.entry = m :=
  Option.ite_none_right_eq_some.trans (and_congr_right' Option.some_inj)

theorem TlbStage.out_isSome_iff (t : TlbStage) : t.out.isSome = true ↔ t.state = .respond := by
  simp only [Option.isSome_iff_exists, TlbStage.out_eq_some_iff, exists_and_left, exists_eq', and_true]

@[simp] theorem mergeError_misaligned (dtlb : MemoryErrorCode) : mergeError .misaligned dtlb = .misaligned := rfl

theorem mergeError_of_ne {tag : MemoryErrorCode} (h : tag ≠ .misaligned) (dtlb : MemoryErrorCode) :
    mergeError tag dtlb = dtlb := if_neg h

/-- Settles O12: the entry offered is the stage's own; its tag is the merge of the two. -/
theorem misalignmentDominates : Obligations.MisalignmentDominates := by
  unfold Obligations.MisalignmentDominates
  intro t m hout
  obtain ⟨-, rfl⟩ := (t.out_eq_some_iff m).1 hout
  refine ⟨rfl, rfl, rfl, rfl, rfl, rfl, rfl, rfl, fun htag => ?_, fun htag => mergeError_of_ne htag t.error⟩
  rw [TlbStage.entry, htag, mergeError_misaligned]

/-! ## The TLB stage in `request` (R221, R224) -/

section
variable {t : TlbStage} (hrequest : t.state = .request) (inp : MemEntry2) {dtlb : DtlbResp} (outReady recover : Bool)
include hrequest

/-- R221: without an answer only the entry's `valid` can change. -/
theorem TlbStage.tick_of_unanswered (hready : dtlb.ready = false) :
    t.tick inp dtlb outReady recover = { t with inReg := t.inReg.cancelIf recover } := by
  rw [TlbStage.tick, hrequest]
  simp only [hready, Bool.false_eq_true, if_false]

/-- R221: the answer is captured, and a cancelled entry goes back to `idle`. -/
theorem TlbStage.tick_of_answered (hready : dtlb.ready = true) :
    t.tick inp dtlb outReady recover =
      { inReg := t.inReg.cancelIf recover
        paddress := dtlb.answer.paddress
        error := dtlb.answer.error
        state := if t.inReg.valid = true ∧ recover = false then .respond else .idle } := by
  rw [TlbStage.tick, hrequest]
  simp only [hready, if_true, Bool.and_eq_true, Bool.not_eq_true']

/-- R224: in `request`, answered or not, `recover` clears the entry's `valid` and no more of the entry changes. -/
theorem TlbStage.tick_inReg_of_request :
    (t.tick inp dtlb outReady recover).inReg = t.inReg.cancelIf recover := by
  cases hready : dtlb.ready with
  | false => rw [TlbStage.tick_of_unanswered hrequest inp outReady recover hready]
  | true => rw [TlbStage.tick_of_answered hrequest inp outReady recover hready]

end

/-- A request carries nothing that `recover` clears (R219, R224). -/
theorem TlbStage.request_cancelIf (t : TlbStage) (recover : Bool) :
    TlbStage.request { t with inReg := t.inReg.cancelIf recover } = t.request := rfl

/-- Settles O13: the wires follow the state; in `request` the tick is one of two, by the DTLB's `ready`. -/
theorem tlbRequestIsNeverAbandoned : Obligations.TlbRequestIsNeverAbandoned := by
  unfold Obligations.TlbRequestIsNeverAbandoned
  intro t inp dtlb outReady recover t'
  refine ⟨t.ready_iff, t.out_isSome_iff, rfl, fun hrequest =>
    ⟨TlbStage.tick_inReg_of_request hrequest inp outReady recover, fun hready => ?_, fun hready => ?_⟩⟩
  · have htick : t' = _ := TlbStage.tick_of_unanswered hrequest inp outReady recover hready
    rw [htick]
    exact ⟨hrequest, t.request_cancelIf recover⟩
  · have htick : t' = _ := TlbStage.tick_of_answered hrequest inp outReady recover hready
    rw [htick]
    exact ⟨rfl, rfl, rfl⟩

end Sys2Proof.Machine

/-! PROOFS. The statements about the ReadWrite stage, the loads and the stores (`42_readwrite_loads_stores.md`): its
exceptions (R244, R248, R249, R262), its results against those of the collapsed instructions (R530), `recover` (R505),
and what loads, stores and `undefined` do to their end (R251 to R256, R270 to R274). -/

namespace Sys2Proof.Machine

/-! ## Operations and words (R140, R141, R249) -/

theorem isAmo_of_isRead {op : MemOp} (h : op.isRead = true) : op.isAmo = false := by
  revert h
  cases op <;> decide

theorem isAmo_of_isWrite {op : MemOp} (h : op.isWrite = true) : op.isAmo = false := by
  revert h
  cases op <;> decide

theorem isRead_of_isWrite {op : MemOp} (h : op.isWrite = true) : op.isRead = false := by
  revert h
  cases op <;> decide

theorem beatType_of_isAmo {op : MemOp} (h : op.isAmo = true) : op.beatType = .word := by
  revert h
  cases op <;> decide

theorem ne_undefined_of_isRead_or_isAmo {op : MemOp} (h : (op.isRead || op.isAmo) = true) : op ≠ .undefined := by
  rintro rfl
  exact absurd h (by decide)

theorem ne_undefined_of_isWrite {op : MemOp} (h : op.isWrite = true) : op ≠ .undefined := by
  rintro rfl
  exact absurd h (by decide)

/-- The low word of a word with its upper half zero. -/
theorem lowWord_setWidth (w : Word) : lowWord (w.setWidth 64) = w :=
  (BitVec.setWidth_eq_extractLsb' (by decide)).symm.trans (BitVec.setWidth_setWidth_of_le w (by decide))

/-- R249: the two words of a double, each moved by a beat of its own. -/
theorem joinWords_lowBytes (hi lo : Word) : joinWords hi (lowWord (lowBytes .word lo)) = hi ++ lo :=
  congrArg (hi ++ ·) (lowWord_setWidth lo)

/-! ## The ReadWrite stage in another state -/

/-- The stage with its entry kept, in the state `st` and with the read result `v` (R242). -/
def RwStage.enter (r : RwStage) (st : RwState) (v : Data) : RwStage := { r with state := st, readResult := v }

@[simp] theorem RwStage.enter_state (r : RwStage) (st : RwState) (v : Data) : (r.enter st v).state = st := rfl
@[simp] theorem RwStage.enter_inReg (r : RwStage) (st : RwState) (v : Data) : (r.enter st v).inReg = r.inReg := rfl
@[simp] theorem RwStage.enter_readResult (r : RwStage) (st : RwState) (v : Data) :
    (r.enter st v).readResult = v := rfl

/-- The stage in `writeTop`, with the receipt of the bottom beat (R258). -/
def RwStage.enterTop (r : RwStage) (id : SqReceipt) : RwStage := { r with state := .writeTop, receipt0 := id }

@[simp] theorem RwStage.enterTop_state (r : RwStage) (id : SqReceipt) : (r.enterTop id).state = .writeTop := rfl

@[simp] theorem RwStage.silent_next (r : RwStage) : r.silent.next = r := rfl

/-! ## A tick of the ReadWrite stage without `recover`, by its state -/

section
variable {r : RwStage} (resv : LoadReservationEntry) (inp : Option MemEntry3)

theorem RwStage.tick_of_idle (hstate : r.state = .idle) (hvalid : r.inReg.valid = true) (read : Option SmaAnswer)
    (fired : Option SqReceipt) : r.tick resv inp read fired false = r.dispatch resv := by
  simp [RwStage.tick, RwStage.tickIdle, hstate, hvalid]

theorem RwStage.tick_of_readError (hstate : r.state = .readBottom ∨ r.state = .readTop)
    (hvalid : r.inReg.valid = true) (d : Word) (fired : Option SqReceipt) :
    r.tick resv inp (some { data := d, error := true }) fired false = r.raise loadAccessFault := by
  obtain hstate | hstate := hstate <;> simp [RwStage.tick, RwStage.tickRead, hstate, hvalid]

theorem RwStage.tick_of_readBottom (hstate : r.state = .readBottom) (hvalid : r.inReg.valid = true) (d : Word)
    (fired : Option SqReceipt) :
    r.tick resv inp (some { data := d, error := false }) fired false = r.readBottomDone d := by
  simp [RwStage.tick, RwStage.tickRead, hstate, hvalid]

theorem RwStage.tick_of_readTop (hstate : r.state = .readTop) (hvalid : r.inReg.valid = true) (d : Word)
    (fired : Option SqReceipt) :
    r.tick resv inp (some { data := d, error := false }) fired false = r.readTopDone d := by
  simp [RwStage.tick, RwStage.tickRead, hstate, hvalid]

theorem RwStage.tick_of_writeBottom (hstate : r.state = .writeBottom) (read : Option SmaAnswer) (id : SqReceipt) :
    r.tick resv inp read (some id) false = r.writeBottomDone id := by
  simp [RwStage.tick, RwStage.tickWrite, hstate]

theorem RwStage.tick_of_writeTop (hstate : r.state = .writeTop) (read : Option SmaAnswer) (id : SqReceipt) :
    r.tick resv inp read (some id) false = r.writeTopDone id := by
  simp [RwStage.tick, RwStage.tickWrite, hstate]

end

/-! ## Dispatch (R244) -/

theorem dispatchException_of_defined {op : MemOp} (h : op ≠ .undefined) (e : MemoryErrorCode) :
    dispatchException op e = mapError op e := if_neg h

section
variable {r : RwStage} (resv : LoadReservationEntry)

theorem RwStage.dispatch_of_exception {code : ExcCode} (h : dispatchException r.inReg.op r.inReg.error = some code) :
    r.dispatch resv = r.raise code := by
  rw [RwStage.dispatch, h]

theorem RwStage.dispatch_of_reading (hreads : (r.inReg.op.isRead || r.inReg.op.isAmo) = true)
    (herror : r.inReg.error = .none) :
    r.dispatch resv = (r.enter .readBottom 0).silent := by
  have hnone : dispatchException r.inReg.op r.inReg.error = none := by
    rw [dispatchException_of_defined (ne_undefined_of_isRead_or_isAmo hreads), herror]
    rfl
  simp only [RwStage.dispatch, hnone, hreads, if_true]
  rfl

/-- R294: among the writes only an `sc` is checked, against the reservation. -/
theorem RwStage.dispatch_of_writing (hwrites : r.inReg.op.isWrite = true) (herror : r.inReg.error = .none) :
    r.dispatch resv =
      if r.inReg.op = .sc ∧ reservationHolds resv r.inReg.vaddress = false
      then r.emit (scFailResult r.inReg.next) .clear
      else (r.enter .writeBottom r.readResult).silent := by
  have hnone : dispatchException r.inReg.op r.inReg.error = none := by
    rw [dispatchException_of_defined (ne_undefined_of_isWrite hwrites), herror]
    rfl
  have hreads : (r.inReg.op.isRead || r.inReg.op.isAmo) = false := by
    rw [isRead_of_isWrite hwrites, isAmo_of_isWrite hwrites]
    rfl
  simp only [RwStage.dispatch, hnone, hreads]
  by_cases hsc : r.inReg.op = .sc <;> cases reservationHolds resv r.inReg.vaddress <;> simp [hsc, RwStage.enter]

end

/-! ## Exceptions of the stage (R262, R462) -/

theorem RwStage.raises_raise (r : RwStage) (code : ExcCode) : r.Raises code (r.raise code) := ⟨rfl, rfl, rfl, rfl⟩

/-- Settles O15: at dispatch the code is `dispatchException`'s, and a read error raises in either read state. -/
theorem readWriteStageRaisesByTheMap : Obligations.ReadWriteStageRaisesByTheMap := by
  unfold Obligations.ReadWriteStageRaisesByTheMap
  intro r resv inp read fired hvalid
  have hdispatch : ∀ code, r.state = .idle → dispatchException r.inReg.op r.inReg.error = some code →
      r.Raises code (r.tick resv inp read fired false) := by
    intro code hidle hcode
    rw [RwStage.tick_of_idle resv inp hidle hvalid, RwStage.dispatch_of_exception resv hcode]
    exact r.raises_raise code
  refine ⟨fun hidle hundefined => hdispatch 2 hidle ?_, fun code hidle hdefined hcode => hdispatch code hidle ?_, ?_⟩
  · rw [hundefined]
    rfl
  · rw [dispatchException_of_defined hdefined, ← codeOf_eq_mapError, hcode]
  · rintro d hreading rfl
    rw [RwStage.tick_of_readError resv inp hreading hvalid]
    exact r.raises_raise 5

/-! ## What completes a beat (R248, R257, R258) -/

section
variable {r : RwStage}

theorem RwStage.readBottomDone_of_ld (hop : r.inReg.op = .ld) (d : Word) :
    r.readBottomDone d = (r.enter .readTop (lowBytes .word d)).silent := by
  rw [RwStage.readBottomDone, if_pos hop, hop]
  rfl

theorem RwStage.readBottomDone_of_lr (hop : r.inReg.op = .lr) (d : Word) :
    (r.readBottomDone d).out =
      some { rd := r.inReg.rd, bits := lrResult r.inReg.next r.inReg.vaddress (d.setWidth 64) } := by
  simp [RwStage.readBottomDone, RwStage.emit, hop]

theorem RwStage.readBottomDone_of_amo (hamo : r.inReg.op.isAmo = true) (d : Word) :
    r.readBottomDone d = (r.enter .writeBottom (d.setWidth 64)).silent := by
  have hld : r.inReg.op ≠ .ld := fun h => absurd (h ▸ hamo) (by decide)
  have hlr : r.inReg.op ≠ .lr := fun h => absurd (h ▸ hamo) (by decide)
  rw [RwStage.readBottomDone, if_neg hld, if_neg hlr, if_pos hamo, beatType_of_isAmo hamo]
  rfl

theorem RwStage.readBottomDone_of_load (hread : r.inReg.op.isRead = true) (hld : r.inReg.op ≠ .ld)
    (hlr : r.inReg.op ≠ .lr) (d : Word) :
    (r.readBottomDone d).out =
      some { rd := r.inReg.rd, bits := loadResult r.inReg.next (format r.inReg.op d) } := by
  simp [RwStage.readBottomDone, RwStage.emit, hld, hlr, isAmo_of_isRead hread]

theorem RwStage.writeBottomDone_of_sd (hop : r.inReg.op = .sd) (id : SqReceipt) :
    r.writeBottomDone id = (r.enterTop id).silent := if_pos hop

theorem RwStage.writeBottomDone_of_ne_sd (hop : r.inReg.op ≠ .sd) (id : SqReceipt) :
    r.writeBottomDone id =
      r.emit (writeResult r.inReg.next r.inReg.op (writeResultWord r.inReg.op r.readResult) id id)
        (if r.inReg.op = .sc then .clear else .none) := if_neg hop

theorem RwStage.readReq_of_readBottom (hstate : r.state = .readBottom) :
    r.readReq = some { address := r.inReg.paddress, readType := r.inReg.op.beatType } := by
  simp [RwStage.readReq, hstate]

theorem RwStage.readReq_of_readTop (hstate : r.state = .readTop) :
    r.readReq = some { address := r.inReg.paddress + 4, readType := r.inReg.op.beatType } := by
  simp [RwStage.readReq, hstate]

theorem RwStage.allocReq_of_writeBottom (hstate : r.state = .writeBottom) :
    r.allocReq false =
      some { writeType := r.inReg.op.beatType, address := r.inReg.paddress
             data := lowWord (writeData r.inReg.op r.readResult r.inReg.op1) } := by
  simp [RwStage.allocReq, hstate]

theorem RwStage.allocReq_of_writeTop (hstate : r.state = .writeTop) :
    r.allocReq false = some { writeType := .word, address := r.inReg.paddress + 4, data := highWord r.inReg.op1 } := by
  simp [RwStage.allocReq, hstate]

end

theorem writeData_of_isWrite {op : MemOp} (h : op.isWrite = true) (old op1 : Data) : writeData op old op1 = op1 :=
  if_neg (by simp [isAmo_of_isWrite h])

theorem writeResultWord_of_isWrite {op : MemOp} (h : op.isWrite = true) (old : Data) : writeResultWord op old = 0 :=
  if_neg (by simp [isAmo_of_isWrite h])

theorem writeResultWord_of_isAmo {op : MemOp} (h : op.isAmo = true) (old : Data) : writeResultWord op old = old :=
  if_pos h

/-- R264, R300: the word an AMO stores, of the old word as the stage holds it. -/
theorem lowWord_writeData_of_isAmo {op : MemOp} (h : op.isAmo = true) (old : Word) (op1 : Data) :
    lowWord (writeData op (old.setWidth 64) op1) = amoALU op old (lowWord op1) := by
  rw [writeData, if_pos h, lowWord_setWidth]
  exact congrArg (amoALU op · (lowWord op1)) (lowWord_setWidth old)

/-! ## The collapsed instructions where the access is granted (R530) -/

section
variable {s : State} {op : MemOp} {va pa : Addr} {d lo hi : Word}
  (haccess : access s.env op va s.input.tlbAge = .granted pa)
include haccess

theorem performLoad_of_read (hread : memRead s.env op.beatType pa s.input.smaPad = some d) :
    performLoad op va s = { result := loadResult (fallThrough s) (format op d), env := s.env, event := .none } := by
  rw [performLoad, haccess]
  simp only [hread]

theorem performLoadDouble_of_reads (hlo : memRead s.env .word pa s.input.smaPad = some lo)
    (hhi : memRead s.env .word (pa + 4) s.input.smaPad = some hi) :
    performLoadDouble op va s =
      { result := loadResult (fallThrough s) (joinWords hi lo), env := s.env, event := .none } := by
  rw [performLoadDouble, haccess]
  simp only [hlo, hhi]

theorem performLoadReserved_of_read (hread : memRead s.env .word pa s.input.smaPad = some d) :
    performLoadReserved op va s =
      { result := lrResult (fallThrough s) va (d.setWidth 64), env := s.env, event := .set va } := by
  rw [performLoadReserved, haccess]
  simp only [hread]

theorem performAmo_of_read (hread : memRead s.env .word pa s.input.smaPad = some d) (data : Data) :
    performAmo op va data s =
      { result := writeResult (fallThrough s) op (d.setWidth 64) s.env.sq.nextId s.env.sq.nextId
        env := s.env.memWrite s.cfg.sqIdW.val { writeType := .word, address := pa, data := amoALU op d (lowWord data) }
        event := .none } := by
  rw [performAmo, haccess]
  simp only [hread]

end

/-- R258, R270 to R272, R295: what a store of one beat, or an `sc` whose reservation holds, leaves when it has
executed. -/
def storedBeat (s : State) (op : MemOp) (pa : Addr) (data : Data) : Executed where
  result := writeResult (fallThrough s) op 0 s.env.sq.nextId s.env.sq.nextId
  env := s.env.memWrite s.cfg.sqIdW.val { writeType := op.beatType, address := pa, data := lowWord data }
  event := if op = .sc then .clear else .none

/-- R273: the environment between the two beats of an `sd`. -/
def bottomStored (s : State) (pa : Addr) (data : Data) : Env :=
  s.env.memWrite s.cfg.sqIdW.val { writeType := .word, address := pa, data := lowWord data }

section
variable {s : State} {op : MemOp} {va pa : Addr} (haccess : access s.env op va s.input.tlbAge = .granted pa)
  (data : Data)
include haccess

theorem performStore_of_granted (hsc : op ≠ .sc) : performStore op va data s = storedBeat s op pa data := by
  rw [performStore, haccess, storedBeat, if_neg hsc]

theorem performStoreDouble_of_granted :
    performStoreDouble op va data s =
      { result := writeResult (fallThrough s) op 0 s.env.sq.nextId (bottomStored s pa data).sq.nextId
        env := (bottomStored s pa data).memWrite s.cfg.sqIdW.val
          { writeType := .word, address := pa + 4, data := highWord data }
        event := .none } := by
  rw [performStoreDouble, haccess]
  rfl

theorem performStoreConditional_of_fails (hfails : reservationHolds s.blk.loadReservation va = false) :
    performStoreConditional op va data s =
      { result := scFailResult (fallThrough s), env := s.env, event := .clear } := by
  rw [performStoreConditional, haccess]
  simp only [hfails, Bool.false_eq_true, if_false]

end

theorem performStoreConditional_of_holds {s : State} {op : MemOp} {va pa : Addr} (hop : op = .sc)
    (haccess : access s.env op va s.input.tlbAge = .granted pa)
    (hholds : reservationHolds s.blk.loadReservation va = true) (data : Data) :
    performStoreConditional op va data s = storedBeat s op pa data := by
  subst op
  rw [performStoreConditional, haccess]
  simp only [hholds, if_true]
  rfl

/-! ## The stage against the collapsed instruction (R530) -/

section
variable {r : RwStage} (hreads : (r.inReg.op.isRead || r.inReg.op.isAmo) = true) (hidle : r.state = .idle)
  (hvalid : r.inReg.valid = true) (herror : r.inReg.error = .none) (resv resv' : LoadReservationEntry)
include hreads hidle hvalid herror

/-- R244: a reading operation without a tag goes to `readBottom`. -/
theorem RwStage.next_tick_of_reading : (r.tick resv none none none false).next = r.enter .readBottom 0 := by
  rw [RwStage.tick_of_idle resv none hidle hvalid, RwStage.dispatch_of_reading resv hreads herror, silent_next]

/-- R244, R248: the two ticks in which a reading operation is dispatched and its bottom beat is answered. -/
theorem RwStage.tick_tick_of_reading (d : Word) :
    (r.tick resv none none none false).next.tick resv' none (some { data := d, error := false }) none false =
      (r.enter .readBottom 0).readBottomDone d := by
  rw [RwStage.next_tick_of_reading hreads hidle hvalid herror]
  exact RwStage.tick_of_readBottom resv' none (r.enter_state _ _) hvalid d none

end

/-- Settles O17: after the dispatch the stage is in `readBottom`, and each beat completes as the operation's kind
says. -/
theorem stageEmitsTheCollapsedLoad : Obligations.StageEmitsTheCollapsedLoad := by
  unfold Obligations.StageEmitsTheCollapsedLoad
  intro s r resv resv' resv'' op va pa lo hi hread haccess hidle hvalid hop herror hva hpa hnext hlo t1 t2
  subst op va pa
  have hreads : (r.inReg.op.isRead || r.inReg.op.isAmo) = true := by rw [hread, Bool.true_or]
  have ht1 : t1 = r.enter .readBottom 0 := RwStage.next_tick_of_reading hreads hidle hvalid herror resv
  have ht2 : t2 = (r.enter .readBottom 0).readBottomDone lo :=
    RwStage.tick_tick_of_reading hreads hidle hvalid herror resv resv' lo
  refine ⟨ht1 ▸ RwStage.readReq_of_readBottom (r.enter_state _ _), fun hld => ?_, fun hld hhi => ?_⟩
  · split
    next hlr =>
      rw [hlr] at hlo
      rw [ht2, performLoadReserved_of_read haccess hlo, RwStage.readBottomDone_of_lr (r := r.enter .readBottom 0) hlr,
        RwStage.enter_inReg, hnext]
    next hlr =>
      rw [ht2, performLoad_of_read haccess hlo, 
        RwStage.readBottomDone_of_load (r := r.enter .readBottom 0) hread hld hlr, RwStage.enter_inReg, hnext]
  · rw [hld] at hlo
    have htop : t2 = (r.enter .readTop (lowBytes .word lo)).silent :=
      ht2.trans (RwStage.readBottomDone_of_ld (r := r.enter .readBottom 0) hld lo)
    have hreadReq : (r.enter .readTop (lowBytes .word lo)).readReq =
        some { address := r.inReg.paddress + 4, readType := .word } :=
      (RwStage.readReq_of_readTop (r.enter_state _ _)).trans (by rw [RwStage.enter_inReg, hld]; rfl)
    rw [htop, performLoadDouble_of_reads haccess hlo hhi, ← hnext]
    refine ⟨rfl, hreadReq, ?_⟩
    rw [RwStage.silent_next, RwStage.tick_of_readTop resv'' none (r.enter_state _ _) hvalid]
    exact congrArg (fun v => some (RwOut.mk r.inReg.rd (loadResult r.inReg.next v))) (joinWords_lowBytes hi lo)

/-- Settles O18: the stage reads as for a load and goes on to `writeBottom` with the old word. -/
theorem stageEmitsTheCollapsedAmo : Obligations.StageEmitsTheCollapsedAmo := by
  unfold Obligations.StageEmitsTheCollapsedAmo
  intro s r resv resv' resv'' op va pa old hamo haccess hidle hvalid hop herror hpa hnext hold t1 t2 x
  subst op pa
  have hreads : (r.inReg.op.isRead || r.inReg.op.isAmo) = true := by rw [hamo, Bool.or_true]
  have hsd : r.inReg.op ≠ .sd := fun h => absurd (h ▸ hamo) (by decide)
  have ht2 : t2 = r.enter .writeBottom (old.setWidth 64) :=
    congrArg RwTick.next ((RwStage.tick_tick_of_reading hreads hidle hvalid herror resv resv' old).trans
      (RwStage.readBottomDone_of_amo (r := r.enter .readBottom 0) hamo old))
  have hx : x = _ := performAmo_of_read haccess hold r.inReg.op1
  rw [ht2, hx]
  refine ⟨_, RwStage.allocReq_of_writeBottom (RwStage.enter_state _ _ _), beatType_of_isAmo hamo, ?_, ?_⟩
  · simp only [RwStage.enter_inReg, RwStage.enter_readResult, beatType_of_isAmo hamo, lowWord_writeData_of_isAmo hamo]
  · rw [RwStage.tick_of_writeBottom resv'' none (r.enter_state _ _),
      RwStage.writeBottomDone_of_ne_sd (r := r.enter .writeBottom _) hsd, RwStage.enter_inReg,
      writeResultWord_of_isAmo hamo, hnext]
    rfl

section
variable {s : State} {r : RwStage} (hwrites : r.inReg.op.isWrite = true) (hidle : r.state = .idle)
  (hvalid : r.inReg.valid = true) (herror : r.inReg.error = .none) (resv : LoadReservationEntry)
include hwrites hidle hvalid herror

/-- R244, R294: a writing operation without a tag goes to `writeBottom`, an `sc` if its reservation holds. -/
theorem RwStage.tick_of_writing (hholds : r.inReg.op = .sc → reservationHolds resv r.inReg.vaddress = true) :
    r.tick resv none none none false = (r.enter .writeBottom r.readResult).silent := by
  rw [RwStage.tick_of_idle resv none hidle hvalid, RwStage.dispatch_of_writing resv hwrites herror]
  exact if_neg fun h => absurd (hholds h.1) (by simp [h.2])

/-- R294: an `sc` whose reservation does not hold completes at dispatch. -/
theorem RwStage.tick_of_failing (hsc : r.inReg.op = .sc)
    (hfails : reservationHolds resv r.inReg.vaddress = false) :
    r.tick resv none none none false = r.emit (scFailResult r.inReg.next) .clear := by
  rw [RwStage.tick_of_idle resv none hidle hvalid, RwStage.dispatch_of_writing resv hwrites herror]
  exact if_pos ⟨hsc, hfails⟩

end

/-- R257: the bottom beat of a write that is no AMO allocates the low word of its operand. -/
theorem RwStage.allocReq_of_writing {r : RwStage} (hwrites : r.inReg.op.isWrite = true) (v : Data) :
    (r.enter .writeBottom v).allocReq false =
      some { writeType := r.inReg.op.beatType, address := r.inReg.paddress, data := lowWord r.inReg.op1 } := by
  rw [RwStage.allocReq_of_writeBottom (r.enter_state _ _), RwStage.enter_inReg, writeData_of_isWrite hwrites]

/-- R258, R295: a store of one beat, or an `sc`, when its allocation fires. -/
theorem RwStage.tick_of_oneBeat {r : RwStage} (hwrites : r.inReg.op.isWrite = true) (hsd : r.inReg.op ≠ .sd) (v : Data)
    (resv : LoadReservationEntry) (id : SqReceipt) :
    (r.enter .writeBottom v).tick resv none none (some id) false =
      (r.enter .writeBottom v).emit (writeResult r.inReg.next r.inReg.op 0 id id)
        (if r.inReg.op = .sc then .clear else .none) := by
  rw [RwStage.tick_of_writeBottom resv none (r.enter_state _ _), 
    RwStage.writeBottomDone_of_ne_sd (r := r.enter .writeBottom v) hsd, RwStage.enter_inReg,
    writeResultWord_of_isWrite hwrites]

/-- R258: an `sd` goes on to `writeTop` with the receipt of its bottom beat. -/
theorem RwStage.tick_of_sd {r : RwStage} (hsd : r.inReg.op = .sd) (v : Data) (resv : LoadReservationEntry)
    (id : SqReceipt) :
    (r.enter .writeBottom v).tick resv none none (some id) false = ((r.enter .writeBottom v).enterTop id).silent :=
  (RwStage.tick_of_writeBottom resv none (r.enter_state _ _) none id).trans
    (RwStage.writeBottomDone_of_sd (r := r.enter .writeBottom v) hsd id)

/-- Dispatched in the tick `t0`, the stage allocates the one beat that `x` stores, and in the tick `t1`, in which the
allocation fires, it emits the result of `x`. -/
def RwStage.PerformsBeat (r : RwStage) (s : State) (t0 t1 : RwTick) (x : Executed) : Prop :=
  t0.out = none ∧ ∃ req, t0.next.allocReq false = some req ∧ x.env = s.env.memWrite s.cfg.sqIdW.val req ∧
    t1.out = some { rd := r.inReg.rd, bits := x.result } ∧ t1.event = x.event ∧
    x.result.writeID0 = s.env.sq.nextId ∧ x.result.writeID1 = s.env.sq.nextId

theorem RwStage.performsBeat_storedBeat {s : State} {r : RwStage} {t0 : RwTick} (hwrites : r.inReg.op.isWrite = true)
    (hsd : r.inReg.op ≠ .sd) (hnext : r.inReg.next = fallThrough s)
    (ht0 : t0 = (r.enter .writeBottom r.readResult).silent) (resv : LoadReservationEntry) :
    r.PerformsBeat s t0 (t0.next.tick resv none none (some s.env.sq.nextId) false)
      (storedBeat s r.inReg.op r.inReg.paddress r.inReg.op1) := by
  have ht1 := RwStage.tick_of_oneBeat hwrites hsd r.readResult resv s.env.sq.nextId
  rw [hnext] at ht1
  subst ht0
  exact ⟨rfl, _, RwStage.allocReq_of_writing hwrites _, rfl, congrArg RwTick.out ht1, congrArg RwTick.event ht1, rfl,
    rfl⟩

/-- Settles O19: every beat allocates what `storedBeat` and `bottomStored` say, and the receipts are those given. -/
theorem stageEmitsTheCollapsedStore : Obligations.StageEmitsTheCollapsedStore := by
  unfold Obligations.StageEmitsTheCollapsedStore
  intro s r resv resv' resv'' op va pa hwrites haccess hidle hvalid hop herror hva hpa hnext idW id0 t0 t1 performs
  subst op va pa
  have ht0 : (r.inReg.op = .sc → reservationHolds s.blk.loadReservation r.inReg.vaddress = true) →
      t0 = (r.enter .writeBottom r.readResult).silent := fun hholds =>
    RwStage.tick_of_writing hwrites hidle hvalid herror _ fun hsc => by rw [if_pos hsc, hholds hsc]
  refine ⟨fun hstore => ?_, fun hsc => ⟨fun hholds => ?_, fun hfails => ?_⟩, fun hsd => ?_⟩
  · obtain ⟨hsc, hsd⟩ : r.inReg.op ≠ .sc ∧ r.inReg.op ≠ .sd := by
      obtain h | h | h := hstore <;> simp [h]
    rw [performStore_of_granted haccess _ hsc]
    exact RwStage.performsBeat_storedBeat hwrites hsd hnext (ht0 fun h => absurd h hsc) resv'
  · rw [performStoreConditional_of_holds hsc haccess hholds]
    exact RwStage.performsBeat_storedBeat hwrites (by simp [hsc]) hnext (ht0 fun _ => hholds) resv'
  · have hfailing : t0 = r.emit (scFailResult r.inReg.next) .clear :=
      RwStage.tick_of_failing hwrites hidle hvalid herror _ hsc (by rw [if_pos hsc, hfails])
    rw [hfailing, performStoreConditional_of_fails haccess _ hfails, hnext]
    exact ⟨rfl, rfl, rfl⟩
  · have hbottom : t0 = (r.enter .writeBottom r.readResult).silent :=
      ht0 fun hsc => absurd (hsc.symm.trans hsd) (by decide)
    have htop : t1 = ((r.enter .writeBottom r.readResult).enterTop id0).silent :=
      (congrArg (fun t => t.next.tick resv' none none (some id0) false) hbottom).trans
        (RwStage.tick_of_sd hsd r.readResult resv' id0)
    have halloc := RwStage.allocReq_of_writing hwrites r.readResult
    rw [show r.inReg.op.beatType = .word by rw [hsd]; rfl] at halloc
    rw [hbottom, htop, performStoreDouble_of_granted haccess]
    refine ⟨rfl, rfl, rfl, _, _, halloc, RwStage.allocReq_of_writeTop (RwStage.enterTop_state _ _), rfl, ?_, rfl, rfl⟩
    rw [RwStage.silent_next, RwStage.tick_of_writeTop resv'' none (RwStage.enterTop_state _ _), ← hnext]
    rfl

/-! ## A tick with `recover` (R505) -/

@[simp] theorem ExecuteEntry.cancelIf_true_valid (e : ExecuteEntry) : (ExecuteEntry.cancelIf true e).valid = false := by
  simp [ExecuteEntry.cancelIf]

@[simp] theorem MemEntry2.cancelIf_true_valid (e : MemEntry2) : (MemEntry2.cancelIf true e).valid = false := by
  simp [MemEntry2.cancelIf]

@[simp] theorem RwStage.cancelIf_true_valid (r : RwStage) : (r.cancelIf true).inReg.valid = false := by
  simp [RwStage.cancelIf]

@[simp] theorem RwStage.done_valid (r : RwStage) : r.done.inReg.valid = false := rfl

theorem nextExecute_recover_valid (r : MemEntry1) (ready : Bool) (inp : MemEntry1) :
    (nextExecute r ready inp true).valid = false := by
  simp [nextExecute]

/-- R220 to R222: whatever its state, the TLB stage cancels the entry it takes or holds. -/
theorem TlbStage.tick_recover_valid (t : TlbStage) (inp : MemEntry2) (dtlb : DtlbResp) (outReady : Bool) :
    (t.tick inp dtlb outReady true).inReg.valid = false := by
  unfold TlbStage.tick
  split
  next => exact inp.cancelIf_true_valid
  next => split <;> exact t.inReg.cancelIf_true_valid
  next => exact t.inReg.cancelIf_true_valid

/-- A tick of the ReadWrite stage that emits nothing and leaves no valid entry. -/
def RwTick.Cancels (t : RwTick) : Prop := t.next.inReg.valid = false ∧ t.out = none

theorem RwTick.cancels_silent {r : RwStage} (h : r.inReg.valid = false) : r.silent.Cancels := ⟨h, rfl⟩

section
variable (r : RwStage)

/-- R266: in `idle` the entry that is held, or the one that is taken, loses `valid`. -/
theorem RwStage.tickIdle_recover_cancels (resv : LoadReservationEntry) (inp : Option MemEntry3) :
    (r.tickIdle resv inp true).Cancels := by
  unfold RwStage.tickIdle
  split
  next => exact RwTick.cancels_silent r.cancelIf_true_valid
  next hinvalid =>
    cases inp with
    | none => exact RwTick.cancels_silent (Bool.eq_false_of_not_eq_true hinvalid)
    | some e => exact RwTick.cancels_silent (RwStage.cancelIf_true_valid _)

/-- R267: a read that is answered is dropped, one that is not goes on for a cancelled entry. -/
theorem RwStage.tickRead_recover_cancels (read : Option SmaAnswer) (finish : Word → RwTick) :
    (r.tickRead read true finish).Cancels := by
  cases read with
  | none => exact RwTick.cancels_silent r.cancelIf_true_valid
  | some a =>
    simp only [RwStage.tickRead, Bool.or_true, if_true]
    exact RwTick.cancels_silent r.done_valid

/-- R257, R268: a write state snaps to idle. -/
theorem RwStage.tickWrite_recover (fired : Option SqReceipt) (finish : SqReceipt → RwTick) :
    r.tickWrite fired true finish = r.done.silent := rfl

theorem RwStage.tick_recover_cancels (resv : LoadReservationEntry) (inp : Option MemEntry3) (read : Option SmaAnswer)
    (fired : Option SqReceipt) : (r.tick resv inp read fired true).Cancels := by
  unfold RwStage.tick
  split
  next => exact r.tickIdle_recover_cancels resv inp
  next => exact r.tickRead_recover_cancels read _
  next => exact r.tickRead_recover_cancels read _
  next => exact RwTick.cancels_silent r.done_valid
  next => exact RwTick.cancels_silent r.done_valid

theorem RwStage.tick_recover_of_writing (hstate : r.state = .writeBottom ∨ r.state = .writeTop)
    (resv : LoadReservationEntry) (inp : Option MemEntry3) (read : Option SmaAnswer) (fired : Option SqReceipt) :
    r.tick resv inp read fired true = r.done.silent := by
  obtain hstate | hstate := hstate
  · rw [RwStage.tick, hstate]
    exact r.tickWrite_recover fired _
  · rw [RwStage.tick, hstate]
    exact r.tickWrite_recover fired _

end

/-- R339: `recover` clears `valid` in every slot of a circular buffer, a slot just filled included. -/
theorem InOrderQueue.tick_recover_valid (d : Nat) (q : InOrderQueue) (lanes : List BroadcastLane)
    (enq : Option ExecuteEntry) (deqReady : Bool) : ∀ e ∈ (q.tick d lanes enq deqReady true).buf, e.valid = false :=
  List.forall_mem_map.2 fun e _ => e.cancelIf_true_valid

theorem tickInOrder_recover_valid (d : Nat) (lanes : List BroadcastLane) (qs : List InOrderQueue)
    (enq : List (Option ExecuteEntry)) (ready : List Bool) :
    ∀ q ∈ tickInOrder d lanes true qs enq ready, ∀ e ∈ q.buf, e.valid = false := by
  induction qs generalizing enq ready with
  | nil => simp [tickInOrder]
  | cons q rest ih => exact List.forall_mem_cons.2 ⟨q.tick_recover_valid d lanes _ _, ih _ _⟩

/-- R355: `recover` clears `valid` in both registers of every cell. -/
theorem OutOfOrderQueue.tick_recover_valid (q : OutOfOrderQueue) (lanes : List BroadcastLane)
    (enq : Option ExecuteEntry) (deqReady : Bool) :
    ∀ c ∈ (q.tick lanes enq deqReady true).cells, c.data.valid = false ∧ c.shadow.valid = false :=
  List.forall_mem_map.2 fun _ _ => ⟨ExecuteEntry.cancelIf_true_valid _, ExecuteEntry.cancelIf_true_valid _⟩

theorem tickOutOfOrder_recover_valid (lanes : List BroadcastLane) (qs : List OutOfOrderQueue)
    (enq : List (Option ExecuteEntry)) (ready : List Bool) :
    ∀ q ∈ tickOutOfOrder lanes true qs enq ready, ∀ c ∈ q.cells, c.data.valid = false ∧ c.shadow.valid = false := by
  induction qs generalizing enq ready with
  | nil => simp [tickOutOfOrder]
  | cons q rest ih => exact List.forall_mem_cons.2 ⟨q.tick_recover_valid lanes _ _, ih _ _⟩

/-- R505: after a `recover` tick no entry in the block is valid. -/
theorem Block.tick_cancelled (p : Params) {b : Block} {i : BlockInput} (h : recoverOf b i = true) :
    (b.tick p i).Cancelled := by
  simp only [Block.tick, rwTickOf, h]
  exact ⟨ExecuteEntry.cancelIf_true_valid _, nextExecute_recover_valid _ _ _, b.tlb.tick_recover_valid _ _ _,
    (b.rw.tick_recover_cancels _ _ _ _).1, b.memQueue.tick_recover_valid _ _ _ _, tickInOrder_recover_valid _ _ _ _ _,
    tickOutOfOrder_recover_valid _ _ _ _⟩

/-- Settles O20: every stage and every queue cancels what it holds and what it takes. -/
theorem recoverCancelsEveryEntry : Obligations.RecoverCancelsEveryEntry := by
  unfold Obligations.RecoverCancelsEveryEntry
  intro p b i hrecover
  refine ⟨Block.tick_cancelled p hrecover, ?_, ?_, ?_, fun hwriting => ?_⟩
  · exact if_pos hrecover
  · exact if_pos hrecover
  · simp only [Block.outputs, rwTickOf, hrecover]
    exact (b.rw.tick_recover_cancels _ _ _ _).2
  · simp only [Block.tick, rwTickOf, hrecover, b.rw.tick_recover_of_writing hwriting]
    exact ⟨rfl, rfl⟩

/-! ## Read errors and `undefined` (R248, R249, R274) -/

/-- Settles O38: `undefined` raises whatever the state. -/
theorem undefinedTraps : Obligations.UndefinedTraps := by
  unfold Obligations.UndefinedTraps
  intro s w
  exact ⟨_, rfl, completeMemory_raised_trapped s none illegalInstruction⟩

/-- An aligned address that is translated without an error is granted (R86, R94). -/
theorem Reaches.access {s : State} {op : MemOp} {va pa : Addr} (h : Reaches s op va pa) :
    access s.env op va s.input.tlbAge = .granted pa := by
  rw [access_granted_iff, h.translated]
  exact ⟨h.aligned, rfl, rfl⟩

theorem memRead_of_unreadable {s : State} {pa : Addr} (h : ¬Readable s pa) (t : BeatType) :
    memRead s.env t pa s.input.smaPad = none :=
  (memRead_eq_none_iff _ _ _ _).2 (Bool.eq_true_of_not_eq_false h)

section
variable {s : State} {op : MemOp} {va pa : Addr} (h : Reaches s op va pa)
include h

theorem performLoad_of_unreadable (herror : ¬Readable s pa) : performLoad op va s = raised s loadAccessFault := by
  rw [performLoad, h.access]
  simp only [memRead_of_unreadable herror]

/-- R249: an error on either beat raises. -/
theorem performLoadDouble_of_unreadable (herror : ¬Readable s pa ∨ ¬Readable s (pa + 4)) :
    performLoadDouble op va s = raised s loadAccessFault := by
  rw [performLoadDouble, h.access]
  obtain hlo | hhi := herror
  · simp only [memRead_of_unreadable hlo]
  · simp only [memRead_of_unreadable hhi]
    split <;> rfl

theorem performLoadReserved_of_unreadable (herror : ¬Readable s pa) :
    performLoadReserved op va s = raised s loadAccessFault := by
  rw [performLoadReserved, h.access]
  simp only [memRead_of_unreadable herror]

theorem performAmo_of_unreadable (herror : ¬Readable s pa) (data : Data) :
    performAmo op va data s = raised s loadAccessFault := by
  rw [performAmo, h.access]
  simp only [memRead_of_unreadable herror]

end

theorem next_completeMemory_of_raised {s : State} {x : Executed} {code : ExcCode} (dest : Option RegNum)
    (hx : x = raised s code) :
    ∃ d, Host.Outcome.next (completeMemory s dest x) =
      (.next (completeMemory s d (raised s code)) : Host.Outcome State Fault Refusal) :=
  ⟨dest, by rw [hx]⟩

/-- R248, R249, R300: an instruction whose read answers an error raises `loadAccessFault` and does nothing else. -/
theorem exec_of_unreadable {s : State} {i : Instr} {op : MemOp} {pa : Addr} (hop : i.memOp = some op)
    (hreads : op.isRead = true ∨ op.isAmo = true) (h : Reaches s op (virtualAddress s i) pa)
    (herror : ¬Readable s pa ∨ (op = .ld ∧ ¬Readable s (pa + 4))) :
    ∃ dest, exec i s = .next (completeMemory s dest (raised s loadAccessFault)) := by
  have hbottom : op ≠ .ld → ¬Readable s pa := fun hld => herror.resolve_right fun htop => hld htop.1
  cases i with
  | lb f | lh f | lw f | lbu f | lhu f =>
    cases hop
    exact next_completeMemory_of_raised _ (performLoad_of_unreadable h (hbottom (by decide)))
  | ld f =>
    cases hop
    exact next_completeMemory_of_raised _ (performLoadDouble_of_unreadable h (herror.imp_right And.right))
  | lrW f =>
    cases hop
    exact next_completeMemory_of_raised _ (performLoadReserved_of_unreadable h (hbottom (by decide)))
  | amoswapW f | amoaddW f | amoxorW f | amoandW f | amoorW f | amominW f | amomaxW f | amominuW f | amomaxuW f =>
    cases hop
    exact next_completeMemory_of_raised _ (performAmo_of_unreadable h (hbottom (by decide)) _)
  | sb f | sh f | sw f | sd f | scW f | undefined _ =>
    cases hop
    exact absurd hreads (by decide)
  | fenceI _ | sfenceVma _ | mret | sret => cases hop
  | csrrw _ | csrrs _ | csrrc _ | csrrwi _ | csrrsi _ | csrrci _ => cases hop

/-- Settles O40: every reading instruction raises the code, and a raise traps. -/
theorem readErrorsTrap : Obligations.ReadErrorsTrap := by
  unfold Obligations.ReadErrorsTrap
  intro s i op pa hop hreads hreaches herror
  obtain ⟨dest, hexec⟩ := exec_of_unreadable hop hreads hreaches herror
  exact ⟨_, hexec, completeMemory_raised_trapped s dest loadAccessFault⟩

/-! ## Retirement of a memory operation that completes (R425) -/

/-- R410, R425: the outputs with which a memory operation that raised nothing retires alone. -/
theorem soloOut_of_completed (s : State) (handlerPC : Addr) (v : Data) (sc lr write : Bool) (va : Addr)
    (id0 id1 : SqReceipt) :
    soloOut (soloEntry s (fallThrough s)
        { commonResult (fallThrough s) with
          result := v, sc := sc, lr := lr, lrAddress := va, write := write, writeID0 := id0, writeID1 := id1 })
        handlerPC =
      normalOut s v (if lr || sc then some { load := lr, address := va } else none)
        (if write then some { id0 := id0, id1 := id1 } else none) := by
  obtain ⟨-, -, -, -, -, hout⟩ := soloOut_of_disposition (soloEntry s (fallThrough s)
    { commonResult (fallThrough s) with
      result := v, sc := sc, lr := lr, lrAddress := va, write := write, writeID0 := id0, writeID1 := id1 })
    handlerPC rfl
  rw [hout (by simp [disposition, soloEntry, commonResult, ExecuteResult.zero])]
  cases lr <;> cases sc <;> cases write <;> rfl

/-- R90: `env'` differs from `env` in the store queue, memory and the overwritten bytes at most. -/
structure Env.DiffersInStores (env env' : Env) : Prop where
  pc : env'.pc = env.pc
  x : env'.x = env.x
  rob : env'.rob = env.rob
  dtlb : env'.dtlb = env.dtlb
  superseded : env'.superseded = env.superseded
  smaErrors : env'.smaErrors = env.smaErrors
  sinks : env'.sinks = env.sinks
  bus : env'.bus = env.bus

theorem Env.DiffersInStores.memWrite {env env' : Env} (h : env.DiffersInStores env') (idW : Nat) (r : AllocReq) :
    env.DiffersInStores (env'.memWrite idW r) := by
  obtain ⟨hpc, hx, hrob, hdtlb, herrors, -⟩ := env'.room_frame
  obtain ⟨hsuperseded, hsinks, hbus⟩ := env'.room_rest
  exact ⟨hpc.trans h.pc, hx.trans h.x, hrob.trans h.rob, hdtlb.trans h.dtlb, hsuperseded.trans h.superseded,
    herrors.trans h.smaErrors, hsinks.trans h.sinks, hbus.trans h.bus⟩

theorem Env.Allocates.differsInStores {idW : Nat} {env env' : Env} (h : env.Allocates idW env') :
    env.DiffersInStores env' := by
  have hself : env.DiffersInStores env := ⟨rfl, rfl, rfl, rfl, rfl, rfl, rfl, rfl⟩
  cases h with
  | nothing => exact hself
  | one r => exact hself.memWrite idW r
  | two r r' => exact (hself.memWrite idW r).memWrite idW r'

section
variable {s : State} {x : Executed} {v : Data} {lr : Option LrUpdate} {sq : Option SqRetire}
  (hallocates : s.env.Allocates s.cfg.sqIdW.val x.env)
  (ho : soloOut (soloEntry s (fallThrough s) x.result) s.input.handlerPC = normalOut s v lr sq)
include ho

theorem completeMemory_env_of_normal (dest : Option RegNum) :
    (completeMemory s dest x).env = x.env.retireSolo (normalOut s v lr sq) x.result dest s.input.drain := by
  rw [← ho]
  rfl

include hallocates in
/-- R425: an operation that allocated stores at most and retires by the Normal disposition. -/
theorem completeMemory_retiredNormal (hresult : x.result.result = v) (hreal : x.result.real = fallThrough s)
    (dest : Option RegNum) : RetiredNormal s (completeMemory s dest x) dest v lr sq := by
  have hx := hallocates.differsInStores
  obtain ⟨hpc, hregs, hrob, hdtlb, herrors, hsinks, hbus, hsuperseded⟩ :=
    x.env.retireSolo_frame (normalOut s v lr sq) x.result dest s.input.drain
  rw [← completeMemory_env_of_normal ho] at hpc hregs hrob hdtlb herrors hsinks hbus hsuperseded
  have hengine : (completeMemory s dest x).out.engine = normalOut s v lr sq := ho
  refine ⟨⟨rfl, rfl, rfl, hdtlb.trans hx.dtlb, herrors.trans hx.smaErrors, hsinks.trans hx.sinks, ?_, ?_, ?_⟩, ?_,
    hpc.trans hreal, hengine⟩
  · rw [hrob, hx.rob]
  · rw [hbus, hx.bus, hx.rob, hresult]
    rfl
  · rw [hsuperseded, hx.superseded, hengine]
  · rw [hregs, hx.x]
    cases dest <;> rfl

/-- R388: the reservations of an operation that asks nothing of them. -/
theorem completeMemory_blk (hevent : x.event = .none) (hlr : lr = none) (dest : Option RegNum) :
    (completeMemory s dest x).blk = s.blk := by
  subst hlr
  simp only [completeMemory, retireAlone, ho, hevent]
  rfl

end

/-! ## What a load sees after a retirement, and after an allocation (R90, R103, R434) -/

/-- R434: without `recover` a retirement discards nothing, and a commit does not show. -/
theorem Env.loadByte_retire_of_no_recover (env : Env) {o : EngineOut} (h : o.recover = none)
    (dest : RobReceipt → Option RegNum) (a : Addr) : (env.retire o dest).loadByte a = env.loadByte a := by
  have hsq : (env.retire o dest).sq = (env.sq.commit o.sq0).commit o.sq1 := by
    show StoreQueue.discardIf _ o.recover.isSome = _
    rw [h]
    rfl
  refine Env.loadByte_congr rfl ?_
  rw [hsq, (StoreQueue.commit_spec _ _).2.2, (StoreQueue.commit_spec _ _).2.2]

theorem Env.loadByte_retireSolo_of_no_recover (env : Env) {o : EngineOut} (h : o.recover = none) (r : ExecuteResult)
    (dest : Option RegNum) (limit : Option Nat) (a : Addr) :
    (env.retireSolo o r dest limit).loadByte a = env.loadByte a := by
  calc (env.retireSolo o r dest limit).loadByte a
    _ = (((env.retire o fun _ => dest).withPc (pcAfter env.pc o r.real r.real)).flush o r).loadByte a :=
      Env.loadByte_drain _ limit a
    _ = (env.retire o fun _ => dest).loadByte a := Env.loadByte_flush _ _ _ a
    _ = env.loadByte a := env.loadByte_retire_of_no_recover h _ a

theorem Env.loadByte_room (env : Env) (a : Addr) : env.room.loadByte a = env.loadByte a := by
  unfold Env.room
  split
  · rfl
  · exact env.loadByte_drain none a

/-- R90, R91: a load sees the bytes of a queued store where it covers them. -/
theorem Env.loadByte_memWrite (env : Env) (idW : Nat) (r : AllocReq) (a : Addr) :
    (env.memWrite idW r).loadByte a =
      if (a - r.address).toNat < r.writeType.bytes then byteOfWord r.data (a - r.address).toNat
      else env.loadByte a := by
  obtain ⟨hentries, -, hmem⟩ := env.memWrite_sq idW r
  rw [Env.loadByte_eq_getD, hentries, hmem, youngestByte_append, ← Env.loadByte_room, Env.loadByte_eq_getD env.room]
  simp only [youngestByte, StoreQueueEntry.byteAt]
  split <;> rfl

theorem completeMemory_loadByte {s : State} {x : Executed} {v : Data} {lr : Option LrUpdate} {sq : Option SqRetire}
    (ho : soloOut (soloEntry s (fallThrough s) x.result) s.input.handlerPC = normalOut s v lr sq)
    (dest : Option RegNum) (a : Addr) : (completeMemory s dest x).env.loadByte a = x.env.loadByte a := by
  rw [completeMemory_env_of_normal ho]
  exact x.env.loadByte_retireSolo_of_no_recover rfl _ _ _ a

/-! ## Loads (R251 to R256) -/

theorem completeMemory_loads {s : State} {x : Executed} {v : Data}
    (hx : x = { result := loadResult (fallThrough s) v, env := s.env, event := .none }) (rd : RegNum) :
    RetiredNormal s (completeMemory s (some rd) x) (some rd) v none none ∧
      (completeMemory s (some rd) x).blk = s.blk ∧ KeepsMemory s (completeMemory s (some rd) x) := by
  subst hx
  have ho : soloOut (soloEntry s (fallThrough s) (loadResult (fallThrough s) v)) s.input.handlerPC =
      normalOut s v none none := soloOut_of_completed s s.input.handlerPC v false false false 0 0 0
  exact ⟨completeMemory_retiredNormal .nothing ho rfl rfl _, completeMemory_blk ho rfl rfl _,
    completeMemory_loadByte ho _⟩

theorem Env.byteOfWord_loadWord (env : Env) (pa : Addr) {k : Nat} (hk : k < 4) :
    byteOfWord (env.loadWord pa) k = env.loadByte (pa + BitVec.ofNat 32 k) := by
  rw [← byteOfWord_join_fun (fun j => env.loadByte (pa + BitVec.ofNat 32 j)) hk]
  simp only [BitVec.add_zero]
  rfl

/-- The low half of a word is its two low bytes. -/
theorem extract_half (d : Word) : d.extractLsb' 0 16 = byteOfWord d 1 ++ byteOfWord d 0 :=
  (BitVec.extractLsb'_append_extractLsb'_eq_extractLsb' (start₁ := 0) (len₁ := 8) (len₂ := 8) rfl).symm

section
variable {s : State} {pa : Addr} (h : Readable s pa)
include h

/-- R82, R103: a read answers with the bytes a load sees, as far as it is wide. -/
theorem exists_memRead (t : BeatType) :
    ∃ d, memRead s.env t pa s.input.smaPad = some d ∧
      ∀ k, k < t.bytes → byteOfWord d k = s.env.loadByte (pa + BitVec.ofNat 32 k) := by
  have hread := (memRead_eq_some_iff s.env t pa s.input.smaPad _).2 ⟨h, rfl⟩
  exact ⟨_, hread, readSeesTheYoungestStore s.env t pa s.input.smaPad _ hread⟩

theorem exists_memRead_byte :
    ∃ d, memRead s.env .byte pa s.input.smaPad = some d ∧ d.extractLsb' 0 8 = s.env.loadByte pa := by
  obtain ⟨d, hread, hbyte⟩ := exists_memRead h .byte
  have h0 := hbyte 0 (by decide)
  rw [BitVec.add_zero] at h0
  exact ⟨d, hread, h0⟩

theorem exists_memRead_half :
    ∃ d, memRead s.env .half pa s.input.smaPad = some d ∧ d.extractLsb' 0 16 = s.env.loadHalf pa := by
  obtain ⟨d, hread, hbyte⟩ := exists_memRead h .half
  have h0 := hbyte 0 (by decide)
  rw [BitVec.add_zero] at h0
  refine ⟨d, hread, ?_⟩
  rw [extract_half, h0, hbyte 1 (by decide)]
  rfl

theorem memRead_word_of_readable : memRead s.env .word pa s.input.smaPad = some (s.env.loadWord pa) := by
  obtain ⟨d, hread, hbyte⟩ := exists_memRead h .word
  rw [hread]
  exact congrArg some (Word.ext_byte fun k hk => (hbyte k hk).trans (s.env.byteOfWord_loadWord pa hk).symm)

end

/-- Settles O33: each load formats the bytes that its read answers with. -/
theorem loadsComplete : Obligations.LoadsComplete := by
  unfold Obligations.LoadsComplete
  intro s f pa hreadable va loads
  obtain ⟨b, hbyte, hb⟩ := exists_memRead_byte hreadable
  obtain ⟨w, hhalf, hw⟩ := exists_memRead_half hreadable
  have hword := memRead_word_of_readable hreadable
  rw [← hb, ← hw]
  refine ⟨fun h => ⟨_, rfl, completeMemory_loads (performLoad_of_read h.access hbyte) f.rd⟩,
    fun h => ⟨_, rfl, completeMemory_loads (performLoad_of_read h.access hbyte) f.rd⟩,
    fun h => ⟨_, rfl, completeMemory_loads (performLoad_of_read h.access hhalf) f.rd⟩,
    fun h => ⟨_, rfl, completeMemory_loads (performLoad_of_read h.access hhalf) f.rd⟩,
    fun h => ⟨_, rfl, completeMemory_loads (performLoad_of_read h.access hword) f.rd⟩,
    fun h hreadableTop => ⟨_, rfl, completeMemory_loads
      (performLoadDouble_of_reads h.access hword (memRead_word_of_readable hreadableTop)) f.rd⟩⟩

/-! ## Stores (R270 to R273) -/

theorem byteOfWord_lowWord (data : Data) {k : Nat} (hk : k < 4) :
    byteOfWord (lowWord data) k = data.extractLsb' (8 * k) 8 := by
  ext i hi
  simp [byteOfWord, lowWord, show 8 * k + i < 32 by omega]

theorem byteOfWord_highWord (data : Data) {k : Nat} (hk : k < 4) :
    byteOfWord (highWord data) k = data.extractLsb' (8 * (k + 4)) 8 := by
  ext i hi
  simp [byteOfWord, highWord, show 8 * k + i < 32 by omega, show 32 + (8 * k + i) = 8 * (k + 4) + i by omega]

/-- The distance from the second word of a double, of the addresses in its two words. -/
theorem toNat_sub_add_four (a pa : Addr) :
    ((a - pa).toNat < 4 → ¬(a - (pa + 4)).toNat < 4) ∧
      (4 ≤ (a - pa).toNat → (a - (pa + 4)).toNat = (a - pa).toNat - 4) := by
  constructor <;> intro h <;> bv_omega

/-- R84: the bytes a load sees, told by their distance from `pa`. -/
theorem stores_of_loadByte {s t : State} {pa : Addr} {n : Nat} {data : Data} (hn : n ≤ 2 ^ 32)
    (h : ∀ a, t.env.loadByte a =
      if (a - pa).toNat < n then data.extractLsb' (8 * (a - pa).toNat) 8 else s.env.loadByte a) :
    Stores s t pa n data := by
  refine ⟨fun k hk => ?_, fun a ha => (h a).trans (if_neg (Nat.not_lt.2 ha))⟩
  have hdistance : (pa + BitVec.ofNat 32 k - pa).toNat = k := by
    rw [add_sub_cancel_left, BitVec.toNat_ofNat, Nat.mod_eq_of_lt (Nat.lt_of_lt_of_le hk hn)]
  rw [h, hdistance, if_pos hk]

/-- R90: what a load sees once a beat of the low word of `data` is queued. -/
theorem Env.loadByte_memWrite_lowWord (env : Env) (idW : Nat) (t : BeatType) (pa : Addr) (data : Data) (a : Addr) :
    (env.memWrite idW { writeType := t, address := pa, data := lowWord data }).loadByte a =
      if (a - pa).toNat < t.bytes then data.extractLsb' (8 * (a - pa).toNat) 8 else env.loadByte a := by
  rw [Env.loadByte_memWrite]
  split
  next hinside => exact byteOfWord_lowWord data (Nat.lt_of_lt_of_le hinside (BeatType.bytes_le t))
  next => rfl

/-- R90, R273: what a load sees once both beats of an `sd` are queued. -/
theorem loadByte_after_both_beats (s : State) (pa : Addr) (data : Data) (a : Addr) :
    ((bottomStored s pa data).memWrite s.cfg.sqIdW.val
        { writeType := .word, address := pa + 4, data := highWord data }).loadByte a =
      if (a - pa).toNat < 8 then data.extractLsb' (8 * (a - pa).toNat) 8 else s.env.loadByte a := by
  obtain ⟨hlow, hhigh⟩ := toNat_sub_add_four a pa
  rw [Env.loadByte_memWrite, bottomStored, Env.loadByte_memWrite_lowWord]
  show (if (a - (pa + 4)).toNat < 4 then _ else if (a - pa).toNat < 4 then _ else _) = _
  by_cases hinLow : (a - pa).toNat < 4
  · rw [if_neg (hlow hinLow), if_pos hinLow, if_pos (by omega)]
  · have hdistance := hhigh (Nat.not_lt.1 hinLow)
    rw [if_neg hinLow]
    by_cases hinHigh : (a - pa).toNat < 8
    · have hk : (a - (pa + 4)).toNat < 4 := by omega
      rw [if_pos hk, if_pos hinHigh, byteOfWord_highWord data hk, hdistance,
        Nat.sub_add_cancel (Nat.not_lt.1 hinLow)]
    · rw [if_neg (by omega), if_neg hinHigh]

/-- R425, R434: a store that commits the receipts `id0` and `id1`, with the bytes that its entries cover. -/
theorem completeMemory_stores {s : State} {op : MemOp} {x : Executed} {id0 id1 : SqReceipt} {pa : Addr} {n : Nat}
    {data : Data} (hsc : op ≠ .sc) (hresult : x.result = writeResult (fallThrough s) op 0 id0 id1)
    (hevent : x.event = .none) (hallocates : s.env.Allocates s.cfg.sqIdW.val x.env) (hn : n ≤ 2 ^ 32)
    (hbytes : ∀ a, x.env.loadByte a =
      if (a - pa).toNat < n then data.extractLsb' (8 * (a - pa).toNat) 8 else s.env.loadByte a) :
    RetiredNormal s (completeMemory s none x) none 0 none (some { id0 := id0, id1 := id1 }) ∧
      (completeMemory s none x).blk = s.blk ∧ Stores s (completeMemory s none x) pa n data := by
  have ho : soloOut (soloEntry s (fallThrough s) x.result) s.input.handlerPC =
      normalOut s 0 none (some { id0 := id0, id1 := id1 }) := by
    have hout := soloOut_of_completed s s.input.handlerPC 0 (decide (op = .sc)) false true 0 id0 id1
    rw [hresult, writeResult]
    rw [decide_eq_false hsc] at hout ⊢
    exact hout
  refine ⟨completeMemory_retiredNormal hallocates ho (by rw [hresult]; rfl) (by rw [hresult]; rfl) none,
    completeMemory_blk ho hevent rfl none, stores_of_loadByte hn fun a => ?_⟩
  rw [completeMemory_loadByte ho, hbytes]

/-- R270 to R272: a store of one beat. -/
theorem completeMemory_performStore {s : State} {op : MemOp} {va pa : Addr} (hsc : op ≠ .sc) (h : Reaches s op va pa)
    (data : Data) :
    RetiredNormal s (completeMemory s none (performStore op va data s)) none 0 none (oneReceipt s) ∧
      (completeMemory s none (performStore op va data s)).blk = s.blk ∧
      Stores s (completeMemory s none (performStore op va data s)) pa op.beatType.bytes data := by
  rw [performStore_of_granted h.access data hsc]
  exact completeMemory_stores hsc rfl (if_neg hsc) (.one _)
    (Nat.le_trans (BeatType.bytes_le op.beatType) (by decide)) (s.env.loadByte_memWrite_lowWord _ _ pa data)

/-- Settles O34: one beat stores the bytes of its width, the two beats of an `sd` lie side by side. -/
theorem storesComplete : Obligations.StoresComplete := by
  unfold Obligations.StoresComplete
  intro s f pa va stores
  refine ⟨fun h => ⟨_, rfl, completeMemory_performStore (by decide) h _⟩,
    fun h => ⟨_, rfl, completeMemory_performStore (by decide) h _⟩,
    fun h => ⟨_, rfl, completeMemory_performStore (by decide) h _⟩, fun h => ⟨_, rfl, ?_⟩⟩
  have hsecond : (bottomStored s pa (readReg s.env.x f.rs2)).sq.nextId =
      (s.env.sq.nextId + 1) % 2 ^ s.cfg.sqIdW.val := (s.env.memWrite_sq _ _).2.1
  rw [performStoreDouble_of_granted h.access, hsecond]
  exact completeMemory_stores (op := .sd) (by decide) rfl rfl (.two _ _) (by decide) (loadByte_after_both_beats s pa _)

end Sys2Proof.Machine

/-! PROOFS. The statements about the atomics (`43_readwrite_atomics.md`): the sign table (R302), the reservation check
of an `sc` (R294), and what `lr.w`, `sc.w` and the nine AMOs do to their end (R291, R293 to R296, R300 to R311). -/

namespace Sys2Proof.Machine

/-! ## The sign table (R302) -/

/-- R302: the two's complement value of a word, by its sign bit and its low 31 bits. -/
theorem toInt_eq_sub_sign (a : Word) :
    a.toInt = (a.extractLsb' 0 31).toNat - if a.getLsbD 31 then (2 ^ 31 : Int) else 0 := by
  have hlow : (a.extractLsb' 0 31).toNat = a.toNat % 2 ^ 31 := by
    rw [BitVec.extractLsb'_toNat, Nat.shiftRight_zero]
  have hbound := a.isLt
  rw [hlow, BitVec.toInt_eq_msb_cond, ← BitVec.msb_eq_getLsbD_last a, BitVec.msb_eq_decide]
  simp only [decide_eq_true_eq]
  split <;> omega

/-- Settles O9: words of one sign stand as their low bits do, and of two signs the set one is the lesser. -/
theorem signTableIsSignedOrder : Obligations.SignTableIsSignedOrder := by
  unfold Obligations.SignTableIsSignedOrder
  intro a b
  rw [toInt_eq_sub_sign a, toInt_eq_sub_sign b, ltS]
  generalize a.extractLsb' 0 31 = low, b.extractLsb' 0 31 = low'
  have hlow := low.isLt
  have hlow' := low'.isLt
  cases a.getLsbD 31 <;> cases b.getLsbD 31
  case false.false | true.true => simp [BitVec.ult]
  case false.true => simp; omega
  case true.false => simp; omega

/-! ## The reservation check (R294) -/

theorem reservationHolds_iff (resv : LoadReservationEntry) (va : Addr) :
    reservationHolds resv va = true ↔ resv.valid = true ∧ resv.address = va := by
  rw [reservationHolds, Bool.and_eq_true, beq_iff_eq]

theorem reservationHolds_eq_false_iff (resv : LoadReservationEntry) (va : Addr) :
    reservationHolds resv va = false ↔ ¬(resv.valid = true ∧ resv.address = va) := by
  rw [← reservationHolds_iff, Bool.not_eq_true]

/-- Settles O16: the dispatch of an `sc` has two outcomes, told apart by the check. -/
theorem storeConditionalChecksTheReservation : Obligations.StoreConditionalChecksTheReservation := by
  unfold Obligations.StoreConditionalChecksTheReservation
  intro r resv inp read fired hidle hvalid hsc herror t
  have hwrites : r.inReg.op.isWrite = true := by rw [hsc]; rfl
  have ht : t = r.dispatch resv := RwStage.tick_of_idle resv inp hidle hvalid read fired
  rw [RwStage.dispatch_of_writing resv hwrites herror] at ht
  refine ⟨fun hholds => ?_, fun hfails => ?_⟩
  · rw [← reservationHolds_iff] at hholds
    rw [ht, if_neg (by simp [hholds])]
    exact ⟨rfl, rfl, rfl⟩
  · rw [← reservationHolds_eq_false_iff] at hfails
    rw [ht, if_pos ⟨hsc, hfails⟩]
    exact ⟨rfl, rfl, rfl, rfl⟩

/-! ## Retirement of an atomic that completes (R384 to R386, R425) -/

section
variable {s : State} {x : Executed} {v : Data} {lr : Option LrUpdate} {sq : Option SqRetire}
  (ho : soloOut (soloEntry s (fallThrough s) x.result) s.input.handlerPC = normalOut s v lr sq)
include ho

/-- R384 to R386: without `recover` each copy of the reservation follows its own interface. -/
theorem completeMemory_reservations (dest : Option RegNum) :
    (completeMemory s dest x).blk = s.blk.withReservations (applyReservation s.blk.loadReservation x.event)
      (nextRecovery s.blk.recoveryLoadReservation lr) := by
  simp only [completeMemory, retireAlone, ho]
  rfl

variable (hresult : x.result.result = v) (hreal : x.result.real = fallThrough s)
include hresult hreal

/-- An atomic that stores nothing. -/
theorem completeMemory_retiresReading (henv : x.env = s.env) (dest : Option RegNum) :
    RetiredNormal s (completeMemory s dest x) dest v lr sq ∧ KeepsMemory s (completeMemory s dest x) := by
  refine ⟨completeMemory_retiredNormal (henv ▸ .nothing) ho hresult hreal dest, fun a => ?_⟩
  rw [completeMemory_loadByte ho, henv]

/-- R295, R300: an atomic that queues a word. -/
theorem completeMemory_retiresStoring {pa : Addr} {data : Data}
    (henv : x.env = s.env.memWrite s.cfg.sqIdW.val { writeType := .word, address := pa, data := lowWord data })
    (dest : Option RegNum) :
    RetiredNormal s (completeMemory s dest x) dest v lr sq ∧ Stores s (completeMemory s dest x) pa 4 data := by
  refine ⟨completeMemory_retiredNormal (henv ▸ .one _) ho hresult hreal dest,
    stores_of_loadByte (by decide) fun a => ?_⟩
  rw [completeMemory_loadByte ho, henv]
  exact s.env.loadByte_memWrite_lowWord s.cfg.sqIdW.val .word pa data a

end

/-! ## `lr.w` and `sc.w` (R291, R293 to R296) -/

/-- R291: an `lr` at `va` that has read. -/
theorem completeMemory_loadReserved (s : State) (va : Addr) (v : Data) (dest : Option RegNum) :
    let t := completeMemory s dest { result := lrResult (fallThrough s) va v, env := s.env, event := .set va }
    RetiredNormal s t dest v (some { load := true, address := va }) none ∧
      t.blk = s.blk.withReservations { address := va, valid := true } { address := va, valid := true } ∧
      KeepsMemory s t := by
  intro t
  have ho : soloOut (soloEntry s (fallThrough s) (lrResult (fallThrough s) va v)) s.input.handlerPC =
      normalOut s v (some { load := true, address := va }) none :=
    soloOut_of_completed s s.input.handlerPC v false true false va 0 0
  have hblk : t.blk = _ := completeMemory_reservations ho dest
  obtain ⟨hretired, hkeeps⟩ := completeMemory_retiresReading (s := s) (x := ⟨_, _, .set va⟩) ho rfl rfl rfl dest
  exact ⟨hretired, hblk, hkeeps⟩

/-- Settles O35: the read gives the word, and both copies of the reservation are set. -/
theorem loadReservedCompletes : Obligations.LoadReservedCompletes := by
  unfold Obligations.LoadReservedCompletes
  intro s f pa hreadable h
  refine ⟨_, rfl, ?_⟩
  rw [performLoadReserved_of_read h.access (memRead_word_of_readable hreadable)]
  exact completeMemory_loadReserved s (baseAddress s f.rs1) _ (some f.rd)

/-- R294 to R296: an `sc` whose reservation holds. -/
theorem completeMemory_storedBeat_sc (s : State) (pa : Addr) (data : Data) (dest : Option RegNum) :
    let t := completeMemory s dest (storedBeat s .sc pa data)
    t.blk = s.blk.withReservations { s.blk.loadReservation with valid := false }
        { s.blk.recoveryLoadReservation with valid := false } ∧
      RetiredNormal s t dest 0 (some { load := false, address := 0 }) (oneReceipt s) ∧ Stores s t pa 4 data := by
  have ho : soloOut (soloEntry s (fallThrough s) (storedBeat s .sc pa data).result) s.input.handlerPC =
      normalOut s 0 (some { load := false, address := 0 }) (oneReceipt s) :=
    soloOut_of_completed s s.input.handlerPC 0 true false true 0 s.env.sq.nextId s.env.sq.nextId
  exact ⟨completeMemory_reservations ho dest, completeMemory_retiresStoring ho rfl rfl rfl dest⟩

/-- R294: an `sc` whose reservation does not hold. -/
theorem completeMemory_failedSc (s : State) (dest : Option RegNum) :
    let t := completeMemory s dest { result := scFailResult (fallThrough s), env := s.env, event := .clear }
    t.blk = s.blk.withReservations { s.blk.loadReservation with valid := false }
        { s.blk.recoveryLoadReservation with valid := false } ∧
      RetiredNormal s t dest 1 (some { load := false, address := 0 }) none ∧ KeepsMemory s t := by
  intro t
  have ho : soloOut (soloEntry s (fallThrough s) (scFailResult (fallThrough s))) s.input.handlerPC =
      normalOut s 1 (some { load := false, address := 0 }) none :=
    soloOut_of_completed s s.input.handlerPC 1 true false false 0 0 0
  have hblk : t.blk = _ := completeMemory_reservations ho dest
  exact ⟨hblk, completeMemory_retiresReading ho rfl rfl rfl dest⟩

/-- Settles O36: the check of the speculative copy decides between the two outcomes. -/
theorem storeConditionalCompletes : Obligations.StoreConditionalCompletes := by
  unfold Obligations.StoreConditionalCompletes
  intro s f pa h holds
  refine ⟨_, rfl, ?_⟩
  by_cases hholds : holds
  · rw [performStoreConditional_of_holds rfl h.access ((reservationHolds_iff _ _).2 hholds)]
    obtain ⟨hblk, hstored⟩ := completeMemory_storedBeat_sc s pa (readReg s.env.x f.rs2) (some f.rd)
    exact ⟨hblk, fun _ => hstored, fun hnot => absurd hholds hnot⟩
  · rw [performStoreConditional_of_fails h.access _ ((reservationHolds_eq_false_iff _ _).2 hholds)]
    obtain ⟨hblk, hfailed⟩ := completeMemory_failedSc s (some f.rd)
    exact ⟨hblk, fun hyes => absurd hyes hholds, fun _ => hfailed⟩

/-! ## The AMOs (R300 to R311) -/

/-- R258, R300: an AMO that has read the word `d`. -/
theorem completeMemory_performAmo {s : State} {op : MemOp} {va pa : Addr} (hamo : op.isAmo = true)
    (h : Reaches s op va pa) (hreadable : Readable s pa) (data : Data) (dest : Option RegNum) :
    let t := completeMemory s dest (performAmo op va data s)
    RetiredNormal s t dest ((s.env.loadWord pa).setWidth 64) none (oneReceipt s) ∧ t.blk = s.blk ∧
      Stores s t pa 4 ((amoALU op (s.env.loadWord pa) (lowWord data)).setWidth 64) := by
  rw [performAmo_of_read h.access (memRead_word_of_readable hreadable)]
  have hsc : op ≠ .sc := fun hop => absurd (hop ▸ hamo) (by decide)
  have ho : soloOut (soloEntry s (fallThrough s) (writeResult (fallThrough s) op
        ((s.env.loadWord pa).setWidth 64) s.env.sq.nextId s.env.sq.nextId)) s.input.handlerPC =
      normalOut s ((s.env.loadWord pa).setWidth 64) none (oneReceipt s) := by
    rw [writeResult, decide_eq_false hsc]
    exact soloOut_of_completed s s.input.handlerPC _ false false true 0 s.env.sq.nextId s.env.sq.nextId
  obtain ⟨hretired, hstores⟩ := completeMemory_retiresStoring
    (x := ⟨writeResult (fallThrough s) op _ _ _, _, .none⟩) ho rfl rfl
    (by rw [lowWord_setWidth (amoALU op (s.env.loadWord pa) (lowWord data))]) dest
  exact ⟨hretired, completeMemory_blk ho rfl rfl dest, hstores⟩

theorem amoCompletes_of_amoALU {op : MemOp} {mk : AtomicFields → Instr} {f : Word → Word → Word}
    (hamo : op.isAmo = true)
    (hexec : ∀ (a : AtomicFields) (s : State), exec (mk a) s =
      .next (completeMemory s (some a.rd) (performAmo op (baseAddress s a.rs1) (readReg s.env.x a.rs2) s)))
    (hcombines : ∀ old operand, amoALU op old operand = f old operand) : AmoCompletes op mk f := by
  intro s a pa h hreadable
  refine ⟨_, hexec a s, ?_⟩
  rw [← hcombines]
  exact completeMemory_performAmo hamo h hreadable _ _

/-- R302: a choice by the sign table is one by the signed order. -/
theorem ite_ltS (a b c d : Word) : (if ltS a b then c else d) = if a.toInt < b.toInt then c else d := by
  rw [signTableIsSignedOrder a b]
  exact ite_congr (decide_eq_true_eq) (fun _ => rfl) fun _ => rfl

theorem ite_ltU (a b c d : Word) : (if ltU a b then c else d) = if a.toNat < b.toNat then c else d :=
  ite_congr (decide_eq_true_eq) (fun _ => rfl) fun _ => rfl

/-- Settles O37: every AMO runs as `performAmo`, and its combinator is the one stated. -/
theorem atomicMemoryOperationsComplete : Obligations.AtomicMemoryOperationsComplete := by
  unfold Obligations.AtomicMemoryOperationsComplete
  exact ⟨amoCompletes_of_amoALU rfl (fun _ _ => rfl) fun _ _ => rfl,
    amoCompletes_of_amoALU rfl (fun _ _ => rfl) fun _ _ => rfl,
    amoCompletes_of_amoALU rfl (fun _ _ => rfl) fun _ _ => rfl,
    amoCompletes_of_amoALU rfl (fun _ _ => rfl) fun _ _ => rfl,
    amoCompletes_of_amoALU rfl (fun _ _ => rfl) fun _ _ => rfl,
    amoCompletes_of_amoALU rfl (fun _ _ => rfl) fun a b => ite_ltS a b a b,
    amoCompletes_of_amoALU rfl (fun _ _ => rfl) fun a b => ite_ltS a b b a,
    amoCompletes_of_amoALU rfl (fun _ _ => rfl) fun a b => ite_ltU a b a b,
    amoCompletes_of_amoALU rfl (fun _ _ => rfl) fun a b => ite_ltU a b b a⟩

end Sys2Proof.Machine

/-! PROOFS. The statements about the execute queues (`44_execute_queue.md`): how an entry wakes (R331), what a queue
offers (R333, R338, R352), that either variant keeps its entries in order of age (R339, R356), that no broadcast is
missed (R336, R514), and what the units outside the block report (R512, R515). -/

namespace Sys2Proof.Machine

/-! ## Waking (R331) -/

/-- R331: a slot takes the value of the lowest lane that carries its tag. -/
theorem wakeSlot_of_find {lanes : List BroadcastLane} {s : OperandSlot} {l : BroadcastLane}
    (hpending : s.pending = true) (hfind : lanes.find? (fun l => l.valid && l.tag == s.tag) = some l) :
    wakeSlot lanes s = { pending := false, tag := s.tag, value := l.value } := by
  rw [wakeSlot, if_pos hpending, hfind]

/-- R331: a slot whose tag no lane carries stays. -/
theorem wakeSlot_of_unheard {lanes : List BroadcastLane} {s : OperandSlot}
    (h : ∀ l ∈ lanes, ¬(l.valid = true ∧ l.tag = s.tag)) : wakeSlot lanes s = s := by
  have hfind : lanes.find? (fun l => l.valid && l.tag == s.tag) = none :=
    List.find?_eq_none.2 fun l hl => by simpa using h l hl
  rw [wakeSlot, hfind]
  exact ite_self s

/-- R331: waking a slot ends its wait, or no lane carried its tag and it stays. -/
theorem wakeSlot_ends_or_unheard (lanes : List BroadcastLane) (s : OperandSlot) :
    (wakeSlot lanes s).pending = false ∨
      wakeSlot lanes s = s ∧ ∀ l ∈ lanes, l.valid = true → l.tag ≠ s.tag := by
  cases hpending : s.pending with
  | false => exact .inl (by rw [wakeSlot_of_not_pending lanes hpending, hpending])
  | true =>
    cases hfind : lanes.find? (fun l => l.valid && l.tag == s.tag) with
    | some l => exact .inl (by rw [wakeSlot_of_find hpending hfind])
    | none =>
      have hunheard : ∀ l ∈ lanes, ¬(l.valid = true ∧ l.tag = s.tag) := by simpa using hfind
      exact .inr ⟨wakeSlot_of_unheard hunheard, fun l hl hvalid htag => hunheard l hl ⟨hvalid, htag⟩⟩

theorem wakeSlot_wakeSlot (lanes : List BroadcastLane) (s : OperandSlot) :
    wakeSlot lanes (wakeSlot lanes s) = wakeSlot lanes s := by
  obtain hends | ⟨hstays, -⟩ := wakeSlot_ends_or_unheard lanes s
  · exact wakeSlot_of_not_pending lanes hends
  · rw [hstays, hstays]

@[simp] theorem wake_wake (lanes : List BroadcastLane) (e : ExecuteEntry) :
    wake lanes (wake lanes e) = wake lanes e := by
  simp only [wake, wakeSlot_wakeSlot]

/-- R335, R339, R355: what a tick makes of an entry in a queue: it is woken, and `recover` clears `valid`. -/
def ExecuteEntry.ticked (lanes : List BroadcastLane) (recover : Bool) (e : ExecuteEntry) : ExecuteEntry :=
  (wake lanes e).cancelIf recover

@[simp] theorem ExecuteEntry.ticked_wake (lanes : List BroadcastLane) (recover : Bool) (e : ExecuteEntry) :
    (wake lanes e).ticked lanes recover = e.ticked lanes recover :=
  congrArg (ExecuteEntry.cancelIf recover) (wake_wake lanes e)

theorem ExecuteEntry.ticked_zero (lanes : List BroadcastLane) (recover : Bool) :
    ExecuteEntry.zero.ticked lanes recover = .zero := rfl

/-- Settles O22: the lowest lane is the one that `List.find?` takes. -/
theorem wakeTakesTheLowestLane : Obligations.WakeTakesTheLowestLane := by
  unfold Obligations.WakeTakesTheLowestLane
  intro lanes s
  refine ⟨fun m l hpending hlane hvalid htag hlowest => ?_, fun h => ?_, fun _ => rfl⟩
  · obtain ⟨hm, rfl⟩ := List.getElem?_eq_some_iff.1 hlane
    refine wakeSlot_of_find hpending (List.find?_eq_some_iff_getElem.2 ⟨by simp [hvalid, htag], m, hm, rfl, ?_⟩)
    intro j hj
    simpa only [Bool.not_eq_true', Bool.and_eq_false_imp, beq_eq_false_iff_ne, not_and] using
      hlowest j _ hj (List.getElem?_eq_getElem (hj.trans hm))
  · obtain hknown | hunheard := h
    · exact wakeSlot_of_not_pending lanes hknown
    · exact wakeSlot_of_unheard hunheard

/-! ## What a queue offers (R333, R338, R352) -/

theorem fireable_iff (e : ExecuteEntry) : fireable e = true ↔ e.Ready := by
  simp [fireable, ExecuteEntry.Ready, and_assoc]

/-- R333: a valid entry that is ready waits for no operand. -/
theorem ExecuteEntry.Ready.not_pending {e : ExecuteEntry} (h : e.Ready) (hvalid : e.valid = true) :
    e.rs1.pending = false ∧ e.rs2.pending = false ∧ e.rs3.pending = false :=
  h.resolve_left (by simp [hvalid])

/-- R338: an in-order queue that is not empty offers its woken head when that is ready. -/
theorem InOrderQueue.deq_eq_some_iff (q : InOrderQueue) (lanes : List BroadcastLane) (e : ExecuteEntry) :
    q.deq lanes = some e ↔ q.emptyF = false ∧ (q.headEntry lanes).Ready ∧ q.headEntry lanes = e := by
  rw [← fireable_iff]
  simp [InOrderQueue.deq, and_assoc]

theorem InOrderQueue.deq_isSome_iff (q : InOrderQueue) (lanes : List BroadcastLane) :
    (q.deq lanes).isSome = true ↔ q.emptyF = false ∧ (q.headEntry lanes).Ready := by
  simp [Option.isSome_iff_exists, q.deq_eq_some_iff]

theorem largestBelow_eq_none_iff (p : Nat → Bool) (n : Nat) :
    largestBelow p n = none ↔ ∀ k, k < n → p k = false := by
  induction n with
  | zero => simp [largestBelow]
  | succ n ih =>
    rw [Nat.forall_lt_succ_right, ← ih, largestBelow]
    cases p n <;> simp

theorem largestBelow_eq_some_iff (p : Nat → Bool) (n g : Nat) :
    largestBelow p n = some g ↔ g < n ∧ p g = true ∧ ∀ k, g < k → k < n → p k = false := by
  induction n with
  | zero => simp [largestBelow]
  | succ n ih =>
    rw [largestBelow]
    split
    next hp =>
      constructor
      · rintro ⟨⟩
        exact ⟨Nat.lt_succ_self _, hp, fun k hk hk' => by omega⟩
      · rintro ⟨hg, -, hlargest⟩
        by_contra hne
        have hlt : g < n := by
          have : n ≠ g := fun h => hne (congrArg some h)
          omega
        simp [hlargest n hlt (Nat.lt_succ_self n)] at hp
    next hp =>
      rw [ih]
      constructor
      · rintro ⟨hg, hpg, hlargest⟩
        refine ⟨hg.trans (Nat.lt_succ_self n), hpg, fun k hk hk' => ?_⟩
        obtain hlt | rfl := Nat.lt_succ_iff_lt_or_eq.1 hk'
        · exact hlargest k hk hlt
        · simpa using hp
      · rintro ⟨hg, hpg, hlargest⟩
        obtain hlt | rfl := Nat.lt_succ_iff_lt_or_eq.1 hg
        · exact ⟨hlt, hpg, fun k hk hk' => hlargest k hk (hk'.trans (Nat.lt_succ_self n))⟩
        · exact absurd hpg hp

/-- R333, R352: a cell has an entry to give to the consumer exactly when its older entry, woken, is ready. -/
theorem OutOfOrderQueue.sideValid_iff (q : OutOfOrderQueue) (lanes : List BroadcastLane) (k : Nat) :
    q.sideValid lanes k = true ↔ (q.cell k).state ≠ .empty ∧ (wake lanes (q.cell k).data).Ready := by
  rw [← fireable_iff]
  simp [OutOfOrderQueue.sideValid, OutOfOrderQueue.woken]

/-- R352: the grant is the ready cell nearest the tail. -/
theorem OutOfOrderQueue.grant_eq_some_iff (q : OutOfOrderQueue) (lanes : List BroadcastLane) (g : Nat) :
    q.grant lanes = some g ↔ g < q.cells.length ∧ q.sideValid lanes g = true ∧
      ∀ k, g < k → k < q.cells.length → q.sideValid lanes k = false :=
  largestBelow_eq_some_iff _ _ _

theorem OutOfOrderQueue.deq_eq_some_iff (q : OutOfOrderQueue) (lanes : List BroadcastLane) (e : ExecuteEntry) :
    q.deq lanes = some e ↔ ∃ g, q.grant lanes = some g ∧ q.woken lanes g = e :=
  Option.map_eq_some_iff

theorem OutOfOrderQueue.deq_eq_none_iff (q : OutOfOrderQueue) (lanes : List BroadcastLane) :
    q.deq lanes = none ↔ ∀ k, k < q.cells.length → q.sideValid lanes k = false :=
  Option.map_eq_none_iff.trans (largestBelow_eq_none_iff _ _)

theorem OutOfOrderQueue.sideFire_iff (q : OutOfOrderQueue) (lanes : List BroadcastLane) (deqReady : Bool) (k : Nat) :
    q.sideFire lanes deqReady k = true ↔ deqReady = true ∧ q.grant lanes = some k := by
  simp [OutOfOrderQueue.sideFire]

/-- R352: an entry moves along the chain when it is not ready and the next cell has room. -/
theorem OutOfOrderQueue.chainFire_iff (q : OutOfOrderQueue) (lanes : List BroadcastLane) (k : Nat) :
    q.chainFire lanes k = true ↔ k + 1 < q.cells.length ∧ (q.cell k).state ≠ .empty ∧
      q.sideValid lanes k = false ∧ q.enqReady (k + 1) = true := by
  simp [OutOfOrderQueue.chainFire, and_assoc]

theorem OutOfOrderQueue.sideValid_of_sideFire {q : OutOfOrderQueue} {lanes : List BroadcastLane} {deqReady : Bool}
    {k : Nat} (h : q.sideFire lanes deqReady k = true) : q.sideValid lanes k = true := by
  obtain ⟨-, hgrant⟩ := (q.sideFire_iff lanes deqReady k).1 h
  obtain ⟨-, hvalid, -⟩ := (q.grant_eq_some_iff lanes k).1 hgrant
  exact hvalid

/-- R352: what goes along the chain is not what the consumer is given. -/
theorem OutOfOrderQueue.sideFire_of_chainFire {q : OutOfOrderQueue} {lanes : List BroadcastLane} {k : Nat}
    (h : q.chainFire lanes k = true) (deqReady : Bool) : q.sideFire lanes deqReady k = false := by
  obtain ⟨-, -, hinvalid, -⟩ := (q.chainFire_iff lanes k).1 h
  by_contra hfires
  simp [OutOfOrderQueue.sideValid_of_sideFire (by simpa using hfires)] at hinvalid

/-- Settles O25: the four parts are what the grant, the readiness of a cell and the two ways out are. -/
theorem outOfOrderGrantIsTheOldestReady : Obligations.OutOfOrderGrantIsTheOldestReady := by
  unfold Obligations.OutOfOrderGrantIsTheOldestReady
  intro q lanes deqReady
  refine ⟨fun e hdeq => ?_, fun k _ => q.sideValid_iff lanes k, q.deq_eq_none_iff lanes, fun k hboth => ?_⟩
  · obtain ⟨g, hgrant, rfl⟩ := (q.deq_eq_some_iff lanes e).1 hdeq
    obtain ⟨hlt, hready, holdest⟩ := (q.grant_eq_some_iff lanes g).1 hgrant
    exact ⟨g, hlt, hgrant, rfl, hready, holdest⟩
  · obtain ⟨hside, hchain⟩ := hboth
    simp [OutOfOrderQueue.sideFire_of_chainFire hchain] at hside

/-- Settles O23: a queue offers an entry only when its woken form is ready, and a bubble always is. -/
theorem dequeuedEntriesAreReady : Obligations.DequeuedEntriesAreReady := by
  unfold Obligations.DequeuedEntriesAreReady
  intro lanes q o
  refine ⟨fun e hdeq => ?_, fun e hdeq => ?_, q.deq_isSome_iff lanes, fun k hk hheld hbubble => ?_⟩
  · obtain ⟨-, hready, rfl⟩ := (q.deq_eq_some_iff lanes e).1 hdeq
    exact ⟨rfl, hready.not_pending⟩
  · obtain ⟨g, hgrant, rfl⟩ := (o.deq_eq_some_iff lanes e).1 hdeq
    obtain ⟨hlt, hvalid, -⟩ := (o.grant_eq_some_iff lanes g).1 hgrant
    obtain ⟨hheld, hready⟩ := (o.sideValid_iff lanes g).1 hvalid
    exact ⟨⟨g, hlt, hheld, rfl⟩, hready.not_pending⟩
  · have hvalid : o.sideValid lanes k = true := (o.sideValid_iff lanes k).2 ⟨hheld, .inl hbubble⟩
    by_contra hnone
    have hsilent := (o.deq_eq_none_iff lanes).1 (by simpa using hnone) k hk
    simp [hsilent] at hvalid

/-! ## The in-order queue (R339, R340) -/

/-- R340: `n` entries of a circular buffer of `d` slots from slot `r` on. -/
def ringFrom (d : Nat) (buf : List ExecuteEntry) (r n : Nat) : List ExecuteEntry :=
  (List.range n).map fun k => buf.getD ((r + k) % d) .zero

theorem InOrderQueue.contents_eq_ringFrom (d : Nat) (q : InOrderQueue) :
    q.contents d = ringFrom d q.buf q.rptr (q.occupancy d) := rfl

@[simp] theorem length_ringFrom (d : Nat) (buf : List ExecuteEntry) (r n : Nat) :
    (ringFrom d buf r n).length = n := by
  simp [ringFrom]

theorem ringFrom_map {f : ExecuteEntry → ExecuteEntry} (hf : f .zero = .zero) (d : Nat) (buf : List ExecuteEntry)
    (r n : Nat) : ringFrom d (buf.map f) r n = (ringFrom d buf r n).map f := by
  simp only [ringFrom, List.map_map]
  refine List.map_congr_left fun k _ => ?_
  rw [← hf, List.getD_map, hf, Function.comp]

theorem advancePtr_add_mod (d r k : Nat) : (advancePtr d r + k) % d = (r + (k + 1)) % d := by
  rw [advancePtr, Nat.mod_add_mod, Nat.add_right_comm, Nat.add_assoc]

theorem advancePtr_mod (d p : Nat) : advancePtr d (p % d) = (p + 1) % d := Nat.mod_add_mod _ _ _

/-- Without its first entry a ring starts one slot further on. -/
theorem ringFrom_advancePtr (d : Nat) (buf : List ExecuteEntry) (r n : Nat) :
    ringFrom d buf (advancePtr d r) n = (ringFrom d buf r (n + 1)).tail := by
  simp [ringFrom, advancePtr_add_mod, List.range_succ_eq_map]

/-- Slots of a ring at distances that differ by less than its size are equal only at one distance. -/
theorem add_mod_eq_iff {d a b : Nat} (hab : a ≤ b) (hlt : b < a + d) (r : Nat) :
    (r + a) % d = (r + b) % d ↔ a = b := by
  refine ⟨fun h => ?_, fun h => h ▸ rfl⟩
  have hdvd : d ∣ b - a := (Nat.modEq_iff_dvd' hab).1 (Nat.ModEq.add_left_cancel' r h)
  have := Nat.eq_zero_of_dvd_of_lt hdvd (by omega)
  omega

/-- An entry stored in the slot after a ring that leaves one free joins it at the end. -/
theorem ringFrom_set {d : Nat} {buf : List ExecuteEntry} (hbuf : buf.length = d) {r n : Nat} (hn : n < d)
    (e : ExecuteEntry) :
    ringFrom d (buf.set ((r + n) % d) e) r (n + 1) = ringFrom d buf r n ++ [e] := by
  have hlast : (r + n) % d < buf.length := hbuf ▸ Nat.mod_lt _ (by omega)
  have hother : ∀ k ∈ List.range n, (buf.set ((r + n) % d) e).getD ((r + k) % d) .zero =
      buf.getD ((r + k) % d) .zero := fun k hk => by
    have hk := List.mem_range.1 hk
    have hne : (r + k) % d ≠ (r + n) % d := fun h => by
      have := (add_mod_eq_iff (by omega) (by omega) r).1 h
      omega
    simp [List.getD_eq_getElem?_getD, List.getElem?_set_ne hne.symm]
  simp only [ringFrom, List.range_succ, List.map_append, List.map_congr_left hother]
  simp [List.getD_eq_getElem?_getD, List.getElem?_set_self hlast]

/-- R340: a circular buffer of `d` slots holds `n` entries. -/
structure InOrderQueue.Holds (d : Nat) (q : InOrderQueue) (n : Nat) : Prop where
  le : n ≤ d
  wptr : q.wptr = (q.rptr + n) % d
  empty : q.emptyF = true ↔ n = 0
  full : q.fullF = true ↔ n = d

theorem InOrderQueue.Sound.holds {d : Nat} {q : InOrderQueue} (h : q.Sound d) : q.Holds d (q.occupancy d) := by
  obtain ⟨-, hr, hw, hflags, hmeet⟩ := h
  unfold InOrderQueue.occupancy
  cases hempty : q.emptyF with
  | true =>
    have hfull : q.fullF = false := by simpa [hempty] using hflags
    have hptr : q.rptr = q.wptr := hmeet.2 (.inl hempty)
    refine ⟨Nat.zero_le d, ?_, by simp [hempty], by simp [hfull]; omega⟩
    simpa [← hptr] using (Nat.mod_eq_of_lt hr).symm
  | false =>
    cases hfull : q.fullF with
    | true =>
      have hptr : q.rptr = q.wptr := hmeet.2 (.inr hfull)
      refine ⟨le_rfl, ?_, by simp [hempty]; omega, by simp [hfull]⟩
      simpa [← hptr] using (Nat.mod_eq_of_lt hr).symm
    | false =>
      have hne : q.rptr ≠ q.wptr := fun hptr => by simpa [hempty, hfull] using hmeet.1 hptr
      have hlt : (q.wptr + d - q.rptr) % d < d := Nat.mod_lt _ (by omega)
      have hwptr : q.wptr = (q.rptr + (q.wptr + d - q.rptr) % d) % d := by
        rw [Nat.add_mod_mod, show q.rptr + (q.wptr + d - q.rptr) = q.wptr + d by omega, Nat.add_mod_right,
          Nat.mod_eq_of_lt hw]
      have hpos : (q.wptr + d - q.rptr) % d ≠ 0 := fun hzero => by
        rw [hzero, Nat.add_zero, Nat.mod_eq_of_lt hr] at hwptr
        exact hne hwptr.symm
      exact ⟨hlt.le, hwptr, by simpa [hempty] using hpos, by simpa [hfull] using hlt.ne⟩

/-- R340: the pointers and the flags tell how many entries a circular buffer holds. -/
theorem InOrderQueue.Holds.unique {d m n : Nat} {q : InOrderQueue} (hm : q.Holds d m) (hn : q.Holds d n) :
    m = n := by
  wlog hle : m ≤ n generalizing m n
  · exact (this hn hm (Nat.le_of_not_le hle)).symm
  have hzero : m = 0 ↔ n = 0 := hm.empty.symm.trans hn.empty
  have hnd := hn.le
  obtain heq | hlt := hle.eq_or_lt
  · exact heq
  · have hnear : n < m + d := by omega
    exact (add_mod_eq_iff hle hnear q.rptr).1 (hm.wptr.symm.trans hn.wptr)

/-- R338: the entry a queue takes in a tick. -/
def InOrderQueue.accepted (q : InOrderQueue) (enq : Option ExecuteEntry) : Option ExecuteEntry :=
  if q.enqReady then enq else none

/-- R338: the consumer takes the head in the tick. -/
def InOrderQueue.leaves (q : InOrderQueue) (lanes : List BroadcastLane) (deqReady : Bool) : Bool :=
  (q.deq lanes).isSome && deqReady

theorem InOrderQueue.toList_accepted (q : InOrderQueue) (enq : Option ExecuteEntry) :
    (q.accepted enq).toList = if q.enqReady then enq.toList else [] := by
  unfold InOrderQueue.accepted
  split <;> rfl

/-- R339: the slots of a queue with the accepted entry stored, not yet woken. -/
def InOrderQueue.stored (q : InOrderQueue) (accepted : Option ExecuteEntry) : List ExecuteEntry :=
  accepted.elim q.buf fun e => q.buf.set q.wptr e

/-- R339: every slot, the one just filled included, is woken and cancelled alike. -/
theorem InOrderQueue.nextBuf_eq_map (q : InOrderQueue) (lanes : List BroadcastLane) (accepted : Option ExecuteEntry)
    (recover : Bool) :
    q.nextBuf lanes accepted recover = (q.stored accepted).map (ExecuteEntry.ticked lanes recover) := by
  cases accepted with
  | none => exact List.map_map
  | some e =>
    simp only [InOrderQueue.nextBuf, ← List.map_set, List.map_map]
    rfl

/-- R339: a tick of a circular buffer, by what it takes and whether its head leaves. -/
theorem InOrderQueue.tick_eq (d : Nat) (q : InOrderQueue) (lanes : List BroadcastLane) (enq : Option ExecuteEntry)
    (deqReady recover : Bool) :
    let enters := (q.accepted enq).isSome
    let leaves := q.leaves lanes deqReady
    q.tick d lanes enq deqReady recover =
      { buf := (q.stored (q.accepted enq)).map (ExecuteEntry.ticked lanes recover)
        wptr := if enters then advancePtr d q.wptr else q.wptr
        rptr := if leaves then advancePtr d q.rptr else q.rptr
        emptyF := if enters && !leaves then false
          else if leaves && !enters then decide (advancePtr d q.rptr = q.wptr) else q.emptyF
        fullF := if enters && !leaves then decide (advancePtr d q.wptr = q.rptr)
          else if leaves && !enters then false else q.fullF } := by
  rw [← InOrderQueue.nextBuf_eq_map]
  rfl

/-- How many entries a queue of `n` holds after a tick. -/
def nextCount (n : Nat) (accepted : Option ExecuteEntry) (leaves : Bool) : Nat :=
  n + accepted.toList.length - leaves.toNat

theorem InOrderQueue.Holds.tick {d n : Nat} {q : InOrderQueue} (h : q.Holds d n) (hr : q.rptr < d)
    (lanes : List BroadcastLane) (enq : Option ExecuteEntry) (deqReady recover : Bool) :
    (q.tick d lanes enq deqReady recover).Holds d
      (nextCount n (q.accepted enq) (q.leaves lanes deqReady)) := by
  obtain ⟨hle, hwptr, hempty, hfull⟩ := h
  rw [InOrderQueue.tick_eq]
  have hroom : (q.accepted enq).isSome = true → n ≠ d := fun henters hn => by
    simpa [hfull.2 hn] using InOrderQueue.fullF_of_accepted (q := q) henters
  have hheld : q.leaves lanes deqReady = true → n ≠ 0 := fun hleaves hn => by
    simpa [hempty.2 hn] using InOrderQueue.emptyF_of_deq (Bool.and_eq_true_iff.1 hleaves).1
  have hround : q.rptr = (q.rptr + d) % d := by rw [Nat.add_mod_right, Nat.mod_eq_of_lt hr]
  generalize q.accepted enq = accepted at hroom ⊢
  generalize q.leaves lanes deqReady = leaves at hheld ⊢
  cases accepted with
  | none =>
    cases leaves with
    | false => exact ⟨hle, hwptr, hempty, hfull⟩
    | true =>
      have hpos := hheld rfl
      refine ⟨by simp [nextCount]; omega, ?_, ?_, ?_⟩
      · simp [nextCount, advancePtr_add_mod, hwptr, show n - 1 + 1 = n by omega]
      · have := add_mod_eq_iff (d := d) (a := 1) (b := n) (by omega) (by omega) q.rptr
        simp [nextCount, hwptr, advancePtr, this]
        omega
      · simp [nextCount]
        omega
  | some e =>
    have hlt := hroom rfl
    cases leaves with
    | false =>
      refine ⟨by simp [nextCount]; omega, ?_, ?_, ?_⟩
      · simp [nextCount, hwptr, advancePtr_mod, Nat.add_assoc]
      · simp [nextCount]
      · have := add_mod_eq_iff (d := d) (a := n + 1) (b := d) (by omega) (by omega) q.rptr
        simp only [← hround] at this
        simp [nextCount, hwptr, advancePtr_mod, Nat.add_assoc, this]
    | true =>
      have hpos := hheld rfl
      refine ⟨by simp [nextCount]; omega, ?_, ?_, ?_⟩
      · simp [nextCount, hwptr, advancePtr_mod, advancePtr_add_mod, Nat.add_assoc]
      · simpa [nextCount] using hempty
      · simpa [nextCount] using hfull

/-- R339: the accepted entry joins at the end. -/
theorem InOrderQueue.Holds.ringFrom_stored {d n : Nat} {q : InOrderQueue} (h : q.Holds d n) (hbuf : q.buf.length = d)
    (enq : Option ExecuteEntry) :
    ringFrom d (q.stored (q.accepted enq)) q.rptr (n + (q.accepted enq).toList.length) =
      ringFrom d q.buf q.rptr n ++ (q.accepted enq).toList := by
  cases haccepted : q.accepted enq with
  | none => simp [InOrderQueue.stored]
  | some e =>
    have hfull : q.fullF = false :=
      InOrderQueue.fullF_of_accepted (q := q) (enq := enq) (Option.isSome_iff_exists.2 ⟨e, haccepted⟩)
    have hn : n ≠ d := fun hn => by simp [h.full.2 hn] at hfull
    have hlt : n < d := lt_of_le_of_ne h.le hn
    simpa [InOrderQueue.stored, h.wptr] using ringFrom_set hbuf hlt e

/-- R339: from where the read pointer stands after a tick, a ring has lost its first entry if the head left. -/
theorem ringFrom_of_leaves (d : Nat) (buf : List ExecuteEntry) (r : Nat) {n : Nat} (leaves : Bool)
    (h : leaves = true → 0 < n) :
    ringFrom d buf (if leaves then advancePtr d r else r) (n - leaves.toNat) =
      if leaves then (ringFrom d buf r n).tail else ringFrom d buf r n := by
  cases leaves with
  | false => rfl
  | true =>
    obtain ⟨m, rfl⟩ := Nat.exists_eq_succ_of_ne_zero (h rfl).ne'
    exact ringFrom_advancePtr d buf r m

/-- Settles O24: the ring with the accepted entry at its end loses its first one if the head leaves, and each entry of
it is woken and cancelled. -/
theorem inOrderQueueIsFirstInFirstOut : Obligations.InOrderQueueIsFirstInFirstOut := by
  unfold Obligations.InOrderQueueIsFirstInFirstOut
  intro d q lanes enq deqReady recover hsound q' kept joined
  have hsound' : q'.Sound d := hsound.tick lanes enq deqReady recover
  have hholds := hsound.holds
  have hcount := hsound'.holds.unique (hholds.tick hsound.rptr lanes enq deqReady recover)
  have hheld : q.leaves lanes deqReady = true → 0 < q.occupancy d := fun hleaves => by
    have hnonempty := InOrderQueue.emptyF_of_deq (Bool.and_eq_true_iff.1 hleaves).1
    refine Nat.pos_of_ne_zero fun hzero => ?_
    simp [hholds.empty.2 hzero] at hnonempty
  refine ⟨hsound', ?_⟩
  calc q'.contents d
      = ringFrom d ((q.stored (q.accepted enq)).map (ExecuteEntry.ticked lanes recover))
          (if q.leaves lanes deqReady then advancePtr d q.rptr else q.rptr)
          (nextCount (q.occupancy d) (q.accepted enq) (q.leaves lanes deqReady)) := by
        rw [InOrderQueue.contents_eq_ringFrom, hcount]
        simp only [q', InOrderQueue.tick_eq]
    _ = (if q.leaves lanes deqReady then (q.contents d ++ (q.accepted enq).toList).tail
          else q.contents d ++ (q.accepted enq).toList).map (ExecuteEntry.ticked lanes recover) := by
        have hnonempty : q.leaves lanes deqReady = true → 0 < q.occupancy d + (q.accepted enq).toList.length :=
          fun hleaves => Nat.add_pos_left (hheld hleaves) _
        rw [ringFrom_map (ExecuteEntry.ticked_zero lanes recover), nextCount, ringFrom_of_leaves _ _ _ _ hnonempty,
          hholds.ringFrom_stored hsound.length, InOrderQueue.contents_eq_ringFrom]
    _ = (kept ++ joined).map (ExecuteEntry.ticked lanes recover) := by
        congr 1
        simp only [kept, joined, ← q.toList_accepted]
        show (if q.leaves lanes deqReady then _ else _) = (if q.leaves lanes deqReady then _ else _) ++ _
        cases hleaves : q.leaves lanes deqReady with
        | false => rfl
        | true =>
          have hne : q.contents d ≠ [] := List.ne_nil_of_length_pos (by
            simpa [InOrderQueue.contents_eq_ringFrom] using hheld hleaves)
          exact List.tail_append_of_ne_nil hne

/-! ## The out-of-order queue (R355, R356) -/

/-- R356: the entries of a cell in a tick without the one that leaves it. -/
def Cell.rest (c : Cell) (leave : Bool) : List ExecuteEntry := if leave then c.contents.tail else c.contents

theorem Cell.contents_cancelIf (c : Cell) (recover : Bool) :
    (c.cancelIf recover).contents = c.contents.map (ExecuteEntry.cancelIf recover) := by
  unfold Cell.contents Cell.cancelIf
  cases c.state <;> rfl

theorem Cell.contents_eq_cons {c : Cell} (h : c.state ≠ .empty) : c.contents = c.data :: c.contents.tail := by
  unfold Cell.contents
  cases hs : c.state <;> simp_all

/-- R355: in a tick of a cell an entry leaves at the front or none does, one joins at the back if there is room or none
does, and all are woken. -/
theorem Cell.contents_next {c : Cell} {inc : Option ExecuteEntry} (hroom : inc.isSome = true → c.state ≠ .two)
    {leave : Bool} (hleave : leave = true → c.state ≠ .empty) (lanes : List BroadcastLane) :
    (c.next lanes leave inc).contents = (c.rest leave ++ inc.toList).map (wake lanes) := by
  obtain ⟨state, data, shadow⟩ := c
  cases state with
  | empty =>
    have hstays : leave = false := by simpa using hleave
    subst hstays
    cases inc <;> rfl
  | one => cases inc <;> cases leave <;> rfl
  | two =>
    have hnone : inc = none := by simpa using hroom
    subst hnone
    cases leave <;> rfl

/-- R355: a cell of the queue after a tick. -/
theorem OutOfOrderQueue.cell_tick {q : OutOfOrderQueue} {k : Nat} (hk : k < q.cells.length)
    (lanes : List BroadcastLane) (enq : Option ExecuteEntry) (deqReady recover : Bool) :
    (q.tick lanes enq deqReady recover).cell k =
      ((q.cell k).next lanes (q.leave lanes deqReady k) (q.incoming lanes enq k)).cancelIf recover := by
  simp [OutOfOrderQueue.tick, OutOfOrderQueue.cell, List.getD_eq_getElem?_getD, hk]

/-- R352: only a cell that holds an entry lets one leave. -/
theorem OutOfOrderQueue.state_of_leave {q : OutOfOrderQueue} {lanes : List BroadcastLane} {deqReady : Bool} {k : Nat}
    (h : q.leave lanes deqReady k = true) : (q.cell k).state ≠ .empty := by
  obtain hside | hchain := Bool.or_eq_true_iff.1 h
  · exact ((q.sideValid_iff lanes k).1 (OutOfOrderQueue.sideValid_of_sideFire hside)).1
  · exact ((q.chainFire_iff lanes k).1 hchain).2.1

/-- R352: only a cell with room takes an entry. -/
theorem OutOfOrderQueue.state_of_incoming {q : OutOfOrderQueue} {lanes : List BroadcastLane}
    {enq : Option ExecuteEntry} {k : Nat} (h : (q.incoming lanes enq k).isSome = true) : (q.cell k).state ≠ .two := by
  have hroom : q.enqReady k = true := by
    cases k with
    | zero =>
      by_contra hfull
      simp [OutOfOrderQueue.incoming, hfull] at h
    | succ j =>
      have hchain : q.chainFire lanes j = true := by
        by_contra hstays
        simp [OutOfOrderQueue.incoming, hstays] at h
      exact ((q.chainFire_iff lanes j).1 hchain).2.2.2
  simpa [OutOfOrderQueue.enqReady] using hroom

/-- R356: the entries of a cell after a tick. -/
theorem OutOfOrderQueue.contents_cell_tick {q : OutOfOrderQueue} {k : Nat} (hk : k < q.cells.length)
    (lanes : List BroadcastLane) (enq : Option ExecuteEntry) (deqReady recover : Bool) :
    ((q.tick lanes enq deqReady recover).cell k).contents =
      ((q.cell k).rest (q.leave lanes deqReady k) ++ (q.incoming lanes enq k).toList).map
        (ExecuteEntry.ticked lanes recover) := by
  rw [OutOfOrderQueue.cell_tick hk, Cell.contents_cancelIf,
    Cell.contents_next OutOfOrderQueue.state_of_incoming OutOfOrderQueue.state_of_leave, List.map_map]
  rfl

/-- R352: the entry that leaves cell `k` along the chain. -/
def OutOfOrderQueue.passed (q : OutOfOrderQueue) (lanes : List BroadcastLane) (k : Nat) : List ExecuteEntry :=
  if q.chainFire lanes k then [q.woken lanes k] else []

theorem OutOfOrderQueue.toList_incoming_succ (q : OutOfOrderQueue) (lanes : List BroadcastLane)
    (enq : Option ExecuteEntry) (k : Nat) : (q.incoming lanes enq (k + 1)).toList = q.passed lanes k := by
  rw [OutOfOrderQueue.incoming, OutOfOrderQueue.passed]
  split <;> rfl

theorem OutOfOrderQueue.toList_incoming_zero (q : OutOfOrderQueue) (lanes : List BroadcastLane)
    (enq : Option ExecuteEntry) : (q.incoming lanes enq 0).toList = if q.enqReady 0 then enq.toList else [] := by
  unfold OutOfOrderQueue.incoming
  cases q.enqReady 0 <;> rfl

/-- R352: the last cell has no next one. -/
theorem OutOfOrderQueue.passed_of_last {q : OutOfOrderQueue} {k : Nat} (hk : q.cells.length ≤ k + 1)
    (lanes : List BroadcastLane) : q.passed lanes k = [] := by
  have hstays : q.chainFire lanes k = false := by
    simp [OutOfOrderQueue.chainFire, Nat.not_lt.2 hk]
  rw [OutOfOrderQueue.passed, hstays]
  rfl

/-- R356: what the consumer leaves of a cell goes along the chain, oldest first, or stays; the tick wakes what went
along the chain once more. -/
theorem OutOfOrderQueue.map_rest_sideFire (q : OutOfOrderQueue) (lanes : List BroadcastLane) (deqReady recover : Bool)
    (k : Nat) :
    ((q.cell k).rest (q.sideFire lanes deqReady k)).map (ExecuteEntry.ticked lanes recover) =
      (q.passed lanes k).map (ExecuteEntry.ticked lanes recover) ++
        ((q.cell k).rest (q.leave lanes deqReady k)).map (ExecuteEntry.ticked lanes recover) := by
  cases hchain : q.chainFire lanes k with
  | false => simp [OutOfOrderQueue.passed, OutOfOrderQueue.leave, hchain]
  | true =>
    obtain ⟨-, hheld, -, -⟩ := (q.chainFire_iff lanes k).1 hchain
    have hside := OutOfOrderQueue.sideFire_of_chainFire hchain deqReady
    have hcons := congrArg (List.map (ExecuteEntry.ticked lanes recover)) (Cell.contents_eq_cons hheld)
    simpa only [OutOfOrderQueue.passed, OutOfOrderQueue.leave, Cell.rest, OutOfOrderQueue.woken, hchain, hside,
      Bool.false_or, Bool.false_eq_true, if_true, if_false, List.map_cons, List.map_nil, List.singleton_append,
      ExecuteEntry.ticked_wake] using hcons

/-- Along a chain of cells, the last first: where each cell's old entries `old k` are what it passes to the next one and
what stays, and its new ones are what stays and what it is passed, with `joined` passed to the first, the old entries
followed by `joined` are what the last cell passes followed by the new ones. -/
theorem flatMap_chain {α : Type} {old passed rest new : Nat → List α} {joined : List α}
    (hold : ∀ k, old k = passed k ++ rest k) (hfirst : new 0 = rest 0 ++ joined) {n : Nat}
    (hnext : ∀ k, k < n → new (k + 1) = rest (k + 1) ++ passed k) :
    (List.range (n + 1)).reverse.flatMap old ++ joined = passed n ++ (List.range (n + 1)).reverse.flatMap new := by
  induction n with
  | zero => simp [hold, hfirst]
  | succ n ih =>
    have ih := ih fun k hk => hnext k (hk.trans (Nat.lt_succ_self n))
    rw [List.range_succ, List.reverse_concat, List.flatMap_cons, List.flatMap_cons, List.append_assoc, ih, hold,
      hnext n (Nat.lt_succ_self n)]
    simp only [List.append_assoc]

/-- Settles O26: a cell passes its older entry to the next one or keeps it, so along the chain no entry is lost and none
overtakes another. -/
theorem outOfOrderQueueKeepsAgeOrder : Obligations.OutOfOrderQueueKeepsAgeOrder := by
  unfold Obligations.OutOfOrderQueueKeepsAgeOrder
  intro q lanes enq deqReady recover hcells q' joined
  have hlength : q'.cells.length = q.cells.length := q.length_cells_tick lanes enq deqReady recover
  refine ⟨hlength, ?_⟩
  obtain ⟨n, hn⟩ := Nat.exists_eq_succ_of_ne_zero (mt List.length_eq_zero_iff.1 hcells)
  have hcell : ∀ k, k < n + 1 → (q'.cell k).contents =
      ((q.cell k).rest (q.leave lanes deqReady k)).map (ExecuteEntry.ticked lanes recover) ++
        (q.incoming lanes enq k).toList.map (ExecuteEntry.ticked lanes recover) := fun k hk => by
    rw [OutOfOrderQueue.contents_cell_tick (hn ▸ hk), List.map_append]
  have hfirst := hcell 0 (Nat.succ_pos n)
  have hnext : ∀ k, k < n → (q'.cell (k + 1)).contents =
      ((q.cell (k + 1)).rest (q.leave lanes deqReady (k + 1))).map (ExecuteEntry.ticked lanes recover) ++
        (q.passed lanes k).map (ExecuteEntry.ticked lanes recover) := fun k hk => by
    rw [hcell (k + 1) (Nat.succ_lt_succ hk), q.toList_incoming_succ]
  have hchain := flatMap_chain (new := fun k => (q'.cell k).contents)
    (q.map_rest_sideFire lanes deqReady recover) hfirst hnext
  rw [OutOfOrderQueue.passed_of_last hn.le, List.map_nil, List.nil_append] at hchain
  rw [OutOfOrderQueue.contents, OutOfOrderQueue.listBy, hlength, hn, ← hchain, List.map_append,
    OutOfOrderQueue.remaining, OutOfOrderQueue.listBy, hn, List.map_flatMap, q.toList_incoming_zero]
  rfl

/-! ## The broadcast bus in a tick (R336, R514) -/

/-- R514: an offered entry waits for no tag that was broadcast before. -/
theorem Env.offer_unheard (env : Env) (r : Rob) (u : OperandUse) (e : ExecuteEntry) :
    let e' := env.offer r u e
    ∀ slot ∈ [e'.rs1, e'.rs2, e'.rs3], slot.pending = true →
      ∀ l ∈ env.bus.heard, l.valid = true → l.tag ≠ slot.tag := by
  intro e' slot hslot hpending
  obtain ⟨waiting, rfl⟩ : ∃ waiting, slot = wakeSlot env.bus.heard waiting := by
    simp only [List.mem_cons, List.not_mem_nil, or_false] at hslot
    obtain rfl | rfl | rfl := hslot <;> exact ⟨_, rfl⟩
  obtain hends | ⟨hstays, hunheard⟩ := wakeSlot_ends_or_unheard env.bus.heard waiting
  · simp [hends] at hpending
  · rwa [hstays]

/-- R513, R514: whatever the queue, an offered entry is one that the environment offers. -/
theorem exists_offer {s : State} {e' : ExecuteEntry}
    (h : (wires s).enq = some e' ∨ some e' ∈ (wires s).inOrderEnq ∨ some e' ∈ (wires s).outOfOrderEnq) :
    ∃ r u e, s.env.offer r u e = e' := by
  obtain hmemory | hfurther := h
  · obtain ⟨e, -, he⟩ := Option.map_eq_some_iff.1 hmemory
    exact ⟨_, _, e, he⟩
  · obtain ⟨e, -, he⟩ := offered_to_further_queue hfurther
    exact ⟨_, _, e, he⟩

/-- R514: the bus at the end of a tick. -/
theorem sysTick_bus (s : State) : (sysTick s).env.bus = busTick s (sysTick s).out := rfl

theorem wires_bcast (s : State) : (wires s).bcast = broadcastLanes s := rfl

/-- R528 (4): the lanes of a tick do not show in what the ReadWrite stage emits in it. -/
theorem rwOut_sysTick (s : State) : (sysTick s).out.rwOut = (rwTickOf s.cfg s.blk (wiresWith s [])).out := rfl

/-- R336: a result there is to broadcast is on a lane, or waits after the tick. -/
theorem mem_bcast_or_unsent {s : State} {l : BroadcastLane} (h : l ∈ busSources s) :
    l ∈ (wires s).bcast ∨ l ∈ (sysTick s).env.bus.unsent := mem_pickLanes_or_leftOver h (busPicks s)

/-! ## What the units outside the block announce and report (R336, R512, R515) -/

/-- R402: the ROB `r'` has rows of the same numbers as `r`. -/
structure Rob.SameRows (r r' : Rob) : Prop where
  head : r'.head = r.head
  length : r'.rows.length = r.rows.length

theorem Rob.SameRows.refl (r : Rob) : r.SameRows r := ⟨rfl, rfl⟩

theorem Rob.SameRows.trans {r r' r'' : Rob} (h : r.SameRows r') (h' : r'.SameRows r'') : r.SameRows r'' :=
  ⟨h'.head.trans h.head, h'.length.trans h.length⟩

theorem Rob.sameRows_modify (r : Rob) (rd : RobReceipt) (f : RobSlot → RobSlot) : r.SameRows (r.modify rd f) :=
  ⟨rfl, List.length_modify _ _ _⟩

/-- R336, R512, R515: from `env` to `env'` words may have come to wait for a lane and results may have come into the
ROB; nothing is gone. -/
structure Env.OnlyAdds (env env' : Env) : Prop where
  unsent : env.bus.unsent ⊆ env'.bus.unsent
  heard : env'.bus.heard = env.bus.heard
  rows : env.rob.SameRows env'.rob

theorem Env.OnlyAdds.refl (env : Env) : env.OnlyAdds env := ⟨fun _ h => h, rfl, .refl _⟩

theorem Env.OnlyAdds.trans {env env' env'' : Env} (h : env.OnlyAdds env') (h' : env'.OnlyAdds env'') :
    env.OnlyAdds env'' :=
  ⟨List.Subset.trans h.unsent h'.unsent, h'.heard.trans h.heard, h.rows.trans h'.rows⟩

theorem Env.OnlyAdds.foldl {α : Type} {act : Env → α → Env} (h : ∀ (env : Env) (a : α), env.OnlyAdds (act env a))
    (env : Env) (l : List α) : env.OnlyAdds (l.foldl act env) :=
  List.foldlRecOn (motive := fun e : Env => env.OnlyAdds e) _ _ (.refl env) fun e he a _ => he.trans (h e a)

theorem Env.onlyAdds_announce (env : Env) (l : BroadcastLane) : env.OnlyAdds (env.announce l) := by
  obtain h | h := (env.announce_spec l).1
  · rw [h]
    exact .refl env
  · rw [h]
    exact ⟨List.subset_append_left _ _, rfl, .refl _⟩

/-- R336: the bus after a report: its word waits for a lane, or the bus is as it was. -/
theorem Env.report_bus (idW : Nat) (env : Env) (u : UnitReport) :
    (env.report idW u).bus = env.bus ∨
      ∃ v, (env.report idW u).bus = env.bus.queue (BroadcastLane.of u.rd v) := by
  unfold Env.report
  split
  next => exact .inl rfl
  next slot _ =>
    cases hword : env.bus.word u.rd with
    | none => exact .inr ⟨_, rfl⟩
    | some v => exact .inl rfl

theorem Env.onlyAdds_report (idW : Nat) (env : Env) (u : UnitReport) : env.OnlyAdds (env.report idW u) := by
  have hrows : env.rob.SameRows (env.report idW u).rob := by
    cases hawaits : env.rob.awaiting u.rd with
    | none => exact ((env.report_spec idW u).1 hawaits).symm ▸ .refl _
    | some slot =>
      rw [((env.report_spec idW u).2 slot hawaits).1]
      exact Rob.sameRows_modify _ _ _
  obtain hbus | ⟨v, hbus⟩ := env.report_bus idW u
  · exact ⟨hbus ▸ List.Subset.refl _, hbus ▸ rfl, hrows⟩
  · exact ⟨hbus ▸ List.subset_append_left _ _, hbus ▸ rfl, hrows⟩

theorem Env.onlyAdds_reportAll (idW : Nat) (env : Env) (lanes : List BroadcastLane) (results : List UnitReport) :
    env.OnlyAdds (env.reportAll idW lanes results) :=
  (Env.OnlyAdds.foldl Env.onlyAdds_announce env lanes).trans (.foldl (Env.onlyAdds_report idW) _ results)

/-- Settles O53: an offer has heard what was broadcast, and what there is to broadcast is picked or left over. -/
theorem noWakeUpIsLost : Obligations.NoWakeUpIsLost := by
  unfold Obligations.NoWakeUpIsLost
  intro s i t fresh
  have hreported : ∀ l ∈ (reportedEnv s).bus.unsent, l ∈ i.bcast ∨ l ∈ t.env.bus.unsent := fun l hl =>
    mem_bcast_or_unsent (List.mem_append_right _ hl)
  refine ⟨fun e hoffered => ?_, fun l hl hfresh => ?_, fun o hout => ?_, hreported, fun l hl => ?_⟩
  · obtain ⟨r, u, e, rfl⟩ := exists_offer hoffered
    exact s.env.offer_unheard r u e
  · exact (mem_heard_after _ _ _ _ _).2 ⟨hl, hfresh⟩
  · have hown : BroadcastLane.of o.rd o.bits.result ∈ ownLane (rwTickOf s.cfg s.blk (wiresWith s [])).out := by
      rw [← rwOut_sysTick, hout]
      exact List.mem_singleton_self _
    exact mem_bcast_or_unsent (List.mem_append_left _ hown)
  · exact hreported l ((s.env.onlyAdds_reportAll _ _ _).unsent hl)

/-- R512, R515: from `env` to `env'` the slot of the receipt `rd` has not changed and no word of its has come. -/
structure Env.SilentOn (rd : RobReceipt) (env env' : Env) : Prop where
  slot : env'.rob.slotAt rd = env.rob.slotAt rd
  unsent : ∀ l ∈ env'.bus.unsent, l.tag = rd → l ∈ env.bus.unsent

theorem Env.SilentOn.refl (rd : RobReceipt) (env : Env) : Env.SilentOn rd env env := ⟨rfl, fun _ h _ => h⟩

theorem Env.SilentOn.trans {rd : RobReceipt} {env env' env'' : Env} (h : Env.SilentOn rd env env')
    (h' : Env.SilentOn rd env' env'') : Env.SilentOn rd env env'' :=
  ⟨h'.slot.trans h.slot, fun l hl htag => h.unsent l (h'.unsent l hl htag) htag⟩

theorem Env.SilentOn.awaiting {rd : RobReceipt} {env env' : Env} (h : Env.SilentOn rd env env') :
    env'.rob.awaiting rd = env.rob.awaiting rd := congrArg (Option.filter RobSlot.awaits) h.slot

theorem Env.SilentOn.queue {rd : RobReceipt} {env env' : Env} {l : BroadcastLane}
    (hslot : env'.rob.slotAt rd = env.rob.slotAt rd) (hbus : env'.bus = env.bus.queue l) (htag : l.tag ≠ rd) :
    Env.SilentOn rd env env' := by
  refine ⟨hslot, fun l' hl' htag' => ?_⟩
  rw [hbus] at hl'
  obtain hl' | rfl : l' ∈ env.bus.unsent ∨ l' = l := by simpa [Bus.queue] using hl'
  · exact hl'
  · exact absurd htag' htag

/-- R512 (e), R515: a word announced for another instruction, or for one that awaits no result, is none of its. -/
theorem Env.silentOn_announce {rd : RobReceipt} {env : Env} {l : BroadcastLane}
    (h : l.tag = rd → env.rob.awaiting rd = none) : Env.SilentOn rd env (env.announce l) := by
  have hslot : (env.announce l).rob.slotAt rd = env.rob.slotAt rd := by rw [env.rob_announce l]
  by_cases hsame : env.announce l = env
  · exact hsame.symm ▸ .refl rd env
  · obtain ⟨-, hawaits, -⟩ := (env.announce_spec l).2 hsame
    obtain hbus := (env.announce_spec l).1.resolve_left hsame
    refine .queue hslot (congrArg Env.bus hbus) fun htag => ?_
    simp [htag, h htag] at hawaits

/-- R512 (e), R515: so is a result reported for another instruction, or for one that awaits none. -/
theorem Env.silentOn_report {rd : RobReceipt} (idW : Nat) {env : Env} {u : UnitReport}
    (h : u.rd = rd → env.rob.awaiting rd = none) : Env.SilentOn rd env (env.report idW u) := by
  cases hawaits : env.rob.awaiting u.rd with
  | none => exact ((env.report_spec idW u).1 hawaits).symm ▸ .refl rd env
  | some slot =>
    have hother : u.rd ≠ rd := fun hrd => by simp [hrd, h hrd] at hawaits
    have hslot : (env.report idW u).rob.slotAt rd = env.rob.slotAt rd := by
      rw [((env.report_spec idW u).2 slot hawaits).1, Rob.report, Rob.slotAt_modify, if_neg hother.symm]
    obtain hbus | ⟨v, hbus⟩ := env.report_bus idW u
    · exact ⟨hslot, fun l hl _ => hbus ▸ hl⟩
    · exact .queue hslot hbus hother

theorem Env.silentOn_announceAll {rd : RobReceipt} {env : Env} (h : env.rob.awaiting rd = none)
    (lanes : List BroadcastLane) : Env.SilentOn rd env (lanes.foldl Env.announce env) :=
  List.foldlRecOn (motive := Env.SilentOn rd env) _ _ (.refl rd env) fun _ he _ _ =>
    he.trans (Env.silentOn_announce fun _ => he.awaiting.trans h)

theorem Env.silentOn_reports {rd : RobReceipt} (idW : Nat) {env : Env} {results : List UnitReport}
    (h : ∀ u ∈ results, u.rd = rd → env.rob.awaiting rd = none) :
    Env.SilentOn rd env (results.foldl (Env.report idW) env) :=
  List.foldlRecOn (motive := Env.SilentOn rd env) _ _ (.refl rd env) fun _ he u hu =>
    he.trans (Env.silentOn_report idW fun hrd => he.awaiting.trans (h u hu hrd))

/-- R512 (e), R515: an instruction that awaits no result gets none and no broadcast. -/
theorem Env.silentOn_reportAll {rd : RobReceipt} (idW : Nat) {env : Env} (h : env.rob.awaiting rd = none)
    (lanes : List BroadcastLane) (results : List UnitReport) :
    Env.SilentOn rd env (env.reportAll idW lanes results) := by
  have hlanes := Env.silentOn_announceAll h lanes
  exact hlanes.trans (Env.silentOn_reports idW fun _ _ _ => hlanes.awaiting.trans h)

/-- R336: announced words leave the ROB. -/
theorem Env.rob_announceAll (env : Env) (lanes : List BroadcastLane) :
    (lanes.foldl Env.announce env).rob = env.rob :=
  List.foldlRecOn (motive := fun e : Env => e.rob = env.rob) _ _ rfl fun e he l _ => (e.rob_announce l).trans he

/-- R336: a word that waits for a lane after the announcements was announced or waited before. -/
theorem Env.unsent_announceAll (env : Env) (lanes : List BroadcastLane) :
    ∀ l ∈ (lanes.foldl Env.announce env).bus.unsent, l ∈ lanes ∨ l ∈ env.bus.unsent := by
  refine List.foldlRecOn (motive := fun e : Env => ∀ l ∈ e.bus.unsent, l ∈ lanes ∨ l ∈ env.bus.unsent) _ _
    (fun l hl => .inr hl) fun e he a ha l hl => ?_
  obtain h | h := (e.announce_spec a).1
  · exact he l (h ▸ hl)
  · rw [h] at hl
    obtain hl | rfl : l ∈ e.bus.unsent ∨ l = a := by simpa [Bus.queue] using hl
    · exact he l hl
    · exact .inl ha

theorem Bus.word_eq_none_iff (b : Bus) (rd : RobReceipt) :
    b.word rd = none ↔ ∀ l ∈ b.unsent ++ b.heard, l.valid = true → l.tag ≠ rd := by
  simp [Bus.word, or_imp, forall_and]

/-- R41, R515: held to the widths of the receipts, a result is by the rule and says what the unit reported. -/
theorem RobSlot.narrow_resultOf_spec (slot : RobSlot) (word : Option Data) (u : ExecuteResult) (idW : Nat) :
    ((slot.resultOf word u).narrow idW).ByTheRule slot.kind slot.next ∧
      ((slot.resultOf word u).narrow idW).Reports u slot.kind ∧
      ((slot.resultOf word u).narrow idW).result = word.getD u.result := by
  obtain ⟨hrule, hreports, hresult⟩ := slot.resultOf_spec word u
  exact ⟨⟨hrule.real, hrule.branch, hrule.csr, hrule.xret, hrule.fence, hrule.pipeline⟩,
    ⟨hreports.exception, hreports.csr, hreports.target, hreports.xret, hreports.fence⟩, hresult⟩

/-- R515: the slot of an instruction that has taken the result `u`, with the word `word` if one was sent ahead of it. -/
def RobSlot.reported (slot : RobSlot) (idW : Nat) (word : Option Data) (u : ExecuteResult) : RobSlot :=
  { slot with entry := { slot.entry with commit := true, executeResult := (slot.resultOf word u).narrow idW } }

/-- R512 (e): what has its result awaits none. -/
theorem Rob.awaiting_of_reported {r : Rob} {rd : RobReceipt} {slot : RobSlot} {idW : Nat} {word : Option Data}
    {u : ExecuteResult} (h : r.slotAt rd = some (slot.reported idW word u)) : r.awaiting rd = none := by
  simp [Rob.awaiting, h, RobSlot.awaits, RobSlot.reported]

theorem Env.slotAt_reportAll_of_unreported (idW : Nat) (env : Env) {rd : RobReceipt} (lanes : List BroadcastLane)
    {results : List UnitReport} (h : ∀ u ∈ results, u.rd ≠ rd) :
    (env.reportAll idW lanes results).rob.slotAt rd = env.rob.slotAt rd :=
  (Env.silentOn_reports idW fun u hu hrd => absurd hrd (h u hu)).slot.trans
    (congrArg (fun r : Rob => r.slotAt rd) (env.rob_announceAll lanes))

/-- R515: the first report for an instruction that awaits a result is made in an environment `waiting` in which it still
awaits one; the reports before it and those after it are silent on the instruction. -/
theorem Env.exists_reportAll_of_first (idW : Nat) {env : Env} {slot : RobSlot} {u : UnitReport}
    (hawaits : env.rob.awaiting u.rd = some slot) (lanes : List BroadcastLane) {results : List UnitReport}
    (hfirst : results.find? (fun v => v.rd == u.rd) = some u) :
    ∃ waiting : Env, env.OnlyAdds waiting ∧ waiting.rob.awaiting u.rd = some slot ∧
      Env.SilentOn u.rd (lanes.foldl Env.announce env) waiting ∧
      Env.SilentOn u.rd (waiting.report idW u) (env.reportAll idW lanes results) ∧
      (waiting.report idW u).OnlyAdds (env.reportAll idW lanes results) := by
  obtain ⟨-, before, after, rfl, hbefore⟩ := List.find?_eq_some_iff_append.1 hfirst
  have hsilent : Env.SilentOn u.rd (lanes.foldl Env.announce env)
      (before.foldl (Env.report idW) (lanes.foldl Env.announce env)) :=
    Env.silentOn_reports idW fun v hv hsame => by simpa [hsame] using hbefore v hv
  have hwaits := hsilent.awaiting.trans
    ((congrArg (fun r : Rob => r.awaiting u.rd) (env.rob_announceAll lanes)).trans hawaits)
  obtain ⟨-, hslot, -⟩ := (Env.report_spec idW _ u).2 slot hwaits
  rw [Env.reportAll, List.foldl_append, List.foldl_cons]
  exact ⟨_, (Env.OnlyAdds.foldl Env.onlyAdds_announce env lanes).trans (.foldl (Env.onlyAdds_report idW) _ before),
    hwaits, hsilent, Env.silentOn_reports idW fun _ _ _ => Rob.awaiting_of_reported hslot,
    .foldl (Env.onlyAdds_report idW) _ after⟩

/-- R515: an instruction that awaits a result takes the first that is reported for it, and its word is on the bus: the
result's, unless another was sent ahead of it. -/
theorem Env.slotAt_reportAll_of_first (idW : Nat) {env : Env} {slot : RobSlot} {u : UnitReport}
    (hawaits : env.rob.awaiting u.rd = some slot) (lanes : List BroadcastLane) {results : List UnitReport}
    (hfirst : results.find? (fun v => v.rd == u.rd) = some u) :
    let e := env.reportAll idW lanes results
    ∃ word, e.rob.slotAt u.rd = some (slot.reported idW word u.result) ∧
      BroadcastLane.of u.rd (word.getD u.result.result) ∈ e.bus.unsent ++ env.bus.heard ∧
      ((∀ l ∈ lanes ++ env.bus.unsent ++ env.bus.heard, l.valid = true → l.tag ≠ u.rd) → word = none) := by
  obtain ⟨waiting, hgrown, hwaits, hsilent, hsettled, hadds⟩ :=
    Env.exists_reportAll_of_first idW hawaits lanes hfirst
  obtain ⟨-, hslot, hlane⟩ := (waiting.report_spec idW u).2 slot hwaits
  refine ⟨waiting.bus.word u.rd, hsettled.slot.trans hslot, ?_, fun hunheard => ?_⟩
  · rw [(slot.resultOf_spec _ _).2.2, (waiting.onlyAdds_report idW u).heard, hgrown.heard, List.mem_append] at hlane
    exact List.mem_append.2 (hlane.imp_left fun hunsent => hadds.unsent hunsent)
  · refine (Bus.word_eq_none_iff _ _).2 fun l hl hvalid htag => hunheard l ?_ hvalid htag
    rw [hgrown.heard, List.mem_append] at hl
    simp only [List.mem_append]
    exact hl.imp_left fun hunsent => env.unsent_announceAll lanes l (hsilent.unsent l hunsent htag)

/-! ## A bubble that is handed over (R515) -/

/-- R402: a receipt names a slot exactly when its row is in the ROB. -/
theorem Rob.slotAt_isSome_iff (r : Rob) (rd : RobReceipt) :
    (r.slotAt rd).isSome = true ↔ r.position rd < r.rows.length := by
  simp [Rob.slotAt]

/-- R515: the slot of the receipt, if there is one, is one for which a unit was handed a bubble. -/
def Rob.Bubbled (r : Rob) (rd : RobReceipt) : Prop := ∀ slot, r.slotAt rd = some slot → slot.bubble = true

theorem Rob.Bubbled.awaiting {r : Rob} {rd : RobReceipt} (h : r.Bubbled rd) : r.awaiting rd = none := by
  by_contra hsome
  obtain ⟨slot, hslot⟩ := Option.ne_none_iff_exists'.1 hsome
  obtain ⟨hat, -, -, -, hbubble⟩ := (Rob.awaiting_eq_some_iff _ _ _).1 hslot
  simp [h slot hat] at hbubble

theorem Rob.bubbled_handOver {r : Rob} {rd : RobReceipt} {e : ExecuteEntry} (he : e.rd = rd → e.valid = false)
    (h : e.rd = rd ∨ r.Bubbled rd) : (r.handOver e).Bubbled rd := by
  intro slot hslot
  rw [Rob.handOver, Rob.slotAt_modify] at hslot
  split at hslot
  next hrd =>
    obtain ⟨old, -, rfl⟩ := Option.map_eq_some_iff.1 hslot
    simp [he hrd.symm]
  next hrd => exact h.resolve_left (Ne.symm hrd) slot hslot

/-- R515: when every entry that is handed over for a receipt is a bubble, and one is handed over, so it stays. -/
theorem Rob.bubbled_foldl_handOver {r : Rob} {rd : RobReceipt} {es : List ExecuteEntry}
    (hbubbles : ∀ e ∈ es, e.rd = rd → e.valid = false) (h : (∃ e ∈ es, e.rd = rd) ∨ r.Bubbled rd) :
    (es.foldl Rob.handOver r).Bubbled rd := by
  induction es generalizing r with
  | nil => simpa using h
  | cons e es ih =>
    rw [List.forall_mem_cons] at hbubbles
    rw [List.exists_mem_cons_iff, or_assoc] at h
    refine ih hbubbles.2 ?_
    obtain hfirst | hlater | hbefore := h
    · exact .inr (Rob.bubbled_handOver hbubbles.1 (.inl hfirst))
    · exact .inl hlater
    · exact .inr (Rob.bubbled_handOver hbubbles.1 (.inr hbefore))

theorem Rob.sameRows_reportOwn (r : Rob) (idW : Nat) (own : Option RwOut) : r.SameRows (r.reportOwn idW own) := by
  cases own with
  | none => exact .refl r
  | some o => exact r.sameRows_modify _ _

theorem Rob.sameRows_foldl_handOver (r : Rob) (es : List ExecuteEntry) : r.SameRows (es.foldl Rob.handOver r) :=
  List.foldlRecOn (motive := r.SameRows) _ _ (.refl r) fun r' hr' e _ => hr'.trans (r'.sameRows_modify e.rd _)

theorem Rob.SameRows.slotAt_isSome {r r' : Rob} (h : r.SameRows r') {rd : RobReceipt}
    (hslot : (r.slotAt rd).isSome = true) : (r'.slotAt rd).isSome = true := by
  rw [Rob.slotAt_isSome_iff, Rob.position] at hslot ⊢
  rwa [h.head, h.length]

/-- R512: a row that is allocated changes no slot there is. -/
theorem Rob.slotAt_mint (r : Rob) (idW : Nat) (row : Option RobRow) {rd : RobReceipt}
    (h : (r.slotAt rd).isSome = true) : (r.mint idW row).slotAt rd = r.slotAt rd := by
  rw [Rob.slotAt_isSome_iff] at h
  cases row with
  | none => rfl
  | some w =>
    unfold Rob.mint
    dsimp only
    split
    · exact congrArg (Option.map fun row : RobRow => row.at (receiptSlot rd)) (List.getElem?_append_left h)
    · rfl

/-- R402, R512: a row is allocated only while there is a number for it. -/
theorem Rob.length_rows_mint_lt {r : Rob} (h : r.rows.length < 2 ^ 31) (idW : Nat) (row : Option RobRow) :
    (r.mint idW row).rows.length < 2 ^ 31 := by
  cases row with
  | none => exact h
  | some w =>
    unfold Rob.mint
    dsimp only
    split
    next hmintable =>
      obtain ⟨-, hroom⟩ := Bool.and_eq_true_iff.1 hmintable
      simpa using hroom
    next => exact h

/-- R402: counted from the next number, of 31 bits, a row's is one less, or the last of all. -/
theorem toNat_sub_next (x head : RobRow31) :
    (x - (head + 1)).toNat + 1 = (x - head).toNat ∨ (x - (head + 1)).toNat + 1 = 2 ^ 31 := by
  bv_omega

/-- R403, R512 (d): a slot of a row that stays is as it was; one of a row that is freed is gone. -/
theorem Rob.slotAt_free {r : Rob} (h : r.rows.length < 2 ^ 31) (ready recover : Bool) (rd : RobReceipt) :
    (r.free ready recover).slotAt rd = none ∨ (r.free ready recover).slotAt rd = r.slotAt rd := by
  unfold Rob.free
  split
  next => exact .inl rfl
  next =>
    split
    next =>
      simp only [Rob.slotAt, Rob.position, List.getElem?_tail]
      obtain hstays | hgone := toNat_sub_next (receiptRow rd) r.head
      · exact .inr (by rw [hstays])
      · exact .inl (by rw [hgone, List.getElem?_eq_none h.le, Option.map_none])
    next => exact .inr rfl

theorem Rob.Bubbled.of_slotAt {r r' : Rob} {rd : RobReceipt} (h : r.Bubbled rd)
    (hslot : r'.slotAt rd = none ∨ r'.slotAt rd = r.slotAt rd) : r'.Bubbled rd := by
  intro slot hat
  obtain hgone | hsame := hslot
  · simp [hgone] at hat
  · exact h slot (hsame ▸ hat)

/-- R515: at the end of a tick in which only bubbles, and at least one, were handed over for a receipt it awaits no
result. -/
theorem Rob.awaiting_tick_of_bubbles {r : Rob} (idW : Nat) {o : Outputs} {input : EnvInput} {rd : RobReceipt}
    (hslot : (r.slotAt rd).isSome = true) (hrows : r.rows.length < 2 ^ 31)
    (hhanded : ∃ d ∈ handedOver o input, d.rd = rd)
    (hbubbles : ∀ d ∈ handedOver o input, d.rd = rd → d.valid = false) :
    (r.tick idW o input).awaiting rd = none := by
  have hsame := (r.sameRows_reportOwn idW o.rwOut).trans (Rob.sameRows_foldl_handOver _ (handedOver o input))
  have hhandedOver := Rob.bubbled_foldl_handOver (r := r.reportOwn idW o.rwOut) hbubbles (.inl hhanded)
  have hminted := hhandedOver.of_slotAt
    (.inr (Rob.slotAt_mint _ idW (mintedRow o input) (hsame.slotAt_isSome hslot)))
  have hlength := Rob.length_rows_mint_lt (hsame.length ▸ hrows) idW (mintedRow o input)
  exact (hminted.of_slotAt (Rob.slotAt_free hlength _ _ rd)).awaiting

/-- Settles O55: a receipt that awaits no result is silent, one that awaits one takes the first report for it, and a
bubble marks its slot until the slot is gone. -/
theorem otherUnitsReportByTheRule : Obligations.OtherUnitsReportByTheRule := by
  unfold Obligations.OtherUnitsReportByTheRule
  intro s rd e t handed
  refine ⟨fun hnone => ?_, fun slot hawaits => ?_, fun slot hslot hrows hhanded hbubbles => ?_⟩
  · obtain ⟨hslot, hunsent⟩ := Env.silentOn_reportAll s.cfg.sqIdW.val hnone s.input.lanes s.input.results
    exact ⟨hslot, hunsent⟩
  · obtain ⟨hat, hvalid, hcommit, hkind, hbubble⟩ := (Rob.awaiting_eq_some_iff _ _ _).1 hawaits
    refine ⟨hvalid, hcommit, hkind, hbubble, ?_⟩
    cases hfirst : s.input.results.find? (fun u => u.rd == rd) with
    | none =>
      have hothers : ∀ u ∈ s.input.results, u.rd ≠ rd := by simpa using hfirst
      have hkept := s.env.slotAt_reportAll_of_unreported s.cfg.sqIdW.val s.input.lanes hothers
      exact ⟨slot, hkept.trans hat, fun _ => rfl, fun u hu => by simp at hu⟩
    | some u =>
      obtain rfl : u.rd = rd := by simpa using List.find?_some hfirst
      obtain ⟨word, hslot, hlane, hword⟩ :=
        Env.slotAt_reportAll_of_first s.cfg.sqIdW.val hawaits s.input.lanes hfirst
      obtain ⟨hrule, hreports, hresult⟩ := slot.narrow_resultOf_spec word u.result s.cfg.sqIdW.val
      refine ⟨_, hslot, fun hothers => ?_, fun u' hu' => ?_⟩
      · exact absurd rfl (hothers u (List.mem_of_find?_eq_some hfirst))
      · obtain rfl := Option.some.inj hu'
        refine ⟨rfl, hrule, hreports, ?_, fun hunheard => ?_⟩
        · exact hresult.symm ▸ hlane
        · exact hresult.trans (by rw [hword hunheard]; rfl)
  · have hreported := (s.env.onlyAdds_reportAll s.cfg.sqIdW.val s.input.lanes s.input.results).rows
    have hisSome : (s.env.rob.slotAt rd).isSome = true := by rw [hslot]; rfl
    exact Rob.awaiting_tick_of_bubbles _ (hreported.slotAt_isSome hisSome) (hreported.length ▸ hrows) hhanded hbubbles

end Sys2Proof.Machine

/-! PROOFS. The statement about the load-reservation tracker (`45_load_reservation.md`): what the ReadWrite stage asks
of it in a tick (R384, R385), and the next value of both reservations (R386 to R388). -/

namespace Sys2Proof.Machine

/-! ## Which tick asks for something (R381)

A tick that asks something of the tracker finishes a step of the stage, and asks what that step asks. -/

@[simp] theorem RwStage.silent_event (r : RwStage) : r.silent.event = .none := rfl
@[simp] theorem RwStage.emit_event (r : RwStage) (res : ExecuteResult) (e : ReservationEvent) :
    (r.emit res e).event = e := rfl
@[simp] theorem RwStage.raise_event (r : RwStage) (code : ExcCode) : (r.raise code).event = .none := rfl

section
variable {r : RwStage} {e : ReservationEvent} (hasks : e ≠ .none)
include hasks

theorem RwStage.tickIdle_event_eq_iff (resv : LoadReservationEntry) (inp : Option MemEntry3) :
    (r.tickIdle resv inp false).event = e ↔ r.inReg.valid = true ∧ (r.dispatch resv).event = e := by
  unfold RwStage.tickIdle
  split
  next hvalid => simp [hvalid]
  next hinvalid => cases inp <;> simp [hinvalid, hasks.symm]

theorem RwStage.tickRead_event_eq_iff (read : Option SmaAnswer) (finish : Word → RwTick) :
    (r.tickRead read false finish).event = e ↔
      r.inReg.valid = true ∧ ∃ d, read = some { data := d, error := false } ∧ (finish d).event = e := by
  obtain _ | ⟨d, error⟩ := read
  · simp [RwStage.tickRead, hasks.symm]
  · cases hvalid : r.inReg.valid <;> cases error <;> simp [RwStage.tickRead, hvalid, hasks.symm]

theorem RwStage.tickWrite_event_eq_iff (fired : Option SqReceipt) (finish : SqReceipt → RwTick) :
    (r.tickWrite fired false finish).event = e ↔ ∃ id, fired = some id ∧ (finish id).event = e := by
  cases fired <;> simp [RwStage.tickWrite, hasks.symm]

end

/-! ## What a step of the stage asks (R384, R385) -/

theorem dispatchException_eq_none_iff (op : MemOp) (error : MemoryErrorCode) :
    dispatchException op error = none ↔ op ≠ .undefined ∧ error = .none := by
  by_cases hundefined : op = .undefined
  · simp [dispatchException, hundefined]
  · cases error <;> simp [dispatchException, mapError, hundefined]

section
variable (r : RwStage)

/-- R294, R385: a dispatch asks only for an `sc` without a tag that fails the check. -/
theorem RwStage.dispatch_event (resv : LoadReservationEntry) :
    (r.dispatch resv).event =
      if r.inReg.op = .sc ∧ r.inReg.error = .none ∧ reservationHolds resv r.inReg.vaddress = false
      then .clear else .none := by
  cases hexc : dispatchException r.inReg.op r.inReg.error with
  | some code =>
    have htag : r.inReg.op = .sc → r.inReg.error ≠ .none := fun hsc herror => by
      simp [hsc, herror, dispatchException, mapError] at hexc
    rw [RwStage.dispatch_of_exception resv hexc, if_neg fun h => htag h.1 h.2.1]
    rfl
  | none =>
    obtain ⟨hdefined, herror⟩ := (dispatchException_eq_none_iff _ _).1 hexc
    by_cases hreads : (r.inReg.op.isRead || r.inReg.op.isAmo) = true
    · have hsc : r.inReg.op ≠ .sc := fun h => absurd (h ▸ hreads) (by decide)
      rw [RwStage.dispatch_of_reading resv hreads herror, if_neg fun h => hsc h.1]
      rfl
    · rw [RwStage.dispatch_of_writing resv (isWrite_of_not_read hdefined hreads) herror]
      simp only [herror, true_and]
      split <;> rfl

theorem RwStage.readBottomDone_event (d : Word) :
    (r.readBottomDone d).event = if r.inReg.op = .lr then .set r.inReg.vaddress else .none := by
  unfold RwStage.readBottomDone
  split
  next hld => simp [hld]
  next =>
    split
    next => rfl
    next => split <;> rfl

theorem RwStage.writeBottomDone_event (id : SqReceipt) :
    (r.writeBottomDone id).event = if r.inReg.op = .sc then .clear else .none := by
  by_cases hsd : r.inReg.op = .sd
  · rw [RwStage.writeBottomDone_of_sd hsd, hsd]
    rfl
  · rw [RwStage.writeBottomDone_of_ne_sd hsd, RwStage.emit_event]

@[simp] theorem RwStage.readTopDone_event (d : Word) : (r.readTopDone d).event = .none := rfl
@[simp] theorem RwStage.writeTopDone_event (id : SqReceipt) : (r.writeTopDone id).event = .none := rfl

/-! ## What a tick of the stage asks -/

variable (resv : LoadReservationEntry) (inp : Option MemEntry3) (read : Option SmaAnswer) (fired : Option SqReceipt)

/-- R384: the address is set by the bottom read of a valid `lr` alone. -/
theorem RwStage.tick_event_eq_set_iff (a : Addr) :
    (r.tick resv inp read fired false).event = .set a ↔
      (r.state = .readBottom ∧ r.inReg.op = .lr ∧ r.inReg.valid = true ∧
        ∃ d, read = some { data := d, error := false }) ∧ r.inReg.vaddress = a := by
  have hasks : ReservationEvent.set a ≠ .none := by simp
  unfold RwStage.tick
  split
  next hstate => simp [RwStage.tickIdle_event_eq_iff hasks, RwStage.dispatch_event, ite_eq_iff, hstate]
  next hstate =>
    simp [RwStage.tickRead_event_eq_iff hasks, RwStage.readBottomDone_event, ite_eq_iff, hstate, and_assoc,
      and_left_comm]
  next hstate => simp [RwStage.tickRead_event_eq_iff hasks, hstate]
  next hstate => simp [RwStage.tickWrite_event_eq_iff hasks, RwStage.writeBottomDone_event, ite_eq_iff, hstate]
  next hstate => simp [RwStage.tickWrite_event_eq_iff hasks, hstate]

/-- R385: `valid` is cleared by an `sc` alone, by its dispatch when it fails the check or by its allocation. -/
theorem RwStage.tick_event_eq_clear_iff :
    (r.tick resv inp read fired false).event = .clear ↔
      r.inReg.op = .sc ∧
        ((r.state = .idle ∧ r.inReg.valid = true ∧ r.inReg.error = .none ∧
            reservationHolds resv r.inReg.vaddress = false) ∨
          (r.state = .writeBottom ∧ fired.isSome = true)) := by
  have hasks : ReservationEvent.clear ≠ .none := by simp
  unfold RwStage.tick
  split
  next hstate => simp [RwStage.tickIdle_event_eq_iff hasks, RwStage.dispatch_event, hstate, and_left_comm]
  next hstate => simp [RwStage.tickRead_event_eq_iff hasks, RwStage.readBottomDone_event, ite_eq_iff, hstate]
  next hstate => simp [RwStage.tickRead_event_eq_iff hasks, hstate]
  next hstate =>
    simp [RwStage.tickWrite_event_eq_iff hasks, RwStage.writeBottomDone_event, hstate,
      Option.isSome_iff_exists, and_comm]
  next hstate => simp [RwStage.tickWrite_event_eq_iff hasks, hstate]

end

/-! ## What a tick of the block asks, and the next values (R384 to R388) -/

section
variable {p : Params} {b : Block} {i : BlockInput} (hrecover : recoverOf b i = false)
include hrecover

/-- R257: in `writeBottom` the stage always asks to allocate, so the allocation fires when the queue is ready. -/
theorem allocFired_isSome_of_writeBottom (hstate : b.rw.state = .writeBottom) :
    (allocFired p b i).isSome = i.allocReady := by
  simp only [allocFired, hrecover, RwStage.allocReq_of_writeBottom hstate]
  cases i.allocReady <;> rfl

theorem rwTickOf_event_eq_set_iff (a : Addr) :
    (rwTickOf p b i).event = .set a ↔ b.LrCompletes p i ∧ b.rw.inReg.vaddress = a := by
  rw [rwTickOf, hrecover]
  exact b.rw.tick_event_eq_set_iff _ _ _ _ a

theorem rwTickOf_event_eq_clear_iff : (rwTickOf p b i).event = .clear ↔ b.ScCompletes i := by
  have hfires : (b.rw.state = .writeBottom ∧ (allocFired p b i).isSome = true) ↔
      (b.rw.state = .writeBottom ∧ i.allocReady = true) :=
    and_congr_right fun hstate => by rw [allocFired_isSome_of_writeBottom hrecover hstate]
  rw [rwTickOf, hrecover, RwStage.tick_event_eq_clear_iff, hfires, reservationHolds_eq_false_iff]
  rfl

/-- R388: without `recover` the speculative copy follows the ReadWrite stage. -/
theorem Block.tick_loadReservation_of_no_recover :
    (b.tick p i).loadReservation = applyReservation b.loadReservation (rwTickOf p b i).event :=
  if_neg (Bool.eq_false_iff.1 hrecover)

end

/-- R388: the recovery copy follows retirement, whatever the tick. -/
theorem Block.tick_recoveryLoadReservation (p : Params) (b : Block) (i : BlockInput) :
    (b.tick p i).recoveryLoadReservation =
      nextRecovery b.recoveryLoadReservation (engineTick b.ret i).out.lrUpdate := rfl

@[simp] theorem nextRecovery_none (rec : LoadReservationEntry) : nextRecovery rec none = rec := rfl

theorem nextRecovery_of_load (rec : LoadReservationEntry) {l : LrUpdate} (h : l.load = true) :
    nextRecovery rec (some l) = { address := l.address, valid := true } := if_pos h

theorem nextRecovery_of_clear (rec : LoadReservationEntry) {l : LrUpdate} (h : l.load = false) :
    nextRecovery rec (some l) = { address := rec.address, valid := false } := if_neg (Bool.eq_false_iff.1 h)

/-- Settles O21: the recovery copy by the three kinds of update; the speculative copy by `recover`, and without it by
the event the ReadWrite stage raises. -/
theorem reservationNextState : Obligations.ReservationNextState := by
  unfold Obligations.ReservationNextState
  intro p b i u b'
  have hrecovery : b'.recoveryLoadReservation = nextRecovery b.recoveryLoadReservation u :=
    b.tick_recoveryLoadReservation p i
  refine ⟨fun hnone => ?_, fun l hl hload => ?_, fun l hl hclear => ?_, fun hrecover => if_pos hrecover,
    fun hrecover hlr => ?_, fun hrecover hsc => ?_, fun hrecover hlr hsc => ?_⟩
  · rw [hrecovery, hnone, nextRecovery_none]
  · rw [hrecovery, hl, nextRecovery_of_load _ hload]
  · rw [hrecovery, hl, nextRecovery_of_clear _ hclear]
  · rw [Block.tick_loadReservation_of_no_recover hrecover, (rwTickOf_event_eq_set_iff hrecover _).2 ⟨hlr, rfl⟩]
    rfl
  · rw [Block.tick_loadReservation_of_no_recover hrecover, (rwTickOf_event_eq_clear_iff hrecover).2 hsc]
    rfl
  · have hnone : (rwTickOf p b i).event = .none := by
      cases hevent : (rwTickOf p b i).event with
      | set a => exact absurd ((rwTickOf_event_eq_set_iff hrecover a).1 hevent).1 hlr
      | clear => exact absurd ((rwTickOf_event_eq_clear_iff hrecover).1 hevent) hsc
      | none => rfl
    rw [Block.tick_loadReservation_of_no_recover hrecover, hnone]
    rfl

end Sys2Proof.Machine

/-! PROOFS. The statements about retirement (`46_retirement.md`): when a row fires (R405), what its evaluation drives
(R406, R410, R420 to R434), the flush machine (R444 to R449), and the instructions of other units as they retire alone
(R421, R422, R424, R425). -/

namespace Sys2Proof.Machine

/-! ## When a row fires (R402, R405) -/

theorem entryAt_eq_of_lookup {table : List (RobReceipt × RobRetireEntry)} {rd : RobReceipt} {e : RobRetireEntry}
    (h : table.lookup rd = some e) : entryAt table rd = e := by
  induction table with
  | nil => cases h
  | cons head rest ih =>
    obtain ⟨r, x⟩ := head
    by_cases heq : rd = r
    · subst heq
      simpa [entryAt] using h
    · rw [List.lookup_cons, beq_eq_false_iff_ne.2 heq] at h
      rw [entryAt, if_neg (Ne.symm heq), ih h]

/-- R402: a receipt is the number `2 * row + slot` that indexes the view. -/
theorem robReceipt_eq_ofNat (row : RobRow31) :
    robReceipt row .slot0 = BitVec.ofNat 32 (2 * row.toNat) ∧
      robReceipt row .slot1 = BitVec.ofNat 32 (2 * row.toNat + 1) := by
  obtain ⟨h0, h1⟩ := robReceipt_toNat row
  rw [← h1, ← h0]
  simp

theorem slotOk_iff (x : RobRetireEntry) : slotOk x = true ↔ x.commit = true ∨ x.valid = false := by
  simp [slotOk]

theorem fireNow_iff {ret : RetireRegs} (hstate : ret.state = .retire) (i : BlockInput) :
    fireNow ret i = true ↔ i.retiredValid = true ∧ (i.e0.commit = true ∨ i.e0.valid = false) ∧
      (i.e1.commit = true ∨ i.e1.valid = false) := by
  simp [fireNow, hstate, slotOk_iff, and_assoc]

theorem engineTick_of_waiting {ret : RetireRegs} {i : BlockInput} (hstate : ret.state = .retire)
    (h : fireNow ret i = false) : engineTick ret i = { out := .idle, next := ret } := by
  simp [engineTick, hstate, h]

/-- Settles O27: the entries are looked up under the receipts of the row, and a row that does not fire leaves the engine
idle. -/
theorem rowWaitsForBothSlots : Obligations.RowWaitsForBothSlots := by
  unfold Obligations.RowWaitsForBothSlots
  intro ret i hstate
  obtain ⟨h0, h1⟩ := robReceipt_eq_ofNat i.retiredRow
  rw [← h0, ← h1]
  exact ⟨fun e he => entryAt_eq_of_lookup he, fun e he => entryAt_eq_of_lookup he, fireNow_iff hstate i,
    engineTick_of_waiting hstate⟩

/-! ## Dispositions (R410) -/

section
variable {e : RobRetireEntry} (hexc : e.executeResult.exception = false)
include hexc

theorem disposition_of_xret (hxret : e.executeResult.xret = true) : disposition e = .xret := by
  simp [disposition, hexc, hxret]

variable (hxret : e.executeResult.xret = false)
include hxret

theorem disposition_of_writeCSR (hcsr : e.executeResult.writeCSR = true) : disposition e = .csrWrite := by
  simp [disposition, hexc, hxret, hcsr]

variable (hcsr : e.executeResult.writeCSR = false)
include hcsr

theorem disposition_of_mispredicted (hspec : e.spec ≠ e.executeResult.real) : disposition e = .mispredict := by
  simp [disposition, hexc, hxret, hcsr, hspec]

end

/-! ## What a slot drives (R420 to R434, R438) -/

section
variable {x : RobRetireEntry} (s : Slot) (handlerPC : Addr) (o : EngineOut)

theorem retireSlot_of_exception (h : disposition x = .exception) :
    retireSlot s x handlerPC o = takeException x.pc x.executeResult.exceptionCode handlerPC o := by
  rw [retireSlot, h]

theorem retireSlot_of_xret (h : disposition x = .xret) :
    retireSlot s x handlerPC o = returnFromException handlerPC o := by
  rw [retireSlot, h]

theorem retireSlot_of_csrWrite (h : disposition x = .csrWrite) :
    retireSlot s x handlerPC o = retireCsrWrite s x o := by
  rw [retireSlot, h]

theorem retireSlot_of_mispredict (h : disposition x = .mispredict) :
    retireSlot s x handlerPC o = retireMispredict s x o := by
  rw [retireSlot, h]

theorem retireSlot_of_normal (h : disposition x = .normal) :
    retireSlot s x handlerPC o = retireNormal s x o := by
  rw [retireSlot, h]

end

/-- R434: both receipts of a slot that stored. -/
def commitOf (x : RobRetireEntry) : SqRetire :=
  { id0 := x.executeResult.writeID0, id1 := x.executeResult.writeID1 }

/-- R433: the reservation update of a slot with an `lr` or `sc`. -/
def reservationOf (x : RobRetireEntry) : LrUpdate :=
  { load := x.executeResult.lr, address := x.executeResult.lrAddress }

/-- R433: the slot updates the reservation when it is Normal. -/
abbrev Reserves (x : RobRetireEntry) : Prop := x.executeResult.lr = true ∨ x.executeResult.sc = true

theorem driveReservation_eq (x : RobRetireEntry) (o : EngineOut) :
    driveReservation x o = { o with lrUpdate := if Reserves x then some (reservationOf x) else o.lrUpdate } := by
  unfold driveReservation
  simp only [Bool.or_eq_true]
  split <;> rfl

/-- R425: what a Normal slot 0 drives, port by port. -/
theorem retireNormal_slot0 (x : RobRetireEntry) (o : EngineOut) :
    retireNormal .slot0 x o =
      { o with
        reg0 := some { rd := x.rd, result := x.executeResult.result }
        pred0 := if x.executeResult.branch = true then some (predOf x) else o.pred0
        lrUpdate := if Reserves x then some (reservationOf x) else o.lrUpdate
        sq0 := if x.executeResult.write = true then some (commitOf x) else o.sq0 } := by
  unfold retireNormal driveCommit
  rw [driveReservation_eq]
  cases x.executeResult.branch <;> cases x.executeResult.write <;> rfl

/-- R425: what a Normal slot 1 drives, port by port. -/
theorem retireNormal_slot1 (x : RobRetireEntry) (o : EngineOut) :
    retireNormal .slot1 x o =
      { o with
        reg1 := some { rd := x.rd, result := x.executeResult.result }
        pred1 := if x.executeResult.branch = true then some (predOf x) else o.pred1
        lrUpdate := if Reserves x then some (reservationOf x) else o.lrUpdate
        sq1 := if x.executeResult.write = true then some (commitOf x) else o.sq1 } := by
  unfold retireNormal driveCommit
  rw [driveReservation_eq]
  cases x.executeResult.branch <;> cases x.executeResult.write <;> rfl

/-- R406: slot 1 leaves slot 0's ports as they are. -/
theorem retireSlot_slot1_keeps_slot0 (x : RobRetireEntry) (handlerPC : Addr) (o : EngineOut) :
    (retireSlot .slot1 x handlerPC o).reg0 = o.reg0 ∧ (retireSlot .slot1 x handlerPC o).pred0 = o.pred0 ∧
      (retireSlot .slot1 x handlerPC o).sq0 = o.sq0 := by
  unfold retireSlot
  cases disposition x with
  | normal => simp only [retireNormal_slot1, and_self]
  | _ => exact ⟨rfl, rfl, rfl⟩

section
variable (s : Slot) (x : RobRetireEntry) (handlerPC : Addr) (o : EngineOut)

/-- R433, R434: a slot with another disposition commits no store and updates no reservation. -/
theorem retireSlot_commits_nothing {x : RobRetireEntry} (h : disposition x ≠ .normal) :
    (retireSlot s x handlerPC o).sq0 = o.sq0 ∧ (retireSlot s x handlerPC o).sq1 = o.sq1 ∧
      (retireSlot s x handlerPC o).lrUpdate = o.lrUpdate := by
  unfold retireSlot
  cases hd : disposition x with
  | normal => exact absurd hd h
  | exception | xret | flush => exact ⟨rfl, rfl, rfl⟩
  | csrWrite | mispredict => cases s <;> exact ⟨rfl, rfl, rfl⟩

/-- R449: no disposition requests a flush in the tick in which it retires. -/
theorem retireSlot_requests_nothing :
    (retireSlot s x handlerPC o).dCacheReq = o.dCacheReq ∧ (retireSlot s x handlerPC o).iCacheReq = o.iCacheReq ∧
      (retireSlot s x handlerPC o).tlbReq = o.tlbReq := by
  unfold retireSlot
  cases disposition x with
  | exception | xret | flush => exact ⟨rfl, rfl, rfl⟩
  | csrWrite | mispredict => cases s <;> exact ⟨rfl, rfl, rfl⟩
  | normal => cases s <;> simp only [retireNormal_slot0, retireNormal_slot1, and_self]

/-- R420 to R425: dispositions 1 to 4 redirect, a flush and the Normal one do not. -/
theorem retireSlot_recover_isSome_iff (h : o.recover = none) :
    (retireSlot s x handlerPC o).recover.isSome = true ↔ disposition x ≠ .flush ∧ disposition x ≠ .normal := by
  unfold retireSlot
  cases disposition x with
  | exception | xret => simp [takeException, returnFromException]
  | csrWrite | mispredict => simp [retireCsrWrite, retireMispredict]
  | flush => simp [h]
  | normal => cases s <;> simp [retireNormal_slot0, retireNormal_slot1, h]

end

/-! ## The evaluation of a row (R406, R427) -/

section
variable {e0 e1 : RobRetireEntry} (handlerPC : Addr) (o : EngineOut)

theorem retireSecond_of_invalid (h : e1.valid = false) : retireSecond e1 handlerPC o = rowDone o := by
  simp [retireSecond, h]

theorem retireSecond_of_flush (hvalid : e1.valid = true) (h : disposition e1 = .flush) :
    retireSecond e1 handlerPC o = { out := o, flush := some .slot1 } := by
  simp [retireSecond, hvalid, h]

theorem retireSecond_of_done (hvalid : e1.valid = true) (h : disposition e1 ≠ .flush) :
    retireSecond e1 handlerPC o = rowDone (retireSlot .slot1 e1 handlerPC o) := by
  rw [retireSecond, if_pos hvalid]
  split
  next hflush => exact absurd hflush h
  next => rfl

/-- R406, R427: what a slot 1 that is reached can do. -/
theorem retireSecond_cases (e1 : RobRetireEntry) :
    (e1.valid = false ∧ retireSecond e1 handlerPC o = rowDone o) ∨
      (disposition e1 = .flush ∧ retireSecond e1 handlerPC o = { out := o, flush := some .slot1 }) ∨
      (e1.valid = true ∧ retireSecond e1 handlerPC o = rowDone (retireSlot .slot1 e1 handlerPC o)) := by
  cases hvalid : e1.valid with
  | false => exact .inl ⟨rfl, retireSecond_of_invalid _ _ hvalid⟩
  | true =>
    by_cases hflush : disposition e1 = .flush
    · exact .inr (.inl ⟨hflush, retireSecond_of_flush _ _ hvalid hflush⟩)
    · exact .inr (.inr ⟨rfl, retireSecond_of_done _ _ hvalid hflush⟩)

/-- R406: the outputs with which slot 1 is reached. -/
def firstOut (e0 : RobRetireEntry) : EngineOut := if e0.valid then retireNormal .slot0 e0 .idle else .idle

theorem firstOut_of_valid (h : e0.valid = true) : firstOut e0 = retireNormal .slot0 e0 .idle := if_pos h

theorem firstOut_of_invalid (h : e0.valid = false) : firstOut e0 = .idle := if_neg (Bool.eq_false_iff.1 h)

/-- R406: slot 0 is invalid or Normal, so slot 1 is looked at. -/
abbrev PassesOn (e0 : RobRetireEntry) : Prop := e0.valid = true → disposition e0 = .normal

theorem retireRow_of_passesOn (h : PassesOn e0) (e1 : RobRetireEntry) :
    retireRow e0 e1 handlerPC = retireSecond e1 handlerPC (firstOut e0) := by
  cases hvalid : e0.valid with
  | true =>
    rw [retireRow, if_pos hvalid, firstOut_of_valid hvalid, h hvalid,
      ← retireSlot_of_normal .slot0 handlerPC .idle (h hvalid)]
  | false => rw [retireRow, if_neg (Bool.eq_false_iff.1 hvalid), firstOut_of_invalid hvalid]

theorem retireRow_of_flush (hvalid : e0.valid = true) (h : disposition e0 = .flush) (e1 : RobRetireEntry) :
    retireRow e0 e1 handlerPC = { out := .idle, flush := some .slot0 } := by
  rw [retireRow, if_pos hvalid, h]

theorem retireRow_of_stops (hvalid : e0.valid = true) (hnormal : disposition e0 ≠ .normal)
    (hflush : disposition e0 ≠ .flush) (e1 : RobRetireEntry) :
    retireRow e0 e1 handlerPC = rowDone (retireSlot .slot0 e0 handlerPC .idle) := by
  rw [retireRow, if_pos hvalid]
  split
  next h => exact absurd h hnormal
  next h => exact absurd h hflush
  next => rfl

/-- R406, R427: what a row that slot 0 stops can do. -/
theorem retireRow_of_not_passesOn (h : ¬PassesOn e0) (e1 : RobRetireEntry) :
    disposition e0 ≠ .normal ∧
      (retireRow e0 e1 handlerPC = { out := .idle, flush := some .slot0 } ∨
        retireRow e0 e1 handlerPC = rowDone (retireSlot .slot0 e0 handlerPC .idle)) := by
  obtain ⟨hvalid, hnormal⟩ := Classical.not_imp.1 h
  by_cases hflush : disposition e0 = .flush
  · exact ⟨hnormal, .inl (retireRow_of_flush _ hvalid hflush e1)⟩
  · exact ⟨hnormal, .inr (retireRow_of_stops _ hvalid hnormal hflush e1)⟩

/-- What a row drives whose slot 1 is empty. -/
theorem retireRow_zero_of_passesOn (h : PassesOn e0) : retireRow e0 .zero handlerPC = rowDone (firstOut e0) := by
  rw [retireRow_of_passesOn handlerPC h, retireSecond_of_invalid _ _ rfl]

theorem retireRow_of_second_done (h : PassesOn e0) (hvalid : e1.valid = true) (hflush : disposition e1 ≠ .flush) :
    retireRow e0 e1 handlerPC = rowDone (retireSlot .slot1 e1 handlerPC (firstOut e0)) := by
  rw [retireRow_of_passesOn handlerPC h, retireSecond_of_done _ _ hvalid hflush]

theorem retireRow_of_second_flush (h : PassesOn e0) (hvalid : e1.valid = true) (hflush : disposition e1 = .flush) :
    retireRow e0 e1 handlerPC = { out := firstOut e0, flush := some .slot1 } := by
  rw [retireRow_of_passesOn handlerPC h, retireSecond_of_flush _ _ hvalid hflush]

end

/-- R425, R438: what a Normal slot 0 drives, or an invalid one, leaves every shared port but the reservation's and every
port of slot 1 silent. -/
theorem firstOut_silent (e0 : RobRetireEntry) :
    (firstOut e0).recover = none ∧ (firstOut e0).retiredReady = false ∧ (firstOut e0).reg1 = none ∧
      (firstOut e0).pred1 = none ∧ (firstOut e0).sq1 = none ∧ (firstOut e0).dCacheReq = false ∧
      (firstOut e0).iCacheReq = false ∧ (firstOut e0).tlbReq = false := by
  unfold firstOut
  rw [retireNormal_slot0]
  split <;> exact ⟨rfl, rfl, rfl, rfl, rfl, rfl, rfl, rfl⟩

/-- Settles O28: a slot whose disposition stops the row drives what that disposition does, slot 0 on top of nothing and
slot 1 on top of what slot 0 left. -/
theorem redirectingDispositions : Obligations.RedirectingDispositions := by
  unfold Obligations.RedirectingDispositions
  intro e0 e1 handlerPC row r q reached older
  refine ⟨fun hvalid => ?_, fun ⟨hpasses, hvalid⟩ => ?_⟩
  · have hrow : ∀ {d : Disposition}, disposition e0 = d → d ≠ .normal → d ≠ .flush →
        row = rowDone (retireSlot .slot0 e0 handlerPC .idle) := fun hd hnormal hflush =>
      retireRow_of_stops handlerPC hvalid (hd ▸ hnormal) (hd ▸ hflush) e1
    refine ⟨fun hexc => ?_, fun hexc hxret => ?_, fun hexc hxret hcsr => ?_, fun hexc hxret hcsr hspec => ?_⟩
    · have hd := disposition_of_exception hexc
      rw [hrow hd nofun nofun, retireSlot_of_exception _ _ _ hd]
      rfl
    · have hd := disposition_of_xret hexc hxret
      rw [hrow hd nofun nofun, retireSlot_of_xret _ _ _ hd]
      rfl
    · have hd := disposition_of_writeCSR hexc hxret hcsr
      rw [hrow hd nofun nofun, retireSlot_of_csrWrite _ _ _ hd]
      rfl
    · have hd := disposition_of_mispredicted hexc hxret hcsr hspec
      rw [hrow hd nofun nofun, retireSlot_of_mispredict _ _ _ hd]
      rfl
  · have holder : older = (rowDone (firstOut e0)).out :=
      congrArg RowOut.out (retireRow_zero_of_passesOn handlerPC hpasses)
    have hrow : ∀ {d : Disposition}, disposition e1 = d → d ≠ .flush →
        row = rowDone (retireSlot .slot1 e1 handlerPC (firstOut e0)) := fun hd hflush =>
      retireRow_of_second_done handlerPC hpasses hvalid (hd ▸ hflush)
    refine ⟨fun hexc => ?_, fun hexc hxret => ?_, fun hexc hxret hcsr => ?_, fun hexc hxret hcsr hspec => ?_⟩
    · have hd := disposition_of_exception hexc
      rw [hrow hd nofun, retireSlot_of_exception _ _ _ hd, holder]
      rfl
    · have hd := disposition_of_xret hexc hxret
      rw [hrow hd nofun, retireSlot_of_xret _ _ _ hd, holder]
      rfl
    · have hd := disposition_of_writeCSR hexc hxret hcsr
      rw [hrow hd nofun, retireSlot_of_csrWrite _ _ _ hd, holder]
      rfl
    · have hd := disposition_of_mispredicted hexc hxret hcsr hspec
      rw [hrow hd nofun, retireSlot_of_mispredict _ _ _ hd, holder]
      rfl

/-- R406: behind a slot 0 that stops the row, slot 1 makes no difference. -/
theorem retireRow_eq_of_not_normal {e0 : RobRetireEntry} (hvalid : e0.valid = true) (h : disposition e0 ≠ .normal)
    (e1 e1' : RobRetireEntry) (handlerPC : Addr) : retireRow e0 e1' handlerPC = retireRow e0 e1 handlerPC := by
  by_cases hflush : disposition e0 = .flush
  · rw [retireRow_of_flush _ hvalid hflush, retireRow_of_flush _ hvalid hflush]
  · rw [retireRow_of_stops _ hvalid h hflush, retireRow_of_stops _ hvalid h hflush]

/-- R406, R427: a slot 1 that is reached starts a flush exactly by its disposition. -/
theorem retireSecond_flush_eq_some_iff {e1 : RobRetireEntry} (hvalid : e1.valid = true) (handlerPC : Addr)
    (o : EngineOut) : (retireSecond e1 handlerPC o).flush = some .slot1 ↔ disposition e1 = .flush := by
  by_cases hflush : disposition e1 = .flush
  · simp [retireSecond_of_flush _ _ hvalid hflush, hflush]
  · simp [retireSecond_of_done _ _ hvalid hflush, hflush, rowDone]

/-- R406: a slot 1 that is reached redirects exactly by its disposition. -/
theorem retireSecond_recover_isSome_iff {e1 : RobRetireEntry} (hvalid : e1.valid = true) (handlerPC : Addr)
    {o : EngineOut} (ho : o.recover = none) :
    (retireSecond e1 handlerPC o).out.recover.isSome = true ↔
      disposition e1 ≠ .flush ∧ disposition e1 ≠ .normal := by
  rw [← retireSlot_recover_isSome_iff .slot1 e1 handlerPC o ho]
  by_cases hflush : disposition e1 = .flush
  · rw [retireSecond_of_flush _ _ hvalid hflush, retireSlot, hflush]
  · rw [retireSecond_of_done _ _ hvalid hflush]
    rfl

/-- Settles O29: slot 0 stops the row or passes on, and then slot 1 decides. -/
theorem olderSlotStopsTheRow : Obligations.OlderSlotStopsTheRow := by
  unfold Obligations.OlderSlotStopsTheRow
  intro e0 e1 handlerPC row
  have hskipped : ∀ {e : RobRetireEntry}, e.valid = false →
      retireRow e e1 handlerPC = retireSecond e1 handlerPC .idle := fun {e} h => by
    rw [retireRow_of_passesOn handlerPC (by simp [h]), firstOut_of_invalid h]
  refine ⟨fun hvalid hd e1' => retireRow_eq_of_not_normal hvalid hd e1 e1' handlerPC,
    fun h0 e0' h0' => (hskipped h0').trans (hskipped h0).symm, fun _ hd hvalid1 => ?_,
    fun hvalid hd => retireRow_of_flush handlerPC hvalid hd e1, fun _ hd hvalid1 hd1 => ?_,
    fun h0 hvalid1 hd1 => ?_, fun h0 h1 => ?_⟩
  · have hrow : row = retireSecond e1 handlerPC (firstOut e0) := retireRow_of_passesOn handlerPC (fun _ => hd) e1
    rw [hrow]
    exact ⟨retireSecond_flush_eq_some_iff hvalid1 _ _,
      retireSecond_recover_isSome_iff hvalid1 handlerPC (firstOut_silent e0).1⟩
  · have hrow : row = _ := retireRow_of_second_flush handlerPC (fun _ => hd) hvalid1 hd1
    rw [hrow, retireRow_zero_of_passesOn handlerPC fun _ => hd]
    obtain ⟨-, hready, -⟩ := firstOut_silent e0
    simp only [rowDone, ← hready]
  · exact (hskipped h0).trans (retireSecond_of_flush _ _ hvalid1 hd1)
  · exact (hskipped h0).trans (retireSecond_of_invalid _ _ h1)

/-! ## What a row commits (R425, R433, R434) -/

/-- R406: slot 1 leaves slot 0's ports as they are, reached or not, valid or not. -/
theorem retireSecond_keeps_slot0 (e1 : RobRetireEntry) (handlerPC : Addr) (o : EngineOut) :
    (retireSecond e1 handlerPC o).out.reg0 = o.reg0 ∧ (retireSecond e1 handlerPC o).out.pred0 = o.pred0 ∧
      (retireSecond e1 handlerPC o).out.sq0 = o.sq0 := by
  obtain ⟨-, h⟩ | ⟨-, h⟩ | ⟨-, h⟩ := retireSecond_cases handlerPC o e1
  · rw [h]
    exact ⟨rfl, rfl, rfl⟩
  · rw [h]
    exact ⟨rfl, rfl, rfl⟩
  · rw [h]
    exact retireSlot_slot1_keeps_slot0 e1 handlerPC o

theorem retireSecond_of_normal {e1 : RobRetireEntry} (hvalid : e1.valid = true) (h : disposition e1 = .normal)
    (handlerPC : Addr) (o : EngineOut) : retireSecond e1 handlerPC o = rowDone (retireNormal .slot1 e1 o) := by
  rw [retireSecond_of_done _ _ hvalid (by simp [h]), retireSlot_of_normal _ _ _ h]

/-- R433, R434: a slot 1 that is not Normal commits no store and updates no reservation. -/
theorem retireSecond_commits_nothing {e1 : RobRetireEntry} (h : ¬(e1.valid = true ∧ disposition e1 = .normal))
    (handlerPC : Addr) (o : EngineOut) :
    (retireSecond e1 handlerPC o).out.sq1 = o.sq1 ∧ (retireSecond e1 handlerPC o).out.lrUpdate = o.lrUpdate := by
  obtain ⟨-, hrow⟩ | ⟨-, hrow⟩ | ⟨hvalid, hrow⟩ := retireSecond_cases handlerPC o e1
  · rw [hrow]
    exact ⟨rfl, rfl⟩
  · rw [hrow]
    exact ⟨rfl, rfl⟩
  · rw [hrow]
    exact (retireSlot_commits_nothing .slot1 handlerPC o fun hd => h ⟨hvalid, hd⟩).2

/-- R406, R433, R434: a row that slot 0 stops commits no store and updates no reservation. -/
theorem retireRow_commits_nothing {e0 : RobRetireEntry} (h : ¬PassesOn e0) (e1 : RobRetireEntry) (handlerPC : Addr) :
    (retireRow e0 e1 handlerPC).out.sq0 = none ∧ (retireRow e0 e1 handlerPC).out.sq1 = none ∧
      (retireRow e0 e1 handlerPC).out.lrUpdate = none := by
  obtain ⟨hnormal, hrow | hrow⟩ := retireRow_of_not_passesOn handlerPC h e1
  · rw [hrow]
    exact ⟨rfl, rfl, rfl⟩
  · rw [hrow]
    exact retireSlot_commits_nothing .slot0 handlerPC .idle hnormal

/-- R434: slot 0's store commit port. -/
theorem retireRow_sq0 (e0 e1 : RobRetireEntry) (handlerPC : Addr) :
    (retireRow e0 e1 handlerPC).out.sq0 =
      if (e0.valid = true ∧ disposition e0 = .normal) ∧ e0.executeResult.write = true
      then some (commitOf e0) else none := by
  by_cases hpasses : PassesOn e0
  · rw [retireRow_of_passesOn handlerPC hpasses, (retireSecond_keeps_slot0 _ _ _).2.2]
    cases hvalid : e0.valid with
    | true => simp [firstOut_of_valid hvalid, retireNormal_slot0, hpasses hvalid, EngineOut.idle]
    | false => simp [firstOut_of_invalid hvalid, EngineOut.idle]
  · rw [(retireRow_commits_nothing hpasses e1 handlerPC).1,
      if_neg fun h => hpasses fun _ => h.1.2]

/-- R434: slot 1's store commit port. -/
theorem retireRow_sq1 (e0 e1 : RobRetireEntry) (handlerPC : Addr) :
    (retireRow e0 e1 handlerPC).out.sq1 =
      if (PassesOn e0 ∧ e1.valid = true ∧ disposition e1 = .normal) ∧ e1.executeResult.write = true
      then some (commitOf e1) else none := by
  obtain ⟨-, -, -, -, hsq1, -⟩ := firstOut_silent e0
  by_cases hpasses : PassesOn e0
  · rw [retireRow_of_passesOn handlerPC hpasses]
    by_cases hnormal : e1.valid = true ∧ disposition e1 = .normal
    · rw [retireSecond_of_normal hnormal.1 hnormal.2]
      simp only [rowDone, retireNormal_slot1, hsq1, hnormal, and_self, eq_true hpasses, true_and]
    · rw [(retireSecond_commits_nothing hnormal _ _).1, hsq1, if_neg fun h => hnormal h.1.2]
  · rw [(retireRow_commits_nothing hpasses e1 handlerPC).2.1, if_neg fun h => hpasses h.1.1]

/-- R433: the reservation update that slot 0 alone makes. -/
theorem firstOut_lrUpdate (e0 : RobRetireEntry) :
    (firstOut e0).lrUpdate = if e0.valid = true ∧ Reserves e0 then some (reservationOf e0) else none := by
  cases hvalid : e0.valid with
  | true => simp [firstOut_of_valid hvalid, retireNormal_slot0, EngineOut.idle]
  | false => simp [firstOut_of_invalid hvalid, EngineOut.idle]

/-- R433: where slot 1 has none, the reservation update is slot 0's. -/
theorem retireRow_lrUpdate_of_older {e0 e1 : RobRetireEntry} (hpasses : PassesOn e0)
    (h : ¬((e1.valid = true ∧ disposition e1 = .normal) ∧ Reserves e1)) (handlerPC : Addr) :
    (retireRow e0 e1 handlerPC).out.lrUpdate = (firstOut e0).lrUpdate := by
  rw [retireRow_of_passesOn handlerPC hpasses]
  by_cases hnormal : e1.valid = true ∧ disposition e1 = .normal
  · rw [retireSecond_of_normal hnormal.1 hnormal.2]
    simp only [rowDone, retireNormal_slot1, if_neg fun hr => h ⟨hnormal, hr⟩]
  · exact (retireSecond_commits_nothing hnormal _ _).2

/-- Settles O30: the ports of a row by `retireNormal`, which alone drives the store commit ports and the reservation
update; slot 1 is applied on top of slot 0. -/
theorem onlyNormalSlotsCommit : Obligations.OnlyNormalSlotsCommit := by
  unfold Obligations.OnlyNormalSlotsCommit
  intro e0 e1 handlerPC o normal0 normal1 predictor
  obtain ⟨hrecover, -, -, hpred1, -⟩ := firstOut_silent e0
  have hpredictor : ∀ e : RobRetireEntry,
      (if e.executeResult.branch = true then some (predOf e) else none) = predictor e := fun e => by
    by_cases h : e.executeResult.branch = true <;> simp [predictor, predOf, h]
  have hnormal1 : normal1 → o = (rowDone (retireNormal .slot1 e1 (firstOut e0))).out :=
    fun ⟨hpasses, hvalid, hd⟩ => by
      rw [← retireSecond_of_normal hvalid hd handlerPC, ← retireRow_of_passesOn handlerPC hpasses]
  refine ⟨fun ⟨hvalid, hd⟩ => ?_, fun h1 => ?_, fun c => ?_, fun c => ?_, fun h1 hreserves => ?_,
    fun ⟨hvalid, hd⟩ hnone => ?_, fun h0 hnone => ?_⟩
  · have hrow : o = (retireSecond e1 handlerPC (firstOut e0)).out :=
      congrArg RowOut.out (retireRow_of_passesOn handlerPC (fun _ => hd) e1)
    obtain ⟨hreg0, hpred0, -⟩ := retireSecond_keeps_slot0 e1 handlerPC (firstOut e0)
    rw [hrow, hreg0, hpred0, firstOut_of_valid hvalid, retireNormal_slot0, ← hpredictor]
    exact ⟨rfl, rfl⟩
  · rw [hnormal1 h1, retireNormal_slot1, ← hpredictor]
    exact ⟨rfl, by rw [← hpred1]; rfl, hrecover, rfl⟩
  · rw [show o.sq0 = _ from retireRow_sq0 e0 e1 handlerPC, Option.ite_none_right_eq_some,
      Option.some_inj, eq_comm (a := commitOf e0), and_assoc]
    rfl
  · rw [show o.sq1 = _ from retireRow_sq1 e0 e1 handlerPC, Option.ite_none_right_eq_some,
      Option.some_inj, eq_comm (a := commitOf e1), and_assoc]
    rfl
  · rw [hnormal1 h1, retireNormal_slot1]
    exact if_pos hreserves
  · rw [show o.lrUpdate = _ from retireRow_lrUpdate_of_older (fun _ => hd)
      (fun h => hnone ⟨⟨fun _ => hd, h.1⟩, h.2⟩) handlerPC, firstOut_lrUpdate]
    simp only [hvalid, true_and]
    rfl
  · by_cases hpasses : PassesOn e0
    · rw [show o.lrUpdate = _ from retireRow_lrUpdate_of_older hpasses
        (fun h => hnone ⟨⟨hpasses, h.1⟩, h.2⟩) handlerPC, firstOut_lrUpdate,
        if_neg fun h => h0 ⟨h.1, hpasses h.1⟩]
    · exact (retireRow_commits_nothing hpasses e1 handlerPC).2.2

/-! ## The flush machine (R426, R444 to R449) -/

/-- R426, R427: a row in which a flush begins drives nothing for the slot, and the row is not consumed. -/
theorem retireRow_of_flush_eq_some {e0 e1 : RobRetireEntry} {handlerPC : Addr} {slot : Slot}
    (h : (retireRow e0 e1 handlerPC).flush = some slot) :
    (slot = .slot0 ∧ (retireRow e0 e1 handlerPC).out = .idle) ∨
      (slot = .slot1 ∧ (retireRow e0 e1 handlerPC).out = firstOut e0) := by
  by_cases hpasses : PassesOn e0
  · rw [retireRow_of_passesOn _ hpasses] at h ⊢
    obtain ⟨-, hrow⟩ | ⟨-, hrow⟩ | ⟨-, hrow⟩ := retireSecond_cases handlerPC (firstOut e0) e1
    · simp [hrow, rowDone] at h
    · rw [hrow] at h ⊢
      exact .inr ⟨(Option.some.inj h).symm, rfl⟩
    · simp [hrow, rowDone] at h
  · obtain ⟨-, hrow | hrow⟩ := retireRow_of_not_passesOn handlerPC hpasses e1
    · rw [hrow] at h ⊢
      exact .inl ⟨(Option.some.inj h).symm, rfl⟩
    · simp [hrow, rowDone] at h

/-- R449: a row requests no flush in the tick in which it is evaluated. -/
theorem retireRow_requests_nothing (e0 e1 : RobRetireEntry) (handlerPC : Addr) :
    (retireRow e0 e1 handlerPC).out.dCacheReq = false ∧ (retireRow e0 e1 handlerPC).out.iCacheReq = false ∧
      (retireRow e0 e1 handlerPC).out.tlbReq = false := by
  obtain ⟨-, -, -, -, -, hfirst⟩ := firstOut_silent e0
  by_cases hpasses : PassesOn e0
  · rw [retireRow_of_passesOn _ hpasses]
    obtain ⟨-, hrow⟩ | ⟨-, hrow⟩ | ⟨-, hrow⟩ := retireSecond_cases handlerPC (firstOut e0) e1
    · rw [hrow]
      exact hfirst
    · rw [hrow]
      exact hfirst
    · obtain ⟨hd, hi, ht⟩ := retireSlot_requests_nothing .slot1 e1 handlerPC (firstOut e0)
      obtain ⟨hd', hi', ht'⟩ := hfirst
      rw [hrow]
      exact ⟨hd.trans hd', hi.trans hi', ht.trans ht'⟩
  · obtain ⟨-, hrow | hrow⟩ := retireRow_of_not_passesOn handlerPC hpasses e1
    · rw [hrow]
      exact ⟨rfl, rfl, rfl⟩
    · rw [hrow]
      exact retireSlot_requests_nothing .slot0 e0 handlerPC .idle

theorem engineTick_of_begins {ret : RetireRegs} {i : BlockInput} {slot : Slot} (hstate : ret.state = .retire)
    (hfire : fireNow ret i = true) (h : (retireRow i.e0 i.e1 i.handlerPC).flush = some slot) :
    engineTick ret i =
      { out := (retireRow i.e0 i.e1 i.handlerPC).out
        next := { state := .dcache, flushID := slot, busySeen := false } } := by
  simp [engineTick, hstate, hfire, h]

/-- R405: in `retire` the engine drives what the row does, or nothing. -/
theorem engineTick_out_of_retire {ret : RetireRegs} (hstate : ret.state = .retire) (i : BlockInput) :
    (engineTick ret i).out = if fireNow ret i = true then (retireRow i.e0 i.e1 i.handlerPC).out else .idle := by
  rw [engineTick, hstate]
  dsimp only
  split
  · split <;> rfl
  · rfl

theorem flushAdvance_iff (flag busySeen empty : Bool) :
    flushAdvance flag busySeen empty = true ↔ flag = false ∨ (busySeen = true ∧ empty = true) := by
  simp [flushAdvance]

/-- R446: a flush state advances, or stays and records a busy sink. -/
theorem flushNext_eq (ret : RetireRegs) (flag empty : Bool) (after : RetState) :
    flushNext ret flag empty after =
      if flag = false ∨ (ret.busySeen = true ∧ empty = true) then { ret with state := after, busySeen := false }
      else if empty = true then ret else { ret with busySeen := true } := by
  unfold flushNext
  simp only [flushAdvance_iff]
  cases empty <;> simp

section
variable {ret : RetireRegs} (i : BlockInput)

theorem engineTick_of_dcache (h : ret.state = .dcache) :
    engineTick ret i =
      { out := { EngineOut.idle with dCacheReq := (flushResult ret i).flushDCache }
        next := flushNext ret (flushResult ret i).flushDCache i.dCacheEmpty .icache } := by
  rw [engineTick, h]

theorem engineTick_of_icache (h : ret.state = .icache) :
    engineTick ret i =
      { out := { EngineOut.idle with iCacheReq := (flushResult ret i).flushICache }
        next := flushNext ret (flushResult ret i).flushICache i.iCacheEmpty .tlb } := by
  rw [engineTick, h]

theorem engineTick_of_tlb (h : ret.state = .tlb) :
    engineTick ret i =
      { out :=
          if (flushResult ret i).flushTLB = false ∨ (ret.busySeen = true ∧ i.tlbEmpty = true) then
            flushEnd (flushResult ret i) { EngineOut.idle with tlbReq := (flushResult ret i).flushTLB }
          else { EngineOut.idle with tlbReq := (flushResult ret i).flushTLB }
        next := flushNext ret (flushResult ret i).flushTLB i.tlbEmpty .retire } := by
  rw [engineTick, h]
  simp only [flushAdvance_iff]

end

/-- Settles O31: what a row drives in which a flush begins, and one equation per flush state. -/
theorem flushMachineStates : Obligations.FlushMachineStates := by
  unfold Obligations.FlushMachineStates
  intro ret i f stays row
  refine ⟨fun slot hstate hfire hflush => ⟨engineTick_of_begins hstate hfire hflush, ?_⟩, fun hstate => ?_,
    fun hstate => ?_, fun hstate hadvance => ?_, fun hstate hstays => ?_, fun hstate => ?_⟩
  · obtain ⟨hslot, hout⟩ | ⟨hslot, hout⟩ := retireRow_of_flush_eq_some hflush
    · rw [show row.out = _ from hout]
      exact ⟨rfl, rfl, rfl, rfl, rfl, fun _ => rfl⟩
    · obtain ⟨hrecover, hready, hreg1, hpred1, hsq1, -⟩ := firstOut_silent i.e0
      rw [show row.out = _ from hout]
      exact ⟨hready, hrecover, hreg1, hpred1, hsq1, fun h => absurd (hslot.symm.trans h) nofun⟩
  · rw [engineTick_of_dcache i hstate, flushNext_eq]
  · rw [engineTick_of_icache i hstate, flushNext_eq]
  · rw [engineTick_of_tlb i hstate, flushNext_eq, if_pos hadvance, if_pos hadvance]
    rfl
  · rw [engineTick_of_tlb i hstate, flushNext_eq, if_neg hstays, if_neg hstays]
  · rw [engineTick_out_of_retire hstate]
    split
    · exact retireRow_requests_nothing _ _ _
    · exact ⟨rfl, rfl, rfl⟩

/-! ## How long a flush takes (R447) -/

theorem RetireRegs.run_append (r : RetireRegs) (is js : List BlockInput) : r.run (is ++ js) = (r.run is).run js :=
  List.foldl_append

/-- R446: the engine in the flush state `state` waits by the flag `flag` and goes on to `after`. -/
def FlushStep (i : BlockInput) (slot : Slot) (state : RetState) (flag : Bool) (after : RetState) : Prop :=
  ∀ busySeen empty : Bool,
    (engineTick { state := state, flushID := slot, busySeen := busySeen } (i.withEmpty empty)).next =
      flushNext { state := state, flushID := slot, busySeen := busySeen } flag empty after

section
variable {i : BlockInput} {slot : Slot} {state after : RetState} {flag : Bool}
  (h : FlushStep i slot state flag after)
include h

/-- R447: before the last tick of a flush state the sink has been seen busy, if it is asked at all. -/
theorem FlushStep.run_dropLast :
    RetireRegs.run { state := state, flushID := slot, busySeen := false } (flushTicks i flag).dropLast =
      { state := state, flushID := slot, busySeen := flag } := by
  cases flag with
  | false => rfl
  | true => simp [RetireRegs.run, flushTicks, h _ _, flushNext_eq]

/-- R447: three ticks with the flag set and one with it clear. -/
theorem FlushStep.run :
    RetireRegs.run { state := state, flushID := slot, busySeen := false } (flushTicks i flag) =
      { state := after, flushID := slot, busySeen := false } := by
  cases flag <;> simp [RetireRegs.run, flushTicks, h _ _, flushNext_eq]

end

/-- Settles O32: the three flush states one after the other. -/
theorem flushCompletes : Obligations.FlushCompletes := by
  unfold Obligations.FlushCompletes
  intro i slot start f before
  have hdcache : FlushStep i slot .dcache f.flushDCache .icache := fun _ _ => rfl
  have hicache : FlushStep i slot .icache f.flushICache .tlb := fun _ _ => rfl
  have htlb : FlushStep i slot .tlb f.flushTLB .retire := fun _ _ => rfl
  refine ⟨?_, ?_⟩
  · rw [RetireRegs.run_append, RetireRegs.run_append, hdcache.run, hicache.run, htlb.run]
  · have hlast : start.run before = { state := .tlb, flushID := slot, busySeen := f.flushTLB } := by
      rw [RetireRegs.run_append, RetireRegs.run_append, hdcache.run, hicache.run, htlb.run_dropLast]
    have hadvance : f.flushTLB = false ∨ (f.flushTLB = true ∧ (i.withEmpty true).tlbEmpty = true) := by
      cases f.flushTLB with
      | false => exact .inl rfl
      | true => exact .inr ⟨rfl, rfl⟩
    rw [hlast, engineTick_of_tlb _ rfl]
    exact congrArg EngineOut.recover (if_pos hadvance)

/-! ## An instruction of another unit that retires alone (R421, R422, R424, R425) -/

section
variable {s : State} {x : Executed} {dest : Option RegNum} {spec : Addr} {rwOut : Option RwOut} {o : EngineOut}
  (ho : soloOut (soloEntry s spec x.result) s.input.handlerPC = o)
include ho

/-- R430: with slot 0's register port driven alone, its word is in the destination register. -/
theorem retireAlone_x_of_reg0 {rd : RobReceipt} {v : Data} (henv : x.env = s.env)
    (hreg0 : o.reg0 = some { rd := rd, result := v }) (hreg1 : o.reg1 = none) :
    (retireAlone s x dest spec rwOut).env.x = written s.env.x dest v := by
  rw [retireAlone_env henv ho, (Env.retireSolo_frame _ _ _ _ _).2.1, hreg0, hreg1]
  cases dest <;> rfl

variable (hrecover : o.recover = none)
include hrecover

/-- R32: without a `recover` the next instruction stands at the resolved next PC. -/
theorem retireAlone_pc_of_reg0 {u : RegUpdate} (henv : x.env = s.env) (hreg0 : o.reg0 = some u)
    (hreg1 : o.reg1 = none) : (retireAlone s x dest spec rwOut).env.pc = x.result.real := by
  rw [retireAlone_env henv ho, (Env.retireSolo_frame _ _ _ _ _).1, pcAfter, hrecover, hreg0, hreg1]

/-- R388: without a `recover`, and asked nothing, the reservations stay. -/
theorem retireAlone_blk_of_no_recover (hlr : o.lrUpdate = none) (hevent : x.event = .none) :
    (retireAlone s x dest spec rwOut).blk = s.blk := by
  simp only [retireAlone, ho, hlr, hrecover, hevent]
  rfl

theorem retireAlone_keepsMemory_of_no_recover (henv : x.env = s.env) :
    KeepsMemory s (retireAlone s x dest spec rwOut) := fun a => by
  rw [retireAlone_env henv ho]
  exact s.env.loadByte_retireSolo_of_no_recover hrecover _ _ _ a

end

section
variable {e : RobRetireEntry} (hvalid : e.valid = true) (handlerPC : Addr)
include hvalid

theorem soloOut_of_xret (h : disposition e = .xret) :
    soloOut e handlerPC = { returnFromException handlerPC .idle with retiredReady := true } := by
  obtain ⟨-, hout, -⟩ := soloOut_of_disposition e handlerPC hvalid
  exact hout h

theorem soloOut_of_csrWrite (h : disposition e = .csrWrite) :
    soloOut e handlerPC = { retireCsrWrite .slot0 e .idle with retiredReady := true } := by
  obtain ⟨-, -, hout, -⟩ := soloOut_of_disposition e handlerPC hvalid
  exact hout h

theorem soloOut_of_mispredict (h : disposition e = .mispredict) :
    soloOut e handlerPC = { retireMispredict .slot0 e .idle with retiredReady := true } := by
  obtain ⟨-, -, -, hout, -⟩ := soloOut_of_disposition e handlerPC hvalid
  exact hout h

theorem soloOut_of_normal (h : disposition e = .normal) :
    soloOut e handlerPC = { retireNormal .slot0 e .idle with retiredReady := true } := by
  obtain ⟨-, -, -, -, -, hout⟩ := soloOut_of_disposition e handlerPC hvalid
  exact hout h

end

/-- R410, R425: the outputs with which a result that asks for its register, and for the predictor if `branch`, retires
alone; the fields of a CSR write that does not happen have no effect. -/
theorem soloOut_of_plain (s : State) (handlerPC real : Addr) (v : Data) (branch : Bool) (csr : CsrAddress)
    (csrData : Word) :
    soloOut (soloEntry s real
        { commonResult real with result := v, branch := branch, csrAddress := csr, csrData := csrData }) handlerPC =
      { normalOut s v none none with
        pred0 := if branch = true then some { pc := s.env.pc, jump := branch, target := real } else none } := by
  rw [soloOut_of_normal rfl handlerPC (by simp [disposition, soloEntry, commonResult, ExecuteResult.zero]),
    retireNormal_slot0]
  rfl

section
variable {s : State} (hunit : s.input.unit.exception = none)
include hunit

theorem completeSerial_of_no_exception (dest : Option RegNum) (flags : ExecuteResult → ExecuteResult) :
    completeSerial s dest flags =
      completeUnit s dest (fallThrough s) (flags (commonResult (fallThrough s))) := by
  rw [completeSerial, unitResult_of_no_exception hunit]

/-- R422, R454: a CSR instruction that writes serializes behind its fall-through. -/
theorem completeSerial_csrWrites (rd : RegNum) (csr : CsrAddress) :
    CsrWrites s (completeSerial s (some rd) (csrFlags s.input.unit true csr)) rd csr := by
  rw [completeSerial_of_no_exception hunit]
  have ho := soloOut_of_csrWrite
    (e := soloEntry s (fallThrough s) (csrFlags s.input.unit true csr (commonResult (fallThrough s)))) rfl
    s.input.handlerPC (disposition_of_writeCSR rfl rfl rfl)
  exact ⟨retireAlone_redirected rfl ho rfl rfl rfl rfl, retireAlone_x_of_reg0 ho rfl rfl rfl, ho⟩

/-- R425, R454: a CSR instruction that does not write retires by the Normal disposition. -/
theorem completeSerial_csrReads (rd : RegNum) (csr : CsrAddress) :
    let t := completeSerial s (some rd) (csrFlags s.input.unit false csr)
    RetiredNormal s t (some rd) s.input.unit.result none none ∧ t.blk = s.blk ∧ KeepsMemory s t := by
  rw [completeSerial_of_no_exception hunit]
  have ho := soloOut_of_plain s s.input.handlerPC (fallThrough s) s.input.unit.result false csr s.input.unit.csrData
  exact ⟨⟨retireAlone_keepsFrame rfl, retireAlone_x_of_reg0 ho rfl rfl rfl,
    retireAlone_pc_of_reg0 ho rfl rfl rfl rfl, ho⟩,
    retireAlone_blk_of_no_recover ho rfl rfl rfl, retireAlone_keepsMemory_of_no_recover ho rfl rfl⟩

end

/-- Settles O44: both xRETs report the flag alone, and retire by its disposition. -/
theorem trapReturnsComplete : Obligations.TrapReturnsComplete := by
  unfold Obligations.TrapReturnsComplete
  intro s i hi hunit
  have hexec : exec i s = .next (completeSerial s none xretFlags) := by
    obtain rfl | rfl := hi <;> rfl
  rw [completeSerial_of_no_exception hunit] at hexec
  have ho := soloOut_of_xret (e := soloEntry s (fallThrough s) (xretFlags (commonResult (fallThrough s)))) rfl
    s.input.handlerPC (disposition_of_xret rfl rfl)
  exact ⟨_, hexec, retireAlone_redirected rfl ho rfl rfl rfl rfl, retireAlone_x_of_silent rfl ho rfl rfl, ho⟩

/-- Settles O45: `csrrw` and `csrrwi` always write, and for the four others `writeCSR` of the unit decides. -/
theorem csrInstructionsComplete : Obligations.CsrInstructionsComplete := by
  unfold Obligations.CsrInstructionsComplete
  intro s f g hunit writes reads
  refine ⟨⟨_, rfl, completeSerial_csrWrites hunit _ _⟩, ⟨_, rfl, completeSerial_csrWrites hunit _ _⟩,
    fun hwrites => ?_, fun hreads => ?_⟩
  · have hall : ∀ (i : Instr) (rd : RegNum) (csr : CsrAddress),
        exec i s = .next (completeSerial s (some rd) (csrFlags s.input.unit s.input.unit.writeCSR csr)) →
          writes i rd csr := fun i rd csr hexec =>
      ⟨_, hexec, by rw [hwrites]; exact completeSerial_csrWrites hunit rd csr⟩
    exact ⟨hall _ _ _ rfl, hall _ _ _ rfl, hall _ _ _ rfl, hall _ _ _ rfl⟩
  · have hall : ∀ (i : Instr) (rd : RegNum) (csr : CsrAddress),
        exec i s = .next (completeSerial s (some rd) (csrFlags s.input.unit s.input.unit.writeCSR csr)) →
          reads i rd := fun i rd csr hexec =>
      ⟨_, hexec, by rw [hreads]; exact completeSerial_csrReads hunit rd csr⟩
    exact ⟨hall _ _ _ rfl, hall _ _ _ rfl, hall _ _ _ rfl, hall _ _ _ rfl⟩

/-! ## Words of the other functional units (R453) -/

/-- R453, R515: the result of a word of another unit that raised nothing. -/
def otherUnitResult (word : BitVec 32) (s : State) : ExecuteResult :=
  { commonResult (unitReal word s) with
    result := s.input.unit.result, branch := decide (unitReal word s ≠ fallThrough s) }

theorem execOtherUnit_of_no_exception {s : State} (hunit : s.input.unit.exception = none) (word : BitVec 32) :
    execOtherUnit word s =
      .next (completeUnit s (unitDest word) (unitSpec word s) (otherUnitResult word s)) := by
  rw [execOtherUnit, unitResult_of_no_exception hunit]
  rfl

/-- Settles O46: by whether the prediction holds, the Mispredict or the Normal disposition. -/
theorem otherUnitWordsRetire : Obligations.OtherUnitWordsRetire := by
  unfold Obligations.OtherUnitWordsRetire
  intro s w hunit real driven update
  refine ⟨_, execOtherUnit_of_no_exception hunit w, ?_⟩
  by_cases hpredicted : unitSpec w s = real
  · have ho := soloOut_of_plain s s.input.handlerPC real s.input.unit.result (decide (real ≠ s.env.pc + 4)) 0 0
    have hpred : (if decide (real ≠ s.env.pc + 4) = true then some update else none) =
        if real = s.env.pc + 4 then none else some update := by
      simp only [decide_eq_true_eq, ite_not]
    rw [hpredicted]
    exact ⟨retireAlone_x_of_reg0 ho rfl rfl rfl, retireAlone_pc_of_reg0 ho rfl rfl rfl rfl, fun h => absurd rfl h,
      fun _ => ⟨retireAlone_keepsFrame rfl, retireAlone_blk_of_no_recover ho rfl rfl rfl,
        retireAlone_keepsMemory_of_no_recover ho rfl rfl,
        ho.trans (congrArg (fun p => { driven with pred0 := p }) hpred)⟩⟩
  · have ho := soloOut_of_mispredict (e := soloEntry s (unitSpec w s) (otherUnitResult w s)) rfl s.input.handlerPC
      (disposition_of_mispredicted rfl rfl rfl hpredicted)
    exact ⟨retireAlone_x_of_reg0 ho rfl rfl rfl, retireAlone_pc_of_recover rfl ho rfl,
      fun _ => ⟨retireAlone_redirected rfl ho rfl rfl rfl rfl, ho⟩, fun h => absurd h hpredicted⟩

end Sys2Proof.Machine

/-! PROOFS. The statement about the exceptions of the units outside the block (`60_exceptions.md`): such an instruction
traps with its unit's code (R461, R515). -/

namespace Sys2Proof.Machine

/-! ## Exceptions of the units outside the block (R461, R515) -/

theorem unitResult_of_exception {s : State} {code : ExcCode} (h : s.input.unit.exception = some code) (real : Addr)
    (flags : ExecuteResult → ExecuteResult) : unitResult s real flags = raiseResult (fallThrough s) code := by
  rw [unitResult, h]

/-- R515: an instruction of a unit that faults traps with the unit's code, whatever it would have set and wherever it
would have gone on. -/
theorem completeUnit_trapped {s : State} {code : ExcCode} (h : s.input.unit.exception = some code)
    (dest : Option RegNum) (spec real : Addr) (flags : ExecuteResult → ExecuteResult) :
    Trapped s (completeUnit s dest spec (unitResult s real flags)) code :=
  retireAlone_trapped rfl (unitResult_of_exception h real flags) dest spec none

/-- R148: an instruction that the block does not decode completes with what its unit reports. -/
theorem exec_eq_completeSerial {i : Instr} (hop : i.memOp = none) (s : State) :
    ∃ dest flags, exec i s = .next (completeSerial s dest flags) := by
  cases i with
  | fenceI _ | sfenceVma _ | mret | sret => exact ⟨_, _, rfl⟩
  | csrrw _ | csrrs _ | csrrc _ | csrrwi _ | csrrsi _ | csrrci _ => exact ⟨_, _, rfl⟩
  | lb _ | lh _ | lw _ | ld _ | lbu _ | lhu _ | sb _ | sh _ | sw _ | sd _ | undefined _ => cases hop
  | lrW _ | scW _ | amoswapW _ | amoaddW _ | amoxorW _ | amoandW _ | amoorW _ => cases hop
  | amominW _ | amomaxW _ | amominuW _ | amomaxuW _ => cases hop

/-- Settles O41: the ten system instructions and the words of other units complete with what their unit reports. -/
theorem unitExceptionsTrap : Obligations.UnitExceptionsTrap := by
  unfold Obligations.UnitExceptionsTrap
  intro s i w code hunit
  refine ⟨fun hop => ?_, _, rfl, completeUnit_trapped hunit _ _ _ _⟩
  obtain ⟨dest, flags, hexec⟩ := exec_eq_completeSerial hop s
  exact ⟨_, hexec, completeUnit_trapped hunit dest _ _ flags⟩

end Sys2Proof.Machine

/-! PROOFS. The statements about reset and the duties of the neighbours (`70_reset_and_hazards.md`): what a step runs
(R503, R526), the first tick after reset (R502), how an entry reaches the ReadWrite stage (R531), that an instruction
alone leaves nothing in flight (R512, R530), that one whose neighbour does not answer waits (R522, R526), and the
handshake of the flush sinks (R519, R522). -/

namespace Sys2Proof.Machine

/-! ## What a step runs (R503, R526) -/

theorem step_of_runsNow {s : State} {d : Decoded} (hword : decodeWord (s.env.fetchWord s.input.fetchAge) = d)
    (h : runsNow s d = true) : step s = andAdvance (runDecoded d exec s) := by
  subst hword
  rw [step, if_pos h]

theorem step_of_not_runsNow {s : State} {d : Decoded} (hword : decodeWord (s.env.fetchWord s.input.fetchAge) = d)
    (h : runsNow s d = false) : step s = .next (sysTick s).advance := by
  subst hword
  rw [step, h]
  rfl

/-- Settles O47: an instruction that is answered runs, and every word of another unit. -/
theorem stepRunsTheDecodedInstruction : Obligations.StepRunsTheDecodedInstruction := by
  unfold Obligations.StepRunsTheDecodedInstruction
  intro s hready d
  exact ⟨fun i _ hword hanswered => step_of_runsNow hword (by simp [runsNow, hready, hanswered]),
    fun w hword => step_of_runsNow hword (by simp [runsNow, hready])⟩

/-! ## Entries that no `recover` cancels -/

@[simp] theorem ExecuteEntry.cancelIf_false (e : ExecuteEntry) : e.cancelIf false = e := by
  simp [ExecuteEntry.cancelIf]

@[simp] theorem MemEntry2.cancelIf_false (e : MemEntry2) : e.cancelIf false = e := by
  simp [MemEntry2.cancelIf]

@[simp] theorem RwStage.cancelIf_false (r : RwStage) : r.cancelIf false = r := by
  simp [RwStage.cancelIf]

/-! ## An idle engine, and a ReadWrite stage that is free (R243, R405) -/

/-- R403, R405: with no row presented the engine stays in `retire` and drives nothing. -/
theorem engineTick_of_no_row {ret : RetireRegs} {i : BlockInput} (hstate : ret.state = .retire)
    (hrow : i.retiredValid = false) : engineTick ret i = { out := .idle, next := ret } :=
  engineTick_of_waiting hstate (by simp [fireNow, hrow])

/-- R243: the ReadWrite stage can take an entry and the engine is in no flush. -/
structure Block.Receptive (b : Block) : Prop where
  ret : b.ret.state = .retire
  state : b.rw.state = .idle
  valid : b.rw.inReg.valid = false

/-- R243: a free ReadWrite stage takes what it is offered. -/
theorem RwStage.tick_of_free {r : RwStage} (hstate : r.state = .idle) (hvalid : r.inReg.valid = false)
    (resv : LoadReservationEntry) (inp : Option MemEntry3) (read : Option SmaAnswer) (fired : Option SqReceipt) :
    r.tick resv inp read fired false = RwStage.silent { r with inReg := inp.getD r.inReg } := by
  have htick : r.tick resv inp read fired false = r.tickIdle resv inp false := by rw [RwStage.tick, hstate]
  rw [htick]
  cases inp with
  | none => simp [RwStage.tickIdle, hvalid]
  | some e =>
    simp only [RwStage.tickIdle, hvalid, Bool.false_eq_true, if_false, RwStage.cancelIf_false, Option.getD_some]

section
variable {b : Block} (h : b.Receptive) {i : BlockInput} (hrow : i.retiredValid = false) (p : Params)
include h hrow

theorem Block.Receptive.recoverOf_eq : recoverOf b i = false := by
  rw [recoverOf, engineTick_of_no_row h.ret hrow]
  rfl

theorem Block.Receptive.rwTickOf_eq :
    rwTickOf p b i = RwStage.silent { b.rw with inReg := b.tlb.out.getD b.rw.inReg } := by
  rw [rwTickOf, h.recoverOf_eq hrow, RwStage.tick_of_free h.state h.valid]

theorem Block.Receptive.tick_rw :
    (b.tick p i).rw = { b.rw with inReg := b.tlb.out.getD b.rw.inReg } := congrArg RwTick.next (h.rwTickOf_eq hrow p)

theorem Block.Receptive.tick_tlb :
    (b.tick p i).tlb = b.tlb.tick (executeOut b.exe) i.dtlb b.rw.ready false := by
  rw [← h.recoverOf_eq hrow]
  rfl

/-- R243: as long as the TLB stage offers nothing the ReadWrite stage stays free. -/
theorem Block.Receptive.tick (hout : b.tlb.out = none) : (b.tick p i).Receptive := by
  have hrw := h.tick_rw hrow p
  rw [hout] at hrw
  refine ⟨?_, hrw ▸ h.state, hrw ▸ h.valid⟩
  show (engineTick b.ret i).next.state = _
  rw [engineTick_of_no_row h.ret hrow]
  exact h.ret

end

/-! ## The way of an entry from the queue to the ReadWrite stage (R531) -/

/-- R219, R225: nothing in the memory pipeline holds up the stages before the TLB stage. -/
structure Block.Flows (b : Block) : Prop where
  receptive : b.Receptive
  tlb : b.tlb.state = .idle

section
variable {b : Block} (h : b.Flows) {i : BlockInput} (hrow : i.retiredValid = false) (p : Params)
include h hrow

/-- R202: the Decode stage takes what the queue offers, else a bubble. -/
theorem Block.Flows.tick_dec :
    (b.tick p i).dec = (b.memQueue.deq i.bcast).getD { b.dec with valid := false } := by
  show nextDecode b.dec b.tlb.ready _ (recoverOf b i) = _
  rw [h.receptive.recoverOf_eq hrow, b.tlb.ready_iff.2 h.tlb]
  cases b.memQueue.deq i.bcast <;> simp [nextDecode]

/-- R210: the Execute stage takes what the Decode stage holds. -/
theorem Block.Flows.tick_exe : (b.tick p i).exe = decodeEntry b.dec := by
  show nextExecute b.exe b.tlb.ready _ (recoverOf b i) = _
  rw [h.receptive.recoverOf_eq hrow, b.tlb.ready_iff.2 h.tlb]
  simp [nextExecute]

/-- R220: the TLB stage takes what the Execute stage hands over, and asks the DTLB for a valid entry. -/
theorem Block.Flows.tick_tlb :
    (b.tick p i).tlb =
      { b.tlb with inReg := executeOut b.exe, state := if b.exe.valid = true then .request else .idle } := by
  rw [h.receptive.tick_tlb hrow, TlbStage.tick, h.tlb]
  simp [executeOut]

theorem Block.Flows.tick_receptive : (b.tick p i).Receptive :=
  h.receptive.tick hrow p (by simp [TlbStage.out, h.tlb])

/-- R220: while the Execute stage holds a bubble the front stages go on flowing. -/
theorem Block.Flows.tick (hexe : b.exe.valid = false) : (b.tick p i).Flows := by
  refine ⟨h.tick_receptive hrow p, ?_⟩
  rw [h.tick_tlb hrow]
  simp [hexe]

end

/-- R485: where nothing is in flight the front stages flow and hold bubbles, and the memory queue is empty. -/
theorem Block.flows_of_quiet {b : Block} (h : b.quiet = true) :
    b.Flows ∧ b.dec.valid = false ∧ b.exe.valid = false ∧ b.memQueue.emptyF = true := by
  simp only [Block.quiet, Bool.and_eq_true, Bool.not_eq_true', decide_eq_true_eq, and_assoc] at h
  obtain ⟨-, hdec, hexe, htlb, hrw, hvalid, hqueue, -, -, hret⟩ := h
  exact ⟨⟨⟨hret, hrw, hvalid⟩, htlb⟩, hdec, hexe, hqueue⟩

/-- An entry no operand of which is pending hears nothing. -/
theorem wake_of_known (lanes : List BroadcastLane) {e : ExecuteEntry} (hrs1 : e.rs1.pending = false)
    (hrs2 : e.rs2.pending = false) (hrs3 : e.rs3.pending = false) : wake lanes e = e := by
  simp [wake, wakeSlot_of_not_pending, hrs1, hrs2, hrs3]

/-- R338: an empty queue offers nothing. -/
theorem InOrderQueue.deq_of_empty {q : InOrderQueue} (hempty : q.emptyF = true) (lanes : List BroadcastLane) :
    q.deq lanes = none := by
  simp [InOrderQueue.deq, hempty]

/-- R338, R339: an entry with known operands that is put into an empty queue is offered in the next tick. -/
theorem InOrderQueue.deq_tick_of_known {d : Nat} {q : InOrderQueue} (hq : q.Sound d) (hempty : q.emptyF = true)
    {e : ExecuteEntry} (hrs1 : e.rs1.pending = false) (hrs2 : e.rs2.pending = false) (hrs3 : e.rs3.pending = false)
    (lanes lanes' : List BroadcastLane) (deqReady : Bool) :
    (q.tick d lanes (some e) deqReady false).deq lanes' = some e := by
  have hfull : q.fullF = false := by simpa [hempty] using hq.flags
  have hptr : q.rptr = q.wptr := hq.meet.2 (.inl hempty)
  have haccepted : q.accepted (some e) = some e := by simp [InOrderQueue.accepted, InOrderQueue.enqReady, hfull]
  have hleaves : q.leaves lanes deqReady = false := by simp [InOrderQueue.leaves, InOrderQueue.deq_of_empty hempty]
  have hticked : e.ticked lanes false = e := by
    rw [ExecuteEntry.ticked, wake_of_known lanes hrs1 hrs2 hrs3, ExecuteEntry.cancelIf_false]
  have hslot : q.wptr < q.buf.length := hq.length ▸ hq.wptr
  rw [InOrderQueue.deq_eq_some_iff, InOrderQueue.headEntry, InOrderQueue.tick_eq, haccepted, hleaves]
  have hhead : wake lanes' (((q.stored (some e)).map (ExecuteEntry.ticked lanes false)).getD q.rptr .zero) = e := by
    rw [hptr, InOrderQueue.stored, Option.elim_some]
    simp [List.getD_eq_getElem?_getD, hslot, hticked, wake_of_known lanes' hrs1 hrs2 hrs3]
  simp only [Option.isSome_some, Bool.not_false, Bool.and_self, if_true, Bool.false_eq_true, if_false, hhead]
  exact ⟨trivial, .inr ⟨hrs1, hrs2, hrs3⟩, trivial⟩

/-- R531: three ticks bring an entry from the queue to the Execute stage. -/
theorem Block.run_to_execute_of_quiet {p : Params} {b : Block} {e : ExecuteEntry} {i0 i1 i2 : BlockInput}
    (hquiet : b.quiet = true) (hqueue : b.memQueue.Sound p.iqDepth.val) (henq : i0.enq = some e)
    (hrs1 : e.rs1.pending = false) (hrs2 : e.rs2.pending = false) (hrs3 : e.rs3.pending = false)
    (hrows : ∀ i ∈ [i0, i1, i2], i.retiredValid = false) :
    (b.run p [i0, i1, i2]).Flows ∧ (b.run p [i0, i1, i2]).exe = decodeEntry e := by
  obtain ⟨hflows, hdec, hexe, hempty⟩ := Block.flows_of_quiet hquiet
  simp only [List.forall_mem_cons] at hrows
  obtain ⟨hrow0, hrow1, hrow2, -⟩ := hrows
  have hflows1 : (b.tick p i0).Flows := hflows.tick hrow0 p hexe
  have hoffered : (b.tick p i0).memQueue.deq i1.bcast = some e := by
    show (b.memQueue.tick _ _ i0.enq _ (recoverOf b i0)).deq _ = _
    rw [hflows.receptive.recoverOf_eq hrow0, henq]
    exact InOrderQueue.deq_tick_of_known hqueue hempty hrs1 hrs2 hrs3 _ _ _
  have hdec1 : (b.tick p i0).dec.valid = false := by
    rw [hflows.tick_dec hrow0, InOrderQueue.deq_of_empty hempty]
    rfl
  have hexe1 : (b.tick p i0).exe.valid = false := by
    rw [hflows.tick_exe hrow0]
    exact hdec
  have hflows2 := hflows1.tick hrow1 p hexe1
  have hdec2 : ((b.tick p i0).tick p i1).dec = e := by
    rw [hflows1.tick_dec hrow1, hoffered]
    rfl
  have hexe2 : ((b.tick p i0).tick p i1).exe.valid = false := by
    rw [hflows1.tick_exe hrow1]
    exact hdec1
  refine ⟨hflows2.tick hrow2 p hexe2, ?_⟩
  show (((b.tick p i0).tick p i1).tick p i2).exe = _
  rw [hflows2.tick_exe hrow2, hdec2]

/-- R220 to R223, R531: three more ticks bring a valid entry from the Execute stage through the DTLB, which answers in
the second of them, to the ReadWrite stage. -/
theorem Block.Flows.run_to_readWrite {p : Params} {b : Block} {i3 i4 i5 : BlockInput} (h : b.Flows)
    (hexe : b.exe.valid = true) (hrows : ∀ i ∈ [i3, i4, i5], i.retiredValid = false)
    (hdtlb : i4.dtlb.ready = true) :
    (b.run p [i3, i4, i5]).rw =
      { b.rw with
        inReg := TlbStage.entry
          { inReg := executeOut b.exe, state := .respond, paddress := i4.dtlb.answer.paddress
            error := i4.dtlb.answer.error } } := by
  simp only [List.forall_mem_cons] at hrows
  obtain ⟨hrow3, hrow4, hrow5, -⟩ := hrows
  have htlb4 : (b.tick p i3).tlb = { b.tlb with inReg := executeOut b.exe, state := .request } := by
    rw [h.tick_tlb hrow3, if_pos hexe]
  have hreceptive4 := h.tick_receptive hrow3 p
  have hrequest : (b.tick p i3).tlb.state = .request := by rw [htlb4]
  have htlb5 : ((b.tick p i3).tick p i4).tlb =
      { inReg := executeOut b.exe, state := .respond, paddress := i4.dtlb.answer.paddress
        error := i4.dtlb.answer.error } := by
    have hvalid : (executeOut b.exe).valid = true := hexe
    rw [hreceptive4.tick_tlb hrow4, TlbStage.tick_of_answered hrequest _ _ _ hdtlb, htlb4]
    simp [hvalid]
  have hreceptive5 := hreceptive4.tick hrow4 p (by simp [TlbStage.out, hrequest])
  have hrw4 : (b.tick p i3).rw = b.rw := by
    rw [h.receptive.tick_rw hrow3]
    simp [TlbStage.out, h.tlb]
  have hrw5 : ((b.tick p i3).tick p i4).rw = b.rw := by
    rw [hreceptive4.tick_rw hrow4, hrw4]
    simp [TlbStage.out, hrequest]
  show (((b.tick p i3).tick p i4).tick p i5).rw = _
  rw [hreceptive5.tick_rw hrow5, hrw5, htlb5]
  rfl

/-- Settles O14: three ticks to the Execute stage and three to the ReadWrite stage. -/
theorem entryReachesTheReadWriteStage : Obligations.EntryReachesTheReadWriteStage := by
  unfold Obligations.EntryReachesTheReadWriteStage
  intro p b e i0 i1 i2 i3 i4 i5 hquiet hqueue henq hvalid hrs1 hrs2 hrs3 hrows hdtlb b' op va
  obtain ⟨hflows, hexe⟩ := Block.run_to_execute_of_quiet hquiet hqueue henq hrs1 hrs2 hrs3
    fun i hi => hrows i (List.mem_append_left [i3, i4, i5] hi)
  have hrw := hflows.run_to_readWrite (p := p) (by rw [hexe]; exact hvalid)
    (fun i hi => hrows i (List.mem_append_right [i0, i1, i2] hi)) hdtlb
  have hva : (executeOut (decodeEntry e)).vaddress = va := by
    simp [executeOut, decodeEntry, va]
  have hb' : b'.rw = _ := hrw
  rw [hb']
  refine ⟨hflows.receptive.state, ?_⟩
  rw [hexe, TlbStage.entry, ← hva, ← hvalid]
  rfl

/-! ## The first tick after reset (R502) -/

theorem headD_of_forall_none {α : Type} {offers : List (Option α)} (h : ∀ e ∈ offers, e = none) :
    offers.headD none = none := by
  cases offers with
  | nil => rfl
  | cons e rest => exact h e List.mem_cons_self

/-- R338: an empty queue to which nothing is offered stays empty. -/
theorem InOrderQueue.tick_reset (d : Nat) (lanes : List BroadcastLane) (deqReady recover : Bool) :
    (InOrderQueue.reset d).tick d lanes none deqReady recover = .reset d := by
  have hleaves : (InOrderQueue.reset d).leaves lanes deqReady = false := by
    rw [InOrderQueue.leaves, InOrderQueue.deq_of_empty rfl]
    rfl
  have haccepted : (InOrderQueue.reset d).accepted none = none := ite_self none
  rw [InOrderQueue.tick_eq, hleaves, haccepted]
  simp [InOrderQueue.reset, InOrderQueue.stored, ExecuteEntry.ticked_zero]

theorem tickInOrder_reset (d n : Nat) (lanes : List BroadcastLane) (recover : Bool)
    {enq : List (Option ExecuteEntry)} (henq : ∀ e ∈ enq, e = none) (ready : List Bool) :
    tickInOrder d lanes recover (List.replicate n (.reset d)) enq ready = List.replicate n (.reset d) := by
  induction n generalizing enq ready with
  | zero => rfl
  | succ n ih =>
    rw [List.replicate_succ, tickInOrder, headD_of_forall_none henq, InOrderQueue.tick_reset,
      ih (fun e he => henq e (List.mem_of_mem_tail he))]

theorem OutOfOrderQueue.cell_reset (n k : Nat) : (OutOfOrderQueue.reset n).cell k = .reset := by
  rw [OutOfOrderQueue.cell, OutOfOrderQueue.reset, List.getD_eq_getElem?_getD, List.getElem?_replicate]
  split <;> rfl

/-- R352: nothing comes into a cell of an empty queue to which nothing is offered. -/
theorem OutOfOrderQueue.incoming_reset (n k : Nat) (lanes : List BroadcastLane) :
    (OutOfOrderQueue.reset n).incoming lanes none k = none := by
  cases k with
  | zero => exact ite_self none
  | succ j => simp [OutOfOrderQueue.incoming, OutOfOrderQueue.chainFire, OutOfOrderQueue.cell_reset, Cell.reset]

/-- R352, R355: an empty queue to which nothing is offered stays empty. -/
theorem OutOfOrderQueue.tick_reset (n : Nat) (lanes : List BroadcastLane) (deqReady recover : Bool) :
    (OutOfOrderQueue.reset n).tick lanes none deqReady recover = .reset n := by
  have hcell : ∀ leave, (Cell.reset.next lanes leave none).cancelIf recover = .reset := fun _ => rfl
  simp only [OutOfOrderQueue.tick, OutOfOrderQueue.cell_reset, OutOfOrderQueue.incoming_reset, hcell]
  simp [OutOfOrderQueue.reset]

theorem tickOutOfOrder_reset (n m : Nat) (lanes : List BroadcastLane) (recover : Bool)
    {enq : List (Option ExecuteEntry)} (henq : ∀ e ∈ enq, e = none) (ready : List Bool) :
    tickOutOfOrder lanes recover (List.replicate m (.reset n)) enq ready = List.replicate m (.reset n) := by
  induction m generalizing enq ready with
  | zero => rfl
  | succ m ih =>
    rw [List.replicate_succ, tickOutOfOrder, headD_of_forall_none henq, OutOfOrderQueue.tick_reset,
      ih (fun e he => henq e (List.mem_of_mem_tail he))]

theorem OutOfOrderQueue.deq_reset (n : Nat) (lanes : List BroadcastLane) :
    (OutOfOrderQueue.reset n).deq lanes = none := by
  rw [OutOfOrderQueue.deq_eq_none_iff]
  intro k _
  rw [OutOfOrderQueue.sideValid, OutOfOrderQueue.cell_reset]
  rfl

section
variable (p : Params) {i : BlockInput} (hrow : i.retiredValid = false)
include hrow

/-- R502: at reset, with no row presented, every queue has room and nothing else is driven. -/
theorem Block.outputs_reset :
    (Block.reset p).outputs p i =
      { Outputs.idle with
        enqReady := true
        inOrderEnqReady := List.replicate p.inOrderQueues true
        inOrderDeq := List.replicate p.inOrderQueues none
        outOfOrderEnqReady := List.replicate p.outOfOrderQueues true
        outOfOrderDeq := List.replicate p.outOfOrderQueues none } := by
  have hreceptive : (Block.reset p).Receptive := ⟨rfl, rfl, rfl⟩
  have hengine := engineTick_of_no_row (ret := (Block.reset p).ret) rfl hrow
  have hother : arbAnswer (decide ((Block.reset p).arb = grantOf (otherPort p.rwArbPort))) i.sma = none :=
    arbAnswer_eq_none (.inl (decide_eq_false (grantOf_ne_idle _).symm))
  have hinOrder : (Block.reset p).inOrderQueues.map (fun q => q.deq i.bcast) = List.replicate p.inOrderQueues none := by
    simp [Block.reset, InOrderQueue.deq_of_empty, InOrderQueue.reset]
  have houtOfOrder : (Block.reset p).outOfOrderQueues.map (fun q => q.deq i.bcast) =
      List.replicate p.outOfOrderQueues none := by
    simp [Block.reset, OutOfOrderQueue.deq_reset]
  have hinRoom : (Block.reset p).inOrderQueues.map InOrderQueue.enqReady = List.replicate p.inOrderQueues true :=
    List.map_replicate
  have houtRoom : (Block.reset p).outOfOrderQueues.map (fun q => q.enqReady 0) =
      List.replicate p.outOfOrderQueues true := by
    simp [Block.reset, OutOfOrderQueue.enqReady, OutOfOrderQueue.cell_reset, Cell.reset]
  rw [Block.outputs, hengine, hreceptive.rwTickOf_eq hrow, hreceptive.recoverOf_eq hrow, hother, hinOrder, houtOfOrder,
    hinRoom, houtRoom]
  rfl

/-- R502: at reset, with no row, no entry and no request, a tick changes bubbles in the front stages at most. -/
theorem Block.tick_reset (henq : i.enq = none) (hin : ∀ e ∈ i.inOrderEnq, e = none)
    (hout : ∀ e ∈ i.outOfOrderEnq, e = none) (hother : i.other = none) :
    (Block.reset p).tick p i =
      { Block.reset p with
        exe := decodeEntry .zero, tlb := { (Block.reset p).tlb with inReg := executeOut .zero } } := by
  have hflows : (Block.reset p).Flows := ⟨⟨rfl, rfl, rfl⟩, rfl⟩
  have hengine := engineTick_of_no_row (ret := (Block.reset p).ret) rfl hrow
  have harb : arbNext p (Block.reset p) i.other i.sma.ready = .idle := by
    rw [hother, arbNext]
    cases p.rwArbPort <;> rfl
  have hqueue : (Block.reset p).memQueue.deq i.bcast = none := InOrderQueue.deq_of_empty rfl _
  have hmem : ∀ ready recover, (Block.reset p).memQueue.tick p.iqDepth.val i.bcast i.enq ready recover =
      (Block.reset p).memQueue := by
    rw [henq]
    exact InOrderQueue.tick_reset _ _
  have hins := tickInOrder_reset p.iqDepth.val p.inOrderQueues i.bcast false hin i.inOrderDeqReady
  have houts := tickOutOfOrder_reset p.ooqDepth.val p.outOfOrderQueues i.bcast false hout i.outOfOrderDeqReady
  rw [Block.tick, recoveryNext, hengine, hflows.receptive.rwTickOf_eq hrow, hflows.receptive.recoverOf_eq hrow, harb,
    hqueue, hmem]
  exact congrArg₂ (fun ins outs => { Block.reset p with
    exe := decodeEntry .zero, tlb := { (Block.reset p).tlb with inReg := executeOut .zero }
    inOrderQueues := ins, outOfOrderQueues := outs }) hins houts

end

/-- Settles O60: the outputs are those of an idle block with room in every queue, and what the tick changes is in
bubbles. -/
theorem firstTickAfterReset : Obligations.FirstTickAfterReset := by
  unfold Obligations.FirstTickAfterReset
  intro p i hrow henq hin hout hother o b
  have ho : o = _ := Block.outputs_reset p hrow
  have hb : b = _ := Block.tick_reset p hrow henq hin hout hother
  have hqueue : ∀ q ∈ (Block.reset p).memQueue :: (Block.reset p).inOrderQueues, q = .reset p.iqDepth.val :=
    fun q hq => (List.mem_cons.1 hq).elim id List.eq_of_mem_replicate
  have hregisters : ∀ q ∈ (Block.reset p).memQueue :: (Block.reset p).inOrderQueues,
      (∀ e ∈ q.buf, e.valid = false) ∧ q.rptr = 0 ∧ q.wptr = 0 ∧ q.emptyF = true ∧ q.fullF = false := fun q hq => by
    obtain ⟨-, hbuf, hptrs⟩ := InOrderQueue.reset_registers p.iqDepth.val
    rw [hqueue q hq]
    exact ⟨fun e he => (hbuf e he).2, hptrs⟩
  have hcells : ∀ q ∈ (Block.reset p).outOfOrderQueues, ∀ c ∈ q.cells,
      c.state = .empty ∧ c.data.valid = false ∧ c.shadow.valid = false := fun q hq c hc => by
    obtain rfl : q = .reset p.ooqDepth.val := List.eq_of_mem_replicate hq
    obtain ⟨hstate, -, hdata, -, hshadow⟩ := (OutOfOrderQueue.reset_registers _).2 c hc
    exact ⟨hstate, hdata, hshadow⟩
  rw [ho, hb]
  exact ⟨rfl, rfl, rfl, rfl, rfl, rfl, rfl, rfl, rfl, rfl, fun _ => List.eq_of_mem_replicate,
    fun _ => List.eq_of_mem_replicate, rfl, rfl, rfl, rfl, rfl, rfl, rfl,
    ⟨rfl, rfl, rfl, rfl, (hregisters _ List.mem_cons_self).1,
      fun q hq => (hregisters q (List.mem_cons_of_mem _ hq)).1, fun q hq c hc => (hcells q hq c hc).2⟩,
    fun q hq => (hregisters q hq).2, fun q hq c hc => (hcells q hq c hc).1⟩

/-! ## What an instruction stored it commits when it retires alone (R258, R434) -/

/-- R90: an allocation adds one entry, with the next receipt, to what was queued. -/
theorem Env.mem_memWrite {env : Env} {idW : Nat} {r : AllocReq} {e : StoreQueueEntry}
    (he : e ∈ (env.memWrite idW r).sq.entries) : e ∈ env.sq.entries ∨ e.id = env.sq.nextId := by
  obtain ⟨hentries, -, -⟩ := env.memWrite_sq idW r
  obtain ⟨-, -, -, -, -, -, hsuffix⟩ := env.room_frame
  rw [hentries, List.mem_append, List.mem_singleton] at he
  exact he.imp (fun h => hsuffix.subset h) fun h => by rw [h]

/-- R258, R261: an instruction executed as `x` stored nothing, or its result commits every entry it allocated. -/
def Executed.CommitsItsStores (s : State) (x : Executed) : Prop :=
  x.env = s.env ∨ ∃ op v id0 id1, x.result = writeResult (fallThrough s) op v id0 id1 ∧
    ∀ e ∈ x.env.sq.entries, e ∈ s.env.sq.entries ∨ e.id = id0 ∨ e.id = id1

/-- R258: a result with the one receipt that was given out. -/
theorem Executed.commitsItsStores_of_one {s : State} {x : Executed} {op : MemOp} {v : Data} (r : AllocReq)
    (henv : x.env = s.env.memWrite s.cfg.sqIdW.val r)
    (hresult : x.result = writeResult (fallThrough s) op v s.env.sq.nextId s.env.sq.nextId) :
    x.CommitsItsStores s := by
  refine .inr ⟨op, v, _, _, hresult, fun e he => ?_⟩
  rw [henv] at he
  exact (Env.mem_memWrite he).imp id .inl

theorem performStore_commits (op : MemOp) (va : Addr) (data : Data) (s : State) :
    (performStore op va data s).CommitsItsStores s := by
  unfold performStore
  split
  · exact .inl rfl
  · exact Executed.commitsItsStores_of_one _ rfl rfl

/-- R259: a result with the two receipts that were given out, one after the other. -/
theorem performStoreDouble_commits (op : MemOp) (va : Addr) (data : Data) (s : State) :
    (performStoreDouble op va data s).CommitsItsStores s := by
  unfold performStoreDouble
  split
  · exact .inl rfl
  · refine .inr ⟨op, 0, _, _, rfl, fun e he => ?_⟩
    obtain hbottom | htop := Env.mem_memWrite he
    · exact (Env.mem_memWrite hbottom).imp id .inl
    · exact .inr (.inr htop)

theorem performStoreConditional_commits (op : MemOp) (va : Addr) (data : Data) (s : State) :
    (performStoreConditional op va data s).CommitsItsStores s := by
  unfold performStoreConditional
  split
  · exact .inl rfl
  · split
    · exact Executed.commitsItsStores_of_one _ rfl rfl
    · exact .inl rfl

theorem performAmo_commits (op : MemOp) (va : Addr) (data : Data) (s : State) :
    (performAmo op va data s).CommitsItsStores s := by
  unfold performAmo
  split
  · exact .inl rfl
  · split
    · exact .inl rfl
    · exact Executed.commitsItsStores_of_one _ rfl rfl

/-- Every instruction retires alone, as predicted to fall through, with its stores committed by its result. -/
theorem exec_commits (i : Instr) (s : State) :
    ∃ x dest rwOut, exec i s = .next (retireAlone s x dest (fallThrough s) rwOut) ∧
      s.env.Allocates s.cfg.sqIdW.val x.env ∧ x.CommitsItsStores s := by
  cases i with
  | lb f | lh f | lw f | lbu f | lhu f =>
    exact ⟨_, _, _, rfl, performLoad_env _ _ s ▸ .nothing, .inl (performLoad_env _ _ s)⟩
  | ld f => exact ⟨_, _, _, rfl, performLoadDouble_env _ _ s ▸ .nothing, .inl (performLoadDouble_env _ _ s)⟩
  | lrW f => exact ⟨_, _, _, rfl, performLoadReserved_env _ _ s ▸ .nothing, .inl (performLoadReserved_env _ _ s)⟩
  | sb f | sh f | sw f =>
    exact ⟨_, _, _, rfl, performStore_allocates _ _ _ s, performStore_commits _ _ _ s⟩
  | sd f => exact ⟨_, _, _, rfl, performStoreDouble_allocates _ _ _ s, performStoreDouble_commits _ _ _ s⟩
  | scW f => exact ⟨_, _, _, rfl, performStoreConditional_allocates _ _ _ s, performStoreConditional_commits _ _ _ s⟩
  | amoswapW f | amoaddW f | amoxorW f | amoandW f | amoorW f | amominW f | amomaxW f | amominuW f | amomaxuW f =>
    exact ⟨_, _, _, rfl, performAmo_allocates _ _ _ s, performAmo_commits _ _ _ s⟩
  | undefined _ | fenceI _ | sfenceVma _ | mret | sret => exact ⟨_, _, _, rfl, .nothing, .inl rfl⟩
  | csrrw _ | csrrs _ | csrrc _ | csrrwi _ | csrrsi _ | csrrci _ => exact ⟨_, _, _, rfl, .nothing, .inl rfl⟩

/-- R434: the outputs `o` commit every entry of the queue that has not retired. -/
def EngineOut.Commits (o : EngineOut) (q : StoreQueue) : Prop :=
  ∀ e ∈ q.entries, e.retired = true ∨ ∃ c, o.sq0 = some c ∧ (e.id = c.id0 ∨ e.id = c.id1)

/-- R434: an instruction that retires alone commits what it stored; before it every store had retired. -/
theorem Executed.CommitsItsStores.soloOut_commits {s : State} {x : Executed} (h : x.CommitsItsStores s)
    (hretired : ∀ e ∈ s.env.sq.entries, e.retired = true) :
    (soloOut (soloEntry s (fallThrough s) x.result) s.input.handlerPC).Commits x.env.sq := by
  intro e he
  obtain henv | ⟨op, v, id0, id1, hresult, hids⟩ := h
  · exact .inl (hretired e (henv ▸ he))
  · have ho := soloOut_of_completed s s.input.handlerPC v (decide (op = .sc)) false true 0 id0 id1
    refine (hids e he).imp (hretired e) fun hid => ⟨{ id0 := id0, id1 := id1 }, ?_, hid⟩
    rw [hresult]
    exact congrArg EngineOut.sq0 ho

/-- R434: after the commit no entry is left that has not retired. -/
theorem EngineOut.Commits.retired_commit {o : EngineOut} {q : StoreQueue} (h : o.Commits q) :
    ∀ e ∈ (q.commit o.sq0).entries, e.retired = true := by
  cases hsq : o.sq0 with
  | none => exact fun e he => (h e he).resolve_right (by simp [hsq])
  | some c =>
    intro e he
    obtain ⟨old, hold, rfl⟩ := List.mem_map.1 he
    obtain hretired | ⟨c', hc, hid⟩ := h old hold
    · simp [hretired]
    · obtain rfl : c = c' := Option.some.inj (hsq.symm.trans hc)
      obtain hid | hid := hid <;> simp [hid]

/-- R519: a flush leaves the younger end of the store queue. -/
theorem Env.mem_flush {env : Env} {o : EngineOut} {f : ExecuteResult} {e : StoreQueueEntry}
    (he : e ∈ (env.flush o f).sq.entries) : e ∈ env.sq.entries := by
  have hfetch : ∀ env' : Env, (env'.fetchSynced f).sq = env'.sq := fun env' => by
    unfold Env.fetchSynced
    split <;> rfl
  have htranslation : ∀ env' : Env, (env'.translationSynced o.tlbReq).sq = env'.sq := fun env' => by
    unfold Env.translationSynced
    split <;> rfl
  rw [Env.flush, htranslation] at he
  split at he
  · rw [hfetch] at he
    exact (drainEntries_suffix _ _ _ _).subset he
  · exact he

/-- R434, R517: where the outputs commit every store, every store that is still queued has retired. -/
theorem Env.retired_retireSolo {env : Env} {o : EngineOut} (h : o.Commits env.sq) (r : ExecuteResult)
    (dest : Option RegNum) (limit : Option Nat) :
    ∀ e ∈ (env.retireSolo o r dest limit).sq.entries, e.retired = true := by
  intro e he
  have hcommitted := StoreQueue.retired_commit h.retired_commit o.sq1
  have hsq : (env.retire o fun _ => dest).sq = (env.sq.commit o.sq0).commit o.sq1 :=
    StoreQueue.discardIf_of_retired hcommitted _
  have hflushed : e ∈ (((env.retire o fun _ => dest).withPc (pcAfter env.pc o r.real r.real)).flush o r).sq.entries :=
    (drainEntries_suffix _ _ _ _).subset he
  have hqueued := Env.mem_flush hflushed
  rw [Env.withPc_sq, hsq] at hqueued
  exact hcommitted e hqueued

/-- R485: in the environment nothing is in flight exactly when the ROB is empty, every store has retired and the flush
sinks are idle. -/
theorem Env.quiet_iff (e : Env) :
    e.quiet = true ↔ e.rob.rows = [] ∧ (∀ q ∈ e.sq.entries, q.retired = true) ∧
      e.sinks = { dCache := .idle, iCache := .idle, tlb := .idle } := by
  simp [Env.quiet, and_assoc]

theorem ready_iff (s : State) :
    ready s = true ↔ s.input.silent = true ∧ s.blk.quiet = true ∧ s.env.quiet = true := by
  simp [ready, and_assoc]

/-- R485: an instruction that allocated stores at most, and commits them, leaves nothing in flight. -/
theorem ready_retireAlone {s : State} (hready : ready s = true) {x : Executed} {spec : Addr}
    (hallocates : s.env.Allocates s.cfg.sqIdW.val x.env)
    (hcommits : (soloOut (soloEntry s spec x.result) s.input.handlerPC).Commits x.env.sq) (dest : Option RegNum)
    (rwOut : Option RwOut) : ready (retireAlone s x dest spec rwOut) = true := by
  obtain ⟨hsilent, hblk, henv⟩ := (ready_iff s).1 hready
  obtain ⟨hrows, -, hsinks⟩ := (Env.quiet_iff _).1 henv
  have hx := hallocates.differsInStores
  obtain ⟨-, -, hrob, -, -, hsinks', -⟩ := x.env.retireSolo_frame
    (soloOut (soloEntry s spec x.result) s.input.handlerPC) x.result dest s.input.drain
  refine (ready_iff _).2 ⟨hsilent, hblk, (Env.quiet_iff _).2 ⟨?_, Env.retired_retireSolo hcommits _ _ _, ?_⟩⟩
  · exact (congrArg Rob.rows hrob).trans ((congrArg Rob.rows hx.rob).trans hrows)
  · exact hsinks'.trans (hx.sinks.trans hsinks)

/-- Settles O48: an instruction commits what it stored, and the word of another unit stores nothing. -/
theorem instructionsLeaveNothingInFlight : Obligations.InstructionsLeaveNothingInFlight := by
  unfold Obligations.InstructionsLeaveNothingInFlight
  intro s t hready
  obtain ⟨-, hretired⟩ := idle_and_retired_of_ready hready
  refine ⟨fun i hexec => ?_, fun w hexec => ?_⟩
  · obtain ⟨x, dest, rwOut, hexec', hallocates, hcommits⟩ := exec_commits i s
    obtain rfl := Host.Outcome.next.inj (hexec'.symm.trans hexec)
    exact ready_retireAlone hready hallocates (hcommits.soloOut_commits hretired) dest rwOut
  · obtain rfl := Host.Outcome.next.inj hexec
    exact ready_retireAlone hready .nothing (fun e he => .inl (hretired e he)) _ _

/-! ## An instruction that waits (R522, R526) -/

theorem answered_of_memOp {i : Instr} {op : MemOp} (hop : i.memOp = some op) (s : State) :
    answered s i = memoryAnswers s op (virtualAddress s i) := by
  simp only [answered, hop]

/-- R82, R90, R94: whom a memory instruction waits for whose address is granted. -/
theorem memoryAnswers_of_reaches {s : State} {op : MemOp} {va pa : Addr} (h : Reaches s op va pa) :
    memoryAnswers s op va =
      (s.input.dtlbReady && ((!(op.isRead || op.isAmo) || s.input.smaReady) &&
        (!allocates s op va pa || allocAnswers s op))) := by
  rw [memoryAnswers, h.access]

/-- R94: every memory instruction asks the DTLB. -/
theorem memoryAnswers_of_dtlb_unready {s : State} (h : s.input.dtlbReady = false) (op : MemOp) (va : Addr) :
    memoryAnswers s op va = false := by
  rw [memoryAnswers, h, Bool.false_and]

/-- R82: one that reads asks memory. -/
theorem memoryAnswers_of_sma_unready {s : State} {op : MemOp} {va pa : Addr} (h : Reaches s op va pa)
    (hreads : op.isRead = true ∨ op.isAmo = true) (hsma : s.input.smaReady = false) :
    memoryAnswers s op va = false := by
  rw [memoryAnswers_of_reaches h, hsma, Bool.or_eq_true_iff.2 hreads]
  simp

/-- R90: a store asks the store queue. -/
theorem memoryAnswers_of_alloc_unready {s : State} {op : MemOp} {va pa : Addr} (h : Reaches s op va pa)
    (hwrites : op.isWrite = true) (hsc : op ≠ .sc) (halloc : s.input.allocReady = false) :
    memoryAnswers s op va = false := by
  rw [memoryAnswers_of_reaches h, allocates, if_neg hsc, hwrites, allocAnswers, halloc]
  simp

theorem answered_fenceI {s : State} (hunit : s.input.unit.exception = none) (f : FenceFields) :
    answered s (.fenceI f) = (s.input.dCacheMoves && s.env.retiredDrained && s.input.iCacheMoves) := by
  simp [answered, Instr.memOp, hunit, sinksAnswer]

theorem answered_sfenceVma {s : State} (hunit : s.input.unit.exception = none) (f : SfenceFields) :
    answered s (.sfenceVma f) = s.input.tlbMoves := by
  simp [answered, Instr.memOp, hunit, sinksAnswer]

/-- R32, R103, R525: what follows a step changes no byte that a load sees, no register and no address of the next
instruction. -/
theorem State.advance_keeps (s : State) :
    s.advance.env.x = s.env.x ∧ s.advance.env.pc = s.env.pc ∧
      ∀ a, s.advance.env.loadByte a = s.env.loadByte a := by
  obtain ⟨lines, old, hremap⟩ := s.env.remap_frame s.input.remap
  obtain ⟨addresses, hrefault⟩ := Env.refault_frame (s.env.remap s.input.remap) s.input.smaFaults
  rw [State.advance_env, hrefault, hremap]
  exact ⟨rfl, rfl, fun _ => Env.loadByte_congr rfl rfl⟩

/-- R46, R103: a tick in which nothing retires and nothing is allocated shows no load another byte. -/
theorem Env.loadByte_tick_of_idle (s : State) (i : BlockInput) {o : Outputs} (hengine : o.engine = .idle)
    (halloc : o.alloc = none) (a : Addr) : (s.env.tick s i o).loadByte a = s.env.loadByte a := by
  obtain ⟨-, -, hmem, hsq⟩ := Env.flushed_frame ((s.env.retire o.engine s.env.rob.dest).withPc
    (pcAfter s.env.pc o.engine i.e0.executeResult.real i.e1.executeResult.real))
    (flushEnds s.blk o.engine) (flushResult s.blk.ret i)
  rw [Env.withPc_sq, s.env.sq_retire_of_silent _ (by rw [hengine]; rfl) (by rw [hengine]; rfl)
    (by rw [hengine]; rfl)] at hsq
  unfold Env.tick
  rw [Env.loadByte_drain, halloc]
  exact Env.loadByte_congr hmem (congrArg (fun q => youngestByte q.entries a) hsq)

/-- R512 (c): an empty ROB presents no row. -/
theorem retiredValid_of_ready {s : State} (h : ready s = true) : (wires s).retiredValid = false := by
  obtain ⟨-, -, henv⟩ := (ready_iff s).1 h
  obtain ⟨hrows, -⟩ := (Env.quiet_iff _).1 henv
  show s.env.rob.presents = false
  rw [Rob.presents, hrows]

/-- R46, R485: a tick with nothing in flight changes nothing that a program can see. -/
theorem sysTick_of_ready {s : State} (h : ready s = true) :
    (sysTick s).env.x = s.env.x ∧ (sysTick s).env.pc = s.env.pc ∧
      (sysTick s).blk.loadReservation = s.blk.loadReservation ∧
      (sysTick s).blk.recoveryLoadReservation = s.blk.recoveryLoadReservation ∧
      KeepsMemory s (sysTick s) := by
  obtain ⟨-, hblk, -⟩ := (ready_iff s).1 h
  have hrow := retiredValid_of_ready h
  obtain ⟨⟨hreceptive, -⟩, -⟩ := Block.flows_of_quiet hblk
  have hengine : (sysTick s).out.engine = .idle := congrArg EngineTick.out (engineTick_of_no_row hreceptive.ret hrow)
  have halloc : (sysTick s).out.alloc = none := by
    show s.blk.rw.allocReq _ = none
    simp [RwStage.allocReq, hreceptive.state]
  have hevent : (rwTickOf s.cfg s.blk (wires s)).event = .none := by
    rw [hreceptive.rwTickOf_eq hrow]
    rfl
  have hspeculative : (sysTick s).blk.loadReservation = s.blk.loadReservation := by
    show nextSpeculative s.blk.loadReservation _ (recoverOf s.blk (wires s)) (rwTickOf s.cfg s.blk (wires s)).event = _
    rw [hreceptive.recoverOf_eq hrow, hevent]
    rfl
  have hsilent := onlyRetirementChangesArchitecturalState s
  dsimp only at hsilent
  rw [hengine] at hsilent
  obtain ⟨hx, hpc, hrecovery, -⟩ := hsilent rfl rfl rfl rfl rfl rfl
  exact ⟨hx, hpc, hspeculative, hrecovery, Env.loadByte_tick_of_idle s (wires s) hengine halloc⟩

/-- Settles O49: whoever does not answer, the step is a tick with nothing in flight. -/
theorem unansweredInstructionsWait : Obligations.UnansweredInstructionsWait := by
  unfold Obligations.UnansweredInstructionsWait
  intro s i hready hword hwaits
  have hunanswered : answered s i = false := by
    obtain ⟨op, hop, hdtlb⟩ | ⟨op, pa, hop, hreads, hreaches, hsma⟩ | ⟨op, pa, hop, hwrites, hsc, hreaches, halloc⟩ |
      ⟨f, rfl, hunit, hsink⟩ | ⟨f, rfl, hunit, hsink⟩ := hwaits
    · rw [answered_of_memOp hop, memoryAnswers_of_dtlb_unready hdtlb]
    · rw [answered_of_memOp hop, memoryAnswers_of_sma_unready hreaches hreads hsma]
    · rw [answered_of_memOp hop, memoryAnswers_of_alloc_unready hreaches hwrites hsc halloc]
    · rw [answered_fenceI hunit]
      obtain hsink | hsink := hsink <;> simp [hsink]
    · rw [answered_sfenceVma hunit, hsink]
  have hruns : runsNow s (.instr i) = false := by simp [runsNow, hunanswered]
  obtain ⟨hx, hpc, hspeculative, hrecovery, hmemory⟩ := sysTick_of_ready hready
  obtain ⟨hx', hpc', hmemory'⟩ := (sysTick s).advance_keeps
  exact ⟨_, step_of_not_runsNow hword hruns, rfl, hx'.trans hx, hpc'.trans hpc, hspeculative, hrecovery,
    fun a => (hmemory' a).trans (hmemory a)⟩

/-! ## The flush sinks (R519, R522) -/

/-- R522: what a sink shows and where it goes keep the handshake, whatever it is asked. -/
theorem SinkState.keeps_empty_next (k : SinkState) (req moves clear : Bool) :
    k.Keeps req moves clear (k.empty req moves clear) (k.next req (k.empty req moves clear)) := by
  cases k with
  | idle => exact ⟨by simp [SinkState.empty], rfl⟩
  | draining =>
    refine ⟨by simp [SinkState.empty], ?_⟩
    cases SinkState.draining.empty req moves clear <;> rfl
  | done => exact ⟨rfl, rfl⟩

/-- R446, R449: the engine asks a sink in the sink's own flush state, by the flag of the result that flushes. -/
theorem engineTick_requests (s : State) :
    let o := (engineTick s.blk.ret (wires s)).out
    o.dCacheReq = flushReq s .dcache (flushFlags s).flushDCache ∧
      o.iCacheReq = flushReq s .icache (flushFlags s).flushICache ∧
      o.tlbReq = flushReq s .tlb (flushFlags s).flushTLB := by
  have hflags : flushResult s.blk.ret (wires s) = flushFlags s := rfl
  dsimp only
  unfold flushReq
  cases hstate : s.blk.ret.state with
  | retire =>
    rw [engineTick_out_of_retire hstate]
    split
    · exact retireRow_requests_nothing _ _ _
    · exact ⟨rfl, rfl, rfl⟩
  | dcache =>
    rw [engineTick_of_dcache _ hstate, hflags]
    exact ⟨rfl, rfl, rfl⟩
  | icache =>
    rw [engineTick_of_icache _ hstate, hflags]
    exact ⟨rfl, rfl, rfl⟩
  | tlb =>
    rw [engineTick_of_tlb _ hstate, hflags]
    split <;> exact ⟨rfl, rfl, rfl⟩

theorem sysTick_sinks (s : State) :
    (sysTick s).env.sinks = s.env.sinks.tick (wires s) (engineTick s.blk.ret (wires s)).out := rfl

/-- Settles O56: each sink is shown the request the engine makes in the tick. -/
theorem flushSinksKeepTheHandshake : Obligations.FlushSinksKeepTheHandshake := by
  unfold Obligations.FlushSinksKeepTheHandshake
  intro s i t o
  obtain ⟨hdcache, hicache, htlb⟩ : o.dCacheReq = _ ∧ o.iCacheReq = _ ∧ o.tlbReq = _ := engineTick_requests s
  have hsinks : t.env.sinks = s.env.sinks.tick i o := sysTick_sinks s
  rw [hsinks, FlushSinks.tick, hdcache, hicache, htlb]
  exact ⟨SinkState.keeps_empty_next _ _ _ _, SinkState.keeps_empty_next _ _ _ _, SinkState.keeps_empty_next _ _ _ _⟩

end Sys2Proof.Machine
